-- ==== Sys2Proof/Word.lean ====
section
/-! DEFINITION. The word types of the core: every width is one the spec gives (spec/10_state.md §3, spec/20_memory.md R70). -/

namespace Sys2Proof

/-- An 8-bit byte: a sample, a table entry, a byte of a host transaction (R70). -/
abbrev Byte := BitVec 8

/-- A 16-bit word: WIDTH.W, HEIGHT.H, a DIV or BLK word (R36, R70). -/
abbrev Half := BitVec 16

/-- A 32-bit word: a register, a command word, an address of the slave port (R15, R60, R78). -/
abbrev Word := BitVec 32

end Sys2Proof
end

