-- ==== Sys2Proof/Config.lean ====
section
/-! DEFINITION. What one core fixes (the OPEN parameters, spec/00_scope.md R10 to R13) and the values the spec leaves
free (draws, R19). A free value is an opaque constant without a body: no proof can learn what it is. -/

namespace Sys2Proof.Machine

/-- The RAMs of the core (spec/10_state.md §4 and §5), one per window of the address map (R61). -/
inductive Ram where
  | qtbl | div | huffSpec | ehuf | rgb | out | py | pcb | pcr | blk
deriving DecidableEq, Repr

/-- Which read a draw answers. Two reads of one unwritten byte may return different draws (R55), so every place that
reads a RAM names itself, and a command that reads one byte more than once numbers its reads. -/
inductive Site where
  /-- A host read (R63). -/
  | port
  /-- COLOR_CONVERT's read of RGB (R112). -/
  | pixel
  /-- EXTRACT_LUMA's and EXTRACT_CHROMA's reads of the planes (R115). -/
  | sample
  /-- FDCT_QUANT's read of BLK (R127). -/
  | blockIn
  /-- FDCT_QUANT's read of DIV for block `b` (R127). -/
  | divisor (b : Nat)
  /-- EDGE_DC_FIXUP's one read of the DC of Y1 of an MCU (R119). -/
  | fixup
  /-- ENCODE_SCAN's read of BLK (R138). -/
  | scanBlock
  /-- ENCODE_SCAN's read of EHUF for its `n`-th emission (R130). -/
  | emission (n : Nat)
  /-- BUILD_HUFF's read of HUFFSPEC (R104, R108). -/
  | huffSpec
deriving DecidableEq, Repr

/-- Which FDCT_KERNEL a core has (R13, R123): the reference one of R124, or another, named by a number. -/
inductive Kernel where
  | reference
  | other (k : Nat)
deriving DecidableEq, Repr

/-- The OPEN parameters of one core (R10 to R13). -/
structure Params where
  /-- MAX_W (R10). -/
  maxW : Nat
  /-- MAX_H (R11). -/
  maxH : Nat
  /-- OUT_CAP (R12). -/
  outCap : Nat
  /-- FDCT_KERNEL (R13). -/
  kernel : Kernel
deriving DecidableEq, Repr

/-- The ranges R10, R11 and R12 give the parameters. -/
abbrev Params.Legal (p : Params) : Prop :=
  1 ≤ p.maxW ∧ p.maxW ≤ 65535 ∧ 1 ≤ p.maxH ∧ p.maxH ≤ 65535 ∧
  3 * p.maxW * p.maxH ≤ 2 ^ 28 ∧ 768 * ((p.maxW + 15) / 16) * ((p.maxH + 15) / 16) ≤ 2 ^ 28 ∧
  1 ≤ p.outCap ∧ p.outCap ≤ 2 ^ 28

namespace Config

/-- The parameters that `State.reset` carries. DESIGN CHOICE (log entries 1 and 2): the spec leaves them OPEN, and every
statement that is not about `State.reset` itself holds for all of them. -/
def reference : Params := ⟨8192, 8192, 2 ^ 28, .reference⟩

/-- A draw for a RAM byte that nothing has written since reset (R55, 93 U7): the byte that the read `site` finds at
offset `off` of the RAM in the step numbered `epoch`. -/
opaque freeByte (epoch : Nat) (site : Site) (ram : Ram) (off : Nat) : Byte

/-- A draw for one byte of a host read of a volatile address while BUSY = 1 (R68, 93 U9). -/
opaque freeBusyByte (epoch : Nat) (addr : Nat) : Byte

/-- ENT_BUF after a failed ENCODE_SCAN: a draw (R133, R138, 93 U3). -/
opaque freeEntBuf (epoch : Nat) : BitVec 64

/-- ENT_BITS after a failed ENCODE_SCAN: a draw (R133, R138, 93 U3). -/
opaque freeEntBits (epoch : Nat) : BitVec 6

/-- The coefficient X[n] that the kernel numbered `k` computes from the level-shifted block `d`: a fixed function of
`d` (R123 property 1), about which the spec says no more for a block that is not constant. -/
opaque kernelCoef (k : Nat) (d : List Int) (n : Nat) : Int

/-- The coefficient X[n] of a kernel other than FDCT_REF for an input outside -128..127: a draw (R123, 93 U2). -/
opaque freeCoef (epoch : Nat) (block : Nat) (n : Nat) : Int

/-- `v >> n` for a negative n, which the spec does not define (R16): the quotient that the quantizer would get from a
shift word below -16, which no BUILD_QTABLES writes (R101, log entry 12). -/
opaque negativeShift (v : Nat) (n : Int) : Nat

end Config

end Sys2Proof.Machine
end

