-- ==== Sys2Proof/Syntax.lean ====
section
/-! DEFINITION. The operations of the core: one constructor per row of spec/opcode_table.json (spec/30_encoding.md R80,
spec/48_sequencer.md R154). -/

namespace Sys2Proof

/-- The thirteen commands and SOFT_RESET. -/
inductive Instr where
  /-- NOP, OP 0x00 (R151). -/
  | nop
  /-- BUILD_QTABLES, OP 0x01 (R103). -/
  | buildQtables
  /-- BUILD_HUFF, OP 0x02; `t` is SEL, the Huffman table (R78, R109). -/
  | buildHuff (t : BitVec 2)
  /-- INIT_TABLES, OP 0x03 (R152). -/
  | initTables
  /-- COLOR_CONVERT, OP 0x10 (R112). -/
  | colorConvert
  /-- EXTRACT_LUMA, OP 0x11 (R116). -/
  | extractLuma
  /-- EXTRACT_CHROMA, OP 0x12 (R117). -/
  | extractChroma
  /-- EDGE_DC_FIXUP, OP 0x13 (R119). -/
  | edgeDcFixup
  /-- ZERO_RIGHT, OP 0x14 (R120). -/
  | zeroRight
  /-- ZERO_BOTTOM, OP 0x15 (R121). -/
  | zeroBottom
  /-- FDCT_QUANT, OP 0x18 (R127). -/
  | fdctQuant
  /-- ENCODE_SCAN, OP 0x20 (R138). -/
  | encodeScan
  /-- ENCODE_IMAGE, OP 0x30 (R153). -/
  | encodeImage
  /-- SOFT_RESET (R154): a host write of the word `ctrl` to CTRL, with bit 0 set; its other bits are RES (R31). -/
  | softReset (ctrl : Word)
deriving DecidableEq, Repr

end Sys2Proof
end

