-- ==== Sys2Proof/WellFormed.lean ====
section
/-! DEFINITION. Which terms of `Instr` stand for an operation of the core. -/

namespace Sys2Proof

/-- Every command term is one of the table's commands, since SEL has exactly its two bits (R78). A SOFT_RESET term is a
write of CTRL whose bit 0 is 1 (R154: "a host write to CTRL with bit 0 = 1"). -/
def Instr.wellFormed : Instr → Bool
  | .nop => true
  | .buildQtables => true
  | .buildHuff _ => true
  | .initTables => true
  | .colorConvert => true
  | .extractLuma => true
  | .extractChroma => true
  | .edgeDcFixup => true
  | .zeroRight => true
  | .zeroBottom => true
  | .fdctQuant => true
  | .encodeScan => true
  | .encodeImage => true
  | .softReset ctrl => ctrl.getLsbD 0

end Sys2Proof
end

