-- ==== Sys2Proof/Decode.lean ====
section
/-! DEFINITION. The decoder of command words (spec/30_encoding.md R78, R81, R82) and of CTRL writes
(spec/48_sequencer.md R154), total, rejecting by name; and the encoder, from the same tables. -/

namespace Sys2Proof

/-- The two registers through which an operation reaches the core: CMD (R32) and CTRL (R31). -/
inductive Port where
  | cmd
  | ctrl
deriving DecidableEq, Repr

/-- Why a word is no operation: the three kinds of ILLEGAL command word (R82), and a CTRL write that does nothing (R31). -/
inductive Illegal where
  /-- RSV, bits [31:10], is not 0. -/
  | reservedBits
  /-- OP is one of the unassigned values. -/
  | unassignedOp
  /-- SEL is not 0, and OP is not 0x02. -/
  | selectorNotAllowed
  /-- A CTRL word with bit 0 = 0. -/
  | noReset
deriving DecidableEq, Repr

/-- OP, bits [7:0] of a command word (R78). -/
def opField (w : Word) : Byte := w.extractLsb' 0 8

/-- SEL, bits [9:8] of a command word (R78). -/
def selField (w : Word) : BitVec 2 := w.extractLsb' 8 2

/-- RSV, bits [31:10] of a command word (R78). -/
def rsvField (w : Word) : BitVec 22 := w.extractLsb' 10 22

/-- A command without a selector: SEL must be 0 (R81). -/
def withoutSel (sel : BitVec 2) (i : Instr) : Except Illegal Instr :=
  if sel = 0 then .ok i else .error .selectorNotAllowed

/-- The opcode map of R80, on the OP and SEL of a word whose RSV is 0. -/
def decodeOp (op : Byte) (sel : BitVec 2) : Except Illegal Instr :=
  match op.toNat with
  | 0x00 => withoutSel sel .nop
  | 0x01 => withoutSel sel .buildQtables
  | 0x02 => .ok (.buildHuff sel)
  | 0x03 => withoutSel sel .initTables
  | 0x10 => withoutSel sel .colorConvert
  | 0x11 => withoutSel sel .extractLuma
  | 0x12 => withoutSel sel .extractChroma
  | 0x13 => withoutSel sel .edgeDcFixup
  | 0x14 => withoutSel sel .zeroRight
  | 0x15 => withoutSel sel .zeroBottom
  | 0x18 => withoutSel sel .fdctQuant
  | 0x20 => withoutSel sel .encodeScan
  | 0x30 => withoutSel sel .encodeImage
  | _ => .error .unassignedOp

/-- Decoding a command word (R81): every word is one operation or ILLEGAL, and the reason is named. -/
def decodeCommand (w : Word) : Except Illegal Instr :=
  if rsvField w = 0 then decodeOp (opField w) (selField w) else .error .reservedBits

/-- Decoding a write of CTRL (R31, R154). -/
def decodeCtrl (w : Word) : Except Illegal Instr :=
  if w.getLsbD 0 then .ok (.softReset w) else .error .noReset

/-- Decoding a word written to one of the two registers. -/
def decodePort : Port → Word → Except Illegal Instr
  | .cmd, w => decodeCommand w
  | .ctrl, w => decodeCtrl w

/-- What the host's form of the opcode table asks. All rows are words of CMD but the last, SOFT_RESET, a write of CTRL.
The table gives each CMD row all 32 bits and SOFT_RESET bit 0 alone, so fewer than 32 bits mean a CTRL write; a 32-bit
word is read as a command word, and only if it is none, as a CTRL write (log entry 7). -/
def decodeTableWord (nbits w : Nat) : Option Instr :=
  let word : Word := BitVec.ofNat 32 w
  if nbits < 32 then (decodeCtrl word).toOption
  else
    match decodeCommand word with
    | .ok i => some i
    | .error _ => (decodeCtrl word).toOption

/-- The register an operation is written to (R80, R154). -/
def Instr.port : Instr → Port
  | .nop => .cmd
  | .buildQtables => .cmd
  | .buildHuff _ => .cmd
  | .initTables => .cmd
  | .colorConvert => .cmd
  | .extractLuma => .cmd
  | .extractChroma => .cmd
  | .edgeDcFixup => .cmd
  | .zeroRight => .cmd
  | .zeroBottom => .cmd
  | .fdctQuant => .cmd
  | .encodeScan => .cmd
  | .encodeImage => .cmd
  | .softReset _ => .ctrl

/-- A command word from its three fields, `RSV` above `SEL` above `OP` (R78). -/
def commandWord (sel : BitVec 2) (op : Byte) : Word := (0 : BitVec 22) ++ sel ++ op

/-- The word of an operation (R78, R80, R154). -/
def encode : Instr → Word
  | .nop => commandWord 0 0x00
  | .buildQtables => commandWord 0 0x01
  | .buildHuff t => commandWord t 0x02
  | .initTables => commandWord 0 0x03
  | .colorConvert => commandWord 0 0x10
  | .extractLuma => commandWord 0 0x11
  | .extractChroma => commandWord 0 0x12
  | .edgeDcFixup => commandWord 0 0x13
  | .zeroRight => commandWord 0 0x14
  | .zeroBottom => commandWord 0 0x15
  | .fdctQuant => commandWord 0 0x18
  | .encodeScan => commandWord 0 0x20
  | .encodeImage => commandWord 0 0x30
  | .softReset ctrl => ctrl

end Sys2Proof
end

