-- ==== Sys2Proof/Machine/State.lean ====
section
/-! DEFINITION. The state of the core as plain data: the registers of spec/10_state.md §3, the RAMs of §4 and §5, the
command latch of §6, and the inputs and outputs of the slave port (spec/20_memory.md R60); and the state after reset
(R59, spec/70_reset_and_hazards.md R175). -/

namespace Sys2Proof.Machine

/-! ## Registers -/

/-- STATUS (R33). Its RES bits read 0 and are not stored (R28). -/
structure Status where
  busy : Bool
  done : Bool
  err : Bool
  ovr : Bool
  errcode : BitVec 4
  lastOp : Byte
deriving DecidableEq, Repr

/-- IRQ_EN (R34). -/
structure IrqEn where
  doneIe : Bool
  errIe : Bool
deriving DecidableEq, Repr

/-- VALID (R38). -/
structure Valid where
  qt : Bool
  huff0 : Bool
  huff1 : Bool
  huff2 : Bool
  huff3 : Bool
  planes : Bool
  lumaSmp : Bool
  chromaSmp : Bool
  coef : Bool
  scan : Bool
deriving DecidableEq, Repr

/-- ERRINFO (R44). -/
structure ErrInfo where
  sym : Byte
  tbl : BitVec 2
  sub : BitVec 4
deriving DecidableEq, Repr

/-! ## RAMs -/

/-- The written bytes of one RAM: pairs of an offset into its window (R61) and a byte, the offsets rising, and none
equal to what an unlisted offset reads as (Machine/Memory.lean: `Cells.wf`). -/
abbrev Cells := List Host.Cell

/-- The RAMs (R46 to R53). -/
structure Memory where
  qtbl : Cells
  div : Cells
  huffSpec : Cells
  ehuf : Cells
  rgb : Cells
  out : Cells
  py : Cells
  pcb : Cells
  pcr : Cells
  blk : Cells
deriving DecidableEq, Repr

/-- No byte of any RAM has been written. -/
def Memory.empty : Memory := ⟨[], [], [], [], [], [], [], [], [], []⟩

/-! ## The slave port -/

/-- The size of a transaction: 1, 2 or 4 bytes (R60). -/
inductive Size where
  | byte
  | half
  | word
deriving DecidableEq, Repr

/-- A transaction on the slave port (R60). A write carries its n data bytes as an n-byte integer: the low 8·n bits of
`data`. -/
inductive Txn where
  | read (addr : Word) (size : Size)
  | write (addr : Word) (size : Size) (data : Word)
deriving DecidableEq, Repr

/-- A response OK (R60): a write's, or a read's with its n bytes as an n-byte integer. BUSERR is `Fault.busError`. -/
inductive Reply where
  | okWrite
  | okRead (size : Size) (data : Word)
deriving DecidableEq, Repr

/-- One event of the total order of R73, or of the reset input (R60, R175). -/
inductive Event where
  /-- The host issues a transaction. -/
  | host (t : Txn)
  /-- The engine takes its step, if a command is pending (R157). -/
  | engine
  /-- The platform asserts (`true`) or releases (`false`) rst. -/
  | rst (asserted : Bool)
deriving DecidableEq, Repr

/-! ## The machine -/

/-- The state of the core, and of its inputs and outputs. -/
structure State where
  /-- The parameters of this core (R10 to R13, R43); no step changes them. -/
  params : Params
  /-- PENDING, the command latch (R26, R54). -/
  pending : Word
  /-- STATUS (R33). -/
  status : Status
  /-- IRQ_EN (R34). -/
  irqEn : IrqEn
  /-- QUALITY.Q (R35). -/
  quality : Byte
  /-- WIDTH.W (R36). -/
  width : Half
  /-- HEIGHT.H (R37). -/
  height : Half
  /-- VALID (R38). -/
  valid : Valid
  /-- OUT_COUNT (R40). -/
  outCount : Word
  /-- ENT_BUF_HI and ENT_BUF_LO: buffer (R41). -/
  entBuf : BitVec 64
  /-- ENT_BITS: bits (R41). -/
  entBits : BitVec 6
  /-- LAST_DC0: last_dc[0], two's complement (R41). -/
  lastDc0 : Word
  /-- LAST_DC1: last_dc[1] (R41). -/
  lastDc1 : Word
  /-- LAST_DC2: last_dc[2] (R41). -/
  lastDc2 : Word
  /-- EDGE_CFG.ORDER (R42). -/
  edgeOrder : Bool
  /-- ERRINFO (R44). -/
  errInfo : ErrInfo
  /-- The RAMs (R46 to R53). -/
  mem : Memory
  /-- The level of the reset input (R60, R175); the model's own field (log entry 5). -/
  rst : Bool
  /-- The events still to come, in order (R73); the model's own field (log entry 4). -/
  events : List Event
  /-- The responses given, newest first (R60); the model's own field (log entry 6). -/
  replies : List Reply
  /-- The number of the current step, which keeps the draws of different steps apart (R19, R55); the model's own field
  (log entry 3). -/
  epoch : Nat
deriving DecidableEq, Repr

/-- Why a step stops with a fault. -/
inductive Fault where
  /-- BUSERR (R67): the host's access at `addr` is unmapped, misaligned or of the wrong width. Raised by the slave port
  (Machine/Port.lean). Safe: the core's state is unchanged, and the spec itself has a model treat it as a fault of the
  host's access. -/
  | busError (addr : Word)
deriving DecidableEq, Repr

/-- Why a step has no meaning. -/
inductive Refusal where
  /-- An instruction that has no meaning yet, raised by an arm of `exec`. No arm raises it. Safe. -/
  | notModelled (mnemonic : String)
  /-- A host transaction while rst is asserted (R175, 93 U12: "the platform must not issue them; a model rejects such a
  trace"). Raised by the slave port (Machine/Port.lean). Safe. -/
  | transactionDuringReset
deriving DecidableEq, Repr

/-- The machine with the parameters `p` right after reset (R59, R175). -/
def State.resetWith (p : Params) : State where
  params := p
  pending := 0
  status := ⟨false, false, false, false, 0, 0⟩
  irqEn := ⟨false, false⟩
  quality := 50
  width := 0
  height := 0
  valid := ⟨false, false, false, false, false, false, false, false, false, false⟩
  outCount := 0
  entBuf := 0
  entBits := 0
  lastDc0 := 0
  lastDc1 := 0
  lastDc2 := 0
  edgeOrder := false
  errInfo := ⟨0, 0, 0⟩
  mem := Memory.empty
  rst := false
  events := []
  replies := []
  epoch := 0

/-- The machine right after reset, with the reference parameters (log entries 1 and 2). -/
def State.reset : State := State.resetWith Config.reference

end Sys2Proof.Machine
end

