-- ==== Sys2Proof/Machine/Rom.lean ====
section
/-! DEFINITION. The constant tables of spec/40_rom_tables.md, and the reset contents of HUFFSPEC. -/

namespace Sys2Proof.Machine

/-- NATURAL[k]: the natural-order index of the k-th coefficient in zig-zag order (R86). -/
def natural : List Nat :=
  [0, 1, 8, 16, 9, 2, 3, 10, 17, 24, 32, 25, 18, 11, 4, 5] ++
  [12, 19, 26, 33, 40, 48, 41, 34, 27, 20, 13, 6, 7, 14, 21, 28] ++
  [35, 42, 49, 56, 57, 50, 43, 36, 29, 22, 15, 23, 30, 37, 44, 51] ++
  [58, 59, 52, 45, 38, 31, 39, 46, 53, 60, 61, 54, 47, 55, 62, 63]

/-- ZIGZAG[n]: the inverse permutation (R87). No command reads it; DQT and the AC walk use NATURAL. -/
def zigzag : List Nat :=
  [0, 1, 5, 6, 14, 15, 27, 28] ++ [2, 4, 7, 13, 16, 26, 29, 42] ++
  [3, 8, 12, 17, 25, 30, 41, 43] ++ [9, 11, 18, 24, 31, 40, 44, 53] ++
  [10, 19, 23, 32, 39, 45, 52, 54] ++ [20, 22, 33, 38, 46, 51, 55, 60] ++
  [21, 34, 37, 47, 50, 56, 59, 61] ++ [35, 36, 48, 49, 57, 58, 62, 63]

/-- LUMA_BASE, natural order (R89). -/
def lumaBase : List Nat :=
  [16, 11, 10, 16, 24, 40, 51, 61] ++ [12, 12, 14, 19, 26, 58, 60, 55] ++
  [14, 13, 16, 24, 40, 57, 69, 56] ++ [14, 17, 22, 29, 51, 87, 80, 62] ++
  [18, 22, 37, 56, 68, 109, 103, 77] ++ [24, 35, 55, 64, 81, 104, 113, 92] ++
  [49, 64, 78, 87, 103, 121, 120, 101] ++ [72, 92, 95, 98, 112, 100, 103, 99]

/-- CHROMA_BASE, natural order (R90). -/
def chromaBase : List Nat :=
  [17, 18, 24, 47, 99, 99, 99, 99] ++ [18, 21, 26, 66, 99, 99, 99, 99] ++
  [24, 26, 56, 99, 99, 99, 99, 99] ++ [47, 66, 99, 99, 99, 99, 99, 99] ++
  List.replicate 32 99

/-- The base of quantization table `t`: 0 luminance, 1 chrominance (R99). -/
def quantBase (t : Nat) : List Nat := if t = 0 then lumaBase else chromaBase

/-- BITS[1..16] of the standard Huffman specification `t` (R91 to R94). -/
def stdBits (t : Nat) : List Nat :=
  match t with
  | 0 => [0, 1, 5, 1, 1, 1, 1, 1, 1, 0, 0, 0, 0, 0, 0, 0]
  | 1 => [0, 2, 1, 3, 3, 2, 4, 3, 5, 5, 4, 4, 0, 0, 1, 125]
  | 2 => [0, 3, 1, 1, 1, 1, 1, 1, 1, 1, 1, 0, 0, 0, 0, 0]
  | _ => [0, 2, 1, 2, 4, 4, 3, 4, 7, 5, 4, 4, 0, 1, 2, 119]

/-- VALUES of both standard DC specifications (R91, R93). -/
def stdDcValues : List Nat := List.range 12

/-- VALUES of the standard AC-luma specification (R92). -/
def stdAcLumaValues : List Nat :=
  [0x01, 0x02, 0x03, 0x00, 0x04, 0x11, 0x05, 0x12, 0x21, 0x31, 0x41, 0x06, 0x13, 0x51, 0x61, 0x07] ++
  [0x22, 0x71, 0x14, 0x32, 0x81, 0x91, 0xA1, 0x08, 0x23, 0x42, 0xB1, 0xC1, 0x15, 0x52, 0xD1, 0xF0] ++
  [0x24, 0x33, 0x62, 0x72, 0x82, 0x09, 0x0A, 0x16, 0x17, 0x18, 0x19, 0x1A, 0x25, 0x26, 0x27, 0x28] ++
  [0x29, 0x2A, 0x34, 0x35, 0x36, 0x37, 0x38, 0x39, 0x3A, 0x43, 0x44, 0x45, 0x46, 0x47, 0x48, 0x49] ++
  [0x4A, 0x53, 0x54, 0x55, 0x56, 0x57, 0x58, 0x59, 0x5A, 0x63, 0x64, 0x65, 0x66, 0x67, 0x68, 0x69] ++
  [0x6A, 0x73, 0x74, 0x75, 0x76, 0x77, 0x78, 0x79, 0x7A, 0x83, 0x84, 0x85, 0x86, 0x87, 0x88, 0x89] ++
  [0x8A, 0x92, 0x93, 0x94, 0x95, 0x96, 0x97, 0x98, 0x99, 0x9A, 0xA2, 0xA3, 0xA4, 0xA5, 0xA6, 0xA7] ++
  [0xA8, 0xA9, 0xAA, 0xB2, 0xB3, 0xB4, 0xB5, 0xB6, 0xB7, 0xB8, 0xB9, 0xBA, 0xC2, 0xC3, 0xC4, 0xC5] ++
  [0xC6, 0xC7, 0xC8, 0xC9, 0xCA, 0xD2, 0xD3, 0xD4, 0xD5, 0xD6, 0xD7, 0xD8, 0xD9, 0xDA, 0xE1, 0xE2] ++
  [0xE3, 0xE4, 0xE5, 0xE6, 0xE7, 0xE8, 0xE9, 0xEA, 0xF1, 0xF2, 0xF3, 0xF4, 0xF5, 0xF6, 0xF7, 0xF8] ++
  [0xF9, 0xFA]

/-- VALUES of the standard AC-chroma specification (R94). -/
def stdAcChromaValues : List Nat :=
  [0x00, 0x01, 0x02, 0x03, 0x11, 0x04, 0x05, 0x21, 0x31, 0x06, 0x12, 0x41, 0x51, 0x07, 0x61, 0x71] ++
  [0x13, 0x22, 0x32, 0x81, 0x08, 0x14, 0x42, 0x91, 0xA1, 0xB1, 0xC1, 0x09, 0x23, 0x33, 0x52, 0xF0] ++
  [0x15, 0x62, 0x72, 0xD1, 0x0A, 0x16, 0x24, 0x34, 0xE1, 0x25, 0xF1, 0x17, 0x18, 0x19, 0x1A, 0x26] ++
  [0x27, 0x28, 0x29, 0x2A, 0x35, 0x36, 0x37, 0x38, 0x39, 0x3A, 0x43, 0x44, 0x45, 0x46, 0x47, 0x48] ++
  [0x49, 0x4A, 0x53, 0x54, 0x55, 0x56, 0x57, 0x58, 0x59, 0x5A, 0x63, 0x64, 0x65, 0x66, 0x67, 0x68] ++
  [0x69, 0x6A, 0x73, 0x74, 0x75, 0x76, 0x77, 0x78, 0x79, 0x7A, 0x82, 0x83, 0x84, 0x85, 0x86, 0x87] ++
  [0x88, 0x89, 0x8A, 0x92, 0x93, 0x94, 0x95, 0x96, 0x97, 0x98, 0x99, 0x9A, 0xA2, 0xA3, 0xA4, 0xA5] ++
  [0xA6, 0xA7, 0xA8, 0xA9, 0xAA, 0xB2, 0xB3, 0xB4, 0xB5, 0xB6, 0xB7, 0xB8, 0xB9, 0xBA, 0xC2, 0xC3] ++
  [0xC4, 0xC5, 0xC6, 0xC7, 0xC8, 0xC9, 0xCA, 0xD2, 0xD3, 0xD4, 0xD5, 0xD6, 0xD7, 0xD8, 0xD9, 0xDA] ++
  [0xE2, 0xE3, 0xE4, 0xE5, 0xE6, 0xE7, 0xE8, 0xE9, 0xEA, 0xF2, 0xF3, 0xF4, 0xF5, 0xF6, 0xF7, 0xF8] ++
  [0xF9, 0xFA]

/-- VALUES of the standard Huffman specification `t` (R91 to R94). -/
def stdValues (t : Nat) : List Nat :=
  match t with
  | 0 => stdDcValues
  | 1 => stdAcLumaValues
  | 2 => stdDcValues
  | _ => stdAcChromaValues

/-- The AA&N multipliers of FDCT_REF (R95), in the order 0.382683433, 0.541196100, 0.707106781, 1.306562965. -/
def c0382 : Int := 98
def c0541 : Int := 139
def c0707 : Int := 181
def c1306 : Int := 334

/-- AANSCALE, natural order (R96). -/
def aanScale : List Nat :=
  [16384, 22725, 21407, 19266, 16384, 12873, 8867, 4520] ++
  [22725, 31521, 29692, 26722, 22725, 17855, 12299, 6270] ++
  [21407, 29692, 27969, 25172, 21407, 16819, 11585, 5906] ++
  [19266, 26722, 25172, 22654, 19266, 15137, 10426, 5315] ++
  [16384, 22725, 21407, 19266, 16384, 12873, 8867, 4520] ++
  [12873, 17855, 16819, 15137, 12873, 10114, 6967, 3552] ++
  [8867, 12299, 11585, 10426, 8867, 6967, 4799, 2446] ++
  [4520, 6270, 5906, 5315, 4520, 3552, 2446, 1247]

/-- The offset `off` of HUFFSPEC is one of the RES bytes 0x11..0xFF of its table's half-kilobyte (R61). -/
def isResByte (off : Nat) : Bool := decide (0x11 ≤ off % 0x200) && decide (off % 0x200 < 0x100)

/-- The reset contents of HUFFSPEC (R48): the standard BITS with HBITS[t][0] = 0, and the standard VALUES with every
byte beyond the listed symbols 0. The RES bytes read 0 (R61). -/
def huffSpecReset (off : Nat) : Byte :=
  let t := off / 0x200
  let o := off % 0x200
  if o = 0 then 0
  else if o < 0x11 then BitVec.ofNat 8 ((stdBits t).getD (o - 1) 0)
  else if o < 0x100 then 0
  else BitVec.ofNat 8 ((stdValues t).getD (o - 0x100) 0)

end Sys2Proof.Machine
end

