-- ==== Sys2Proof/Machine/Memory.lean ====
section
/-! DEFINITION. The RAMs as lists of written bytes in one canonical form, what an unlisted byte reads as, and byte order
(spec/10_state.md R46 to R55, spec/20_memory.md R61, R69). -/

namespace Sys2Proof.Machine

/-! ## Byte order (R69) -/

/-- The `n` bytes of `v`, the lowest-addressed first: little-endian. -/
def toLe (n v : Nat) : List Byte := (List.range n).map fun j => BitVec.ofNat 8 (v >>> (8 * j))

/-- The value of bytes in address order: little-endian. -/
def fromLe : List Byte → Nat
  | [] => 0
  | b :: bs => b.toNat + 256 * fromLe bs

/-! ## One RAM -/

/-- What an unlisted byte reads as, where the spec fixes it: HUFFSPEC has reset contents (R48), and bits [31:24] of an
EHUF entry are 0 (R83). `none`: a byte that nothing has written since reset, a draw at every read (R55). -/
def Ram.unlisted (r : Ram) (off : Nat) : Option Byte :=
  match r with
  | .huffSpec => some (huffSpecReset off)
  | .ehuf => if off % 4 = 3 then some 0 else none
  | _ => none

/-- The bits of a byte that the RAM stores: an EHUF entry has 21 (R70), so its byte 2 has five. Every other byte is
whole. -/
def Ram.mask (r : Ram) (off : Nat) : Byte :=
  match r with
  | .ehuf => if off % 4 = 2 then 0x1F else 0xFF
  | _ => 0xFF

/-- The listed byte at an offset. -/
def Cells.get (c : Cells) (off : Nat) : Option Byte := List.lookup off c

/-- The byte at an offset, `none` where it is a draw. -/
def Cells.read (r : Ram) (c : Cells) (off : Nat) : Option Byte :=
  match c.get off with
  | some b => some b
  | none => r.unlisted off

/-- Bytes at consecutive offsets. -/
def cellsFrom (off : Nat) : List Byte → Cells
  | [] => []
  | b :: bs => (off, b) :: cellsFrom (off + 1) bs

/-- An entry that says more than an unlisted offset would. -/
def Ram.keeps (r : Ram) (x : Host.Cell) : Bool := decide (r.unlisted x.1 ≠ some x.2)

/-- Writing `bs` at the offsets from `off` on; the canonical form is kept. -/
def Cells.write (r : Ram) (c : Cells) (off : Nat) (bs : List Byte) : Cells :=
  c.filter (fun x => decide (x.1 < off)) ++ (cellsFrom off bs).filter r.keeps ++
    c.filter (fun x => decide (off + bs.length ≤ x.1))

/-- Writes of consecutive bytes, one after the other. -/
def Cells.writeAll (r : Ram) (c : Cells) : List (Nat × List Byte) → Cells
  | [] => c
  | w :: ws => Cells.writeAll r (c.write r w.1 w.2) ws

/-- The canonical form: offsets strictly rising, and no entry equal to what an unlisted offset reads as. -/
def Cells.wf (r : Ram) (c : Cells) : Bool :=
  decide (c.Pairwise fun x y => x.1 < y.1) && c.all r.keeps

/-! ## All RAMs -/

/-- The written bytes of a RAM. -/
def Memory.cells (m : Memory) : Ram → Cells
  | .qtbl => m.qtbl
  | .div => m.div
  | .huffSpec => m.huffSpec
  | .ehuf => m.ehuf
  | .rgb => m.rgb
  | .out => m.out
  | .py => m.py
  | .pcb => m.pcb
  | .pcr => m.pcr
  | .blk => m.blk

/-- The memory with the written bytes of one RAM replaced. -/
def Memory.setCells (m : Memory) (r : Ram) (c : Cells) : Memory :=
  match r with
  | .qtbl => { m with qtbl := c }
  | .div => { m with div := c }
  | .huffSpec => { m with huffSpec := c }
  | .ehuf => { m with ehuf := c }
  | .rgb => { m with rgb := c }
  | .out => { m with out := c }
  | .py => { m with py := c }
  | .pcb => { m with pcb := c }
  | .pcr => { m with pcr := c }
  | .blk => { m with blk := c }

/-- Writing consecutive bytes of a RAM. -/
def Memory.write (m : Memory) (r : Ram) (off : Nat) (bs : List Byte) : Memory :=
  m.setCells r ((m.cells r).write r off bs)

/-- Writes of consecutive bytes of a RAM, one after the other. -/
def Memory.writeAll (m : Memory) (r : Ram) (ws : List (Nat × List Byte)) : Memory :=
  m.setCells r ((m.cells r).writeAll r ws)

/-- The RAM becomes unspecified: every byte of it reads as a draw again (R53). -/
def Memory.forget (m : Memory) (r : Ram) : Memory := m.setCells r []

/-- All RAMs, in the order of the address map (R61). -/
def allRams : List Ram := [.qtbl, .div, .huffSpec, .ehuf, .rgb, .out, .py, .pcb, .pcr, .blk]

/-- Every RAM has its canonical form. -/
def Memory.wf (m : Memory) : Bool := allRams.all fun r => (m.cells r).wf r

end Sys2Proof.Machine
end

