-- ==== Sys2Proof/Machine/Operands.lean ====
section
/-! DEFINITION. The operands of the commands: integer notation (spec/00_scope.md R16 to R18), the geometry
(spec/44_block_extractor.md R113), and the entries of the RAMs (spec/10_state.md R46 to R53). -/

namespace Sys2Proof.Machine

/-! ## Integers -/

/-- bitlen(v), the least n with v < 2^n (R18). -/
def bitlen (v : Nat) : Nat := if v = 0 then 0 else Nat.log2 v + 1

/-- min(max(v, lo), hi) (R16). -/
def clamp (v lo hi : Nat) : Nat := min (max v lo) hi

/-- The 16-bit pattern of an integer: storing keeps the low 16 bits of its two's-complement form (R17). -/
def pattern16 (v : Int) : Half := BitVec.ofInt 16 v

/-- s16(v) (R17). -/
def s16 (v : Int) : Int := (pattern16 v).toInt

/-- ⌈a / b⌉. -/
def ceilDiv (a b : Nat) : Nat := (a + (b - 1)) / b

/-! ## Geometry (R113) -/

/-- W. -/
def State.w (s : State) : Nat := s.width.toNat

/-- H. -/
def State.h (s : State) : Nat := s.height.toNat

/-- nbw = ⌈W/8⌉. -/
def State.nbw (s : State) : Nat := ceilDiv s.w 8

/-- nbh = ⌈H/8⌉. -/
def State.nbh (s : State) : Nat := ceilDiv s.h 8

/-- nsbw = ⌈W/16⌉. -/
def State.nsbw (s : State) : Nat := ceilDiv s.w 16

/-- nsbh = ⌈H/16⌉. -/
def State.nsbh (s : State) : Nat := ceilDiv s.h 16

/-- nmcu = nsbw·nsbh. -/
def State.nmcu (s : State) : Nat := s.nsbw * s.nsbh

/-- The number of blocks of the image, six per MCU. -/
def State.nblocks (s : State) : Nat := 6 * s.nmcu

/-- Block b = 6m + k belongs to MCU m. -/
def blockMcu (b : Nat) : Nat := b / 6

/-- The place k of block b in its MCU: Y0, Y1, Y2, Y3, Cb, Cr. -/
def blockPlace (b : Nat) : Nat := b % 6

/-- gx of the MCU m = gy·nsbw + gx. -/
def State.gx (s : State) (m : Nat) : Nat := m % s.nsbw

/-- gy of the MCU m = gy·nsbw + gx. -/
def State.gy (s : State) (m : Nat) : Nat := m / s.nsbw

/-- block_x = 2gx + sx of the luma block b, with sx = k % 2. -/
def State.blockX (s : State) (b : Nat) : Nat := 2 * s.gx (blockMcu b) + blockPlace b % 2

/-- block_y = 2gy + sy of the luma block b, with sy = k / 2. -/
def State.blockY (s : State) (b : Nat) : Nat := 2 * s.gy (blockMcu b) + blockPlace b / 2

/-! ## Capacities of the windows (R50 to R53, R61) -/

/-- The number of bytes of a RAM's window (R61). -/
def Params.size (p : Params) : Ram → Nat
  | .qtbl => 0x80
  | .div => 0x400
  | .huffSpec => 0x800
  | .ehuf => 0x1000
  | .rgb => 3 * p.maxW * p.maxH
  | .out => p.outCap
  | .py => p.maxW * p.maxH
  | .pcb => p.maxW * p.maxH
  | .pcr => p.maxW * p.maxH
  | .blk => 128 * (6 * ceilDiv p.maxW 16 * ceilDiv p.maxH 16)

/-! ## Reading the RAMs -/

/-- A byte of a RAM: the written one, or what the spec fixes, or a draw (R55). -/
def State.byte (s : State) (site : Site) (r : Ram) (off : Nat) : Byte :=
  match (s.mem.cells r).read r off with
  | some b => b
  | none => r.mask off &&& Config.freeByte s.epoch site r off

/-- `n` bytes of a RAM from an offset on. -/
def State.bytes (s : State) (site : Site) (r : Ram) (off n : Nat) : List Byte :=
  (List.range n).map fun j => s.byte site r (off + j)

/-- QTBL[t][i] (R46). -/
def State.qtbl (s : State) (site : Site) (t i : Nat) : Byte := s.byte site .qtbl (64 * t + i)

/-- The offset of DIV[t][k][i] (R61). -/
def divOff (t k i : Nat) : Nat := 0x200 * t + 0x80 * k + 2 * i

/-- The 16-bit word DIV[t][k][i] (R47). -/
def State.divWord (s : State) (site : Site) (t k i : Nat) : Half :=
  BitVec.ofNat 16 (fromLe (s.bytes site .div (divOff t k i) 2))

/-- HBITS[t][l] (R48). -/
def State.hbits (s : State) (t l : Nat) : Byte := s.byte .huffSpec .huffSpec (0x200 * t + l)

/-- HVALS[t][p] (R48). -/
def State.hvals (s : State) (t p : Nat) : Byte := s.byte .huffSpec .huffSpec (0x200 * t + 0x100 + p)

/-- The offset of the EHUF entry of symbol `sym` of table `t` (R61). -/
def ehufOff (t sym : Nat) : Nat := 0x400 * t + 4 * sym

/-- The EHUF entry of a symbol, EHUFSI in bits [20:16] and EHUFCO in bits [15:0] (R83). -/
def State.ehufEntry (s : State) (site : Site) (t sym : Nat) : Word :=
  BitVec.ofNat 32 (fromLe (s.bytes site .ehuf (ehufOff t sym) 4))

/-- EHUFCO of an entry (R83). -/
def entryCode (e : Word) : Nat := (e.extractLsb' 0 16).toNat

/-- EHUFSI of an entry (R83). -/
def entrySize (e : Word) : Nat := (e.extractLsb' 16 5).toNat

/-- RGB[a] (R50). -/
def State.rgb (s : State) (site : Site) (a : Nat) : Byte := s.byte site .rgb a

/-- The offset of BLK[b][i] (R61). -/
def blkOff (b i : Nat) : Nat := 128 * b + 2 * i

/-- BLK[b][i], signed (R52). -/
def State.blk (s : State) (site : Site) (b i : Nat) : Int :=
  (BitVec.ofNat 16 (fromLe (s.bytes site .blk (blkOff b i) 2))).toInt

/-- The 64 values of block `b`, in natural order. -/
def State.block (s : State) (site : Site) (b : Nat) : List Int := (List.range 64).map fun i => s.blk site b i

/-- The bytes of 64 values stored as the words of a block (R52, R69): each takes its low 16 bits (R17). -/
def blockBytes (vs : List Int) : List Byte := vs.flatMap fun v => toLe 2 (pattern16 v).toNat

/-- OUT[a] (R53). -/
def State.outByte (s : State) (site : Site) (a : Nat) : Byte := s.byte site .out a

end Sys2Proof.Machine
end

