-- ==== Sys2Proof/Machine/Flags.lean ====
section
/-! DEFINITION. The VALID flags (spec/10_state.md R38, R56, R57), the STATUS bits (R33), irq
(spec/60_exceptions.md R165), and the registers as words (R28 to R44). -/

namespace Sys2Proof.Machine

/-! ## VALID -/

/-- No flag is set. -/
def Valid.none : Valid := ⟨false, false, false, false, false, false, false, false, false, false⟩

/-- VALID.HUFFt (R38). -/
def Valid.huff (v : Valid) (t : Nat) : Bool :=
  match t with
  | 0 => v.huff0
  | 1 => v.huff1
  | 2 => v.huff2
  | _ => v.huff3

/-- VALID.HUFFt <- b. -/
def Valid.setHuff (v : Valid) (t : Nat) (b : Bool) : Valid :=
  match t with
  | 0 => { v with huff0 := b }
  | 1 => { v with huff1 := b }
  | 2 => { v with huff2 := b }
  | _ => { v with huff3 := b }

/-- All four Huffman tables are built. -/
def Valid.allHuff (v : Valid) : Bool := v.huff0 && v.huff1 && v.huff2 && v.huff3

/-- BUILD_QTABLES sets QT (R56). -/
def Valid.builtQt (v : Valid) : Valid := { v with qt := true }

/-- COLOR_CONVERT sets PLANES (R56). -/
def Valid.converted (v : Valid) : Valid := { v with planes := true }

/-- EXTRACT_LUMA sets LUMA_SMP and clears COEF and SCAN (R56). -/
def Valid.extractedLuma (v : Valid) : Valid := { v with lumaSmp := true, coef := false, scan := false }

/-- EXTRACT_CHROMA sets CHROMA_SMP and clears COEF and SCAN (R56). -/
def Valid.extractedChroma (v : Valid) : Valid := { v with chromaSmp := true, coef := false, scan := false }

/-- FDCT_QUANT sets COEF and clears LUMA_SMP, CHROMA_SMP and SCAN (R56). -/
def Valid.transformed (v : Valid) : Valid :=
  { v with coef := true, lumaSmp := false, chromaSmp := false, scan := false }

/-- EDGE_DC_FIXUP, ZERO_RIGHT and ZERO_BOTTOM, and the start and the failure of ENCODE_SCAN, clear SCAN (R56). -/
def Valid.unscanned (v : Valid) : Valid := { v with scan := false }

/-- ENCODE_SCAN sets SCAN on success (R56). -/
def Valid.scanned (v : Valid) : Valid := { v with scan := true }

/-- A geometry change clears VALID bits [9:5] (R57). -/
def Valid.newGeometry (v : Valid) : Valid :=
  { v with planes := false, lumaSmp := false, chromaSmp := false, coef := false, scan := false }

/-! ## STATUS -/

/-- Acceptance of the word `w` (R156): BUSY is set, DONE, ERR and ERRCODE are cleared, OVR stays. -/
def Status.accept (st : Status) (w : Word) : Status :=
  { st with busy := true, done := false, err := false, errcode := 0, lastOp := opField w }

/-- Completion without an error (R157). -/
def Status.completeOk (st : Status) : Status := { st with busy := false, done := true }

/-- Completion with the error code `code` (R157). -/
def Status.completeErr (st : Status) (code : BitVec 4) : Status :=
  { st with busy := false, done := true, err := true, errcode := code }

/-- A dropped write sets OVR (R58). -/
def Status.dropped (st : Status) : Status := { st with ovr := true }

/-- A host write to STATUS: DONE, ERR and OVR are W1C, and clearing ERR clears ERRCODE (R28, R33). -/
def Status.w1c (st : Status) (v : Word) : Status :=
  { st with
    done := st.done && !v.getLsbD 1
    err := st.err && !v.getLsbD 2
    ovr := st.ovr && !v.getLsbD 3
    errcode := if v.getLsbD 2 then 0 else st.errcode }

/-- irq (R165). -/
def State.irq (s : State) : Bool :=
  (s.status.done && s.irqEn.doneIe) || ((s.status.err || s.status.ovr) && s.irqEn.errIe)

/-! ## Registers as words -/

/-- A flag as one bit. -/
def bit (b : Bool) : BitVec 1 := BitVec.ofBool b

/-- STATUS as the host reads it (R33). -/
def Status.toWord (st : Status) : Word :=
  (0 : BitVec 8) ++ st.lastOp ++ (0 : BitVec 4) ++ st.errcode ++ (0 : BitVec 4) ++
    bit st.ovr ++ bit st.err ++ bit st.done ++ bit st.busy

/-- IRQ_EN as the host reads it (R34). -/
def IrqEn.toWord (e : IrqEn) : Word := (0 : BitVec 30) ++ bit e.errIe ++ bit e.doneIe

/-- VALID as the host reads it (R38). -/
def Valid.toWord (v : Valid) : Word :=
  (0 : BitVec 22) ++ bit v.scan ++ bit v.coef ++ bit v.chromaSmp ++ bit v.lumaSmp ++ bit v.planes ++
    bit v.huff3 ++ bit v.huff2 ++ bit v.huff1 ++ bit v.huff0 ++ bit v.qt

/-- ERRINFO as the host reads it (R44). -/
def ErrInfo.toWord (e : ErrInfo) : Word := (0 : BitVec 16) ++ e.sub ++ (0 : BitVec 2) ++ e.tbl ++ e.sym

/-- GEOM_B as the host reads it (R39). -/
def State.geomB (s : State) : Word := BitVec.ofNat 16 s.nbh ++ BitVec.ofNat 16 s.nbw

/-- GEOM_MCU as the host reads it (R39). -/
def State.geomMcu (s : State) : Word := BitVec.ofNat 16 s.nsbh ++ BitVec.ofNat 16 s.nsbw

end Sys2Proof.Machine
end

