-- ==== Sys2Proof/Machine/Ops.lean ====
section
/-! DEFINITION. The operations the commands share: block writes, acceptance, completion, raising an error (this core's
exception, spec/60_exceptions.md R156 to R163, R166) and the return from it (R167), the checks (R163), reset
(spec/70_reset_and_hazards.md R175). -/

namespace Sys2Proof.Machine

/-! ## Errors: the core's exceptions -/

/-- An error with which a command completes (R159), with the information R160 gives for InternalInvariant. -/
inductive CmdError where
  | invalidArgs
  | ioFailure
  | internalInvariant (sub : BitVec 4) (tbl : BitVec 2) (sym : Byte)
  | illegalCommand
  | tablesNotBuilt
  | sequenceError
deriving DecidableEq, Repr

/-- STATUS.ERRCODE of an error (R159). -/
def CmdError.code : CmdError → BitVec 4
  | .invalidArgs => 1
  | .ioFailure => 2
  | .internalInvariant _ _ _ => 4
  | .illegalCommand => 5
  | .tablesNotBuilt => 7
  | .sequenceError => 8

/-- ERRINFO of an error (R44, R160): 0 but for InternalInvariant. -/
def CmdError.info : CmdError → ErrInfo
  | .internalInvariant sub tbl sym => ⟨sym, tbl, sub⟩
  | _ => ⟨0, 0, 0⟩

/-- InternalInvariant with its sub-cause, table and symbol (R160). -/
def internal (sub t sym : Nat) : CmdError :=
  .internalInvariant (BitVec.ofNat 4 sub) (BitVec.ofNat 2 t) (BitVec.ofNat 8 sym)

/-- What running a command leaves: the state, and the error it raised, if any (R158: the writes made before the raise
remain). -/
structure Ran where
  st : State
  err : Option CmdError

/-- Completing a command (R157): the engine goes idle, DONE is set, PENDING is cleared. This is also TAKING THE
EXCEPTION of a command that ends in an error (R158, R166): ERR is set, the code goes to STATUS.ERRCODE and the
information to ERRINFO; LAST_OP holds the opcode since acceptance; the core saves no program counter, has no vector, and
changes no mode and no mask. -/
def complete (r : Option CmdError) (s : State) : State :=
  match r with
  | none => { s with status := s.status.completeOk, pending := 0 }
  | some e => { s with status := s.status.completeErr e.code, pending := 0, errInfo := e.info }

/-- A command (R157): the checks in their order, then the command's own rule, then completion. A command whose check
fails writes nothing (R163). -/
def command (check : State → Option CmdError) (run : State → Ran) (s : State) :
    Host.Outcome State Fault Refusal :=
  match check s with
  | some e => .next (complete (some e) s)
  | none => .next (complete (run s).err (run s).st)

/-- Latching the command word `w` of an accepted write (R156). Acceptance does not decode it. -/
def State.latch (s : State) (w : Word) : State :=
  { s with pending := w, status := s.status.accept w, errInfo := ⟨0, 0, 0⟩ }

/-- A dropped write (R58). -/
def State.drop (s : State) : State := { s with status := s.status.dropped }

/-- A write of `w` to CMD (R156): dropped while BUSY = 1, else accepted. -/
def State.present (s : State) (w : Word) : State := if s.status.busy then s.drop else s.latch w

/-- The return from an error (R167): there is no return operation, and the host acknowledges by clearing the STATUS
bits; this is its write of `v` to STATUS (W1C). -/
def State.acknowledge (s : State) (v : Word) : State := { s with status := s.status.w1c v }

/-! ## Checks (R163) -/

/-- The geometry test: 1 ≤ W ≤ MAX_W and 1 ≤ H ≤ MAX_H. -/
def State.geometryOk (s : State) : Bool :=
  decide (1 ≤ s.w) && decide (s.w ≤ s.params.maxW) && decide (1 ≤ s.h) && decide (s.h ≤ s.params.maxH)

/-- The tests of one command, in the order geometry, tables, stage flags (R163). -/
def checkAll (tables stages : State → Bool) (s : State) : Option CmdError :=
  if s.geometryOk then
    if tables s then
      if stages s then none else some .sequenceError
    else some .tablesNotBuilt
  else some .invalidArgs

/-- NOP, BUILD_QTABLES, BUILD_HUFF and INIT_TABLES have no checks. -/
def checkNothing (_ : State) : Option CmdError := none

/-- COLOR_CONVERT: the geometry alone. -/
def checkGeometry : State → Option CmdError := checkAll (fun _ => true) (fun _ => true)

/-- EXTRACT_LUMA and EXTRACT_CHROMA need PLANES. -/
def checkPlanes : State → Option CmdError := checkAll (fun _ => true) (fun s => s.valid.planes)

/-- EDGE_DC_FIXUP, ZERO_RIGHT and ZERO_BOTTOM need COEF. -/
def checkCoef : State → Option CmdError := checkAll (fun _ => true) (fun s => s.valid.coef)

/-- FDCT_QUANT needs QT, and LUMA_SMP and CHROMA_SMP. -/
def checkSamples : State → Option CmdError :=
  checkAll (fun s => s.valid.qt) (fun s => s.valid.lumaSmp && s.valid.chromaSmp)

/-- ENCODE_SCAN needs HUFF0..HUFF3, and COEF. -/
def checkScan : State → Option CmdError := checkAll (fun s => s.valid.allHuff) (fun s => s.valid.coef)

/-- ENCODE_IMAGE needs QT and HUFF0..HUFF3. -/
def checkImage : State → Option CmdError :=
  checkAll (fun s => s.valid.qt && s.valid.allHuff) (fun _ => true)

/-! ## Writing blocks -/

/-- The writes of `f b`, from the first byte of block `b` on, for the image's blocks that satisfy `p`, in increasing
order (R113). -/
def State.blockWrites (s : State) (p : Nat → Bool) (f : Nat → List Byte) : List (Nat × List Byte) :=
  ((List.range s.nblocks).filter p).map fun b => (128 * b, f b)

/-- Those writes done. The commands read what they read before any of them, which agrees with the sequential reading
(R20): no command reads a byte of BLK that it has written in another block. -/
def State.updateBlocks (s : State) (p : Nat → Bool) (f : Nat → List Byte) : Memory :=
  s.mem.writeAll .blk (s.blockWrites p f)

/-! ## Reset (R175, R154) -/

/-- The reset event: every register and RAM as R59 says. The parameters are the core's constants, and the inputs and
outputs of the port are not the core's state. -/
def State.resetCore (s : State) : State :=
  { State.resetWith s.params with rst := s.rst, events := s.events, replies := s.replies, epoch := s.epoch }

end Sys2Proof.Machine
end

