-- ==== Sys2Proof/Machine/Color.lean ====
section
/-! DEFINITION. Family D, the colour-space transformer (spec/43_color_space.md). The formula of R110 is normative (R111). -/

namespace Sys2Proof.Machine

/-- Y of a pixel (R110). -/
def pixelY (r g b : Int) : Int := (19595 * r + 38470 * g + 7471 * b + 32768) / 65536

/-- Cb of a pixel (R110): CBCR_OFFSET = 128·2^16 and ONE_HALF − 1 are added. -/
def pixelCb (r g b : Int) : Int := (-11059 * r - 21709 * g + 32768 * b + 8388608 + 32768 - 1) / 65536

/-- Cr of a pixel (R110). -/
def pixelCr (r g b : Int) : Int := (32768 * r - 27439 * g - 5329 * b + 8388608 + 32768 - 1) / 65536

/-- A component of the pixels k = 0..W·H−1 (R112), from the red, green and blue bytes at 3k, 3k+1 and 3k+2 of RGB. -/
def State.planeBytes (s : State) (f : Int → Int → Int → Int) : List Byte :=
  (List.range (s.w * s.h)).map fun k =>
    BitVec.ofInt 8 (f (s.rgb .pixel (3 * k)).toNat (s.rgb .pixel (3 * k + 1)).toNat (s.rgb .pixel (3 * k + 2)).toNat)

/-- The pseudocode of COLOR_CONVERT (R112): pixel (x, y) is k = y·W + x, so the planes' first W·H bytes are written. -/
def runColorConvert (s : State) : Ran :=
  { st :=
      { s with
        mem :=
          ((s.mem.write .py 0 (s.planeBytes pixelY)).write .pcb 0 (s.planeBytes pixelCb)).write .pcr 0
            (s.planeBytes pixelCr)
        valid := s.valid.converted }
    err := none }

/-- COLOR_CONVERT (R112). -/
def execColorConvert (s : State) : Host.Outcome State Fault Refusal := command checkGeometry runColorConvert s

end Sys2Proof.Machine
end

