-- ==== Sys2Proof/Machine/Entropy.lean ====
section
/-! DEFINITION. Family G, the entropy coder (spec/46_entropy_coder.md). -/

namespace Sys2Proof.Machine

/-- The entropy state while a scan is coded (R131, R134), with the bytes appended to OUT so far. -/
structure Coder where
  /-- buffer -/
  buffer : Nat
  /-- bits -/
  bits : Nat
  /-- last_dc[0], last_dc[1], last_dc[2] -/
  dc0 : Int
  dc1 : Int
  dc2 : Int
  /-- OUT[0 .. OUT_COUNT−1], the last byte first -/
  out : List Byte
  /-- OUT_COUNT -/
  count : Nat
  /-- How many symbols have been emitted: it numbers the reads of EHUF -/
  emissions : Nat
deriving DecidableEq, Repr

/-- The fresh state of a scan (R138). -/
def Coder.fresh : Coder := ⟨0, 0, 0, 0, 0, [], 0, 0⟩

/-- What coding gives: the next entropy state, or the error raised and the state in which it was raised. -/
abbrev Coded := Except (CmdError × Coder) Coder

/-- last_dc[c]. -/
def Coder.lastDc (c : Coder) (comp : Nat) : Int :=
  match comp with
  | 0 => c.dc0
  | 1 => c.dc1
  | _ => c.dc2

/-- last_dc[c] <- v. -/
def Coder.setLastDc (c : Coder) (comp : Nat) (v : Int) : Coder :=
  match comp with
  | 0 => { c with dc0 := v }
  | 1 => { c with dc1 := v }
  | _ => { c with dc2 := v }

/-! ## Bytes and bits -/

/-- APPEND(x), with OUT_CAP = `cap` (R132, R161). -/
def append (cap : Nat) (x : Byte) (c : Coder) : Coded :=
  if c.count = cap then .error (.ioFailure, c) else .ok { c with out := x :: c.out, count := c.count + 1 }

/-- EMIT_BYTE(x): append, and stuff a 0x00 after a 0xFF (R132). -/
def emitByte (cap : Nat) (x : Byte) (c : Coder) : Coded :=
  match append cap x c with
  | .error e => .error e
  | .ok c' => if x = 0xFF then append cap 0 c' else .ok c'

/-- The drain of PUT_BITS (R131): one byte a round, from the top of the buffer. `rounds` is how many whole bytes it
holds. -/
def drain (cap : Nat) : (rounds : Nat) → Coder → Coded
  | 0, c => .ok c
  | n + 1, c =>
    let byte := BitVec.ofNat 8 (c.buffer >>> (c.bits - 8))
    match emitByte cap byte { c with bits := c.bits - 8, buffer := c.buffer % 2 ^ (c.bits - 8) } with
    | .error e => .error e
    | .ok c' => drain cap n c'

/-- PUT_BITS(code, size) (R131). -/
def putBits (cap code size : Nat) (c : Coder) : Coded :=
  drain cap ((c.bits + size) / 8) { c with buffer := c.buffer <<< size ||| code, bits := c.bits + size }

/-! ## Symbols -/

/-- The number of magnitude bits of v (R129). -/
def magSize (v : Int) : Nat := bitlen v.natAbs

/-- The magnitude bits of v (R129). -/
def magBits (v : Int) : Nat :=
  let n := magSize v
  if 0 ≤ v then (v % 2 ^ n).toNat else ((v + 2 ^ n - 1) % 2 ^ n).toNat

/-- emit(t, sym) (R130), with the EHUF of the state `s`. -/
def emit (s : State) (t sym : Nat) (c : Coder) : Coded :=
  let entry := s.ehufEntry (.emission c.emissions) t sym
  if entrySize entry = 0 then .error (internal 3 t sym, c)
  else putBits s.params.outCap (entryCode entry) (entrySize entry) { c with emissions := c.emissions + 1 }

/-- The magnitude bits of v, after its symbol; none for v = 0 (R134, R135). -/
def putMag (s : State) (v : Int) (c : Coder) : Coded :=
  if magSize v = 0 then .ok c else putBits s.params.outCap (magBits v) (magSize v) c

/-! ## Blocks -/

/-- The DC step for the DC `v` of a block of component `comp` (R134). -/
def dcStep (s : State) (comp tDc : Nat) (v : Int) (c : Coder) : Coded :=
  let diff := v - c.lastDc comp
  match emit s tDc (magSize diff) c with
  | .error e => .error e
  | .ok c1 =>
    match putMag s diff c1 with
    | .error e => .error e
    | .ok c2 => .ok (c2.setLastDc comp v)

/-- `n` ZRL symbols (R135). -/
def emitZrls (s : State) (tAc : Nat) : (n : Nat) → Coder → Coded
  | 0, c => .ok c
  | n + 1, c =>
    match emit s tAc 0xF0 c with
    | .error e => .error e
    | .ok c' => emitZrls s tAc n c'

/-- The nonzero coefficient v after a run of r zeros: ZRLs while r > 15, then the symbol (r << 4) | n and the magnitude
bits (R135). -/
def acNonzero (s : State) (tAc : Nat) (r : Nat) (v : Int) (c : Coder) : Coded :=
  match emitZrls s tAc (r / 16) c with
  | .error e => .error e
  | .ok c1 =>
    if 15 < magSize v then .error (internal 4 tAc (magSize v), c1)
    else
      match emit s tAc (16 * (r % 16) + magSize v) c1 with
      | .error e => .error e
      | .ok c2 => putMag s v c2

/-- The AC walk over the coefficients in zig-zag order, with the run r, and EOB at its end if r > 0 (R135). -/
def acWalk (s : State) (tAc : Nat) : (vs : List Int) → (r : Nat) → Coder → Coded
  | [], r, c => if 0 < r then emit s tAc 0x00 c else .ok c
  | v :: vs, r, c =>
    if v = 0 then acWalk s tAc vs (r + 1) c
    else
      match acNonzero s tAc r v c with
      | .error e => .error e
      | .ok c' => acWalk s tAc vs 0 c'

/-- The AC coefficients of a block in zig-zag order: B[NATURAL[1]], …, B[NATURAL[63]] (R135). -/
def zigzagAc (b : List Int) : List Int := natural.tail.map fun i => b.getD i 0

/-- encode_block(B, c, t_dc, t_ac) (R136). -/
def encodeBlock (s : State) (b : List Int) (comp tDc tAc : Nat) (c : Coder) : Coded :=
  match dcStep s comp tDc (b.getD 0 0) c with
  | .error e => .error e
  | .ok c' => acWalk s tAc (zigzagAc b) 0 c'

/-- The component of block `b` (R128). -/
def blockComp (b : Nat) : Nat := if blockPlace b < 4 then 0 else blockPlace b - 3

/-- The DC table of block `b` (R128). -/
def dcTable (b : Nat) : Nat := if blockPlace b < 4 then 0 else 2

/-- The AC table of block `b` (R128). -/
def acTable (b : Nat) : Nat := if blockPlace b < 4 then 1 else 3

/-- The blocks of a list, in its order (R138). -/
def encodeBlocks (s : State) : List Nat → Coder → Coded
  | [], c => .ok c
  | b :: bs, c =>
    match encodeBlock s (s.block .scanBlock b) (blockComp b) (dcTable b) (acTable b) c with
    | .error e => .error e
    | .ok c' => encodeBlocks s bs c'

/-- FLUSH() (R137). -/
def flush (cap : Nat) (c : Coder) : Coded :=
  match putBits cap 0x7F 7 c with
  | .error e => .error e
  | .ok c' => .ok { c' with buffer := 0, bits := 0 }

/-- The whole scan: the MCUs in row-major order, six blocks each, which is increasing b = 6m + k; then the flush
(R113, R138). -/
def State.scan (s : State) : Coded :=
  match encodeBlocks s (List.range s.nblocks) Coder.fresh with
  | .error e => .error e
  | .ok c => flush s.params.outCap c

/-! ## Command -/

/-- last_dc as the registers LAST_DC0..2 hold it (R41). -/
def State.withLastDc (s : State) (c : Coder) : State :=
  { s with lastDc0 := BitVec.ofInt 32 c.dc0, lastDc1 := BitVec.ofInt 32 c.dc1, lastDc2 := BitVec.ofInt 32 c.dc2 }

/-- A scan that succeeds (R138): OUT holds the ECS and nothing else that is specified (R53). -/
def State.scanDone (s : State) (c : Coder) : State :=
  { s.withLastDc c with
    entBuf := BitVec.ofNat 64 c.buffer
    entBits := BitVec.ofNat 6 c.bits
    outCount := BitVec.ofNat 32 c.count
    mem := (s.mem.forget .out).write .out 0 c.out.reverse
    valid := s.valid.scanned }

/-- A scan that fails in the entropy state `c` (R138): OUT_COUNT is 0, SCAN stays 0, LAST_DC0..2 are last_dc at the
raise, ENT_BUF and ENT_BITS are draws, OUT is unspecified. -/
def State.scanFailed (s : State) (c : Coder) : State :=
  { s.withLastDc c with
    entBuf := Config.freeEntBuf s.epoch
    entBits := Config.freeEntBits s.epoch
    outCount := 0
    mem := s.mem.forget .out
    valid := s.valid.unscanned }

/-- The pseudocode of ENCODE_SCAN (R138). -/
def runEncodeScan (s : State) : Ran :=
  match s.scan with
  | .ok c => { st := s.scanDone c, err := none }
  | .error e => { st := s.scanFailed e.2, err := some e.1 }

/-- ENCODE_SCAN (R138). -/
def execEncodeScan (s : State) : Host.Outcome State Fault Refusal := command checkScan runEncodeScan s

end Sys2Proof.Machine
end

