-- ==== Sys2Proof/Machine/Extractor.lean ====
section
/-! DEFINITION. Family E, the block extractor and the edge operations (spec/44_block_extractor.md). -/

namespace Sys2Proof.Machine

/-- at(P, x, y): the sample of a plane, and 0 outside the image (R115). -/
def State.planeAt (s : State) (plane : Ram) (x y : Nat) : Nat :=
  if x < s.w ∧ y < s.h then (s.byte .sample plane (y * s.w + x)).toNat else 0

/-- Block `b` is one of Y0..Y3 (R113). -/
def isLuma (b : Nat) : Bool := decide (blockPlace b < 4)

/-- Block `b` is Cb or Cr (R113). -/
def isChroma (b : Nat) : Bool := decide (4 ≤ blockPlace b)

/-- The samples of the luma block `b` (R114, R116): sample (i, j) at index 8j + i. -/
def State.lumaSamples (s : State) (b : Nat) : List Int :=
  (List.range 64).map fun n => (s.planeAt .py (8 * s.blockX b + n % 8) (8 * s.blockY b + n / 8) : Int)

/-- The pseudocode of EXTRACT_LUMA (R116); 16gx + 8sx = 8·block_x. -/
def runExtractLuma (s : State) : Ran :=
  { st :=
      { s with
        mem := s.updateBlocks isLuma fun b => blockBytes (s.lumaSamples b)
        valid := s.valid.extractedLuma }
    err := none }

/-- EXTRACT_LUMA (R116). -/
def execExtractLuma (s : State) : Host.Outcome State Fault Refusal := command checkPlanes runExtractLuma s

/-- The plane of the chroma block `b`: PCB for Cb, PCR for Cr (R117). -/
def chromaPlane (b : Nat) : Ram := if blockPlace b = 4 then .pcb else .pcr

/-- One chroma sample: the rounded average of the 2×2 area at (x, y) (R117). -/
def State.average (s : State) (plane : Ram) (x y : Nat) : Nat :=
  (s.planeAt plane x y + s.planeAt plane (x + 1) y + s.planeAt plane x (y + 1) +
    s.planeAt plane (x + 1) (y + 1) + 2) / 4

/-- The samples of the chroma block `b` (R117): its 2×2 areas lie from (16gx, 16gy) on. -/
def State.chromaSamples (s : State) (b : Nat) : List Int :=
  (List.range 64).map fun n =>
    (s.average (chromaPlane b) (16 * s.gx (blockMcu b) + 2 * (n % 8)) (16 * s.gy (blockMcu b) + 2 * (n / 8)) : Int)

/-- The pseudocode of EXTRACT_CHROMA (R117). -/
def runExtractChroma (s : State) : Ran :=
  { st :=
      { s with
        mem := s.updateBlocks isChroma fun b => blockBytes (s.chromaSamples b)
        valid := s.valid.extractedChroma }
    err := none }

/-- EXTRACT_CHROMA (R117). -/
def execExtractChroma (s : State) : Host.Outcome State Fault Refusal := command checkPlanes runExtractChroma s

/-- The fix-up condition (R118). -/
def State.fixupApplies (s : State) : Bool := decide (s.nbh ≤ 2 * (s.nsbh - 1) + 1)

/-- Block `b` is Y2 or Y3 of an MCU of the bottom row, and the condition holds (R119). -/
def State.isFixed (s : State) (b : Nat) : Bool :=
  s.fixupApplies && decide (s.gy (blockMcu b) = s.nsbh - 1) && decide (blockPlace b = 2 ∨ blockPlace b = 3)

/-- The two bytes of the DC of Y1 of the MCU of block `b` (R119); Y2 and Y3 get the value of one read. -/
def State.fixupDc (s : State) (b : Nat) : List Byte :=
  toLe 2 (pattern16 (s.blk .fixup (6 * blockMcu b + 1) 0)).toNat

/-- The pseudocode of EDGE_DC_FIXUP (R119). -/
def runEdgeDcFixup (s : State) : Ran :=
  { st := { s with mem := s.updateBlocks s.isFixed s.fixupDc, valid := s.valid.unscanned }
    err := none }

/-- EDGE_DC_FIXUP (R119). -/
def execEdgeDcFixup (s : State) : Host.Outcome State Fault Refusal := command checkCoef runEdgeDcFixup s

/-- A block of 64 zeros. -/
def zeroBlock : List Byte := blockBytes (List.replicate 64 0)

/-- The luma block `b` lies right of the image: block_x ≥ nbw (R120). -/
def State.isRight (s : State) (b : Nat) : Bool := isLuma b && decide (s.nbw ≤ s.blockX b)

/-- The pseudocode of ZERO_RIGHT (R120). -/
def runZeroRight (s : State) : Ran :=
  { st := { s with mem := s.updateBlocks s.isRight fun _ => zeroBlock, valid := s.valid.unscanned }
    err := none }

/-- ZERO_RIGHT (R120). -/
def execZeroRight (s : State) : Host.Outcome State Fault Refusal := command checkCoef runZeroRight s

/-- The luma block `b` lies below the image: block_y ≥ nbh (R121). -/
def State.isBelow (s : State) (b : Nat) : Bool := isLuma b && decide (s.nbh ≤ s.blockY b)

/-- The pseudocode of ZERO_BOTTOM (R121). -/
def runZeroBottom (s : State) : Ran :=
  { st := { s with mem := s.updateBlocks s.isBelow fun _ => zeroBlock, valid := s.valid.unscanned }
    err := none }

/-- ZERO_BOTTOM (R121). -/
def execZeroBottom (s : State) : Host.Outcome State Fault Refusal := command checkCoef runZeroBottom s

end Sys2Proof.Machine
end

