-- ==== Sys2Proof/Machine/Fdct.lean ====
section
/-! DEFINITION. Family F, the forward DCT and the quantizer (spec/45_fdct_quantize.md). -/

namespace Sys2Proof.Machine

/-! ## FDCT_REF (R124) -/

/-- Eight values: the input or the output of a butterfly. -/
structure Oct where
  x0 : Int
  x1 : Int
  x2 : Int
  x3 : Int
  x4 : Int
  x5 : Int
  x6 : Int
  x7 : Int
deriving DecidableEq, Repr

/-- The values of an octet in order. -/
def Oct.toList (o : Oct) : List Int := [o.x0, o.x1, o.x2, o.x3, o.x4, o.x5, o.x6, o.x7]

/-- The values of `v` at `at0`, `at0 + stride`, and so on: a row (stride 1) or a column (stride 8) of a block. -/
def octAt (v : List Int) (at0 stride : Nat) : Oct where
  x0 := v.getD at0 0
  x1 := v.getD (at0 + stride) 0
  x2 := v.getD (at0 + 2 * stride) 0
  x3 := v.getD (at0 + 3 * stride) 0
  x4 := v.getD (at0 + 4 * stride) 0
  x5 := v.getD (at0 + 5 * stride) 0
  x6 := v.getD (at0 + 6 * stride) 0
  x7 := v.getD (at0 + 7 * stride) 0

/-- MUL(a, k) = (a·k) >> 8, a floor shift (R124). -/
def mul8 (a k : Int) : Int := a * k / 256

/-- One 8-point AA&N butterfly, pass(v) (R124). -/
def aanPass (v : Oct) : Oct :=
  let t0 := v.x0 + v.x7
  let t7 := v.x0 - v.x7
  let t1 := v.x1 + v.x6
  let t6 := v.x1 - v.x6
  let t2 := v.x2 + v.x5
  let t5 := v.x2 - v.x5
  let t3 := v.x3 + v.x4
  let t4 := v.x3 - v.x4
  let e10 := t0 + t3
  let e13 := t0 - t3
  let e11 := t1 + t2
  let e12 := t1 - t2
  let z1 := mul8 (e12 + e13) c0707
  let o10 := t4 + t5
  let o11 := t5 + t6
  let o12 := t6 + t7
  let z5 := mul8 (o10 - o12) c0382
  let z2 := mul8 o10 c0541 + z5
  let z4 := mul8 o12 c1306 + z5
  let z3 := mul8 o11 c0707
  let z11 := t7 + z3
  let z13 := t7 - z3
  { x0 := e10 + e11
    x1 := z11 + z4
    x2 := e13 + z1
    x3 := z13 - z2
    x4 := e10 - e11
    x5 := z13 + z2
    x6 := e13 - z1
    x7 := z11 - z4 }

/-- The row passes: the block after them, in natural order. -/
def rowPasses (d : List Int) : List Int := (List.range 8).flatMap fun j => (aanPass (octAt d (8 * j) 1)).toList

/-- The column passes: the eight columns after them. -/
def columnPasses (y : List Int) : List (List Int) := (List.range 8).map fun i => (aanPass (octAt y i 8)).toList

/-- The descale of one coefficient by its AANSCALE entry `a` (R124). -/
def descale (y : Int) (a : Nat) : Int :=
  let m : Int := ((y.natAbs * 16384 + a / 2) / a : Nat)
  if 0 ≤ y then m else -m

/-- FDCT_REF(d) (R124). -/
def fdctRef (d : List Int) : List Int :=
  let columns := columnPasses (rowPasses d)
  (List.range 64).map fun n => descale ((columns.getD (n % 8) []).getD (n / 8) 0) (aanScale.getD n 1)

/-! ## FDCT_KERNEL (R123) -/

/-- Every value is one that a level-shifted sample can have (R122). -/
def inRange (d : List Int) : Bool := d.all fun v => decide (-128 ≤ v) && decide (v ≤ 127)

/-- Every value is the first one. -/
def isConstant (d : List Int) : Bool := d.all fun v => decide (v = d.headD 0)

/-- FDCT_KERNEL(d), the 64 coefficients in natural order (R123): FDCT_REF, or another kernel, which is exact on constant
blocks (property 4), a fixed function of the block on the others (property 1), and unspecified outside -128..127 (93 U2;
`block` numbers the call). -/
def fdctKernel (k : Kernel) (epoch block : Nat) (d : List Int) : List Int :=
  match k with
  | .reference => fdctRef d
  | .other id =>
    if inRange d then
      if isConstant d then 64 * d.headD 0 :: List.replicate 63 0
      else (List.range 64).map (Config.kernelCoef id d)
    else (List.range 64).map (Config.freeCoef epoch block)

/-! ## The quantizer (R125) -/

/-- v >> n for n ≥ 0 (R16). The spec gives no shift by a negative n: a free value (log entry 12). Every quad that
BUILD_QTABLES writes has 16 + shift ≥ 0 (R101, R102). -/
def shiftDown (v : Nat) (n : Int) : Nat := if 0 ≤ n then v / 2 ^ n.toNat else Config.negativeShift v n

/-- quantize(X, recip, corr, shift). -/
def quantize (x : Int) (recip corr : Nat) (shift : Int) : Int :=
  let p : Int := shiftDown ((x.natAbs + corr) * recip) (16 + shift)
  s16 (if x < 0 then -p else p)

/-- The quantization table of block `b`: luminance for Y0..Y3, chrominance for Cb and Cr (R127). -/
def blockTable (b : Nat) : Nat := if blockPlace b < 4 then 0 else 1

/-- The level-shifted samples of block `b` (R122). -/
def State.levelShifted (s : State) (b : Nat) : List Int := (s.block .blockIn b).map fun v => v - 128

/-- The coefficients of block `b` before the quantizer (R127). -/
def State.coefs (s : State) (b : Nat) : List Int := fdctKernel s.params.kernel s.epoch b (s.levelShifted b)

/-- The quantized coefficients of block `b` (R127): words 0 and 1 of the quad are read unsigned, word 3 signed (R47). -/
def State.quantized (s : State) (b : Nat) : List Int :=
  (s.coefs b).zipIdx.map fun x =>
    quantize x.1 (s.divWord (.divisor b) (blockTable b) 0 x.2).toNat (s.divWord (.divisor b) (blockTable b) 1 x.2).toNat
      (s.divWord (.divisor b) (blockTable b) 3 x.2).toInt

/-- The pseudocode of FDCT_QUANT (R127). -/
def runFdctQuant (s : State) : Ran :=
  { st :=
      { s with
        mem := s.updateBlocks (fun _ => true) fun b => blockBytes (s.quantized b)
        valid := s.valid.transformed }
    err := none }

/-- FDCT_QUANT (R127). -/
def execFdctQuant (s : State) : Host.Outcome State Fault Refusal := command checkSamples runFdctQuant s

end Sys2Proof.Machine
end

