-- ==== Sys2Proof/Machine/Huffman.lean ====
section
/-! DEFINITION. Family C, the Huffman table builder (spec/42_huffman_builder.md). -/

namespace Sys2Proof.Machine

/-- huffsize: each length l in 1..16, HBITS[t][l] times (R104). -/
def State.huffSizes (s : State) (t : Nat) : List Nat :=
  (List.range' 1 16).flatMap fun l => List.replicate (s.hbits t l).toNat l

/-- huffcode, the canonical codes of a list of code sizes, from the length `si` and the code `code` on (R106); the
length at which the code space is over-filled, if one is (R107). One round assigns the codes of one length; sizes are
at most 16, so 17 rounds are enough. -/
def assignCodes : (rounds : Nat) → (sizes : List Nat) → (si code : Nat) → Except Nat (List Nat)
  | 0, _, _, _ => .ok []
  | n + 1, sizes, si, code =>
    if sizes.isEmpty then .ok []
    else
      let run := (sizes.takeWhile (· == si)).length
      if 2 ^ si < code + run then .error si
      else
        match assignCodes n (sizes.dropWhile (· == si)) (si + 1) (2 * (code + run)) with
        | .ok codes => .ok (List.range' code run ++ codes)
        | .error l => .error l

/-- huffcode of a whole list of code sizes: it starts at the first size with code 0 (R106). -/
def huffCodes (sizes : List Nat) : Except Nat (List Nat) := assignCodes 17 sizes (sizes.headD 0) 0

/-- The bytes of an EHUF entry: {EHUFSI in [20:16], EHUFCO in [15:0]} (R49, R83). -/
def entryBytes (code size : Nat) : List Byte :=
  toLe 4 ((0 : BitVec 11) ++ BitVec.ofNat 5 size ++ BitVec.ofNat 16 code).toNat

/-- The code and the size of every position p of VALUES, with its symbol HVALS[t][p] (R108). -/
def State.assignments (s : State) (t : Nat) (sizes codes : List Nat) : List (Nat × Nat × Nat) :=
  ((List.range sizes.length).map fun p => (s.hvals t p).toNat).zip (codes.zip sizes)

/-- derived[sym]: the code and the size of the last position that has the symbol, and length 0 where none has it (R108:
the loop runs in increasing p, so the later position wins). -/
def derivedEntry (assigned : List (Nat × Nat × Nat)) (sym : Nat) : Nat × Nat :=
  (assigned.reverse.lookup sym).getD (0, 0)

/-- The 1024 bytes of EHUF[t] (R108). -/
def ehufBytes (assigned : List (Nat × Nat × Nat)) : List Byte :=
  (List.range 256).flatMap fun sym => entryBytes (derivedEntry assigned sym).1 (derivedEntry assigned sym).2

/-- BUILD_HUFF fails: VALID.HUFFt is cleared, EHUF[t] keeps its contents (R105, R107, R109). -/
def State.huffFailed (s : State) (t : Nat) (e : CmdError) : Ran :=
  { st := { s with valid := s.valid.setHuff t false }, err := some e }

/-- The pseudocode of BUILD_HUFF with SEL = t (R109). -/
def runBuildHuff (t : BitVec 2) (s : State) : Ran :=
  let sizes := s.huffSizes t.toNat
  if 256 < sizes.length then s.huffFailed t.toNat (internal 1 t.toNat 0)
  else
    match huffCodes sizes with
    | .error si => s.huffFailed t.toNat (internal 2 t.toNat si)
    | .ok codes =>
      { st :=
          { s with
            mem := s.mem.write .ehuf (ehufOff t.toNat 0) (ehufBytes (s.assignments t.toNat sizes codes))
            valid := s.valid.setHuff t.toNat true }
        err := none }

/-- BUILD_HUFF t (R109). -/
def execBuildHuff (t : BitVec 2) (s : State) : Host.Outcome State Fault Refusal :=
  command checkNothing (runBuildHuff t) s

end Sys2Proof.Machine
end

