-- ==== Sys2Proof/Machine/Quantizer.lean ====
section
/-! DEFINITION. Family B, the quantization-table builder (spec/41_quantizer_builder.md). -/

namespace Sys2Proof.Machine

/-- The clamped quality of the raw byte (R97). -/
def quality (raw : Nat) : Nat := clamp raw 1 100

/-- The scale factor of the clamped quality (R98). -/
def scaleFactor (q : Nat) : Nat := if q < 50 then 5000 / q else 200 - 2 * q

/-- A quantization value from its base and the scale factor (R99). -/
def quantEntry (base scale : Nat) : Nat := clamp ((base * scale + 50) / 100) 1 255

/-- A reciprocal quadruple (R100). -/
structure Quad where
  recip : Nat
  corr : Nat
  scale : Nat
  shift : Int
deriving DecidableEq, Repr

/-- quad(q8) (R100, R102). -/
def quad (q8 : Nat) : Quad :=
  if q8 = 1 then ⟨1, 0, 1, -16⟩
  else
    let b := bitlen q8 - 1
    let r := 16 + b
    let fq := 2 ^ r / q8
    let fr := 2 ^ r % q8
    let c := q8 / 2
    if fr = 0 then ⟨fq / 2, c, 2 ^ (32 - (r - 1)), (r - 1 : Nat) - 16⟩
    else if fr ≤ q8 / 2 then ⟨fq, c + 1, 2 ^ (32 - r), (r : Nat) - 16⟩
    else ⟨fq + 1, c, 2 ^ (32 - r), (r : Nat) - 16⟩

/-- Component k of a quadruple, in the order of DIV (R47). -/
def Quad.part (q : Quad) (k : Nat) : Int :=
  match k with
  | 0 => q.recip
  | 1 => q.corr
  | 2 => q.scale
  | _ => q.shift

/-- QTBL[t][i] as built from the raw quality (R97 to R99). -/
def builtQtbl (raw t i : Nat) : Nat := quantEntry ((quantBase t).getD i 0) (scaleFactor (quality raw))

/-- The 128 bytes of QTBL (R46, R99). -/
def qtblBytes (raw : Nat) : List Byte :=
  (List.range 128).map fun n => BitVec.ofNat 8 (builtQtbl raw (n / 64) (n % 64))

/-- The word DIV[t][k][i] as built from the raw quality: the low 16 bits of its quadruple's part (R100). -/
def builtDiv (raw t k i : Nat) : Half := pattern16 ((quad (8 * builtQtbl raw t i)).part k)

/-- The 1024 bytes of DIV, in address order: t, then k, then i (R61). -/
def divBytes (raw : Nat) : List Byte :=
  (List.range 512).flatMap fun n => toLe 2 (builtDiv raw (n / 256) (n / 64 % 4) (n % 64)).toNat

/-- The pseudocode of BUILD_QTABLES (R103). No operand value can make it fail. -/
def runBuildQtables (s : State) : Ran :=
  { st :=
      { s with
        mem := (s.mem.write .qtbl 0 (qtblBytes s.quality.toNat)).write .div 0 (divBytes s.quality.toNat)
        valid := s.valid.builtQt }
    err := none }

/-- BUILD_QTABLES (R103). -/
def execBuildQtables (s : State) : Host.Outcome State Fault Refusal := command checkNothing runBuildQtables s

end Sys2Proof.Machine
end

