-- ==== Sys2Proof/Machine/Sequencer.lean ====
section
/-! DEFINITION. Family I, the sequencer: NOP, INIT_TABLES, ENCODE_IMAGE, SOFT_RESET (spec/48_sequencer.md). -/

namespace Sys2Proof.Machine

/-- NOP (R151): nothing but completion. -/
def execNop (s : State) : Host.Outcome State Fault Refusal := command checkNothing (fun s => ⟨s, none⟩) s

/-- "do X": the pseudocode of the component X after `r`, unless `r` raised an error (R152). -/
def Ran.andDo (r : Ran) (run : State → Ran) : Ran :=
  match r.err with
  | none => run r.st
  | some _ => r

/-- The pseudocode of INIT_TABLES (R152): it stops at the first table that fails. -/
def runInitTables (s : State) : Ran :=
  ((((runBuildQtables s).andDo (runBuildHuff 0)).andDo (runBuildHuff 1)).andDo (runBuildHuff 2)).andDo
    (runBuildHuff 3)

/-- INIT_TABLES (R152). -/
def execInitTables (s : State) : Host.Outcome State Fault Refusal := command checkNothing runInitTables s

/-- The edge operations in the order EDGE_CFG.ORDER gives (R153, R42). -/
def Ran.edges (r : Ran) (order : Bool) : Ran :=
  if order then ((r.andDo runZeroRight).andDo runZeroBottom).andDo runEdgeDcFixup
  else ((r.andDo runEdgeDcFixup).andDo runZeroRight).andDo runZeroBottom

/-- The stages of ENCODE_IMAGE that come before its scan (R153). -/
def runBeforeScan (s : State) : Ran :=
  ((((runColorConvert s).andDo runExtractLuma).andDo runExtractChroma).andDo runFdctQuant).edges s.edgeOrder

/-- The pseudocode of ENCODE_IMAGE (R153). -/
def runEncodeImage (s : State) : Ran := (runBeforeScan s).andDo runEncodeScan

/-- ENCODE_IMAGE (R153). -/
def execEncodeImage (s : State) : Host.Outcome State Fault Refusal := command checkImage runEncodeImage s

/-- SOFT_RESET (R154): a write of the word `ctrl` to CTRL. With bit 0 = 1 it resets the core, whether BUSY is 0 or 1;
a write with bit 0 = 0 does nothing. -/
def execSoftReset (ctrl : Word) (s : State) : Host.Outcome State Fault Refusal :=
  .next (if ctrl.getLsbD 0 then s.resetCore else s)

end Sys2Proof.Machine
end

