-- ==== Sys2Proof/Machine/Dispatch.lean ====
section
/-! DEFINITION. The meaning of every operation: one arm per constructor, one direct call each. -/

namespace Sys2Proof.Machine

def exec (i : Instr) (s : State) : Host.Outcome State Fault Refusal :=
  match i with
  | .nop => Sys2Proof.Machine.execNop s
  | .buildQtables => Sys2Proof.Machine.execBuildQtables s
  | .buildHuff t => Sys2Proof.Machine.execBuildHuff t s
  | .initTables => Sys2Proof.Machine.execInitTables s
  | .colorConvert => Sys2Proof.Machine.execColorConvert s
  | .extractLuma => Sys2Proof.Machine.execExtractLuma s
  | .extractChroma => Sys2Proof.Machine.execExtractChroma s
  | .edgeDcFixup => Sys2Proof.Machine.execEdgeDcFixup s
  | .zeroRight => Sys2Proof.Machine.execZeroRight s
  | .zeroBottom => Sys2Proof.Machine.execZeroBottom s
  | .fdctQuant => Sys2Proof.Machine.execFdctQuant s
  | .encodeScan => Sys2Proof.Machine.execEncodeScan s
  | .encodeImage => Sys2Proof.Machine.execEncodeImage s
  | .softReset ctrl => Sys2Proof.Machine.execSoftReset ctrl s

end Sys2Proof.Machine
end

