-- ==== Sys2Proof/Machine/Port.lean ====
section
/-! DEFINITION. The slave port (spec/20_memory.md): the address map, the registers, MemRead and MemWrite. -/

namespace Sys2Proof.Machine

/-! ## The registers (spec/10_state.md §3) -/

/-- The registers, in the order of their offsets 0x000, 0x004, …, 0x05C. -/
inductive Reg where
  | id | version | ctrl | cmd | status | irqEn | quality | width | height | valid | geomB | geomMcu
  | outCount | entBufLo | entBufHi | entBits | lastDc0 | lastDc1 | lastDc2 | edgeCfg
  | paramMaxW | paramMaxH | paramOutCap | errInfo
deriving DecidableEq, Repr

/-- All registers, in address order (R29 to R44). -/
def allRegs : List Reg :=
  [.id, .version, .ctrl, .cmd, .status, .irqEn, .quality, .width, .height, .valid, .geomB, .geomMcu,
   .outCount, .entBufLo, .entBufHi, .entBits, .lastDc0, .lastDc1, .lastDc2, .edgeCfg,
   .paramMaxW, .paramMaxH, .paramOutCap, .errInfo]

/-- The register at the offset `off` < 0x60. -/
def regAt (off : Nat) : Reg := allRegs.getD (off / 4) .id

/-- What a host read of a register returns (R29 to R44). -/
def State.readReg (s : State) : Reg → Word
  | .id => 0x4A504547
  | .version => 7
  | .ctrl => 0
  | .cmd => 0
  | .status => s.status.toWord
  | .irqEn => s.irqEn.toWord
  | .quality => s.quality.setWidth 32
  | .width => s.width.setWidth 32
  | .height => s.height.setWidth 32
  | .valid => s.valid.toWord
  | .geomB => s.geomB
  | .geomMcu => s.geomMcu
  | .outCount => s.outCount
  | .entBufLo => s.entBuf.extractLsb' 0 32
  | .entBufHi => s.entBuf.extractLsb' 32 32
  | .entBits => s.entBits.setWidth 32
  | .lastDc0 => s.lastDc0
  | .lastDc1 => s.lastDc1
  | .lastDc2 => s.lastDc2
  | .edgeCfg => (bit s.edgeOrder).setWidth 32
  | .paramMaxW => BitVec.ofNat 32 s.params.maxW
  | .paramMaxH => BitVec.ofNat 32 s.params.maxH
  | .paramOutCap => BitVec.ofNat 32 s.params.outCap
  | .errInfo => s.errInfo.toWord

/-- Every field of the register is RO (R28): a host write is ignored (R64). -/
def Reg.readOnly : Reg → Bool
  | .ctrl | .cmd | .status | .irqEn | .quality | .width | .height | .edgeCfg => false
  | .id | .version | .valid | .geomB | .geomMcu | .outCount | .entBufLo | .entBufHi | .entBits => true
  | .lastDc0 | .lastDc1 | .lastDc2 | .paramMaxW | .paramMaxH | .paramOutCap | .errInfo => true

/-- A host write is dropped while BUSY = 1 (R58). -/
def Reg.locked : Reg → Bool
  | .cmd | .quality | .width | .height | .edgeCfg => true
  | .ctrl | .status | .irqEn | .id | .version | .valid | .geomB | .geomMcu | .outCount => false
  | .entBufLo | .entBufHi | .entBits | .lastDc0 | .lastDc1 | .lastDc2 => false
  | .paramMaxW | .paramMaxH | .paramOutCap | .errInfo => false

/-- A host read returns a draw while BUSY = 1 (R68). -/
def Reg.volatile : Reg → Bool
  | .valid | .outCount | .entBufLo | .entBufHi | .entBits | .lastDc0 | .lastDc1 | .lastDc2 | .errInfo => true
  | .id | .version | .ctrl | .cmd | .status | .irqEn | .quality | .width | .height => false
  | .geomB | .geomMcu | .edgeCfg | .paramMaxW | .paramMaxH | .paramOutCap => false

/-- WIDTH.W <- v, with the geometry invalidation (R36, R57). -/
def State.setWidth (s : State) (v : Half) : State :=
  if v = s.width then s else { s with width := v, valid := s.valid.newGeometry }

/-- HEIGHT.H <- v, with the geometry invalidation (R37, R57). -/
def State.setHeight (s : State) (v : Half) : State :=
  if v = s.height then s else { s with height := v, valid := s.valid.newGeometry }

/-- A host write of `v` to a register, field by field (R28, R72). A write of CTRL is the operation SOFT_RESET, if it is
one (R154). -/
def State.writeReg (s : State) (r : Reg) (v : Word) : Host.Outcome State Fault Refusal :=
  match r with
  | .ctrl =>
    match decodePort .ctrl v with
    | .ok i => exec i s
    | .error _ => .next s
  | .cmd => .next (s.present v)
  | .status => .next (s.acknowledge v)
  | .irqEn => .next { s with irqEn := ⟨v.getLsbD 0, v.getLsbD 1⟩ }
  | .quality => .next { s with quality := v.extractLsb' 0 8 }
  | .width => .next (s.setWidth (v.extractLsb' 0 16))
  | .height => .next (s.setHeight (v.extractLsb' 0 16))
  | .edgeCfg => .next { s with edgeOrder := v.getLsbD 0 }
  | .id | .version | .valid | .geomB | .geomMcu | .outCount | .entBufLo | .entBufHi | .entBits => .next s
  | .lastDc0 | .lastDc1 | .lastDc2 | .paramMaxW | .paramMaxH | .paramOutCap | .errInfo => .next s

/-! ## The address map (R61) -/

/-- The first address of a RAM's window. -/
def Ram.base : Ram → Nat
  | .qtbl => 0x100
  | .div => 0x200
  | .huffSpec => 0x800
  | .ehuf => 0x1000
  | .rgb => 0x10000000
  | .out => 0x20000000
  | .py => 0x30000000
  | .pcb => 0x40000000
  | .pcr => 0x50000000
  | .blk => 0x60000000

/-- The address lies in the window of the RAM. Legal parameters keep every window inside its 256 MiB region (R11, R61). -/
def inWindow (p : Params) (a : Nat) (r : Ram) : Bool :=
  decide (r.base ≤ a) && decide (a < r.base + min (p.size r) (2 ^ 28))

/-- What an address reaches: a register byte, or a byte of a RAM at an offset. -/
inductive Place where
  | reg (off : Nat)
  | ram (r : Ram) (off : Nat)
deriving DecidableEq, Repr

/-- The address map; `none` is unmapped. -/
def locate (p : Params) (a : Nat) : Option Place :=
  if a < 0x60 then some (.reg a)
  else (allRams.find? (inWindow p a)).map fun r => .ram r (a - r.base)

/-- All n bytes from A on are mapped (R67). -/
def mapped (p : Params) (a n : Nat) : Bool := (List.range n).all fun j => (locate p (a + j)).isSome

/-- The number of bytes of a transaction (R60). -/
def Size.bytes : Size → Nat
  | .byte => 1
  | .half => 2
  | .word => 4

/-- The access is not a bus error: mapped, aligned, and of 4 bytes if it reaches a register (R65, R66, R67). -/
def accessOk (p : Params) (a n : Nat) : Bool :=
  mapped p a n && decide (a % n = 0) && (decide (0x60 ≤ a) || decide (n = 4))

/-- The host may write the RAM (R61). -/
def Ram.writable : Ram → Bool
  | .huffSpec | .rgb | .py | .pcb | .pcr | .blk => true
  | .qtbl | .div | .ehuf | .out => false

/-! ## MemRead and MemWrite (R63, R64) -/

/-- Byte j of a register, little-endian (R63). -/
def wordByte (w : Word) (j : Nat) : Byte := w.extractLsb' (8 * j) 8

/-- The byte at an address in the view of the address map (R63). -/
def State.byteAt (s : State) (a : Nat) : Byte :=
  match locate s.params a with
  | some (.reg off) => wordByte (s.readReg (regAt off)) (off % 4)
  | some (.ram r off) => s.byte .port r off
  | none => 0

/-- The address is volatile while BUSY = 1 (R68). -/
def volatileAt (p : Params) (a : Nat) : Bool :=
  match locate p a with
  | some (.reg off) => (regAt off).volatile
  | some (.ram _ _) => true
  | none => false

/-- The n-byte integer a read returns. -/
def readValue (bs : List Byte) : Word := BitVec.ofNat 32 (fromLe bs)

/-- MemRead(A, n) (R63); `none` is BUSERR. -/
def State.memRead (s : State) (a n : Nat) : Option Word :=
  if accessOk s.params a n then
    if s.status.busy && volatileAt s.params a then
      some (readValue ((List.range n).map fun j => Config.freeBusyByte s.epoch (a + j)))
    else some (readValue ((List.range n).map fun j => s.byteAt (a + j)))
  else none

/-- The bytes that a write of n bytes at the offset `off` of a window stores: a RES byte of HUFFSPEC ignores its byte
(R61). -/
def storeWrites (r : Ram) (off n : Nat) (v : Word) : List (Nat × List Byte) :=
  ((List.range n).filter fun j => !(decide (r = .huffSpec) && isResByte (off + j))).map fun j =>
    (off + j, [wordByte v j])

/-- MemWrite(A, n, v) (R64) of an access that is no bus error. -/
def State.memWrite (s : State) (a n : Nat) (v : Word) : Host.Outcome State Fault Refusal :=
  match locate s.params a with
  | some (.reg off) =>
    let r := regAt off
    if r.readOnly then .next s
    else if s.status.busy && r.locked then .next s.drop
    else s.writeReg r v
  | some (.ram r off) =>
    if !r.writable then .next s
    else if s.status.busy then .next s.drop
    else .next { s with mem := s.mem.writeAll r (storeWrites r off n v) }
  | none => .next s

/-- The response to a transaction is given (R60). -/
def State.answer (s : State) (r : Reply) : State := { s with replies := r :: s.replies }

/-- One host transaction (R60 to R68). A bus error is a fault of the host's access, naming the address (R67); a
transaction while rst is asserted is rejected (R175, 93 U12). -/
def hostStep (t : Txn) (s : State) : Host.Outcome State Fault Refusal :=
  if s.rst then .refused .transactionDuringReset
  else
    match t with
    | .read addr size =>
      match s.memRead addr.toNat size.bytes with
      | some v => .next (s.answer (.okRead size v))
      | none => .fault (.busError addr)
    | .write addr size data =>
      if accessOk s.params addr.toNat size.bytes then
        match s.memWrite addr.toNat size.bytes data with
        | .next s' => .next (s'.answer .okWrite)
        | .fault f => .fault f
        | .refused r => .refused r
      else .fault (.busError addr)

end Sys2Proof.Machine
end

