-- ==== Sys2Proof/Machine/Engine.lean ====
section
/-! DEFINITION. The engine step (spec/60_exceptions.md R157), the reset input (spec/70_reset_and_hazards.md R175), and
one event of the total order (spec/20_memory.md R73). -/

namespace Sys2Proof.Machine

/-- The engine step on the pending word (R157): it is decoded; an ILLEGAL word completes with IllegalCommand and no other
effect (R162); an operation runs. -/
def engineStep (s : State) : Host.Outcome State Fault Refusal :=
  match decodePort .cmd s.pending with
  | .ok i => exec i s
  | .error _ => .next (complete (some .illegalCommand) s)

/-- The engine's turn: it steps if a command is pending (R157), and is idle otherwise (R174). -/
def engineTurn (s : State) : Host.Outcome State Fault Refusal :=
  if s.status.busy then engineStep s else .next s

/-- The level of rst changes; asserting it resets the core (R175). -/
def resetInput (asserted : Bool) (s : State) : State :=
  if asserted then { s.resetCore with rst := true } else { s with rst := false }

/-- One event. -/
def perform (e : Event) (s : State) : Host.Outcome State Fault Refusal :=
  match e with
  | .host t => hostStep t s
  | .engine => engineTurn s
  | .rst asserted => .next (resetInput asserted s)

/-- The next event is taken, and the draws of its step are told apart from those of every other (R19, R55). -/
def State.advance (s : State) : State := { s with events := s.events.tail, epoch := s.epoch + 1 }

/-- The next step of the machine. When no event is listed, it is the engine's turn: a pending command's step eventually
happens (R183). -/
def nextStep (s : State) : Host.Outcome State Fault Refusal :=
  perform (s.events.headD .engine) s.advance

/-- The machine in which the word `w` of the operation table is the next to run: a command word stands accepted in
PENDING (R156) and the engine's turn comes next; a word that is only a CTRL write is the host's next transaction
(log entry 7). -/
def placeWord (s : State) (nbits w : Nat) : State :=
  let word : Word := BitVec.ofNat 32 w
  match decodeTableWord nbits w with
  | some (.softReset ctrl) => { s with rst := false, events := .host (.write 0x008 .word ctrl) :: s.events }
  | _ => { s.latch word with events := .engine :: s.events }

end Sys2Proof.Machine
end

