-- ==== Sys2Proof/Machine/Step.lean ====
section
/-! DEFINITION. One step of the machine. -/

namespace Sys2Proof.Machine

/-- One step: one event of the total order of R73 (Machine/Engine.lean: `nextStep`). -/
def step (s : State) : Host.Outcome State Fault Refusal := nextStep s

/-- The machine with a word of the opcode table placed so that the next step runs it (Machine/Engine.lean: `placeWord`). -/
def State.withFetchWord (s : State) (nbits w : Nat) : State := placeWord s nbits w

end Sys2Proof.Machine
end

