-- ==== Sys2Proof/Machine/Container.lean ====
section
/-! DEFINITION. Family H, the JFIF framing (spec/47_container_framing.md): what the host writes around the scan, as a
function of the core's state as the host can read it. It is no part of the core's step (R8). -/

namespace Sys2Proof.Machine

/-- Bytes written as numbers. -/
def asBytes (ns : List Nat) : List Byte := ns.map (BitVec.ofNat 8)

/-- A 16-bit integer, big-endian (file 47: "All multi-byte integers are big-endian"). -/
def be16 (v : Nat) : List Byte := [BitVec.ofNat 8 (v / 256), BitVec.ofNat 8 v]

/-- SOI (R141). -/
def soi : List Byte := asBytes [0xFF, 0xD8]

/-- APP0/JFIF (R142). -/
def app0 : List Byte :=
  asBytes ([0xFF, 0xE0, 0x00, 0x10, 0x4A, 0x46, 0x49, 0x46, 0x00] ++
    [0x01, 0x01, 0x00, 0x00, 0x01, 0x00, 0x01, 0x00, 0x00])

/-- DQT of the table `t`: its values in zig-zag order (R143). -/
def State.dqt (s : State) (t : Nat) : List Byte :=
  asBytes [0xFF, 0xDB, 0x00, 0x43, t] ++ natural.map (s.qtbl .port t)

/-- SOF0 (R144). -/
def State.sof0 (s : State) : List Byte :=
  asBytes [0xFF, 0xC0, 0x00, 0x11, 0x08] ++ be16 s.h ++ be16 s.w ++
    asBytes [0x03, 0x01, 0x22, 0x00, 0x02, 0x11, 0x01, 0x03, 0x11, 0x01]

/-- HBITS[t][1..16]. -/
def State.bitsOf (s : State) (t : Nat) : List Byte := (List.range' 1 16).map (s.hbits t)

/-- Σ BITS of the table `t` (R145). -/
def State.symbolCount (s : State) (t : Nat) : Nat := ((s.bitsOf t).map BitVec.toNat).sum

/-- Tc|Th of the table `t`: (is_ac << 4) | table_index (R145). -/
def tcTh (t : Nat) : Nat := 16 * (t % 2) + t / 2

/-- DHT of the table `t` (R145). -/
def State.dht (s : State) (t : Nat) : List Byte :=
  asBytes [0xFF, 0xC4] ++ be16 (2 + 1 + 16 + s.symbolCount t) ++ asBytes [tcTh t] ++ s.bitsOf t ++
    (List.range (s.symbolCount t)).map (s.hvals t)

/-- SOS (R146). -/
def sos : List Byte :=
  asBytes [0xFF, 0xDA, 0x00, 0x0C, 0x03, 0x01, 0x00, 0x02, 0x11, 0x03, 0x11, 0x00, 0x3F, 0x00]

/-- The entropy-coded segment, OUT[0 .. OUT_COUNT−1] (R147). -/
def State.ecs (s : State) : List Byte := s.bytes .port .out 0 s.outCount.toNat

/-- EOI (R148). -/
def eoi : List Byte := asBytes [0xFF, 0xD9]

/-- The file, in segment order (R140). -/
def State.jfifFile (s : State) : List Byte :=
  soi ++ app0 ++ s.dqt 0 ++ s.dqt 1 ++ s.sof0 ++ s.dht 0 ++ s.dht 1 ++ s.dht 2 ++ s.dht 3 ++ sos ++ s.ecs ++ eoi

/-- The last command was an encode, ENCODE_SCAN or ENCODE_IMAGE, and it completed without an error: BUSY = 0, DONE = 1,
ERR = 0, LAST_OP is one of the two opcodes (R33, R80), and VALID.SCAN = 1 (R147, R150). -/
def State.encoded (s : State) : Bool :=
  !s.status.busy && s.status.done && !s.status.err &&
    (decide (s.status.lastOp = opField (encode .encodeScan)) || decide (s.status.lastOp = opField (encode .encodeImage))) &&
    s.valid.scan

/-- What the host writes to its sink when its encode has completed, before it acknowledges STATUS: the file if the encode
succeeded, and nothing if it failed, with whichever error and whatever an earlier scan left (R147, R150; log
entry 15). -/
def State.hostOutput (s : State) : List Byte := if s.encoded then s.jfifFile else []

end Sys2Proof.Machine
end

