-- ==== Sys2Proof/Machine/HostProgram.lean ====
section
/-! DEFINITION. The notation of host programs (spec/30_encoding.md R84, R85): a line is a transaction, and the
pseudo-instructions expand to lines. -/

namespace Sys2Proof.Machine

/-- `W32 addr, value` (R84). -/
def w32 (addr value : Nat) : Txn := .write (BitVec.ofNat 32 addr) .word (BitVec.ofNat 32 value)

/-- `W16 addr, value` (R84). -/
def w16 (addr value : Nat) : Txn := .write (BitVec.ofNat 32 addr) .half (BitVec.ofNat 32 value)

/-- `W8 addr, value` (R84). -/
def w8 (addr value : Nat) : Txn := .write (BitVec.ofNat 32 addr) .byte (BitVec.ofNat 32 value)

/-- `R32 addr` (R84). -/
def r32 (addr : Nat) : Txn := .read (BitVec.ofNat 32 addr) .word

/-- `R16 addr` (R84). -/
def r16 (addr : Nat) : Txn := .read (BitVec.ofNat 32 addr) .half

/-- `R8 addr` (R84). -/
def r8 (addr : Nat) : Txn := .read (BitVec.ofNat 32 addr) .byte

/-- The pseudo-instructions (R85). WAIT is a loop of the host: it stands with the number of STATUS reads it made, which
is not fixed. -/
inductive Pseudo where
  | cmd (i : Instr)
  | wait (reads : Nat)
  | ack
  | setDim (w h : Nat)
  | setQ (q : Nat)
  | softReset
  | pix (x y r g b : Nat)
deriving DecidableEq, Repr

/-- The expansion of a pseudo-instruction (R85); `width` is the width set by SETDIM. -/
def Pseudo.expand (width : Nat) : Pseudo → List Txn
  | .cmd i => [w32 0x00C (encode i).toNat]
  | .wait reads => List.replicate reads (r32 0x010)
  | .ack => [w32 0x010 0x0000000E]
  | .setDim w h => [w32 0x01C w, w32 0x020 h]
  | .setQ q => [w32 0x018 q]
  | .softReset => [w32 0x008 0x00000001]
  | .pix x y r g b =>
    [w8 (0x10000000 + 3 * (y * width + x)) r, w8 (0x10000000 + 3 * (y * width + x) + 1) g,
     w8 (0x10000000 + 3 * (y * width + x) + 2) b]

/-- The events of `RUN m` under the schedule in which the engine steps right after acceptance and WAIT reads STATUS once
(R85; every other schedule is another list of events). -/
def runEvents (i : Instr) : List Event :=
  [.host (w32 0x00C (encode i).toNat), .engine, .host (r32 0x010)]

end Sys2Proof.Machine
end

