-- ==== Sys2Proof/Safety.lean ====
section
/-! DEFINITION. The terms in which claims about the core are made: what a valid geometry is, what a completed command
leaves alone, the invariants of the machine, the bits of a scan. -/

namespace Sys2Proof.Machine

/-! ## Geometry and completion -/

/-- 1 ≤ W ≤ MAX_W and 1 ≤ H ≤ MAX_H (R163). -/
def GeometryValid (s : State) : Prop :=
  1 ≤ s.width.toNat ∧ s.width.toNat ≤ s.params.maxW ∧ 1 ≤ s.height.toNat ∧ s.height.toNat ≤ s.params.maxH

/-- `t` is `s` after a command that completed without an error (R157), that changed no register but STATUS.BUSY,
STATUS.DONE, PENDING and VALID, which is now `v`; RAMs may differ. -/
def CompletedOk (s t : State) (v : Valid) : Prop :=
  t = { s with
    status := { s.status with busy := false, done := true }
    pending := 0
    valid := v
    mem := t.mem }

/-- `s` after a command that completed with the error code `code` and the information `info`, and changed nothing else
(R157, R163). -/
def failedWith (s : State) (code : BitVec 4) (info : ErrInfo) : State :=
  { s with
    status := { s.status with busy := false, done := true, err := true, errcode := code }
    pending := 0
    errInfo := info }

/-- Every byte of every RAM reads in `t` as it read in `s`, but for the bytes (r, off) in `stored`. -/
def ReadsAsBefore (s t : State) (stored : Ram → Nat → Prop) : Prop :=
  ∀ site r off, ¬stored r off → t.byte site r off = s.byte site r off

/-- The next state of an outcome, passed on. -/
def thenDo (o : Host.Outcome State Fault Refusal) (f : State → Host.Outcome State Fault Refusal) :
    Host.Outcome State Fault Refusal :=
  match o with
  | .next s => f s
  | .fault e => .fault e
  | .refused e => .refused e

/-- Commands executed one after the other. -/
def execAll : List Instr → State → Host.Outcome State Fault Refusal
  | [], s => .next s
  | i :: is, s => thenDo (exec i s) (execAll is)

/-! ## The slave port -/

/-- The address of a transaction (R60). -/
def Txn.addr : Txn → Word
  | .read a _ => a
  | .write a _ _ => a

/-- The number of bytes of a transaction (R60). -/
def Txn.bytes : Txn → Nat
  | .read _ n => n.bytes
  | .write _ n _ => n.bytes

/-- An access of `n` bytes at `a` is no bus error: each byte is mapped (R67), the address is a multiple of the size
(R66), and a register is accessed by 4 bytes (R65). -/
def AccessOk (p : Params) (a n : Nat) : Prop :=
  (∀ j, j < n → (locate p (a + j)).isSome) ∧ a % n = 0 ∧ (a < 0x60 → n = 4)

/-- Reads of the address return a draw while BUSY = 1: the windows, VALID, OUT_COUNT, ENT_BUF_LO, ENT_BUF_HI, ENT_BITS,
LAST_DC0..2 and ERRINFO (R68). -/
def VolatileAddr (a : Nat) : Prop :=
  0x60 ≤ a ∨ a ∈ [0x024, 0x030, 0x034, 0x038, 0x03C, 0x040, 0x044, 0x048, 0x05C]

/-- Writes to the address are dropped while BUSY = 1: CMD, QUALITY, WIDTH, HEIGHT, EDGE_CFG, and the windows HUFFSPEC,
RGB_IN, PLANE_Y, PLANE_CB, PLANE_CR and BLK (R58, R61). -/
def LockedAddr (a : Nat) : Prop :=
  a ∈ [0x00C, 0x018, 0x01C, 0x020, 0x04C] ∨ (0x800 ≤ a ∧ a < 0x1000) ∨ (0x10000000 ≤ a ∧ a < 0x20000000) ∨
    0x30000000 ≤ a

/-- Writes to the address are ignored: the RO registers, and the windows QTBL, DIV, EHUF and OUT (R28, R61). -/
def ReadOnlyAddr (a : Nat) : Prop :=
  a ∈ [0x000, 0x004, 0x024, 0x028, 0x02C, 0x030, 0x034, 0x038, 0x03C, 0x040, 0x044, 0x048, 0x050, 0x054, 0x058, 0x05C] ∨
    (0x100 ≤ a ∧ a < 0x800) ∨ (0x1000 ≤ a ∧ a < 0x2000) ∨ (0x20000000 ≤ a ∧ a < 0x30000000)

/-- `s` after its next event has been taken off the list and before anything else has happened; the list of events and the
number of the step are the model's own fields (log entries 3 and 4). -/
def taken (s : State) : State := { s with events := s.events.tail, epoch := s.epoch + 1 }

/-- `s` with one more response given; the list of responses is the model's own field (log entry 6). -/
def replied (s : State) (r : Reply) : State := { s with replies := r :: s.replies }

/-- The next event of `s` is the transaction `t`, and rst is released. -/
def NextIsHost (s : State) (t : Txn) : Prop := s.rst = false ∧ s.events.head? = some (.host t)

/-- It is the engine's turn: the next event is the engine's, or none is listed (R183, log entry 4). -/
def EngineNext (s : State) : Prop := s.events.head? = none ∨ s.events.head? = some .engine

/-! ## The invariant of the registers and of the form of the RAMs -/

/-- What holds of STATUS, PENDING and ERRINFO between any two events (R33, R44, R156 to R160). -/
structure StatusInv (s : State) : Prop where
  /-- "ERRCODE is 0 whenever ERR = 0." (R33) -/
  errcode_zero : s.status.err = false → s.status.errcode = 0
  /-- Codes 3, 6 and 9..15 are never produced (R159). -/
  errcode_legal : s.status.errcode ∈ ([0, 1, 2, 4, 5, 7, 8] : List (BitVec 4))
  /-- No command is pending while the engine is idle (R157). -/
  idle_pending : s.status.busy = false → s.pending = 0
  /-- Acceptance clears DONE, ERR, ERRCODE and ERRINFO, and nothing sets them before completion (R156, R157). -/
  busy_clear : s.status.busy = true → s.status.done = false ∧ s.status.err = false ∧ s.errInfo = ⟨0, 0, 0⟩
  /-- Sub-causes 5..15 are never produced, nor 0 with InternalInvariant (R160, 93 U14). -/
  sub_legal : s.errInfo.sub.toNat ≤ 4 ∧ (s.status.errcode = 4 → 1 ≤ s.errInfo.sub.toNat)
  /-- No command is pending while rst is asserted (R175). -/
  reset_idle : s.rst = true → s.status.busy = false

/-- What holds of the VALID flags (R38, R56, R57), of OUT_COUNT (R40) and of the entropy registers (R41). -/
structure ValidInv (s : State) : Prop where
  planes_geometry : s.valid.planes = true → GeometryValid s
  luma_planes : s.valid.lumaSmp = true → s.valid.planes = true ∧ s.valid.coef = false
  chroma_planes : s.valid.chromaSmp = true → s.valid.planes = true ∧ s.valid.coef = false
  coef_planes : s.valid.coef = true → s.valid.planes = true
  scan_coef : s.valid.scan = true → s.valid.coef = true
  out_count : s.outCount.toNat ≤ s.params.outCap
  scan_flushed : s.valid.scan = true → s.entBuf = 0 ∧ s.entBits = 0

/-- What holds of the bits and bytes that the RAMs do not store (R61, R83). -/
structure ReservedInv (s : State) : Prop where
  /-- No RES byte of HUFFSPEC is stored. -/
  res_byte : ∀ off, isResByte off = true → s.mem.huffSpec.get off = none
  /-- Bits [31:24] of an EHUF entry are not stored. -/
  ehuf_high : ∀ off, off % 4 = 3 → s.mem.ehuf.get off = none
  /-- Bits [23:21] of an EHUF entry are 0. -/
  ehuf_size : ∀ off b, off % 4 = 2 → s.mem.ehuf.get off = some b → b.toNat < 32

/-- The invariant of the machine. -/
structure Inv (s : State) : Prop where
  /-- The RAMs have their canonical form. -/
  mem : s.mem.wf = true
  reserved : ReservedInv s
  status : StatusInv s
  valid : ValidInv s

/-! ## The invariant of the data -/

/-- Every byte of the RAM from `lo` up to `hi` has been written since reset. -/
def Filled (s : State) (r : Ram) (lo hi : Nat) : Prop :=
  ∀ off, lo ≤ off → off < hi → ((s.mem.cells r).read r off).isSome

/-- Every word of the image's blocks at the places in `places` has been written since reset. -/
def BlocksFilled (s : State) (places : Nat → Prop) : Prop :=
  ∀ b, b < s.nblocks → places (b % 6) → Filled s .blk (128 * b) (128 * b + 128)

/-- Every entry of the table `t` has a code of its size, at most 16 bits (R49). -/
def CodesProper (s : State) (t : Nat) : Prop :=
  ∀ site sym, sym < 256 →
    entrySize (s.ehufEntry site t sym) ≤ 16 ∧
    entryCode (s.ehufEntry site t sym) < 2 ^ entrySize (s.ehufEntry site t sym)

/-- No buffer that a VALID flag vouches for holds a byte that nothing has written (R38, R55). -/
structure Vouched (s : State) : Prop where
  qt : s.valid.qt = true → Filled s .qtbl 0 0x80 ∧ Filled s .div 0 0x400
  huff : ∀ t, t < 4 → s.valid.huff t = true →
    Filled s .ehuf (0x400 * t) (0x400 * t + 0x400) ∧ CodesProper s t
  planes : s.valid.planes = true →
    Filled s .py 0 (s.w * s.h) ∧ Filled s .pcb 0 (s.w * s.h) ∧ Filled s .pcr 0 (s.w * s.h)
  lumaSmp : s.valid.lumaSmp = true → BlocksFilled s (· < 4)
  chromaSmp : s.valid.chromaSmp = true → BlocksFilled s (4 ≤ ·)
  coef : s.valid.coef = true → BlocksFilled s fun _ => True
  scan : s.valid.scan = true → Filled s .out 0 s.outCount.toNat

/-! ## Huffman tables -/

/-- Σ_{l=1..16} HBITS[t][l] (R104). -/
def bitsSum (s : State) (t : Nat) : Nat := ((List.range' 1 16).map fun l => (s.hbits t l).toNat).sum

/-- Σ_{l=1..16} HBITS[t][l]·2^(16−l): the code space taken, in units of 2^(−16) (R107). -/
def kraftSum (s : State) (t : Nat) : Nat :=
  ((List.range' 1 16).map fun l => (s.hbits t l).toNat * 2 ^ (16 - l)).sum

/-- BUILD_HUFF t succeeds: at most 256 symbols, and the code space is not over-filled (R105, R107). -/
def SpecAccepted (s : State) (t : Nat) : Prop := bitsSum s t ≤ 256 ∧ kraftSum s t ≤ 2 ^ 16

/-! ## Scans -/

/-- The low `n` bits of `v`, the most significant first (R131). -/
def msbBits : (n : Nat) → (v : Nat) → List Bool
  | 0, _ => []
  | n + 1, v => v.testBit n :: msbBits n v

/-- The bytes of a scan without the stuffed ones: a 0x00 after a 0xFF is dropped (R132). -/
def unstuff : List Byte → List Byte
  | [] => []
  | [x] => [x]
  | x :: y :: bs => if x = 0xFF ∧ y = 0 then x :: unstuff bs else x :: unstuff (y :: bs)

/-- The data bits a coder has taken so far: those that left in bytes, and those still in the buffer (R131). -/
def Coder.stream (c : Coder) : List Bool :=
  ((unstuff c.out.reverse).flatMap fun x => msbBits 8 x.toNat) ++ msbBits c.bits c.buffer

/-- The buffer is drained: fewer than eight bits are left, and the high bits are 0 (R131). -/
def Coder.Drained (c : Coder) : Prop := c.bits ≤ 7 ∧ c.buffer < 2 ^ c.bits

/-- Every 0xFF is followed by a 0x00 (R132, R139). -/
def Stuffed : List Byte → Prop
  | [] => True
  | [x] => x ≠ 0xFF
  | x :: y :: bs => (x = 0xFF → y = 0) ∧ Stuffed (y :: bs)

/-! ## The bits of a scan, written without a bit buffer -/

/-- The code of a symbol, most significant bit first (R130). -/
def codeBits (s : State) (t sym : Nat) : List Bool :=
  msbBits (entrySize (s.ehufEntry .port t sym)) (entryCode (s.ehufEntry .port t sym))

/-- The magnitude bits of a value (R129). -/
def magnitudeBits (v : Int) : List Bool := msbBits (magSize v) (magBits v)

/-- One item of a scan, in the order of the pseudocode of R134 and R135. -/
inductive Token where
  /-- emit(t, sym) (R130). -/
  | code (t sym : Nat)
  /-- The magnitude bits of `v`; none for v = 0 (R129, R134, R135). -/
  | magnitude (v : Int)
  /-- last_dc[comp] = v (R134). -/
  | predict (comp : Nat) (v : Int)
  /-- A coefficient of table `t` with `n` > 15 magnitude bits, which is rejected (R135). -/
  | tooLong (t n : Nat)
deriving DecidableEq, Repr

/-- The AC coefficients `vs` of a block after a run of `r` zeros: the ZRLs of the run, the symbol and the magnitude bits
of every nonzero coefficient, EOB at the end of a run (R135). -/
def acTokens (t : Nat) : (vs : List Int) → (r : Nat) → List Token
  | [], r => if 0 < r then [.code t 0x00] else []
  | v :: vs, r =>
    if v = 0 then acTokens t vs (r + 1)
    else
      List.replicate (r / 16) (.code t 0xF0) ++
        ((if 15 < magSize v then [.tooLong t (magSize v)] else [.code t (16 * (r % 16) + magSize v), .magnitude v]) ++
          acTokens t vs 0)

/-- The block of the same component before block `b` in scan order, if there is one (R139). -/
def prevBlock (b : Nat) : Option Nat :=
  if 1 ≤ b % 6 ∧ b % 6 ≤ 3 then some (b - 1)
  else if b < 6 then none
  else if b % 6 = 0 then some (b - 3)
  else some (b - 6)

/-- The DC difference coded for block `b`: its DC minus that of the block before it, or minus 0 (R139). -/
def dcDiff (s : State) (b : Nat) : Int :=
  s.blk .scanBlock b 0 - ((prevBlock b).map fun p => s.blk .scanBlock p 0).getD 0

/-- The items of block `b`: the DC step and the AC step (R134 to R136). -/
def blockTokens (s : State) (b : Nat) : List Token :=
  [.code (dcTable b) (magSize (dcDiff s b)), .magnitude (dcDiff s b), .predict (blockComp b) (s.blk .scanBlock b 0)] ++
    acTokens (acTable b) (zigzagAc (s.block .scanBlock b)) 0

/-- The items of the scan, block by block in the order of R138. -/
def scanTokens (s : State) : List Token := (List.range s.nblocks).flatMap (blockTokens s)

/-- The bits of an item. -/
def tokenBits (s : State) : Token → List Bool
  | .code t sym => codeBits s t sym
  | .magnitude v => magnitudeBits v
  | .predict _ _ => []
  | .tooLong _ _ => []

/-- The bits of items. -/
def tokensBits (s : State) (xs : List Token) : List Bool := xs.flatMap (tokenBits s)

/-- The item can be coded: its symbol has a code (R130), and it is no coefficient that R135 rejects. -/
def Token.Codable (s : State) : Token → Prop
  | .code t sym => entrySize (s.ehufEntry .port t sym) ≠ 0
  | .magnitude _ => True
  | .predict _ _ => True
  | .tooLong _ _ => False

/-- last_dc[comp] after one item, from `d` before it (R134). -/
def Token.predicted (comp : Nat) (d : Int) : Token → Int
  | .predict c v => if c = comp then v else d
  | .code _ _ => d
  | .magnitude _ => d
  | .tooLong _ _ => d

/-- last_dc[comp] after items: the DC predicted last, and 0 before the first (R134, R138). -/
def lastPredicted (comp : Nat) (xs : List Token) : Int := xs.foldl (Token.predicted comp) 0

/-- The data bits of the scan (R138). -/
def scanBits (s : State) : List Bool := tokensBits s (scanTokens s)

/-- The value of bits, the most significant first. -/
def bitsValue (bs : List Bool) : Nat := bs.foldl (fun v b => 2 * v + b.toNat) 0

/-- Bits packed into bytes, the first bit the most significant, after the bits `pending` of a byte begun; the last byte
is filled up with ones (R131, R137). -/
def packBits : (pending bits : List Bool) → List Byte
  | p, [] => if p = [] then [] else [BitVec.ofNat 8 (bitsValue (p ++ List.replicate (8 - p.length) true))]
  | p, b :: bs =>
    if p.length = 7 then BitVec.ofNat 8 (bitsValue (p ++ [b])) :: packBits [] bs else packBits (p ++ [b]) bs

/-- A 0x00 put after every 0xFF (R132). -/
def stuffBytes (bs : List Byte) : List Byte := bs.flatMap fun x => if x = 0xFF then [0xFF, 0] else [x]

/-- The bytes that have left the buffer once the bits `bs` have been put into it: those of whole bytes, stuffed (R131,
R132). -/
def emittedBytes (bs : List Bool) : List Byte := stuffBytes (packBits [] (bs.take (bs.length / 8 * 8)))

/-- The entropy-coded segment of the image in BLK, under the codes in EHUF (R138). -/
def ecsOf (s : State) : List Byte := stuffBytes (packBits [] (scanBits s))

/-- A symbol of the table `t` has a code, whichever emission reads it (R130). -/
def HasCode (s : State) (t sym : Nat) : Prop := ∀ n, entrySize (s.ehufEntry (.emission n) t sym) ≠ 0

/-- The symbols that a scan of coefficients of at most ten bits can need have codes. -/
def CodesReady (s : State) : Prop :=
  (∀ n, n ≤ 11 → HasCode s 0 n ∧ HasCode s 2 n) ∧
  (∀ t, t = 1 ∨ t = 3 → HasCode s t 0x00 ∧ HasCode s t 0xF0 ∧
    ∀ r n, r < 16 → 1 ≤ n → n ≤ 10 → HasCode s t (16 * r + n))

/-- Every AC coefficient of the image's blocks has at most ten magnitude bits, and every DC lies in -1024..1023, so that
every DC difference has at most eleven. -/
def CoefsSmall (s : State) : Prop :=
  ∀ b, b < s.nblocks →
    (-1024 ≤ s.blk .scanBlock b 0 ∧ s.blk .scanBlock b 0 ≤ 1023) ∧
    ∀ i, 1 ≤ i → i < 64 → -1023 ≤ s.blk .scanBlock b i ∧ s.blk .scanBlock b i ≤ 1023

/-- The state in which ENCODE_IMAGE reaches its scan (R153). -/
def beforeScan (s : State) : State := (runBeforeScan s).st

/-! ## What a command writes -/

/-- The RAMs that the rule of an operation writes (R103, R109, R112, R116 to R121, R127, R138, R152, R153). -/
def ramsOf : Instr → List Ram
  | .nop => []
  | .buildQtables => [.qtbl, .div]
  | .buildHuff _ => [.ehuf]
  | .initTables => [.qtbl, .div, .ehuf]
  | .colorConvert => [.py, .pcb, .pcr]
  | .extractLuma => [.blk]
  | .extractChroma => [.blk]
  | .edgeDcFixup => [.blk]
  | .zeroRight => [.blk]
  | .zeroBottom => [.blk]
  | .fdctQuant => [.blk]
  | .encodeScan => [.out]
  | .encodeImage => [.py, .pcb, .pcr, .blk, .out]
  | .softReset _ => allRams

/-- The stages of ENCODE_IMAGE in the order EDGE_CFG.ORDER gives (R153). -/
def imageStages : (order : Bool) → List Instr
  | false =>
    [.colorConvert, .extractLuma, .extractChroma, .fdctQuant, .edgeDcFixup, .zeroRight, .zeroBottom, .encodeScan]
  | true =>
    [.colorConvert, .extractLuma, .extractChroma, .fdctQuant, .zeroRight, .zeroBottom, .edgeDcFixup, .encodeScan]

end Sys2Proof.Machine
end

