-- ==== Sys2Proof/Certificates/Slice0/Obligations.lean ====
section
/-! DEFINITION. The statements about the core that the provers are asked to prove. Each docstring names the rules of
spec/ that the statement formalises. -/

section

open Sys2Proof Sys2Proof.Machine

/-! ## Encoding -/

/-- The opcode map of R80, word by word, and SOFT_RESET as a write of 1 to CTRL[0]. -/
def Obligations.OpcodeMapDecodes : Prop :=
  decodeCommand 0x00000000 = .ok .nop ∧
  decodeCommand 0x00000001 = .ok .buildQtables ∧
  decodeCommand 0x00000002 = .ok (.buildHuff 0) ∧
  decodeCommand 0x00000102 = .ok (.buildHuff 1) ∧
  decodeCommand 0x00000202 = .ok (.buildHuff 2) ∧
  decodeCommand 0x00000302 = .ok (.buildHuff 3) ∧
  decodeCommand 0x00000003 = .ok .initTables ∧
  decodeCommand 0x00000010 = .ok .colorConvert ∧
  decodeCommand 0x00000011 = .ok .extractLuma ∧
  decodeCommand 0x00000012 = .ok .extractChroma ∧
  decodeCommand 0x00000013 = .ok .edgeDcFixup ∧
  decodeCommand 0x00000014 = .ok .zeroRight ∧
  decodeCommand 0x00000015 = .ok .zeroBottom ∧
  decodeCommand 0x00000018 = .ok .fdctQuant ∧
  decodeCommand 0x00000020 = .ok .encodeScan ∧
  decodeCommand 0x00000030 = .ok .encodeImage ∧
  decodePort .ctrl 0x00000001 = .ok (.softReset 1)

/-- R81, R82: a word is an operation exactly when RSV is 0, OP is one of the thirteen opcodes, and SEL is 0 unless OP is
0x02; every other word is ILLEGAL. -/
def Obligations.WordsDecodeOrAreIllegal : Prop :=
  ∀ w : Word,
    (∃ i, decodeCommand w = .ok i) ↔
      w.toNat / 1024 = 0 ∧
      w.toNat % 256 ∈ [0x00, 0x01, 0x02, 0x03, 0x10, 0x11, 0x12, 0x13, 0x14, 0x15, 0x18, 0x20, 0x30] ∧
      (w.toNat % 256 ≠ 0x02 → w.toNat / 256 % 4 = 0)

/-- R78, R80, R81, R154: decoding the word of a well-formed operation gives it back, and a word that decodes to an
operation is that operation's word; so no bit of an encoding is dropped, in either direction. -/
def Obligations.DecodeAndEncodeAreInverse : Prop :=
  (∀ i : Instr, i.wellFormed = true → decodePort i.port (encode i) = .ok i) ∧
  (∀ (p : Port) (w : Word) (i : Instr), decodePort p w = .ok i → i.wellFormed = true ∧ i.port = p ∧ encode i = w)

/-! ## The step -/

/-- R157: at the engine's turn, a pending operation runs, in the state from which the event has been taken; without one
the engine is idle and nothing changes (R174). That it is the engine's turn when no event is listed is the model's choice
(log entry 4). -/
def Obligations.StepRunsThePendingCommand : Prop :=
  ∀ s : State, EngineNext s →
    (s.status.busy = false → step s = .next (taken s)) ∧
    (s.status.busy = true → ∀ i, decodePort .cmd s.pending = .ok i → step s = exec i (taken s))

/-- R162: at the engine's turn, a pending ILLEGAL word completes with ERRCODE = 5 and ERRINFO = 0, and has no other effect.
That it is the engine's turn when no event is listed is the model's choice (log entry 4). -/
def Obligations.IllegalWordCompletesWithAnError : Prop :=
  ∀ s : State, EngineNext s → s.status.busy = true → (∀ i, decodeCommand s.pending ≠ .ok i) →
    step s = .next (failedWith (taken s) 5 ⟨0, 0, 0⟩)

/-- R154, R31: a write of CTRL with bit 0 = 1 resets every register and RAM at once, whether BUSY is 0 or 1; a write with
bit 0 = 0 does nothing. The same of the meaning of SOFT_RESET. -/
def Obligations.SoftResetResetsAtOnce : Prop :=
  (∀ (s : State) (v : Word), NextIsHost s (.write 0x008 .word v) →
    (v.toNat % 2 = 1 → step s = .next
      { State.resetWith s.params with
        rst := false, events := s.events.tail, replies := .okWrite :: s.replies, epoch := s.epoch + 1 }) ∧
    (v.toNat % 2 = 0 → step s = .next (replied (taken s) .okWrite))) ∧
  (∀ (s : State) (v : Word), v.toNat % 2 = 1 → exec (.softReset v) s = .next
    { State.resetWith s.params with rst := s.rst, events := s.events, replies := s.replies, epoch := s.epoch })

/-- R175: asserting rst resets every register and RAM; releasing it changes nothing else. A transaction while rst is
asserted is rejected, which is how the model treats a trace the platform must not issue (93 U12; log entry 5). -/
def Obligations.ResetInputResets : Prop :=
  ∀ s : State,
    (s.events.head? = some (.rst true) → step s = .next
      { State.resetWith s.params with
        rst := true, events := s.events.tail, replies := s.replies, epoch := s.epoch + 1 }) ∧
    (s.events.head? = some (.rst false) → step s = .next { taken s with rst := false }) ∧
    (∀ t, s.rst = true → s.events.head? = some (.host t) → step s = .refused .transactionDuringReset)

/-- R59: the registers after reset, as the host reads them; PENDING; HUFFSPEC with the standard tables (R48); every other
RAM unwritten, that is, a draw at every read (R55); irq is 0. For every core, whatever its parameters. -/
def Obligations.ResetValues : Prop :=
  ∀ p : Params,
    let s := State.resetWith p
    s.readReg .id = 0x4A504547 ∧ s.readReg .version = 7 ∧
    s.readReg .status = 0 ∧ s.pending = 0 ∧ s.readReg .irqEn = 0 ∧ s.readReg .quality = 50 ∧
    s.readReg .width = 0 ∧ s.readReg .height = 0 ∧ s.readReg .valid = 0 ∧
    s.readReg .geomB = 0 ∧ s.readReg .geomMcu = 0 ∧ s.readReg .outCount = 0 ∧
    s.readReg .entBufLo = 0 ∧ s.readReg .entBufHi = 0 ∧ s.readReg .entBits = 0 ∧
    s.readReg .lastDc0 = 0 ∧ s.readReg .lastDc1 = 0 ∧ s.readReg .lastDc2 = 0 ∧
    s.readReg .edgeCfg = 0 ∧ s.readReg .errInfo = 0 ∧ s.irq = false ∧
    (∀ t, t < 4 →
      s.hbits t 0 = 0 ∧
      (∀ l, 1 ≤ l → l ≤ 16 → (s.hbits t l).toNat = (stdBits t).getD (l - 1) 0) ∧
      (∀ q, q < 256 → (s.hvals t q).toNat = (stdValues t).getD q 0)) ∧
    (∀ r, r ≠ .huffSpec → s.mem.cells r = [])

/-- R60, R73: a step takes one event and no more. The parameters never change; a host transaction that is answered gets
exactly one response, and no other event gets one. The list of events, the list of responses and the number of the step,
which every step raises by one, are the model's own (log entries 4, 6 and 3). -/
def Obligations.EachStepTakesOneEvent : Prop :=
  ∀ s t : State, step s = .next t →
    t.params = s.params ∧ t.events = s.events.tail ∧ t.epoch = s.epoch + 1 ∧
    ((∃ x, s.events.head? = some (.host x)) → ∃ r, t.replies = r :: s.replies) ∧
    ((∀ x, s.events.head? ≠ some (.host x)) → t.replies = s.replies)

/-! ## The slave port -/

/-- R61, R11: the address map. With legal parameters, the registers are the addresses below 0x60, and each window runs
from its first address to its last valid byte; a byte's offset in its RAM is its distance from the first address. -/
def Obligations.AddressMapPlacesTheWindows : Prop :=
  ∀ (p : Params), p.Legal → ∀ (a : Nat),
    (∀ off, locate p a = some (.reg off) ↔ a < 0x60 ∧ off = a) ∧
    (∀ off, locate p a = some (.ram .qtbl off) ↔ off < 0x80 ∧ a = 0x100 + off) ∧
    (∀ off, locate p a = some (.ram .div off) ↔ off < 0x400 ∧ a = 0x200 + off) ∧
    (∀ off, locate p a = some (.ram .huffSpec off) ↔ off < 0x800 ∧ a = 0x800 + off) ∧
    (∀ off, locate p a = some (.ram .ehuf off) ↔ off < 0x1000 ∧ a = 0x1000 + off) ∧
    (∀ off, locate p a = some (.ram .rgb off) ↔ off < 3 * p.maxW * p.maxH ∧ a = 0x10000000 + off) ∧
    (∀ off, locate p a = some (.ram .out off) ↔ off < p.outCap ∧ a = 0x20000000 + off) ∧
    (∀ off, locate p a = some (.ram .py off) ↔ off < p.maxW * p.maxH ∧ a = 0x30000000 + off) ∧
    (∀ off, locate p a = some (.ram .pcb off) ↔ off < p.maxW * p.maxH ∧ a = 0x40000000 + off) ∧
    (∀ off, locate p a = some (.ram .pcr off) ↔ off < p.maxW * p.maxH ∧ a = 0x50000000 + off) ∧
    (∀ off, locate p a = some (.ram .blk off) ↔
      off < 128 * (6 * ((p.maxW + 15) / 16) * ((p.maxH + 15) / 16)) ∧ a = 0x60000000 + off)

/-- R65, R66, R67: a host access is answered OK exactly when all its bytes are mapped, its address is a multiple of its
size, and it has 4 bytes if it reaches a register; any other access is the fault BUSERR, naming the address. That the
run stops there is how the model reads R67 (log entry 8). -/
def Obligations.AccessesAnswerOrFault : Prop :=
  ∀ (s : State) (x : Txn), NextIsHost s x →
    (AccessOk s.params x.addr.toNat x.bytes → ∃ t r, step s = .next t ∧ t.replies = r :: s.replies) ∧
    (¬AccessOk s.params x.addr.toNat x.bytes → step s = .fault (.busError x.addr))

/-- R63, R68, R69, R71, R72: a read returns its bytes, the byte at the lowest address least significant, and changes
nothing; while BUSY = 1, a read of a volatile address returns any value. The byte of an address in a window is the byte of
that RAM at that offset, and the byte of an address in a register is that byte of the register there, little-endian. -/
def Obligations.ReadsReturnTheBytes : Prop :=
  ∀ (s : State) (a : Word) (n : Size), NextIsHost s (.read a n) → AccessOk s.params a.toNat n.bytes →
    ∃ v, step s = .next (replied (taken s) (.okRead n v)) ∧
      (s.status.busy = false ∨ ¬VolatileAddr a.toNat →
        v.toNat = ((List.range n.bytes).map fun j => ((taken s).byteAt (a.toNat + j)).toNat * 256 ^ j).sum) ∧
      (∀ b r off, locate s.params b = some (.ram r off) → (taken s).byteAt b = (taken s).byte .port r off) ∧
      (∀ b off, locate s.params b = some (.reg off) →
        ((taken s).byteAt b).toNat = ((taken s).readReg (regAt off)).toNat / 256 ^ (off % 4) % 256)

/-- R29 to R44: the registers at their offsets, and as words, field by field at the places the spec gives; RES bits are 0.
R165: irq. -/
def Obligations.RegistersReadAsLaidOut : Prop :=
  ∀ s : State,
    (regAt 0x000 = .id ∧ regAt 0x004 = .version ∧ regAt 0x008 = .ctrl ∧ regAt 0x00C = .cmd ∧ regAt 0x010 = .status ∧
      regAt 0x014 = .irqEn ∧ regAt 0x018 = .quality ∧ regAt 0x01C = .width ∧ regAt 0x020 = .height ∧
      regAt 0x024 = .valid ∧ regAt 0x028 = .geomB ∧ regAt 0x02C = .geomMcu ∧ regAt 0x030 = .outCount ∧
      regAt 0x034 = .entBufLo ∧ regAt 0x038 = .entBufHi ∧ regAt 0x03C = .entBits ∧ regAt 0x040 = .lastDc0 ∧
      regAt 0x044 = .lastDc1 ∧ regAt 0x048 = .lastDc2 ∧ regAt 0x04C = .edgeCfg ∧ regAt 0x050 = .paramMaxW ∧
      regAt 0x054 = .paramMaxH ∧ regAt 0x058 = .paramOutCap ∧ regAt 0x05C = .errInfo) ∧
    (∀ a j, a % 4 = 0 → j < 4 → regAt (a + j) = regAt a) ∧
    (s.irq = true ↔
      (s.status.done = true ∧ s.irqEn.doneIe = true) ∨
      ((s.status.err = true ∨ s.status.ovr = true) ∧ s.irqEn.errIe = true)) ∧
    s.readReg .id = 0x4A504547 ∧ s.readReg .version = 7 ∧ s.readReg .ctrl = 0 ∧ s.readReg .cmd = 0 ∧
    (s.readReg .status).toNat = s.status.busy.toNat + 2 * s.status.done.toNat + 4 * s.status.err.toNat +
      8 * s.status.ovr.toNat + 0x100 * s.status.errcode.toNat + 0x10000 * s.status.lastOp.toNat ∧
    (s.readReg .irqEn).toNat = s.irqEn.doneIe.toNat + 2 * s.irqEn.errIe.toNat ∧
    (s.readReg .quality).toNat = s.quality.toNat ∧
    (s.readReg .width).toNat = s.width.toNat ∧
    (s.readReg .height).toNat = s.height.toNat ∧
    (s.readReg .valid).toNat = s.valid.qt.toNat + 2 * s.valid.huff0.toNat + 4 * s.valid.huff1.toNat +
      8 * s.valid.huff2.toNat + 0x10 * s.valid.huff3.toNat + 0x20 * s.valid.planes.toNat +
      0x40 * s.valid.lumaSmp.toNat + 0x80 * s.valid.chromaSmp.toNat + 0x100 * s.valid.coef.toNat +
      0x200 * s.valid.scan.toNat ∧
    (s.readReg .geomB).toNat = (s.width.toNat + 7) / 8 + 0x10000 * ((s.height.toNat + 7) / 8) ∧
    (s.readReg .geomMcu).toNat = (s.width.toNat + 15) / 16 + 0x10000 * ((s.height.toNat + 15) / 16) ∧
    s.readReg .outCount = s.outCount ∧
    (s.readReg .entBufLo).toNat + 0x100000000 * (s.readReg .entBufHi).toNat = s.entBuf.toNat ∧
    (s.readReg .entBits).toNat = s.entBits.toNat ∧
    s.readReg .lastDc0 = s.lastDc0 ∧ s.readReg .lastDc1 = s.lastDc1 ∧ s.readReg .lastDc2 = s.lastDc2 ∧
    (s.readReg .edgeCfg).toNat = s.edgeOrder.toNat ∧
    (s.params.Legal →
      (s.readReg .paramMaxW).toNat = s.params.maxW ∧ (s.readReg .paramMaxH).toNat = s.params.maxH ∧
      (s.readReg .paramOutCap).toNat = s.params.outCap) ∧
    (s.readReg .errInfo).toNat = s.errInfo.sym.toNat + 0x100 * s.errInfo.tbl.toNat + 0x1000 * s.errInfo.sub.toNat

/-- R156: a write of a command word while the core is idle is accepted and not decoded; while BUSY = 1 it is dropped and
sets OVR. -/
def Obligations.CommandWritesAreAccepted : Prop :=
  ∀ (s : State) (w : Word), NextIsHost s (.write 0x00C .word w) →
    (s.status.busy = true → step s = .next
      { replied (taken s) .okWrite with status := { s.status with ovr := true } }) ∧
    (s.status.busy = false → step s = .next
      { replied (taken s) .okWrite with
        pending := w
        status :=
          { busy := true, done := false, err := false, ovr := s.status.ovr, errcode := 0
            lastOp := BitVec.ofNat 8 w.toNat }
        errInfo := ⟨0, 0, 0⟩ })

/-- R58: while BUSY = 1, writes to CMD, to the configuration registers and to the RW windows are dropped and set OVR;
writes to RO registers and RO windows are ignored and do not; writes to STATUS, IRQ_EN and CTRL take effect. That the RES
bytes of HUFFSPEC count to their RW window here, so that a write to them while BUSY = 1 sets OVR although R61 ignores it
otherwise, is the model's reading (log entry 11). -/
def Obligations.BusyWritesAreDropped : Prop :=
  ∀ (s : State) (a : Word) (n : Size) (v : Word), NextIsHost s (.write a n v) → s.status.busy = true →
    AccessOk s.params a.toNat n.bytes →
    (LockedAddr a.toNat → step s = .next
      { replied (taken s) .okWrite with status := { s.status with ovr := true } }) ∧
    (ReadOnlyAddr a.toNat → step s = .next (replied (taken s) .okWrite)) ∧
    (a = 0x010 → step s = .next
      { replied (taken s) .okWrite with
        status :=
          { s.status with
            done := s.status.done && !v.getLsbD 1
            err := s.status.err && !v.getLsbD 2
            ovr := s.status.ovr && !v.getLsbD 3
            errcode := if v.getLsbD 2 then 0 else s.status.errcode } }) ∧
    (a = 0x014 → step s = .next
      { replied (taken s) .okWrite with irqEn := ⟨v.getLsbD 0, v.getLsbD 1⟩ }) ∧
    (a = 0x008 → v.getLsbD 0 = true → step s = .next
      { State.resetWith s.params with
        rst := false, events := s.events.tail, replies := .okWrite :: s.replies, epoch := s.epoch + 1 })

/-- R57, R36, R37: a write that changes WIDTH or HEIGHT while the core is idle clears VALID bits [9:5]; a write of the
same value changes nothing. -/
def Obligations.GeometryWritesInvalidate : Prop :=
  ∀ (s : State) (v : Word), s.status.busy = false →
    (NextIsHost s (.write 0x01C .word v) →
      (v.toNat % 0x10000 = s.width.toNat → step s = .next (replied (taken s) .okWrite)) ∧
      (v.toNat % 0x10000 ≠ s.width.toNat → step s = .next
        { replied (taken s) .okWrite with
          width := BitVec.ofNat 16 v.toNat
          valid :=
            { s.valid with planes := false, lumaSmp := false, chromaSmp := false, coef := false, scan := false } })) ∧
    (NextIsHost s (.write 0x020 .word v) →
      (v.toNat % 0x10000 = s.height.toNat → step s = .next (replied (taken s) .okWrite)) ∧
      (v.toNat % 0x10000 ≠ s.height.toNat → step s = .next
        { replied (taken s) .okWrite with
          height := BitVec.ofNat 16 v.toNat
          valid :=
            { s.valid with planes := false, lumaSmp := false, chromaSmp := false, coef := false, scan := false } }))

/-- R28, R33, R34, R35, R42: writes to STATUS (W1C; clearing ERR clears ERRCODE), IRQ_EN, QUALITY and EDGE_CFG while the
core is idle, field by field; the RO registers ignore a write. -/
def Obligations.RegisterWritesTakeEffect : Prop :=
  ∀ (s : State) (a : Word) (v : Word), NextIsHost s (.write a .word v) → s.status.busy = false →
    (a = 0x010 → step s = .next
      { replied (taken s) .okWrite with
        status :=
          { s.status with
            done := s.status.done && !v.getLsbD 1
            err := s.status.err && !v.getLsbD 2
            ovr := s.status.ovr && !v.getLsbD 3
            errcode := if v.getLsbD 2 then 0 else s.status.errcode } }) ∧
    (a = 0x014 → step s = .next { replied (taken s) .okWrite with irqEn := ⟨v.getLsbD 0, v.getLsbD 1⟩ }) ∧
    (a = 0x018 → step s = .next { replied (taken s) .okWrite with quality := BitVec.ofNat 8 v.toNat }) ∧
    (a = 0x04C → step s = .next { replied (taken s) .okWrite with edgeOrder := v.getLsbD 0 }) ∧
    (a.toNat < 0x60 → a.toNat % 4 = 0 → ReadOnlyAddr a.toNat → step s = .next (replied (taken s) .okWrite))

/-- R64, R61, R69, R72: a write to a RW window while the core is idle stores its bytes, the least significant at the
lowest address, and changes nothing else; the RES bytes of HUFFSPEC ignore theirs. A write to a RO window changes
nothing. -/
def Obligations.WindowWritesStoreTheirBytes : Prop :=
  ∀ (s : State) (a : Word) (n : Size) (v : Word) (r : Ram) (off : Nat),
    NextIsHost s (.write a n v) → s.status.busy = false → AccessOk s.params a.toNat n.bytes →
    locate s.params a.toNat = some (.ram r off) →
    (r ∈ [Ram.huffSpec, .rgb, .py, .pcb, .pcr, .blk] →
      ∃ t, step s = .next t ∧ t = { replied (taken s) .okWrite with mem := t.mem } ∧
        (∀ site j, j < n.bytes → ¬(r = .huffSpec ∧ 0x11 ≤ (off + j) % 0x200 ∧ (off + j) % 0x200 < 0x100) →
          (t.byte site r (off + j)).toNat = v.toNat / 256 ^ j % 256) ∧
        ReadsAsBefore (taken s) t fun r' off' =>
          r' = r ∧ off ≤ off' ∧ off' < off + n.bytes ∧
          ¬(r = .huffSpec ∧ 0x11 ≤ off' % 0x200 ∧ off' % 0x200 < 0x100)) ∧
    (r ∈ [Ram.qtbl, .div, .ehuf, .out] → step s = .next (replied (taken s) .okWrite))

/-- R58, R76, R79: between acceptance and completion no host transaction but a reset changes the pending command, its
operands, the VALID flags or a RAM. -/
def Obligations.OperandsHoldWhileBusy : Prop :=
  ∀ (s t : State) (x : Txn), NextIsHost s x → s.status.busy = true → step s = .next t → t.status.busy = true →
    t.pending = s.pending ∧ t.quality = s.quality ∧ t.width = s.width ∧ t.height = s.height ∧
    t.edgeOrder = s.edgeOrder ∧ t.valid = s.valid ∧ t.mem = s.mem

/-- R56, R61, R72: no host transaction sets a VALID flag, and none but a reset changes QTBL, DIV, EHUF, OUT, OUT_COUNT or
the entropy registers. -/
def Obligations.HostSetsNoFlag : Prop :=
  ∀ (s t : State) (x : Txn), NextIsHost s x → step s = .next t →
    t.valid.toWord &&& ~~~s.valid.toWord = 0 ∧
    (¬(∃ v : Word, x = .write 0x008 .word v ∧ v.getLsbD 0 = true) →
      (∀ r, r ∈ [Ram.qtbl, .div, .ehuf, .out] → t.mem.cells r = s.mem.cells r) ∧
      t.outCount = s.outCount ∧ t.entBuf = s.entBuf ∧ t.entBits = s.entBits ∧
      t.lastDc0 = s.lastDc0 ∧ t.lastDc1 = s.lastDc1 ∧ t.lastDc2 = s.lastDc2)

/-- R33, R157, R154, R175: BUSY goes from 1 to 0 only in the engine step, which sets DONE, or in a reset, after which
STATUS is 0. That the engine also steps when no event is listed is the model's choice (log entry 4). -/
def Obligations.OnlyCompletionOrResetEndsBusy : Prop :=
  ∀ s t : State, step s = .next t → s.status.busy = true → t.status.busy = false →
    (EngineNext s ∧ t.status.done = true) ∨
    ((s.events.head? = some (.rst true) ∨ ∃ v : Word, s.events.head? = some (.host (.write 0x008 .word v))) ∧
      t.status = ⟨false, false, false, false, 0, 0⟩)

/-! ## Every command -/

/-- R157, R165, R166: every command completes, with or without an error: BUSY is cleared, DONE set, PENDING cleared, and
irq raised if it is enabled; STATUS.OVR, STATUS.LAST_OP, the configuration registers and the port stay as they were. -/
def Obligations.CommandsCompleteAndKeepTheConfiguration : Prop :=
  ∀ (i : Instr) (s : State), i.port = .cmd →
    ∃ t, exec i s = .next t ∧
      t.status.busy = false ∧ t.status.done = true ∧ t.pending = 0 ∧
      t.status.ovr = s.status.ovr ∧ t.status.lastOp = s.status.lastOp ∧
      t.irqEn = s.irqEn ∧ t.quality = s.quality ∧ t.width = s.width ∧ t.height = s.height ∧
      t.edgeOrder = s.edgeOrder ∧ t.params = s.params ∧
      t.rst = s.rst ∧ t.events = s.events ∧ t.replies = s.replies ∧ t.epoch = s.epoch ∧
      (t.irq = true ↔
        s.irqEn.doneIe = true ∨ ((t.status.err = true ∨ s.status.ovr = true) ∧ s.irqEn.errIe = true))

/-- R103, R109, R112, R116 to R121, R127, R138, R151 to R153: a command writes no RAM but those its rule names, and only
ENCODE_SCAN and ENCODE_IMAGE change OUT_COUNT and the entropy registers. -/
def Obligations.CommandsWriteOnlyTheirRams : Prop :=
  ∀ (i : Instr) (s t : State), i.port = .cmd → exec i s = .next t →
    (∀ r, r ∉ ramsOf i → t.mem.cells r = s.mem.cells r) ∧
    (i ≠ .encodeScan → i ≠ .encodeImage →
      t.outCount = s.outCount ∧ t.entBuf = s.entBuf ∧ t.entBits = s.entBits ∧
      t.lastDc0 = s.lastDc0 ∧ t.lastDc1 = s.lastDc1 ∧ t.lastDc2 = s.lastDc2)

/-- R158, R56: a command of one stage that ends in an error sets no VALID flag. (INIT_TABLES and ENCODE_IMAGE keep the
flags of the components that completed.) -/
def Obligations.FailedStagesSetNoFlag : Prop :=
  ∀ (i : Instr) (s t : State), i.port = .cmd → i ≠ .initTables → i ≠ .encodeImage →
    s.status.err = false → exec i s = .next t → t.status.err = true →
    t.valid.toWord &&& ~~~s.valid.toWord = 0

/-- R163: the checks come in the order geometry, tables, stage flags; the first that fails ends the command with its
code, and the command writes nothing. NOP, BUILD_QTABLES, BUILD_HUFF and INIT_TABLES have none. -/
def Obligations.ChecksComeInOrder : Prop :=
  ∀ (i : Instr) (s : State),
    (i ∈ [Instr.colorConvert, .extractLuma, .extractChroma, .fdctQuant, .edgeDcFixup, .zeroRight, .zeroBottom,
        .encodeScan, .encodeImage] → ¬GeometryValid s → exec i s = .next (failedWith s 1 ⟨0, 0, 0⟩)) ∧
    (GeometryValid s →
      ((i = .fdctQuant ∧ s.valid.qt = false) ∨
        (i = .encodeScan ∧ ∃ t, t < 4 ∧ s.valid.huff t = false) ∨
        (i = .encodeImage ∧ (s.valid.qt = false ∨ ∃ t, t < 4 ∧ s.valid.huff t = false))) →
      exec i s = .next (failedWith s 7 ⟨0, 0, 0⟩)) ∧
    (GeometryValid s →
      ((i ∈ [Instr.extractLuma, .extractChroma] ∧ s.valid.planes = false) ∨
        (i = .fdctQuant ∧ s.valid.qt = true ∧ (s.valid.lumaSmp = false ∨ s.valid.chromaSmp = false)) ∨
        (i ∈ [Instr.edgeDcFixup, .zeroRight, .zeroBottom] ∧ s.valid.coef = false) ∨
        (i = .encodeScan ∧ (∀ t, t < 4 → s.valid.huff t = true) ∧ s.valid.coef = false)) →
      exec i s = .next (failedWith s 8 ⟨0, 0, 0⟩)) ∧
    (i ∈ [Instr.nop, .buildQtables, .buildHuff 0, .buildHuff 1, .buildHuff 2, .buildHuff 3, .initTables] →
      s.status.err = false → ∀ t, exec i s = .next t → t.status.err = true →
        t.status.errcode ≠ 1 ∧ t.status.errcode ≠ 7 ∧ t.status.errcode ≠ 8)

/-! ## Quantization tables -/

/-- R103, with R97 to R100: BUILD_QTABLES builds both tables from the clamped quality and the ROM bases, with the
reciprocal quadruple of every entry; it sets QT and completes, for every quality byte. -/
def Obligations.BuildQtablesBuildsBothTables : Prop :=
  ∀ s : State, ∃ u, exec .buildQtables s = .next u ∧ CompletedOk s u { s.valid with qt := true } ∧
    (∀ site t i, t < 2 → i < 64 →
      let q := min (max s.quality.toNat 1) 100
      let scale := if q < 50 then 5000 / q else 200 - 2 * q
      let v := min (max (((quantBase t).getD i 0 * scale + 50) / 100) 1) 255
      (u.qtbl site t i).toNat = v ∧
      (u.divWord site t 0 i).toNat = (quad (8 * v)).recip ∧
      (u.divWord site t 1 i).toNat = (quad (8 * v)).corr ∧
      (u.divWord site t 2 i).toNat = (quad (8 * v)).scale ∧
      (u.divWord site t 3 i).toInt = (quad (8 * v)).shift) ∧
    ReadsAsBefore s u fun r off => (r = .qtbl ∧ off < 0x80) ∨ (r = .div ∧ off < 0x400)

/-- R101: the ranges of every reachable quadruple, and when its reciprocal is 32768. -/
def Obligations.QuadRangeFacts : Prop :=
  ∀ v, 1 ≤ v → v ≤ 255 →
    let q := quad (8 * v)
    32768 ≤ q.recip ∧ q.recip ≤ 65028 ∧
    4 ≤ q.corr ∧ q.corr ≤ 1020 ∧ (q.corr = 8 * v / 2 ∨ q.corr = 8 * v / 2 + 1) ∧
    2 ≤ q.shift ∧ q.shift ≤ 10 ∧ 18 ≤ q.shift + 16 ∧ q.shift + 16 ≤ 26 ∧
    q.scale = 2 ^ (16 - q.shift.toNat) ∧ 64 ≤ q.scale ∧ q.scale ≤ 16384 ∧
    (∀ p : Nat, p * q.scale / 2 ^ 16 = p / 2 ^ q.shift.toNat) ∧
    (2 ^ (16 + (bitlen (8 * v) - 1)) % (8 * v) = 0 ↔ ∃ k, 8 * v = 2 ^ k) ∧
    (2 ^ (16 + (bitlen (8 * v) - 1)) % (8 * v) = 0 → q.recip = 32768)

/-- R126, with R125: for every reachable quadruple and every integer X, the quantizer is the signed 16-bit reading of
±((|X| + corr)·recip >> (16 + shift)); for |X| ≤ 32768 that is division by 8·v rounded to nearest, ties away from zero,
symmetric in sign, and lies in -4096..4096. -/
def Obligations.QuantizerRoundsToNearest : Prop :=
  ∀ (v : Nat) (x : Int), 1 ≤ v → v ≤ 255 →
    let q := quad (8 * v)
    let p : Int := ((x.natAbs + q.corr) * q.recip / 2 ^ (16 + q.shift).toNat : Nat)
    quantize x q.recip q.corr q.shift = (BitVec.ofInt 16 (if x < 0 then -p else p)).toInt ∧
    (x.natAbs ≤ 32768 →
      quantize x q.recip q.corr q.shift = x.sign * (((x.natAbs + 8 * v / 2) / (8 * v) : Nat) : Int) ∧
      -4096 ≤ quantize x q.recip q.corr q.shift ∧ quantize x q.recip q.corr q.shift ≤ 4096)

/-! ## Huffman tables -/

/-- R109, with R104, R106, R108: BUILD_HUFF of an accepted specification gives every symbol of VALUES the canonical code
of its last position p: its size is the length at p of the list in which each length l stands HBITS[t][l] times, and its
value is Σ_{q<p} 2^(size p − size q). Every other symbol gets length 0. It sets HUFFt and completes. -/
def Obligations.BuildHuffBuildsTheCanonicalCodes : Prop :=
  ∀ (s : State) (t : BitVec 2), SpecAccepted s t.toNat →
    let sizes := (List.range' 1 16).flatMap fun l => List.replicate (s.hbits t.toNat l).toNat l
    ∃ u, exec (.buildHuff t) s = .next u ∧ CompletedOk s u (s.valid.setHuff t.toNat true) ∧
      (∀ site p, p < sizes.length →
        (∀ q, p < q → q < sizes.length → s.hvals t.toNat q ≠ s.hvals t.toNat p) →
        entrySize (u.ehufEntry site t.toNat (s.hvals t.toNat p).toNat) = sizes.getD p 0 ∧
        entryCode (u.ehufEntry site t.toNat (s.hvals t.toNat p).toNat) =
          ((List.range p).map fun q => 2 ^ (sizes.getD p 0 - sizes.getD q 0)).sum) ∧
      (∀ site sym, sym < 256 → (∀ p, p < sizes.length → (s.hvals t.toNat p).toNat ≠ sym) →
        u.ehufEntry site t.toNat sym = 0) ∧
      ReadsAsBefore s u fun r off => r = .ehuf ∧ 0x400 * t.toNat ≤ off ∧ off < 0x400 * t.toNat + 0x400

/-- R105: a specification of more than 256 symbols fails with InternalInvariant, SUB = 1, TBL = t, SYM = 0; HUFFt is
cleared and nothing else is written. -/
def Obligations.TooManySymbolsAreRejected : Prop :=
  ∀ (s : State) (t : BitVec 2), 256 < bitsSum s t.toNat →
    exec (.buildHuff t) s =
      .next (failedWith { s with valid := s.valid.setHuff t.toNat false } 4 ⟨0, t, 1⟩)

/-- R107: a specification that over-fills the code space fails with InternalInvariant, SUB = 2, TBL = t and SYM the first
length l at which Σ_{k≤l} HBITS[t][k]·2^(l−k) exceeds 2^l; HUFFt is cleared and nothing else is written. The check
fails at some length exactly when the Kraft sum exceeds 1. -/
def Obligations.OverfullCodeSpaceIsRejected : Prop :=
  ∀ (s : State) (t : BitVec 2), bitsSum s t.toNat ≤ 256 →
    let used := fun l => ((List.range' 1 l).map fun k => (s.hbits t.toNat k).toNat * 2 ^ (l - k)).sum
    (∀ l, 1 ≤ l → l ≤ 16 → 2 ^ l < used l → (∀ k, 1 ≤ k → k < l → used k ≤ 2 ^ k) →
      exec (.buildHuff t) s =
        .next (failedWith { s with valid := s.valid.setHuff t.toNat false } 4 ⟨BitVec.ofNat 8 l, t, 2⟩)) ∧
    (2 ^ 16 < kraftSum s t.toNat ↔ ∃ l, 1 ≤ l ∧ l ≤ 16 ∧ 2 ^ l < used l)

/-- R107, R23: the codes that BUILD_HUFF puts into EHUF are prefix-free: of two symbols that have codes, the shorter code
is not the beginning of the other. -/
def Obligations.HuffmanCodesArePrefixFree : Prop :=
  ∀ (s : State) (t : BitVec 2), SpecAccepted s t.toNat →
    ∃ u, exec (.buildHuff t) s = .next u ∧
      ∀ site a b, a < 256 → b < 256 → a ≠ b →
        let ea := u.ehufEntry site t.toNat a
        let eb := u.ehufEntry site t.toNat b
        entrySize ea ≠ 0 → entrySize ea ≤ entrySize eb →
          entryCode eb / 2 ^ (entrySize eb - entrySize ea) ≠ entryCode ea

/-! ## Colour and blocks -/

/-- R112, R110: COLOR_CONVERT writes the three components of every pixel, each by its formula and each in 0..255, and
nothing else; it sets PLANES and completes. -/
def Obligations.ColorConvertWritesThePlanes : Prop :=
  ∀ s : State, GeometryValid s →
    ∃ u, exec .colorConvert s = .next u ∧ CompletedOk s u { s.valid with planes := true } ∧
      (∀ site x y, x < s.width.toNat → y < s.height.toNat →
        let k := y * s.width.toNat + x
        let r : Int := (s.byte .pixel .rgb (3 * k)).toNat
        let g : Int := (s.byte .pixel .rgb (3 * k + 1)).toNat
        let b : Int := (s.byte .pixel .rgb (3 * k + 2)).toNat
        ((u.byte site .py k).toNat : Int) = (19595 * r + 38470 * g + 7471 * b + 32768) / 2 ^ 16 ∧
        ((u.byte site .pcb k).toNat : Int) =
          (-11059 * r - 21709 * g + 32768 * b + 8388608 + 32768 - 1) / 2 ^ 16 ∧
        ((u.byte site .pcr k).toNat : Int) =
          (32768 * r - 27439 * g - 5329 * b + 8388608 + 32768 - 1) / 2 ^ 16) ∧
      ReadsAsBefore s u fun r off =>
        (r = .py ∨ r = .pcb ∨ r = .pcr) ∧ off < s.width.toNat * s.height.toNat

/-- R116, R113 to R115: EXTRACT_LUMA fills blocks 0..3 of every MCU with the samples of the Y plane, 0 outside the image,
and writes nothing else; it sets LUMA_SMP, clears COEF and SCAN, and completes. -/
def Obligations.ExtractLumaFillsTheLumaBlocks : Prop :=
  ∀ s : State, GeometryValid s → s.valid.planes = true →
    let w := s.width.toNat
    let h := s.height.toNat
    let nsbw := (w + 15) / 16
    let nsbh := (h + 15) / 16
    ∃ u, exec .extractLuma s = .next u ∧
      CompletedOk s u { s.valid with lumaSmp := true, coef := false, scan := false } ∧
      (∀ site gx gy k i j, gx < nsbw → gy < nsbh → k < 4 → i < 8 → j < 8 →
        let x := 16 * gx + 8 * (k % 2) + i
        let y := 16 * gy + 8 * (k / 2) + j
        u.blk site (6 * (gy * nsbw + gx) + k) (8 * j + i) =
          if x < w ∧ y < h then ((s.byte .sample .py (y * w + x)).toNat : Int) else 0) ∧
      ReadsAsBefore s u fun r off => r = .blk ∧ off / 128 < 6 * (nsbw * nsbh) ∧ off / 128 % 6 < 4

/-- R117: EXTRACT_CHROMA fills blocks 4 and 5 of every MCU with the rounded averages of 2×2 areas of the Cb and Cr
planes, positions outside the image counting as 0, and writes nothing else; it sets CHROMA_SMP, clears COEF and SCAN,
and completes. -/
def Obligations.ExtractChromaFillsTheChromaBlocks : Prop :=
  ∀ s : State, GeometryValid s → s.valid.planes = true →
    let w := s.width.toNat
    let h := s.height.toNat
    let nsbw := (w + 15) / 16
    let nsbh := (h + 15) / 16
    let at_ := fun (r : Ram) (x y : Nat) => if x < w ∧ y < h then (s.byte .sample r (y * w + x)).toNat else 0
    ∃ u, exec .extractChroma s = .next u ∧
      CompletedOk s u { s.valid with chromaSmp := true, coef := false, scan := false } ∧
      (∀ site gx gy i j r k, gx < nsbw → gy < nsbh → i < 8 → j < 8 → (k = 4 ∧ r = .pcb) ∨ (k = 5 ∧ r = .pcr) →
        let x := 16 * gx + 2 * i
        let y := 16 * gy + 2 * j
        u.blk site (6 * (gy * nsbw + gx) + k) (8 * j + i) =
          (((at_ r x y + at_ r (x + 1) y + at_ r x (y + 1) + at_ r (x + 1) (y + 1) + 2) / 4 : Nat) : Int)) ∧
      ReadsAsBefore s u fun r off => r = .blk ∧ off / 128 < 6 * (nsbw * nsbh) ∧ 4 ≤ off / 128 % 6

/-- R119, R118: EDGE_DC_FIXUP copies the DC of Y1 to Y2 and Y3 in the bottom MCU row, if and only if
2·(nsbh−1)+1 ≥ nbh; nothing else is written; SCAN is cleared, COEF stays, and the command completes. -/
def Obligations.EdgeDcFixupCopiesTheDc : Prop :=
  ∀ s : State, GeometryValid s → s.valid.coef = true →
    let nsbw := (s.width.toNat + 15) / 16
    let nsbh := (s.height.toNat + 15) / 16
    let nbh := (s.height.toNat + 7) / 8
    ∃ u, exec .edgeDcFixup s = .next u ∧ CompletedOk s u { s.valid with scan := false } ∧
      (nbh ≤ 2 * (nsbh - 1) + 1 → ∀ site gx k, gx < nsbw → k = 2 ∨ k = 3 →
        let m := (nsbh - 1) * nsbw + gx
        u.blk site (6 * m + k) 0 = s.blk .fixup (6 * m + 1) 0) ∧
      ReadsAsBefore s u fun r off =>
        r = .blk ∧ nbh ≤ 2 * (nsbh - 1) + 1 ∧ off / 128 / 6 / nsbw = nsbh - 1 ∧
        (off / 128 % 6 = 2 ∨ off / 128 % 6 = 3) ∧ off % 128 < 2

/-- R118: the fix-up condition depends on H only: it holds exactly when nbh is odd, which is 2·nsbh − 1 or 2·nsbh. -/
def Obligations.FixupConditionIsAnOddHeight : Prop :=
  ∀ s : State, 1 ≤ s.height.toNat →
    (s.nbh = 2 * s.nsbh - 1 ∨ s.nbh = 2 * s.nsbh) ∧
    (s.fixupApplies = true ↔ (s.height.toNat + 7) / 8 % 2 = 1)

/-- R120: ZERO_RIGHT writes zeros to every coefficient of the luma blocks with block_x ≥ nbw, and nothing else; SCAN is
cleared, and the command completes. -/
def Obligations.ZeroRightZeroesTheBlocksRight : Prop :=
  ∀ s : State, GeometryValid s → s.valid.coef = true →
    let nsbw := (s.width.toNat + 15) / 16
    let nsbh := (s.height.toNat + 15) / 16
    let nbw := (s.width.toNat + 7) / 8
    ∃ u, exec .zeroRight s = .next u ∧ CompletedOk s u { s.valid with scan := false } ∧
      (∀ site gx gy k n, gx < nsbw → gy < nsbh → k < 4 → n < 64 → nbw ≤ 2 * gx + k % 2 →
        u.blk site (6 * (gy * nsbw + gx) + k) n = 0) ∧
      ReadsAsBefore s u fun r off =>
        r = .blk ∧ off / 128 < 6 * (nsbw * nsbh) ∧ off / 128 % 6 < 4 ∧
        nbw ≤ 2 * (off / 128 / 6 % nsbw) + off / 128 % 6 % 2

/-- R121: ZERO_BOTTOM writes zeros to every coefficient of the luma blocks with block_y ≥ nbh, and nothing else; SCAN is
cleared, and the command completes. -/
def Obligations.ZeroBottomZeroesTheBlocksBelow : Prop :=
  ∀ s : State, GeometryValid s → s.valid.coef = true →
    let nsbw := (s.width.toNat + 15) / 16
    let nsbh := (s.height.toNat + 15) / 16
    let nbh := (s.height.toNat + 7) / 8
    ∃ u, exec .zeroBottom s = .next u ∧ CompletedOk s u { s.valid with scan := false } ∧
      (∀ site gx gy k n, gx < nsbw → gy < nsbh → k < 4 → n < 64 → nbh ≤ 2 * gy + k / 2 →
        u.blk site (6 * (gy * nsbw + gx) + k) n = 0) ∧
      ReadsAsBefore s u fun r off =>
        r = .blk ∧ off / 128 < 6 * (nsbw * nsbh) ∧ off / 128 % 6 < 4 ∧
        nbh ≤ 2 * (off / 128 / 6 / nsbw) + off / 128 % 6 / 2

/-- R121: ZERO_RIGHT and ZERO_BOTTOM commute, and doing either twice is doing it once, on every byte of every RAM. -/
def Obligations.ZeroingCommutesAndIsIdempotent : Prop :=
  ∀ s : State, GeometryValid s → s.valid.coef = true →
    ∃ a b c d e f,
      execAll [.zeroRight, .zeroBottom] s = .next a ∧ execAll [.zeroBottom, .zeroRight] s = .next b ∧
      execAll [.zeroRight, .zeroRight] s = .next c ∧ execAll [.zeroRight] s = .next d ∧
      execAll [.zeroBottom, .zeroBottom] s = .next e ∧ execAll [.zeroBottom] s = .next f ∧
      b = { a with mem := b.mem } ∧ c = { d with mem := c.mem } ∧ e = { f with mem := e.mem } ∧
      ∀ site r off, b.byte site r off = a.byte site r off ∧ c.byte site r off = d.byte site r off ∧
        e.byte site r off = f.byte site r off

/-- R119, R153: after EDGE_DC_FIXUP, ZERO_BOTTOM zeroes every block the fix-up changed, so the fix-up has no effect. -/
def Obligations.ZeroBottomUndoesTheFixup : Prop :=
  ∀ s : State, GeometryValid s → s.valid.coef = true →
    ∃ a b, execAll [.edgeDcFixup, .zeroBottom] s = .next a ∧ exec .zeroBottom s = .next b ∧
      a = { b with mem := a.mem } ∧ ∀ site r off, a.byte site r off = b.byte site r off

/-! ## Transform and quantizer -/

/-- R127, with R122, R123, R125: FDCT_QUANT replaces every block of the image by its quantized coefficients, with the
luminance table for Y0..Y3 and the chrominance table for Cb and Cr, and writes nothing else; COEF is set, LUMA_SMP,
CHROMA_SMP and SCAN are cleared, and the command completes. -/
def Obligations.FdctQuantQuantizesEveryBlock : Prop :=
  ∀ s : State, GeometryValid s → s.valid.qt = true → s.valid.lumaSmp = true → s.valid.chromaSmp = true →
    let blocks := 6 * ((s.width.toNat + 15) / 16 * ((s.height.toNat + 15) / 16))
    ∃ u, exec .fdctQuant s = .next u ∧
      CompletedOk s u { s.valid with coef := true, lumaSmp := false, chromaSmp := false, scan := false } ∧
      (∀ site b n, b < blocks → n < 64 →
        let t := if b % 6 < 4 then 0 else 1
        let d := (List.range 64).map fun i => s.blk .blockIn b i - 128
        let x := (fdctKernel s.params.kernel s.epoch b d).getD n 0
        u.blk site b n = quantize x (s.divWord (.divisor b) t 0 n).toNat (s.divWord (.divisor b) t 1 n).toNat
          (s.divWord (.divisor b) t 3 n).toInt) ∧
      ReadsAsBefore s u fun r off => r = .blk ∧ off < 128 * blocks

/-- R123 property 4, R124: constant blocks are exact, for every kernel on the range of level-shifted samples and for
FDCT_REF on every integer. -/
def Obligations.ConstantBlocksTransformExactly : Prop :=
  (∀ c : Int, fdctRef (List.replicate 64 c) = 64 * c :: List.replicate 63 0) ∧
  (∀ (k : Kernel) (e b : Nat) (c : Int), -128 ≤ c → c ≤ 127 →
    fdctKernel k e b (List.replicate 64 c) = 64 * c :: List.replicate 63 0)

/-! ## Entropy coder -/

/-- R129: the magnitude category is the least n with |v| < 2^n; the n magnitude bits are v itself, or for negative v
v + 2^n − 1, which is below 2^(n−1); they fit n bits, and no reduction modulo 2^n changes them. -/
def Obligations.MagnitudeBitsEncodeTheValue : Prop :=
  ∀ v : Int,
    v.natAbs < 2 ^ magSize v ∧ (∀ n, v.natAbs < 2 ^ n → magSize v ≤ n) ∧ magBits v < 2 ^ magSize v ∧
    (0 ≤ v → (magBits v : Int) = v) ∧
    (v < 0 → (magBits v : Int) = v + 2 ^ magSize v - 1 ∧ magBits v < 2 ^ (magSize v - 1))

/-- R131, R132: PUT_BITS on a drained buffer appends its bits to the stream, the most significant first, keeps the buffer
drained and every 0xFF stuffed, and succeeds if OUT has room for four more bytes. -/
def Obligations.PutBitsAppendsTheBits : Prop :=
  ∀ (cap code size : Nat) (c : Coder), c.Drained → Stuffed c.out.reverse → 1 ≤ size → size ≤ 16 → code < 2 ^ size →
    (∀ d, putBits cap code size c = .ok d →
      d.Drained ∧ Stuffed d.out.reverse ∧ d.stream = c.stream ++ msbBits size code ∧
      d.count + c.out.length = c.count + d.out.length ∧
      d.dc0 = c.dc0 ∧ d.dc1 = c.dc1 ∧ d.dc2 = c.dc2 ∧ d.emissions = c.emissions) ∧
    (c.count + 4 ≤ cap → ∃ d, putBits cap code size c = .ok d)

/-- R138, R139: what ENCODE_SCAN leaves when its checks pass. It completes with SCAN set, the buffer empty and LAST_DCc
the DC of the last block of component c; or with IoFailure, or InternalInvariant 3 or 4, SCAN cleared and OUT_COUNT 0.
OUT alone is written, and COEF stays. -/
def Obligations.ScanEndsCompleteOrEmpty : Prop :=
  ∀ s : State, GeometryValid s → (∀ t, t < 4 → s.valid.huff t = true) → s.valid.coef = true →
    ∃ u, exec .encodeScan s = .next u ∧
      (∀ site r off, r ≠ .out → u.byte site r off = s.byte site r off) ∧
      ((u = { s with
          status := { s.status with busy := false, done := true }
          pending := 0
          valid := { s.valid with scan := true }
          outCount := u.outCount
          entBuf := 0
          entBits := 0
          lastDc0 := BitVec.ofInt 32 (s.blk .scanBlock (s.nblocks - 3) 0)
          lastDc1 := BitVec.ofInt 32 (s.blk .scanBlock (s.nblocks - 2) 0)
          lastDc2 := BitVec.ofInt 32 (s.blk .scanBlock (s.nblocks - 1) 0)
          mem := u.mem }) ∨
       (u = { s with
          status := { s.status with busy := false, done := true, err := true, errcode := u.status.errcode }
          pending := 0
          errInfo := u.errInfo
          valid := { s.valid with scan := false }
          outCount := 0
          entBuf := u.entBuf
          entBits := u.entBits
          lastDc0 := u.lastDc0
          lastDc1 := u.lastDc1
          lastDc2 := u.lastDc2
          mem := u.mem } ∧
        ((u.status.errcode = 2 ∧ u.errInfo = ⟨0, 0, 0⟩) ∨
          (u.status.errcode = 4 ∧ (u.errInfo.sub = 3 ∨ u.errInfo.sub = 4)))))

/-- R130, R134, R135, R138, R160: where the first item of the scan that cannot be coded is a symbol without a code, be it
of a DC step, an AC coefficient, a ZRL or EOB, of whichever block and table, and the bytes before it fit OUT, ENCODE_SCAN
fails with InternalInvariant, SUB = 3, TBL and SYM that table and symbol; OUT_COUNT is 0, SCAN is cleared, and LAST_DC0..2
are last_dc as it stood. In states that meet the invariant Vouched, as every state reached from reset does; for the first
item of all, the DC symbol of block 0, in every state. -/
def Obligations.SymbolWithoutACodeFailsTheScan : Prop :=
  ∀ s : State, GeometryValid s → (∀ t, t < 4 → s.valid.huff t = true) → s.valid.coef = true →
    (Vouched s → ∀ pre t sym post, scanTokens s = pre ++ .code t sym :: post → (∀ x ∈ pre, x.Codable s) →
      (emittedBytes (tokensBits s pre)).length ≤ s.params.outCap →
      entrySize (s.ehufEntry .port t sym) = 0 →
      ∃ u, exec .encodeScan s = .next u ∧
        u.status = { s.status with busy := false, done := true, err := true, errcode := 4 } ∧
        u.errInfo = ⟨BitVec.ofNat 8 sym, BitVec.ofNat 2 t, 3⟩ ∧ u.outCount = 0 ∧
        u.valid = { s.valid with scan := false } ∧
        u.lastDc0 = BitVec.ofInt 32 (lastPredicted 0 pre) ∧ u.lastDc1 = BitVec.ofInt 32 (lastPredicted 1 pre) ∧
        u.lastDc2 = BitVec.ofInt 32 (lastPredicted 2 pre)) ∧
    (let n := magSize (s.blk .scanBlock 0 0);
      entrySize (s.ehufEntry (.emission 0) 0 n) = 0 →
      ∃ u, exec .encodeScan s = .next u ∧ u.status.err = true ∧ u.status.errcode = 4 ∧
        u.errInfo = ⟨BitVec.ofNat 8 n, 0, 3⟩ ∧ u.outCount = 0 ∧ u.valid = { s.valid with scan := false } ∧
        u.lastDc0 = 0 ∧ u.lastDc1 = 0 ∧ u.lastDc2 = 0)

/-- R135, R138, R160: an AC coefficient needs more than 15 magnitude bits exactly when it is −32768, and then it needs 16.
Where that is the first item of the scan that cannot be coded, at whichever place of whichever block, after the ZRLs of
its run, and the bytes before it fit OUT, ENCODE_SCAN fails with InternalInvariant, SUB = 4, TBL the AC table and SYM = 16;
OUT_COUNT is 0, SCAN is cleared, and LAST_DC0..2 are last_dc as it stood. In states that meet the invariant Vouched, as
every state reached from reset does; for the first AC coefficient of block 0 after a DC that can be coded, in every
state whose table 0 has codes that fit their sizes. -/
def Obligations.OversizedCoefficientFailsTheScan : Prop :=
  ∀ s : State, GeometryValid s → (∀ t, t < 4 → s.valid.huff t = true) → s.valid.coef = true →
    (∀ t n, Token.tooLong t n ∈ scanTokens s ↔
      n = 16 ∧ ∃ b i, b < s.nblocks ∧ 1 ≤ i ∧ i < 64 ∧ t = acTable b ∧ s.blk .scanBlock b i = -32768) ∧
    (Vouched s → ∀ pre t n post, scanTokens s = pre ++ .tooLong t n :: post → (∀ x ∈ pre, x.Codable s) →
      (emittedBytes (tokensBits s pre)).length ≤ s.params.outCap →
      ∃ u, exec .encodeScan s = .next u ∧
        u.status = { s.status with busy := false, done := true, err := true, errcode := 4 } ∧
        u.errInfo = ⟨16, BitVec.ofNat 2 t, 4⟩ ∧ u.outCount = 0 ∧ u.valid = { s.valid with scan := false } ∧
        u.lastDc0 = BitVec.ofInt 32 (lastPredicted 0 pre) ∧ u.lastDc1 = BitVec.ofInt 32 (lastPredicted 1 pre) ∧
        u.lastDc2 = BitVec.ofInt 32 (lastPredicted 2 pre)) ∧
    (8 ≤ s.params.outCap → CodesProper s 0 → HasCode s 0 (magSize (s.blk .scanBlock 0 0)) →
      s.blk .scanBlock 0 1 = -32768 →
      ∃ u, exec .encodeScan s = .next u ∧ u.status.err = true ∧ u.status.errcode = 4 ∧
        u.errInfo = ⟨16, 1, 4⟩ ∧ u.outCount = 0 ∧ u.valid = { s.valid with scan := false } ∧
        u.lastDc0 = BitVec.ofInt 32 (s.blk .scanBlock 0 0) ∧ u.lastDc1 = 0 ∧ u.lastDc2 = 0)

/-- R139 property 2, R132: after a successful ENCODE_SCAN, OUT[0 .. OUT_COUNT−1] holds no 0xFF that a 0x00 does not
follow, whatever the codes and the coefficients are. -/
def Obligations.ScanOutputIsStuffed : Prop :=
  ∀ s u : State, s.params.outCap ≤ 2 ^ 28 →
    GeometryValid s → (∀ t, t < 4 → s.valid.huff t = true) → s.valid.coef = true →
    exec .encodeScan s = .next u → u.valid.scan = true →
    ∀ site, Stuffed (u.bytes site .out 0 u.outCount.toNat)

/-- R139, with R128 to R138: the bytes of every successful ENCODE_SCAN are the bits of its blocks, in scan order, packed
into bytes, the last filled up with ones, and stuffed: per block the code and the magnitude bits of the DC difference to
the block of the same component before it, and the AC run-length codes. OUT_COUNT is ⌈data bits / 8⌉ plus the number of
0xFF among the data bytes. In states that meet the invariant Vouched, as every state reached from reset does. -/
def Obligations.SuccessfulScanIsTheStuffedBits : Prop :=
  ∀ s u : State, Vouched s → s.params.outCap ≤ 2 ^ 28 →
    GeometryValid s → (∀ t, t < 4 → s.valid.huff t = true) → s.valid.coef = true →
    exec .encodeScan s = .next u → u.valid.scan = true →
    (∀ site, u.bytes site .out 0 u.outCount.toNat = ecsOf s) ∧
    u.outCount.toNat = ((scanBits s).length + 7) / 8 + (packBits [] (scanBits s)).count 0xFF

/-- R138, R161: where the coefficients are small enough for the codes that EHUF has, ENCODE_SCAN completes exactly when
the bytes of the scan fit OUT, and ends with IoFailure and OUT_COUNT = 0 otherwise. -/
def Obligations.ScanCompletesExactlyWhenItFits : Prop :=
  ∀ s : State, Vouched s → s.params.outCap ≤ 2 ^ 28 →
    GeometryValid s → (∀ t, t < 4 → s.valid.huff t = true) → s.valid.coef = true →
    CodesReady s → CoefsSmall s →
    ((ecsOf s).length ≤ s.params.outCap →
      ∃ u, exec .encodeScan s = .next u ∧ u.valid = { s.valid with scan := true } ∧
        u.status = { s.status with busy := false, done := true } ∧ u.errInfo = s.errInfo ∧
        u.outCount.toNat = (ecsOf s).length ∧ ∀ site, u.bytes site .out 0 (ecsOf s).length = ecsOf s) ∧
    (s.params.outCap < (ecsOf s).length →
      ∃ u, exec .encodeScan s = .next u ∧ u.valid = { s.valid with scan := false } ∧
        u.status = { s.status with busy := false, done := true, err := true, errcode := 2 } ∧
        u.errInfo = ⟨0, 0, 0⟩ ∧ u.outCount = 0)

/-- R139 property 4: the result of ENCODE_SCAN is a pure function of BLK, EHUF and the geometry (and of OUT_CAP): two
states that agree on these, whatever else differs, give the same bytes, OUT_COUNT, LAST_DC0..2 and error. -/
def Obligations.ScanDependsOnBlocksAndCodesAlone : Prop :=
  ∀ s s' u u' : State, Vouched s → s.params.outCap ≤ 2 ^ 28 →
    GeometryValid s → (∀ t, t < 4 → s.valid.huff t = true) → s.valid.coef = true →
    s'.params = s.params → (∀ t, t < 4 → s'.valid.huff t = true) → s'.valid.coef = true →
    s'.width = s.width → s'.height = s.height → s'.mem.blk = s.mem.blk → s'.mem.ehuf = s.mem.ehuf →
    exec .encodeScan s = .next u → exec .encodeScan s' = .next u' →
    u'.valid.scan = u.valid.scan ∧ u'.outCount = u.outCount ∧
    (u.valid.scan = false → u'.status.errcode = u.status.errcode ∧ u'.errInfo = u.errInfo) ∧
    u'.lastDc0 = u.lastDc0 ∧ u'.lastDc1 = u.lastDc1 ∧ u'.lastDc2 = u.lastDc2 ∧
    ∀ site off, off < u.outCount.toNat → u'.byte site .out off = u.byte site .out off

/-! ## Sequencer -/

/-- R151: NOP completes, and does nothing else. -/
def Obligations.NopOnlyCompletes : Prop :=
  ∀ s : State, exec .nop s =
    .next { s with status := { s.status with busy := false, done := true }, pending := 0 }

/-- R152: INIT_TABLES is BUILD_QTABLES and then BUILD_HUFF 0..3, up to the first that fails. If every specification is
accepted, it completes with QT and all HUFF flags set. If table t is the first that is not accepted, HUFF0..HUFF(t−1)
are set, HUFFt is cleared, the later flags and tables stay, and the error names table t. -/
def Obligations.InitTablesIsItsComponents : Prop :=
  ∀ s : State,
    ((∀ t, t < 4 → SpecAccepted s t) →
      exec .initTables s = execAll [.buildQtables, .buildHuff 0, .buildHuff 1, .buildHuff 2, .buildHuff 3] s ∧
      ∃ u, exec .initTables s = .next u ∧
        CompletedOk s u { s.valid with qt := true, huff0 := true, huff1 := true, huff2 := true, huff3 := true }) ∧
    (∀ t, t < 4 → (∀ k, k < t → SpecAccepted s k) → ¬SpecAccepted s t →
      exec .initTables s =
        execAll (.buildQtables :: (List.range (t + 1)).map fun k => .buildHuff (BitVec.ofNat 2 k)) s ∧
      ∃ u, exec .initTables s = .next u ∧ u.status.err = true ∧ u.status.errcode = 4 ∧
        u.errInfo.tbl.toNat = t ∧ u.valid.qt = true ∧ u.valid.huff t = false ∧
        (∀ k, k < t → u.valid.huff k = true) ∧ (∀ k, t < k → k < 4 → u.valid.huff k = s.valid.huff k) ∧
        ∀ site off, 0x400 * t ≤ off → u.byte site .ehuf off = s.byte site .ehuf off)

/-- R153: when its checks pass, ENCODE_IMAGE is its stages, in the order EDGE_CFG.ORDER gives, each of which finds its
own preconditions met. -/
def Obligations.EncodeImageIsItsStages : Prop :=
  ∀ s : State, GeometryValid s → s.valid.qt = true → (∀ t, t < 4 → s.valid.huff t = true) →
    exec .encodeImage s = execAll (imageStages s.edgeOrder) s

/-- R153: ENCODE_IMAGE completes with PLANES, COEF and SCAN set and LUMA_SMP and CHROMA_SMP cleared, and its bytes in
OUT, where its coefficients have codes and its bytes fit. QT and HUFF0..3 stay. -/
def Obligations.EncodeImageCompletes : Prop :=
  ∀ s : State, Vouched s → s.params.outCap ≤ 2 ^ 28 →
    GeometryValid s → s.valid.qt = true → (∀ t, t < 4 → s.valid.huff t = true) →
    CodesReady (beforeScan s) → CoefsSmall (beforeScan s) →
    (ecsOf (beforeScan s)).length ≤ s.params.outCap →
    ∃ u, exec .encodeImage s = .next u ∧
      u.status = { s.status with busy := false, done := true } ∧ u.errInfo = s.errInfo ∧ u.pending = 0 ∧
      u.valid =
        { s.valid with planes := true, lumaSmp := false, chromaSmp := false, coef := true, scan := true } ∧
      u.outCount.toNat = (ecsOf (beforeScan s)).length ∧
      (∀ site, u.bytes site .out 0 u.outCount.toNat = ecsOf (beforeScan s)) ∧
      u.entBuf = 0 ∧ u.entBits = 0 ∧
      (∀ site r off, r = .qtbl ∨ r = .div ∨ r = .huffSpec ∨ r = .ehuf ∨ r = .rgb →
        u.byte site r off = s.byte site r off)

/-! ## Container -/

/-- R149: with the standard tables in HUFFSPEC, the file that the host writes is OUT_COUNT + 625 bytes long. R147, R150: an
encode that completes without an error is written as that file, and after a command that ended in an error, whichever
it is and whatever an earlier scan left, the host writes nothing. (That LAST_OP is the opcode of the accepted word is
R156; that the host looks before it acknowledges STATUS is the model's reading, log entry 15.) -/
def Obligations.FramingIsSixHundredTwentyFiveBytes : Prop :=
  (∀ s : State, s.mem.huffSpec = [] → s.jfifFile.length = 625 + s.outCount.toNat) ∧
  (∀ s : State, s.status.err = true → s.hostOutput = []) ∧
  (∀ (i : Instr) (s u : State), i = .encodeScan ∨ i = .encodeImage → s.status.lastOp = opField (encode i) →
    s.status.err = false → exec i s = .next u →
    (u.status.err = false → u.hostOutput = u.jfifFile) ∧ (u.status.err = true → u.hostOutput = []))

/-! ## Invariants -/

/-- The machine meets both invariants after reset, whatever its parameters are. -/
def Obligations.ResetMeetsTheInvariants : Prop :=
  ∀ p : Params, Inv (State.resetWith p) ∧ Vouched (State.resetWith p)

/-- Every step keeps the invariant of the registers and of the form of the RAMs: the canonical form of every RAM; the
bits and bytes that are not stored; ERRCODE is 0 whenever ERR = 0, and codes and sub-causes are legal (R33, R159, R160);
no command is pending while the engine is idle, nor DONE, ERR or ERRINFO set while it is busy (R156, R157); the stage
flags vouch for one another (R38, R56, R57); OUT_COUNT ≤ OUT_CAP (R40); the bit buffer is empty after a scan (R41). -/
def Obligations.StepKeepsTheInvariant : Prop :=
  ∀ s t : State, Inv s → step s = .next t → Inv t

/-- Every step keeps the invariant of the data: no buffer that a VALID flag vouches for holds a byte that nothing has
written since reset (R38, R55), and every code in a built table fits its size (R49). -/
def Obligations.StepKeepsTheDataVouchedFor : Prop :=
  ∀ s t : State, Inv s → Vouched s → step s = .next t → Vouched t

end
end

