-- ==== Sys2Proof/Laws/Memory.lean ====
section
/-! SUPPORT. The laws of the RAMs: reading after writing, and the canonical form. -/

namespace Sys2Proof.Machine

/-! ## Lists of cells -/

theorem lookup_filter_key (p : Nat → Bool) (c : Cells) (a : Nat) :
    List.lookup a (c.filter fun x => p x.1) = if p a then List.lookup a c else none := by
  induction c with
  | nil => simp
  | cons x c ih =>
    obtain ⟨k, b⟩ := x
    by_cases hk : a = k
    · subst hk
      cases hp : p a with
      | true => simp [List.filter, hp, List.lookup]
      | false => simp only [List.filter, hp, ih, Bool.false_eq_true, if_false]
    · have hne : (a == k) = false := by simpa using hk
      by_cases hp : p k
      · simp [List.filter, hp, List.lookup, hne, ih]
      · simp [List.filter, hp, List.lookup, hne, ih]

theorem lookup_cellsFrom (bs : List Byte) (off a : Nat) :
    List.lookup a (cellsFrom off bs) = if off ≤ a then bs[a - off]? else none := by
  induction bs generalizing off with
  | nil => simp [cellsFrom]
  | cons b bs ih =>
    rcases Nat.lt_trichotomy a off with h | h | h
    · have : (a == off) = false := by simp; omega
      simp [cellsFrom, List.lookup_cons, this, ih, Nat.not_le.2 h, show ¬off + 1 ≤ a by omega]
    · subst h; simp [cellsFrom]
    · have hne : (a == off) = false := by simp; omega
      obtain ⟨d, rfl⟩ : ∃ d, a = off + 1 + d := ⟨a - (off + 1), by omega⟩
      simp [cellsFrom, List.lookup, hne, ih, show off ≤ off + 1 + d by omega, show off + 1 + d - off = d + 1 by omega]

theorem mem_cellsFrom {bs : List Byte} {off : Nat} {x : Host.Cell} (h : x ∈ cellsFrom off bs) :
    off ≤ x.1 ∧ x.1 < off + bs.length := by
  induction bs generalizing off with
  | nil => simp [cellsFrom] at h
  | cons b bs ih =>
    simp only [cellsFrom, List.mem_cons, List.length_cons] at h ⊢
    rcases h with rfl | h
    · simp
    · have := ih h; omega

theorem pairwise_cellsFrom (bs : List Byte) (off : Nat) :
    (cellsFrom off bs).Pairwise fun x y => x.1 < y.1 := by
  induction bs generalizing off with
  | nil => simp [cellsFrom]
  | cons b bs ih =>
    simp only [cellsFrom, List.pairwise_cons]
    exact ⟨fun x hx => by have := mem_cellsFrom hx; omega, ih _⟩

/-- Looking up a cell among those that say more than an unlisted offset would. -/
theorem lookup_filter_keeps (r : Ram) (bs : List Byte) (off a : Nat) :
    List.lookup a ((cellsFrom off bs).filter r.keeps) =
      if off ≤ a then (bs[a - off]?).filter fun b => decide (r.unlisted a ≠ some b) else none := by
  induction bs generalizing off with
  | nil => simp [cellsFrom]
  | cons b bs ih =>
    have hcons : (cellsFrom off (b :: bs)).filter r.keeps =
        (if r.keeps (off, b) then [(off, b)] else []) ++ (cellsFrom (off + 1) bs).filter r.keeps := by
      by_cases hk : r.keeps (off, b) <;> simp [cellsFrom, hk]
    rw [hcons, List.lookup_append, ih]
    rcases Nat.lt_trichotomy a off with h | h | h
    · have hne : (a == off) = false := by simp; omega
      by_cases hk : r.keeps (off, b) <;>
        simp [hk, List.lookup, hne, Nat.not_le.2 h, show ¬off + 1 ≤ a by omega]
    · subst h
      by_cases hk : r.keeps (a, b)
      · have : r.unlisted a ≠ some b := by simpa [Ram.keeps] using hk
        simp [hk, Option.filter, this]
      · have : r.unlisted a = some b := by simpa [Ram.keeps] using hk
        simp [hk, Option.filter, this]
    · have hne : (a == off) = false := by simp; omega
      obtain ⟨d, rfl⟩ : ∃ d, a = off + 1 + d := ⟨a - (off + 1), by omega⟩
      by_cases hk : r.keeps (off, b) <;>
        simp [hk, List.lookup, hne, show off ≤ off + 1 + d by omega, show off + 1 + d - off = d + 1 by omega]

/-! ## One RAM -/

/-- Reading after a write: the written byte inside the written range, what it was outside. -/
theorem Cells.read_write (r : Ram) (c : Cells) (off : Nat) (bs : List Byte) (a : Nat) :
    (c.write r off bs).read r a =
      if off ≤ a ∧ a < off + bs.length then bs[a - off]? else c.read r a := by
  have hlow := lookup_filter_key (fun k => decide (k < off)) c a
  have hhigh := lookup_filter_key (fun k => decide (off + bs.length ≤ k)) c a
  have hget : (c.write r off bs).get a =
      ((if a < off then List.lookup a c else none).or
        ((if off ≤ a then (bs[a - off]?).filter fun b => decide (r.unlisted a ≠ some b) else none).or
          (if off + bs.length ≤ a then List.lookup a c else none))) := by
    simp only [Cells.get, Cells.write, List.append_assoc, List.lookup_append, lookup_filter_keeps]
    rw [hlow, hhigh]
    simp
  unfold Cells.read
  rw [hget]
  by_cases h1 : a < off
  · simp only [h1, if_true, Nat.not_le.2 h1, if_false, show ¬off + bs.length ≤ a by omega, false_and, Cells.get,
      Option.or_none]
  · by_cases h2 : a < off + bs.length
    · have hsome : bs[a - off]? = some (bs[a - off]'(by omega)) := by
        rw [List.getElem?_eq_getElem]
      simp only [h1, if_false, show off ≤ a by omega, if_true, h2, and_self, show ¬off + bs.length ≤ a by omega, hsome,
        Option.none_or, Option.or_none]
      by_cases hu : r.unlisted a = some (bs[a - off]'(by omega))
      · simp [Option.filter, hu]
      · simp [Option.filter, hu]
    · have hnone : bs[a - off]? = none := by rw [List.getElem?_eq_none]; omega
      simp [h1, h2, show off ≤ a by omega, show off + bs.length ≤ a by omega, hnone, Cells.get]

/-- A write keeps the canonical form. -/
theorem Cells.write_wf (r : Ram) (c : Cells) (off : Nat) (bs : List Byte) (h : c.wf r = true) :
    (c.write r off bs).wf r = true := by
  simp only [Cells.wf, Bool.and_eq_true, decide_eq_true_eq, List.all_eq_true] at h ⊢
  obtain ⟨hp, hk⟩ := h
  constructor
  · unfold Cells.write
    rw [List.pairwise_append, List.pairwise_append]
    refine ⟨⟨hp.filter _, (pairwise_cellsFrom bs off).filter _, ?_⟩, hp.filter _, ?_⟩
    · intro x hx y hy
      have hx' : x.1 < off := by simpa using (List.mem_filter.1 hx).2
      have hy' := mem_cellsFrom (List.mem_filter.1 hy).1
      omega
    · intro x hx y hy
      have hy' : off + bs.length ≤ y.1 := by simpa using (List.mem_filter.1 hy).2
      rcases List.mem_append.1 hx with hx | hx
      · have hx' : x.1 < off := by simpa using (List.mem_filter.1 hx).2
        omega
      · have hx' := mem_cellsFrom (List.mem_filter.1 hx).1
        omega
  · intro x hx
    simp only [Cells.write, List.mem_append, List.mem_filter] at hx
    rcases hx with (hx | hx) | hx
    · exact hk x hx.1
    · exact hx.2
    · exact hk x hx.1

theorem Cells.nil_wf (r : Ram) : Cells.wf r [] = true := by simp [Cells.wf]

/-- Several writes keep the canonical form. -/
theorem Cells.writeAll_wf (r : Ram) (ws : List (Nat × List Byte)) (c : Cells) (h : c.wf r = true) :
    (c.writeAll r ws).wf r = true := by
  induction ws generalizing c with
  | nil => exact h
  | cons w ws ih => exact ih _ (c.write_wf r w.1 w.2 h)

/-- Several writes leave every byte outside all of them alone. -/
theorem Cells.read_writeAll_outside (r : Ram) (ws : List (Nat × List Byte)) (c : Cells) (a : Nat)
    (h : ∀ w ∈ ws, ¬(w.1 ≤ a ∧ a < w.1 + w.2.length)) : (c.writeAll r ws).read r a = c.read r a := by
  induction ws generalizing c with
  | nil => rfl
  | cons w ws ih =>
    simp only [Cells.writeAll]
    rw [ih _ fun x hx => h x (List.mem_cons_of_mem _ hx), Cells.read_write, if_neg (h w List.mem_cons_self)]

/-- Several writes, all of which that cover an offset write the same byte there: that byte is read. -/
theorem Cells.read_writeAll_inside (r : Ram) (ws : List (Nat × List Byte)) (c : Cells) (a : Nat) (b : Byte)
    (hex : ∃ w ∈ ws, w.1 ≤ a ∧ a < w.1 + w.2.length)
    (hall : ∀ w ∈ ws, w.1 ≤ a → a < w.1 + w.2.length → w.2[a - w.1]? = some b) :
    (c.writeAll r ws).read r a = some b := by
  induction ws generalizing c with
  | nil => obtain ⟨w, hw, _⟩ := hex; simp at hw
  | cons w ws ih =>
    simp only [Cells.writeAll]
    by_cases hlater : ∃ x ∈ ws, x.1 ≤ a ∧ a < x.1 + x.2.length
    · exact ih _ hlater fun x hx => hall x (List.mem_cons_of_mem _ hx)
    · rw [Cells.read_writeAll_outside r ws _ a fun x hx hc => hlater ⟨x, hx, hc⟩, Cells.read_write]
      obtain ⟨x, hx, hc⟩ := hex
      rcases List.mem_cons.1 hx with rfl | hx
      · rw [if_pos hc, hall x List.mem_cons_self hc.1 hc.2]
      · exact absurd ⟨x, hx, hc⟩ hlater

/-! ## All RAMs -/

@[simp] theorem Memory.cells_setCells_same (m : Memory) (r : Ram) (c : Cells) : (m.setCells r c).cells r = c := by
  cases r <;> rfl

theorem Memory.cells_setCells_ne (m : Memory) (r r' : Ram) (c : Cells) (h : r' ≠ r) :
    (m.setCells r c).cells r' = m.cells r' := by
  cases r <;> cases r' <;> first | rfl | exact absurd rfl h

theorem Memory.cells_setCells (m : Memory) (r r' : Ram) (c : Cells) :
    (m.setCells r c).cells r' = if r' = r then c else m.cells r' := by
  by_cases h : r' = r
  · subst h; simp
  · simp [h, Memory.cells_setCells_ne]

theorem Memory.cells_write (m : Memory) (r r' : Ram) (off : Nat) (bs : List Byte) :
    (m.write r off bs).cells r' = if r' = r then (m.cells r).write r off bs else m.cells r' :=
  m.cells_setCells r r' _

theorem Memory.cells_writeAll (m : Memory) (r r' : Ram) (ws : List (Nat × List Byte)) :
    (m.writeAll r ws).cells r' = if r' = r then (m.cells r).writeAll r ws else m.cells r' :=
  m.cells_setCells r r' _

theorem Memory.cells_forget (m : Memory) (r r' : Ram) :
    (m.forget r).cells r' = if r' = r then [] else m.cells r' :=
  m.cells_setCells r r' _

@[simp] theorem Memory.cells_empty (r : Ram) : Memory.empty.cells r = [] := by cases r <;> rfl

theorem Memory.wf_iff (m : Memory) : m.wf = true ↔ ∀ r, (m.cells r).wf r = true := by
  simp only [Memory.wf, allRams, List.all_cons, List.all_nil, Bool.and_true, Bool.and_eq_true]
  constructor
  · intro h r; cases r <;> simp_all
  · intro h; simp [h]

theorem Memory.empty_wf : Memory.empty.wf = true := by
  rw [Memory.wf_iff]; intro r; simp [Cells.nil_wf]

theorem Memory.setCells_wf {m : Memory} {r : Ram} {c : Cells} (hm : m.wf = true) (hc : c.wf r = true) :
    (m.setCells r c).wf = true := by
  rw [Memory.wf_iff] at hm ⊢
  intro r'
  rw [Memory.cells_setCells]
  split
  · next h => subst h; exact hc
  · exact hm r'

/-- Every memory operation keeps the canonical form: a write, -/
theorem Memory.write_wf {m : Memory} (h : m.wf = true) (r : Ram) (off : Nat) (bs : List Byte) :
    (m.write r off bs).wf = true :=
  Memory.setCells_wf h (Cells.write_wf r _ off bs ((Memory.wf_iff m).1 h r))

/-- several writes, -/
theorem Memory.writeAll_wf {m : Memory} (h : m.wf = true) (r : Ram) (ws : List (Nat × List Byte)) :
    (m.writeAll r ws).wf = true :=
  Memory.setCells_wf h (Cells.writeAll_wf r ws _ ((Memory.wf_iff m).1 h r))

/-- and forgetting a RAM. -/
theorem Memory.forget_wf {m : Memory} (h : m.wf = true) (r : Ram) : (m.forget r).wf = true :=
  Memory.setCells_wf h (Cells.nil_wf r)

/-! ## Byte order -/

@[simp] theorem toLe_length (n v : Nat) : (toLe n v).length = n := by simp [toLe]

theorem toLe_two (v : Nat) : toLe 2 v = [BitVec.ofNat 8 v, BitVec.ofNat 8 (v / 256)] := by
  simp [toLe, List.range_succ, Nat.shiftRight_eq_div_pow]

theorem fromLe_two (a b : Byte) : fromLe [a, b] = a.toNat + 256 * b.toNat := by simp [fromLe]

/-- Two bytes in address order give back the 16-bit word they were made from. -/
theorem fromLe_toLe_two (v : Half) : BitVec.ofNat 16 (fromLe (toLe 2 v.toNat)) = v := by
  rw [toLe_two, fromLe_two]
  apply BitVec.eq_of_toNat_eq
  have := v.isLt
  simp only [BitVec.toNat_ofNat]
  omega

@[simp] theorem blockBytes_length (vs : List Int) : (blockBytes vs).length = 2 * vs.length := by
  induction vs with
  | nil => rfl
  | cons v vs ih =>
    have : blockBytes (v :: vs) = toLe 2 (pattern16 v).toNat ++ blockBytes vs := rfl
    rw [this]; simp [ih]; omega

/-- The bytes of word `i` of a block. -/
theorem blockBytes_getElem? (vs : List Int) (i j : Nat) (hj : j < 2) :
    (blockBytes vs)[2 * i + j]? = (vs[i]?).bind fun v => (toLe 2 (pattern16 v).toNat)[j]? := by
  induction vs generalizing i with
  | nil => simp [blockBytes]
  | cons v vs ih =>
    have hcons : blockBytes (v :: vs) = toLe 2 (pattern16 v).toNat ++ blockBytes vs := rfl
    rw [hcons]
    cases i with
    | zero => rw [List.getElem?_append_left (by simp; omega)]; simp
    | succ i =>
      rw [List.getElem?_append_right (by simp; omega)]
      simp only [toLe_length, List.getElem?_cons_succ]
      rw [show 2 * (i + 1) + j - 2 = 2 * i + j by omega, ih]

end Sys2Proof.Machine
end

