-- ==== Sys2Proof/Laws/State.lean ====
section
/-! SUPPORT. One lemma per field of `State` and per update of the model, true by rfl, so that no proof unfolds a record
update. -/

namespace Sys2Proof.Machine

/-! ## latch -/

@[simp] theorem latch_params (s : State) (w : Word) : (s.latch w).params = s.params := rfl
@[simp] theorem latch_pending (s : State) (w : Word) : (s.latch w).pending = w := rfl
@[simp] theorem latch_status (s : State) (w : Word) : (s.latch w).status = s.status.accept w := rfl
@[simp] theorem latch_irqEn (s : State) (w : Word) : (s.latch w).irqEn = s.irqEn := rfl
@[simp] theorem latch_quality (s : State) (w : Word) : (s.latch w).quality = s.quality := rfl
@[simp] theorem latch_width (s : State) (w : Word) : (s.latch w).width = s.width := rfl
@[simp] theorem latch_height (s : State) (w : Word) : (s.latch w).height = s.height := rfl
@[simp] theorem latch_valid (s : State) (w : Word) : (s.latch w).valid = s.valid := rfl
@[simp] theorem latch_outCount (s : State) (w : Word) : (s.latch w).outCount = s.outCount := rfl
@[simp] theorem latch_entBuf (s : State) (w : Word) : (s.latch w).entBuf = s.entBuf := rfl
@[simp] theorem latch_entBits (s : State) (w : Word) : (s.latch w).entBits = s.entBits := rfl
@[simp] theorem latch_lastDc0 (s : State) (w : Word) : (s.latch w).lastDc0 = s.lastDc0 := rfl
@[simp] theorem latch_lastDc1 (s : State) (w : Word) : (s.latch w).lastDc1 = s.lastDc1 := rfl
@[simp] theorem latch_lastDc2 (s : State) (w : Word) : (s.latch w).lastDc2 = s.lastDc2 := rfl
@[simp] theorem latch_edgeOrder (s : State) (w : Word) : (s.latch w).edgeOrder = s.edgeOrder := rfl
@[simp] theorem latch_errInfo (s : State) (w : Word) : (s.latch w).errInfo = ⟨0, 0, 0⟩ := rfl
@[simp] theorem latch_mem (s : State) (w : Word) : (s.latch w).mem = s.mem := rfl
@[simp] theorem latch_rst (s : State) (w : Word) : (s.latch w).rst = s.rst := rfl
@[simp] theorem latch_events (s : State) (w : Word) : (s.latch w).events = s.events := rfl
@[simp] theorem latch_replies (s : State) (w : Word) : (s.latch w).replies = s.replies := rfl
@[simp] theorem latch_epoch (s : State) (w : Word) : (s.latch w).epoch = s.epoch := rfl

/-! ## drop -/

@[simp] theorem drop_params (s : State) : (s.drop).params = s.params := rfl
@[simp] theorem drop_pending (s : State) : (s.drop).pending = s.pending := rfl
@[simp] theorem drop_status (s : State) : (s.drop).status = s.status.dropped := rfl
@[simp] theorem drop_irqEn (s : State) : (s.drop).irqEn = s.irqEn := rfl
@[simp] theorem drop_quality (s : State) : (s.drop).quality = s.quality := rfl
@[simp] theorem drop_width (s : State) : (s.drop).width = s.width := rfl
@[simp] theorem drop_height (s : State) : (s.drop).height = s.height := rfl
@[simp] theorem drop_valid (s : State) : (s.drop).valid = s.valid := rfl
@[simp] theorem drop_outCount (s : State) : (s.drop).outCount = s.outCount := rfl
@[simp] theorem drop_entBuf (s : State) : (s.drop).entBuf = s.entBuf := rfl
@[simp] theorem drop_entBits (s : State) : (s.drop).entBits = s.entBits := rfl
@[simp] theorem drop_lastDc0 (s : State) : (s.drop).lastDc0 = s.lastDc0 := rfl
@[simp] theorem drop_lastDc1 (s : State) : (s.drop).lastDc1 = s.lastDc1 := rfl
@[simp] theorem drop_lastDc2 (s : State) : (s.drop).lastDc2 = s.lastDc2 := rfl
@[simp] theorem drop_edgeOrder (s : State) : (s.drop).edgeOrder = s.edgeOrder := rfl
@[simp] theorem drop_errInfo (s : State) : (s.drop).errInfo = s.errInfo := rfl
@[simp] theorem drop_mem (s : State) : (s.drop).mem = s.mem := rfl
@[simp] theorem drop_rst (s : State) : (s.drop).rst = s.rst := rfl
@[simp] theorem drop_events (s : State) : (s.drop).events = s.events := rfl
@[simp] theorem drop_replies (s : State) : (s.drop).replies = s.replies := rfl
@[simp] theorem drop_epoch (s : State) : (s.drop).epoch = s.epoch := rfl

/-! ## acknowledge -/

@[simp] theorem acknowledge_params (s : State) (v : Word) : (s.acknowledge v).params = s.params := rfl
@[simp] theorem acknowledge_pending (s : State) (v : Word) : (s.acknowledge v).pending = s.pending := rfl
@[simp] theorem acknowledge_status (s : State) (v : Word) : (s.acknowledge v).status = s.status.w1c v := rfl
@[simp] theorem acknowledge_irqEn (s : State) (v : Word) : (s.acknowledge v).irqEn = s.irqEn := rfl
@[simp] theorem acknowledge_quality (s : State) (v : Word) : (s.acknowledge v).quality = s.quality := rfl
@[simp] theorem acknowledge_width (s : State) (v : Word) : (s.acknowledge v).width = s.width := rfl
@[simp] theorem acknowledge_height (s : State) (v : Word) : (s.acknowledge v).height = s.height := rfl
@[simp] theorem acknowledge_valid (s : State) (v : Word) : (s.acknowledge v).valid = s.valid := rfl
@[simp] theorem acknowledge_outCount (s : State) (v : Word) : (s.acknowledge v).outCount = s.outCount := rfl
@[simp] theorem acknowledge_entBuf (s : State) (v : Word) : (s.acknowledge v).entBuf = s.entBuf := rfl
@[simp] theorem acknowledge_entBits (s : State) (v : Word) : (s.acknowledge v).entBits = s.entBits := rfl
@[simp] theorem acknowledge_lastDc0 (s : State) (v : Word) : (s.acknowledge v).lastDc0 = s.lastDc0 := rfl
@[simp] theorem acknowledge_lastDc1 (s : State) (v : Word) : (s.acknowledge v).lastDc1 = s.lastDc1 := rfl
@[simp] theorem acknowledge_lastDc2 (s : State) (v : Word) : (s.acknowledge v).lastDc2 = s.lastDc2 := rfl
@[simp] theorem acknowledge_edgeOrder (s : State) (v : Word) : (s.acknowledge v).edgeOrder = s.edgeOrder := rfl
@[simp] theorem acknowledge_errInfo (s : State) (v : Word) : (s.acknowledge v).errInfo = s.errInfo := rfl
@[simp] theorem acknowledge_mem (s : State) (v : Word) : (s.acknowledge v).mem = s.mem := rfl
@[simp] theorem acknowledge_rst (s : State) (v : Word) : (s.acknowledge v).rst = s.rst := rfl
@[simp] theorem acknowledge_events (s : State) (v : Word) : (s.acknowledge v).events = s.events := rfl
@[simp] theorem acknowledge_replies (s : State) (v : Word) : (s.acknowledge v).replies = s.replies := rfl
@[simp] theorem acknowledge_epoch (s : State) (v : Word) : (s.acknowledge v).epoch = s.epoch := rfl

/-! ## answer -/

@[simp] theorem answer_params (s : State) (r : Reply) : (s.answer r).params = s.params := rfl
@[simp] theorem answer_pending (s : State) (r : Reply) : (s.answer r).pending = s.pending := rfl
@[simp] theorem answer_status (s : State) (r : Reply) : (s.answer r).status = s.status := rfl
@[simp] theorem answer_irqEn (s : State) (r : Reply) : (s.answer r).irqEn = s.irqEn := rfl
@[simp] theorem answer_quality (s : State) (r : Reply) : (s.answer r).quality = s.quality := rfl
@[simp] theorem answer_width (s : State) (r : Reply) : (s.answer r).width = s.width := rfl
@[simp] theorem answer_height (s : State) (r : Reply) : (s.answer r).height = s.height := rfl
@[simp] theorem answer_valid (s : State) (r : Reply) : (s.answer r).valid = s.valid := rfl
@[simp] theorem answer_outCount (s : State) (r : Reply) : (s.answer r).outCount = s.outCount := rfl
@[simp] theorem answer_entBuf (s : State) (r : Reply) : (s.answer r).entBuf = s.entBuf := rfl
@[simp] theorem answer_entBits (s : State) (r : Reply) : (s.answer r).entBits = s.entBits := rfl
@[simp] theorem answer_lastDc0 (s : State) (r : Reply) : (s.answer r).lastDc0 = s.lastDc0 := rfl
@[simp] theorem answer_lastDc1 (s : State) (r : Reply) : (s.answer r).lastDc1 = s.lastDc1 := rfl
@[simp] theorem answer_lastDc2 (s : State) (r : Reply) : (s.answer r).lastDc2 = s.lastDc2 := rfl
@[simp] theorem answer_edgeOrder (s : State) (r : Reply) : (s.answer r).edgeOrder = s.edgeOrder := rfl
@[simp] theorem answer_errInfo (s : State) (r : Reply) : (s.answer r).errInfo = s.errInfo := rfl
@[simp] theorem answer_mem (s : State) (r : Reply) : (s.answer r).mem = s.mem := rfl
@[simp] theorem answer_rst (s : State) (r : Reply) : (s.answer r).rst = s.rst := rfl
@[simp] theorem answer_events (s : State) (r : Reply) : (s.answer r).events = s.events := rfl
@[simp] theorem answer_replies (s : State) (r : Reply) : (s.answer r).replies = r :: s.replies := rfl
@[simp] theorem answer_epoch (s : State) (r : Reply) : (s.answer r).epoch = s.epoch := rfl

/-! ## advance -/

@[simp] theorem advance_params (s : State) : (s.advance).params = s.params := rfl
@[simp] theorem advance_pending (s : State) : (s.advance).pending = s.pending := rfl
@[simp] theorem advance_status (s : State) : (s.advance).status = s.status := rfl
@[simp] theorem advance_irqEn (s : State) : (s.advance).irqEn = s.irqEn := rfl
@[simp] theorem advance_quality (s : State) : (s.advance).quality = s.quality := rfl
@[simp] theorem advance_width (s : State) : (s.advance).width = s.width := rfl
@[simp] theorem advance_height (s : State) : (s.advance).height = s.height := rfl
@[simp] theorem advance_valid (s : State) : (s.advance).valid = s.valid := rfl
@[simp] theorem advance_outCount (s : State) : (s.advance).outCount = s.outCount := rfl
@[simp] theorem advance_entBuf (s : State) : (s.advance).entBuf = s.entBuf := rfl
@[simp] theorem advance_entBits (s : State) : (s.advance).entBits = s.entBits := rfl
@[simp] theorem advance_lastDc0 (s : State) : (s.advance).lastDc0 = s.lastDc0 := rfl
@[simp] theorem advance_lastDc1 (s : State) : (s.advance).lastDc1 = s.lastDc1 := rfl
@[simp] theorem advance_lastDc2 (s : State) : (s.advance).lastDc2 = s.lastDc2 := rfl
@[simp] theorem advance_edgeOrder (s : State) : (s.advance).edgeOrder = s.edgeOrder := rfl
@[simp] theorem advance_errInfo (s : State) : (s.advance).errInfo = s.errInfo := rfl
@[simp] theorem advance_mem (s : State) : (s.advance).mem = s.mem := rfl
@[simp] theorem advance_rst (s : State) : (s.advance).rst = s.rst := rfl
@[simp] theorem advance_events (s : State) : (s.advance).events = s.events.tail := rfl
@[simp] theorem advance_replies (s : State) : (s.advance).replies = s.replies := rfl
@[simp] theorem advance_epoch (s : State) : (s.advance).epoch = s.epoch + 1 := rfl

/-! ## complete_none -/

@[simp] theorem complete_none_params (s : State) : (complete none s).params = s.params := rfl
@[simp] theorem complete_none_pending (s : State) : (complete none s).pending = 0 := rfl
@[simp] theorem complete_none_status (s : State) : (complete none s).status = s.status.completeOk := rfl
@[simp] theorem complete_none_irqEn (s : State) : (complete none s).irqEn = s.irqEn := rfl
@[simp] theorem complete_none_quality (s : State) : (complete none s).quality = s.quality := rfl
@[simp] theorem complete_none_width (s : State) : (complete none s).width = s.width := rfl
@[simp] theorem complete_none_height (s : State) : (complete none s).height = s.height := rfl
@[simp] theorem complete_none_valid (s : State) : (complete none s).valid = s.valid := rfl
@[simp] theorem complete_none_outCount (s : State) : (complete none s).outCount = s.outCount := rfl
@[simp] theorem complete_none_entBuf (s : State) : (complete none s).entBuf = s.entBuf := rfl
@[simp] theorem complete_none_entBits (s : State) : (complete none s).entBits = s.entBits := rfl
@[simp] theorem complete_none_lastDc0 (s : State) : (complete none s).lastDc0 = s.lastDc0 := rfl
@[simp] theorem complete_none_lastDc1 (s : State) : (complete none s).lastDc1 = s.lastDc1 := rfl
@[simp] theorem complete_none_lastDc2 (s : State) : (complete none s).lastDc2 = s.lastDc2 := rfl
@[simp] theorem complete_none_edgeOrder (s : State) : (complete none s).edgeOrder = s.edgeOrder := rfl
@[simp] theorem complete_none_errInfo (s : State) : (complete none s).errInfo = s.errInfo := rfl
@[simp] theorem complete_none_mem (s : State) : (complete none s).mem = s.mem := rfl
@[simp] theorem complete_none_rst (s : State) : (complete none s).rst = s.rst := rfl
@[simp] theorem complete_none_events (s : State) : (complete none s).events = s.events := rfl
@[simp] theorem complete_none_replies (s : State) : (complete none s).replies = s.replies := rfl
@[simp] theorem complete_none_epoch (s : State) : (complete none s).epoch = s.epoch := rfl

/-! ## complete_some -/

@[simp] theorem complete_some_params (s : State) (e : CmdError) : (complete (some e) s).params = s.params := rfl
@[simp] theorem complete_some_pending (s : State) (e : CmdError) : (complete (some e) s).pending = 0 := rfl
@[simp] theorem complete_some_status (s : State) (e : CmdError) : (complete (some e) s).status = s.status.completeErr e.code := rfl
@[simp] theorem complete_some_irqEn (s : State) (e : CmdError) : (complete (some e) s).irqEn = s.irqEn := rfl
@[simp] theorem complete_some_quality (s : State) (e : CmdError) : (complete (some e) s).quality = s.quality := rfl
@[simp] theorem complete_some_width (s : State) (e : CmdError) : (complete (some e) s).width = s.width := rfl
@[simp] theorem complete_some_height (s : State) (e : CmdError) : (complete (some e) s).height = s.height := rfl
@[simp] theorem complete_some_valid (s : State) (e : CmdError) : (complete (some e) s).valid = s.valid := rfl
@[simp] theorem complete_some_outCount (s : State) (e : CmdError) : (complete (some e) s).outCount = s.outCount := rfl
@[simp] theorem complete_some_entBuf (s : State) (e : CmdError) : (complete (some e) s).entBuf = s.entBuf := rfl
@[simp] theorem complete_some_entBits (s : State) (e : CmdError) : (complete (some e) s).entBits = s.entBits := rfl
@[simp] theorem complete_some_lastDc0 (s : State) (e : CmdError) : (complete (some e) s).lastDc0 = s.lastDc0 := rfl
@[simp] theorem complete_some_lastDc1 (s : State) (e : CmdError) : (complete (some e) s).lastDc1 = s.lastDc1 := rfl
@[simp] theorem complete_some_lastDc2 (s : State) (e : CmdError) : (complete (some e) s).lastDc2 = s.lastDc2 := rfl
@[simp] theorem complete_some_edgeOrder (s : State) (e : CmdError) : (complete (some e) s).edgeOrder = s.edgeOrder := rfl
@[simp] theorem complete_some_errInfo (s : State) (e : CmdError) : (complete (some e) s).errInfo = e.info := rfl
@[simp] theorem complete_some_mem (s : State) (e : CmdError) : (complete (some e) s).mem = s.mem := rfl
@[simp] theorem complete_some_rst (s : State) (e : CmdError) : (complete (some e) s).rst = s.rst := rfl
@[simp] theorem complete_some_events (s : State) (e : CmdError) : (complete (some e) s).events = s.events := rfl
@[simp] theorem complete_some_replies (s : State) (e : CmdError) : (complete (some e) s).replies = s.replies := rfl
@[simp] theorem complete_some_epoch (s : State) (e : CmdError) : (complete (some e) s).epoch = s.epoch := rfl

/-! ## withLastDc -/

@[simp] theorem withLastDc_params (s : State) (c : Coder) : (s.withLastDc c).params = s.params := rfl
@[simp] theorem withLastDc_pending (s : State) (c : Coder) : (s.withLastDc c).pending = s.pending := rfl
@[simp] theorem withLastDc_status (s : State) (c : Coder) : (s.withLastDc c).status = s.status := rfl
@[simp] theorem withLastDc_irqEn (s : State) (c : Coder) : (s.withLastDc c).irqEn = s.irqEn := rfl
@[simp] theorem withLastDc_quality (s : State) (c : Coder) : (s.withLastDc c).quality = s.quality := rfl
@[simp] theorem withLastDc_width (s : State) (c : Coder) : (s.withLastDc c).width = s.width := rfl
@[simp] theorem withLastDc_height (s : State) (c : Coder) : (s.withLastDc c).height = s.height := rfl
@[simp] theorem withLastDc_valid (s : State) (c : Coder) : (s.withLastDc c).valid = s.valid := rfl
@[simp] theorem withLastDc_outCount (s : State) (c : Coder) : (s.withLastDc c).outCount = s.outCount := rfl
@[simp] theorem withLastDc_entBuf (s : State) (c : Coder) : (s.withLastDc c).entBuf = s.entBuf := rfl
@[simp] theorem withLastDc_entBits (s : State) (c : Coder) : (s.withLastDc c).entBits = s.entBits := rfl
@[simp] theorem withLastDc_lastDc0 (s : State) (c : Coder) : (s.withLastDc c).lastDc0 = BitVec.ofInt 32 c.dc0 := rfl
@[simp] theorem withLastDc_lastDc1 (s : State) (c : Coder) : (s.withLastDc c).lastDc1 = BitVec.ofInt 32 c.dc1 := rfl
@[simp] theorem withLastDc_lastDc2 (s : State) (c : Coder) : (s.withLastDc c).lastDc2 = BitVec.ofInt 32 c.dc2 := rfl
@[simp] theorem withLastDc_edgeOrder (s : State) (c : Coder) : (s.withLastDc c).edgeOrder = s.edgeOrder := rfl
@[simp] theorem withLastDc_errInfo (s : State) (c : Coder) : (s.withLastDc c).errInfo = s.errInfo := rfl
@[simp] theorem withLastDc_mem (s : State) (c : Coder) : (s.withLastDc c).mem = s.mem := rfl
@[simp] theorem withLastDc_rst (s : State) (c : Coder) : (s.withLastDc c).rst = s.rst := rfl
@[simp] theorem withLastDc_events (s : State) (c : Coder) : (s.withLastDc c).events = s.events := rfl
@[simp] theorem withLastDc_replies (s : State) (c : Coder) : (s.withLastDc c).replies = s.replies := rfl
@[simp] theorem withLastDc_epoch (s : State) (c : Coder) : (s.withLastDc c).epoch = s.epoch := rfl

/-! ## scanDone -/

@[simp] theorem scanDone_params (s : State) (c : Coder) : (s.scanDone c).params = s.params := rfl
@[simp] theorem scanDone_pending (s : State) (c : Coder) : (s.scanDone c).pending = s.pending := rfl
@[simp] theorem scanDone_status (s : State) (c : Coder) : (s.scanDone c).status = s.status := rfl
@[simp] theorem scanDone_irqEn (s : State) (c : Coder) : (s.scanDone c).irqEn = s.irqEn := rfl
@[simp] theorem scanDone_quality (s : State) (c : Coder) : (s.scanDone c).quality = s.quality := rfl
@[simp] theorem scanDone_width (s : State) (c : Coder) : (s.scanDone c).width = s.width := rfl
@[simp] theorem scanDone_height (s : State) (c : Coder) : (s.scanDone c).height = s.height := rfl
@[simp] theorem scanDone_valid (s : State) (c : Coder) : (s.scanDone c).valid = s.valid.scanned := rfl
@[simp] theorem scanDone_outCount (s : State) (c : Coder) : (s.scanDone c).outCount = BitVec.ofNat 32 c.count := rfl
@[simp] theorem scanDone_entBuf (s : State) (c : Coder) : (s.scanDone c).entBuf = BitVec.ofNat 64 c.buffer := rfl
@[simp] theorem scanDone_entBits (s : State) (c : Coder) : (s.scanDone c).entBits = BitVec.ofNat 6 c.bits := rfl
@[simp] theorem scanDone_lastDc0 (s : State) (c : Coder) : (s.scanDone c).lastDc0 = BitVec.ofInt 32 c.dc0 := rfl
@[simp] theorem scanDone_lastDc1 (s : State) (c : Coder) : (s.scanDone c).lastDc1 = BitVec.ofInt 32 c.dc1 := rfl
@[simp] theorem scanDone_lastDc2 (s : State) (c : Coder) : (s.scanDone c).lastDc2 = BitVec.ofInt 32 c.dc2 := rfl
@[simp] theorem scanDone_edgeOrder (s : State) (c : Coder) : (s.scanDone c).edgeOrder = s.edgeOrder := rfl
@[simp] theorem scanDone_errInfo (s : State) (c : Coder) : (s.scanDone c).errInfo = s.errInfo := rfl
@[simp] theorem scanDone_mem (s : State) (c : Coder) : (s.scanDone c).mem = (s.mem.forget .out).write .out 0 c.out.reverse := rfl
@[simp] theorem scanDone_rst (s : State) (c : Coder) : (s.scanDone c).rst = s.rst := rfl
@[simp] theorem scanDone_events (s : State) (c : Coder) : (s.scanDone c).events = s.events := rfl
@[simp] theorem scanDone_replies (s : State) (c : Coder) : (s.scanDone c).replies = s.replies := rfl
@[simp] theorem scanDone_epoch (s : State) (c : Coder) : (s.scanDone c).epoch = s.epoch := rfl

/-! ## scanFailed -/

@[simp] theorem scanFailed_params (s : State) (c : Coder) : (s.scanFailed c).params = s.params := rfl
@[simp] theorem scanFailed_pending (s : State) (c : Coder) : (s.scanFailed c).pending = s.pending := rfl
@[simp] theorem scanFailed_status (s : State) (c : Coder) : (s.scanFailed c).status = s.status := rfl
@[simp] theorem scanFailed_irqEn (s : State) (c : Coder) : (s.scanFailed c).irqEn = s.irqEn := rfl
@[simp] theorem scanFailed_quality (s : State) (c : Coder) : (s.scanFailed c).quality = s.quality := rfl
@[simp] theorem scanFailed_width (s : State) (c : Coder) : (s.scanFailed c).width = s.width := rfl
@[simp] theorem scanFailed_height (s : State) (c : Coder) : (s.scanFailed c).height = s.height := rfl
@[simp] theorem scanFailed_valid (s : State) (c : Coder) : (s.scanFailed c).valid = s.valid.unscanned := rfl
@[simp] theorem scanFailed_outCount (s : State) (c : Coder) : (s.scanFailed c).outCount = 0 := rfl
@[simp] theorem scanFailed_entBuf (s : State) (c : Coder) : (s.scanFailed c).entBuf = Config.freeEntBuf s.epoch := rfl
@[simp] theorem scanFailed_entBits (s : State) (c : Coder) : (s.scanFailed c).entBits = Config.freeEntBits s.epoch := rfl
@[simp] theorem scanFailed_lastDc0 (s : State) (c : Coder) : (s.scanFailed c).lastDc0 = BitVec.ofInt 32 c.dc0 := rfl
@[simp] theorem scanFailed_lastDc1 (s : State) (c : Coder) : (s.scanFailed c).lastDc1 = BitVec.ofInt 32 c.dc1 := rfl
@[simp] theorem scanFailed_lastDc2 (s : State) (c : Coder) : (s.scanFailed c).lastDc2 = BitVec.ofInt 32 c.dc2 := rfl
@[simp] theorem scanFailed_edgeOrder (s : State) (c : Coder) : (s.scanFailed c).edgeOrder = s.edgeOrder := rfl
@[simp] theorem scanFailed_errInfo (s : State) (c : Coder) : (s.scanFailed c).errInfo = s.errInfo := rfl
@[simp] theorem scanFailed_mem (s : State) (c : Coder) : (s.scanFailed c).mem = s.mem.forget .out := rfl
@[simp] theorem scanFailed_rst (s : State) (c : Coder) : (s.scanFailed c).rst = s.rst := rfl
@[simp] theorem scanFailed_events (s : State) (c : Coder) : (s.scanFailed c).events = s.events := rfl
@[simp] theorem scanFailed_replies (s : State) (c : Coder) : (s.scanFailed c).replies = s.replies := rfl
@[simp] theorem scanFailed_epoch (s : State) (c : Coder) : (s.scanFailed c).epoch = s.epoch := rfl

/-! ## resetCore -/

@[simp] theorem resetCore_params (s : State) : (s.resetCore).params = s.params := rfl
@[simp] theorem resetCore_pending (s : State) : (s.resetCore).pending = 0 := rfl
@[simp] theorem resetCore_status (s : State) : (s.resetCore).status = ⟨false, false, false, false, 0, 0⟩ := rfl
@[simp] theorem resetCore_irqEn (s : State) : (s.resetCore).irqEn = ⟨false, false⟩ := rfl
@[simp] theorem resetCore_quality (s : State) : (s.resetCore).quality = 50 := rfl
@[simp] theorem resetCore_width (s : State) : (s.resetCore).width = 0 := rfl
@[simp] theorem resetCore_height (s : State) : (s.resetCore).height = 0 := rfl
@[simp] theorem resetCore_valid (s : State) : (s.resetCore).valid = Valid.none := rfl
@[simp] theorem resetCore_outCount (s : State) : (s.resetCore).outCount = 0 := rfl
@[simp] theorem resetCore_entBuf (s : State) : (s.resetCore).entBuf = 0 := rfl
@[simp] theorem resetCore_entBits (s : State) : (s.resetCore).entBits = 0 := rfl
@[simp] theorem resetCore_lastDc0 (s : State) : (s.resetCore).lastDc0 = 0 := rfl
@[simp] theorem resetCore_lastDc1 (s : State) : (s.resetCore).lastDc1 = 0 := rfl
@[simp] theorem resetCore_lastDc2 (s : State) : (s.resetCore).lastDc2 = 0 := rfl
@[simp] theorem resetCore_edgeOrder (s : State) : (s.resetCore).edgeOrder = false := rfl
@[simp] theorem resetCore_errInfo (s : State) : (s.resetCore).errInfo = ⟨0, 0, 0⟩ := rfl
@[simp] theorem resetCore_mem (s : State) : (s.resetCore).mem = Memory.empty := rfl
@[simp] theorem resetCore_rst (s : State) : (s.resetCore).rst = s.rst := rfl
@[simp] theorem resetCore_events (s : State) : (s.resetCore).events = s.events := rfl
@[simp] theorem resetCore_replies (s : State) : (s.resetCore).replies = s.replies := rfl
@[simp] theorem resetCore_epoch (s : State) : (s.resetCore).epoch = s.epoch := rfl

/-! ## the RAMs of a memory -/

@[simp] theorem cells_qtbl (m : Memory) : m.cells .qtbl = m.qtbl := rfl
@[simp] theorem cells_div (m : Memory) : m.cells .div = m.div := rfl
@[simp] theorem cells_huffSpec (m : Memory) : m.cells .huffSpec = m.huffSpec := rfl
@[simp] theorem cells_ehuf (m : Memory) : m.cells .ehuf = m.ehuf := rfl
@[simp] theorem cells_rgb (m : Memory) : m.cells .rgb = m.rgb := rfl
@[simp] theorem cells_out (m : Memory) : m.cells .out = m.out := rfl
@[simp] theorem cells_py (m : Memory) : m.cells .py = m.py := rfl
@[simp] theorem cells_pcb (m : Memory) : m.cells .pcb = m.pcb := rfl
@[simp] theorem cells_pcr (m : Memory) : m.cells .pcr = m.pcr := rfl
@[simp] theorem cells_blk (m : Memory) : m.cells .blk = m.blk := rfl

/-! ## the STATUS updates -/

@[simp] theorem accept_busy (st : Status) (w : Word) : (st.accept w).busy = true := rfl
@[simp] theorem accept_done (st : Status) (w : Word) : (st.accept w).done = false := rfl
@[simp] theorem accept_err (st : Status) (w : Word) : (st.accept w).err = false := rfl
@[simp] theorem accept_ovr (st : Status) (w : Word) : (st.accept w).ovr = st.ovr := rfl
@[simp] theorem accept_errcode (st : Status) (w : Word) : (st.accept w).errcode = 0 := rfl
@[simp] theorem accept_lastOp (st : Status) (w : Word) : (st.accept w).lastOp = opField w := rfl

@[simp] theorem completeOk_busy (st : Status) : (st.completeOk).busy = false := rfl
@[simp] theorem completeOk_done (st : Status) : (st.completeOk).done = true := rfl
@[simp] theorem completeOk_err (st : Status) : (st.completeOk).err = st.err := rfl
@[simp] theorem completeOk_ovr (st : Status) : (st.completeOk).ovr = st.ovr := rfl
@[simp] theorem completeOk_errcode (st : Status) : (st.completeOk).errcode = st.errcode := rfl
@[simp] theorem completeOk_lastOp (st : Status) : (st.completeOk).lastOp = st.lastOp := rfl

@[simp] theorem completeErr_busy (st : Status) (c : BitVec 4) : (st.completeErr c).busy = false := rfl
@[simp] theorem completeErr_done (st : Status) (c : BitVec 4) : (st.completeErr c).done = true := rfl
@[simp] theorem completeErr_err (st : Status) (c : BitVec 4) : (st.completeErr c).err = true := rfl
@[simp] theorem completeErr_ovr (st : Status) (c : BitVec 4) : (st.completeErr c).ovr = st.ovr := rfl
@[simp] theorem completeErr_errcode (st : Status) (c : BitVec 4) : (st.completeErr c).errcode = c := rfl
@[simp] theorem completeErr_lastOp (st : Status) (c : BitVec 4) : (st.completeErr c).lastOp = st.lastOp := rfl

@[simp] theorem dropped_busy (st : Status) : (st.dropped).busy = st.busy := rfl
@[simp] theorem dropped_done (st : Status) : (st.dropped).done = st.done := rfl
@[simp] theorem dropped_err (st : Status) : (st.dropped).err = st.err := rfl
@[simp] theorem dropped_ovr (st : Status) : (st.dropped).ovr = true := rfl
@[simp] theorem dropped_errcode (st : Status) : (st.dropped).errcode = st.errcode := rfl
@[simp] theorem dropped_lastOp (st : Status) : (st.dropped).lastOp = st.lastOp := rfl

@[simp] theorem w1c_busy (st : Status) (v : Word) : (st.w1c v).busy = st.busy := rfl
@[simp] theorem w1c_done (st : Status) (v : Word) : (st.w1c v).done = (st.done && !v.getLsbD 1) := rfl
@[simp] theorem w1c_err (st : Status) (v : Word) : (st.w1c v).err = (st.err && !v.getLsbD 2) := rfl
@[simp] theorem w1c_ovr (st : Status) (v : Word) : (st.w1c v).ovr = (st.ovr && !v.getLsbD 3) := rfl
@[simp] theorem w1c_errcode (st : Status) (v : Word) : (st.w1c v).errcode = if v.getLsbD 2 then 0 else st.errcode := rfl
@[simp] theorem w1c_lastOp (st : Status) (v : Word) : (st.w1c v).lastOp = st.lastOp := rfl

/-! ## the VALID updates -/

@[simp] theorem builtQt_qt (v : Valid) : v.builtQt.qt = true := rfl
@[simp] theorem builtQt_huff0 (v : Valid) : v.builtQt.huff0 = v.huff0 := rfl
@[simp] theorem builtQt_huff1 (v : Valid) : v.builtQt.huff1 = v.huff1 := rfl
@[simp] theorem builtQt_huff2 (v : Valid) : v.builtQt.huff2 = v.huff2 := rfl
@[simp] theorem builtQt_huff3 (v : Valid) : v.builtQt.huff3 = v.huff3 := rfl
@[simp] theorem builtQt_planes (v : Valid) : v.builtQt.planes = v.planes := rfl
@[simp] theorem builtQt_lumaSmp (v : Valid) : v.builtQt.lumaSmp = v.lumaSmp := rfl
@[simp] theorem builtQt_chromaSmp (v : Valid) : v.builtQt.chromaSmp = v.chromaSmp := rfl
@[simp] theorem builtQt_coef (v : Valid) : v.builtQt.coef = v.coef := rfl
@[simp] theorem builtQt_scan (v : Valid) : v.builtQt.scan = v.scan := rfl

@[simp] theorem converted_qt (v : Valid) : v.converted.qt = v.qt := rfl
@[simp] theorem converted_huff0 (v : Valid) : v.converted.huff0 = v.huff0 := rfl
@[simp] theorem converted_huff1 (v : Valid) : v.converted.huff1 = v.huff1 := rfl
@[simp] theorem converted_huff2 (v : Valid) : v.converted.huff2 = v.huff2 := rfl
@[simp] theorem converted_huff3 (v : Valid) : v.converted.huff3 = v.huff3 := rfl
@[simp] theorem converted_planes (v : Valid) : v.converted.planes = true := rfl
@[simp] theorem converted_lumaSmp (v : Valid) : v.converted.lumaSmp = v.lumaSmp := rfl
@[simp] theorem converted_chromaSmp (v : Valid) : v.converted.chromaSmp = v.chromaSmp := rfl
@[simp] theorem converted_coef (v : Valid) : v.converted.coef = v.coef := rfl
@[simp] theorem converted_scan (v : Valid) : v.converted.scan = v.scan := rfl

@[simp] theorem extractedLuma_qt (v : Valid) : v.extractedLuma.qt = v.qt := rfl
@[simp] theorem extractedLuma_huff0 (v : Valid) : v.extractedLuma.huff0 = v.huff0 := rfl
@[simp] theorem extractedLuma_huff1 (v : Valid) : v.extractedLuma.huff1 = v.huff1 := rfl
@[simp] theorem extractedLuma_huff2 (v : Valid) : v.extractedLuma.huff2 = v.huff2 := rfl
@[simp] theorem extractedLuma_huff3 (v : Valid) : v.extractedLuma.huff3 = v.huff3 := rfl
@[simp] theorem extractedLuma_planes (v : Valid) : v.extractedLuma.planes = v.planes := rfl
@[simp] theorem extractedLuma_lumaSmp (v : Valid) : v.extractedLuma.lumaSmp = true := rfl
@[simp] theorem extractedLuma_chromaSmp (v : Valid) : v.extractedLuma.chromaSmp = v.chromaSmp := rfl
@[simp] theorem extractedLuma_coef (v : Valid) : v.extractedLuma.coef = false := rfl
@[simp] theorem extractedLuma_scan (v : Valid) : v.extractedLuma.scan = false := rfl

@[simp] theorem extractedChroma_qt (v : Valid) : v.extractedChroma.qt = v.qt := rfl
@[simp] theorem extractedChroma_huff0 (v : Valid) : v.extractedChroma.huff0 = v.huff0 := rfl
@[simp] theorem extractedChroma_huff1 (v : Valid) : v.extractedChroma.huff1 = v.huff1 := rfl
@[simp] theorem extractedChroma_huff2 (v : Valid) : v.extractedChroma.huff2 = v.huff2 := rfl
@[simp] theorem extractedChroma_huff3 (v : Valid) : v.extractedChroma.huff3 = v.huff3 := rfl
@[simp] theorem extractedChroma_planes (v : Valid) : v.extractedChroma.planes = v.planes := rfl
@[simp] theorem extractedChroma_lumaSmp (v : Valid) : v.extractedChroma.lumaSmp = v.lumaSmp := rfl
@[simp] theorem extractedChroma_chromaSmp (v : Valid) : v.extractedChroma.chromaSmp = true := rfl
@[simp] theorem extractedChroma_coef (v : Valid) : v.extractedChroma.coef = false := rfl
@[simp] theorem extractedChroma_scan (v : Valid) : v.extractedChroma.scan = false := rfl

@[simp] theorem transformed_qt (v : Valid) : v.transformed.qt = v.qt := rfl
@[simp] theorem transformed_huff0 (v : Valid) : v.transformed.huff0 = v.huff0 := rfl
@[simp] theorem transformed_huff1 (v : Valid) : v.transformed.huff1 = v.huff1 := rfl
@[simp] theorem transformed_huff2 (v : Valid) : v.transformed.huff2 = v.huff2 := rfl
@[simp] theorem transformed_huff3 (v : Valid) : v.transformed.huff3 = v.huff3 := rfl
@[simp] theorem transformed_planes (v : Valid) : v.transformed.planes = v.planes := rfl
@[simp] theorem transformed_lumaSmp (v : Valid) : v.transformed.lumaSmp = false := rfl
@[simp] theorem transformed_chromaSmp (v : Valid) : v.transformed.chromaSmp = false := rfl
@[simp] theorem transformed_coef (v : Valid) : v.transformed.coef = true := rfl
@[simp] theorem transformed_scan (v : Valid) : v.transformed.scan = false := rfl

@[simp] theorem unscanned_qt (v : Valid) : v.unscanned.qt = v.qt := rfl
@[simp] theorem unscanned_huff0 (v : Valid) : v.unscanned.huff0 = v.huff0 := rfl
@[simp] theorem unscanned_huff1 (v : Valid) : v.unscanned.huff1 = v.huff1 := rfl
@[simp] theorem unscanned_huff2 (v : Valid) : v.unscanned.huff2 = v.huff2 := rfl
@[simp] theorem unscanned_huff3 (v : Valid) : v.unscanned.huff3 = v.huff3 := rfl
@[simp] theorem unscanned_planes (v : Valid) : v.unscanned.planes = v.planes := rfl
@[simp] theorem unscanned_lumaSmp (v : Valid) : v.unscanned.lumaSmp = v.lumaSmp := rfl
@[simp] theorem unscanned_chromaSmp (v : Valid) : v.unscanned.chromaSmp = v.chromaSmp := rfl
@[simp] theorem unscanned_coef (v : Valid) : v.unscanned.coef = v.coef := rfl
@[simp] theorem unscanned_scan (v : Valid) : v.unscanned.scan = false := rfl

@[simp] theorem scanned_qt (v : Valid) : v.scanned.qt = v.qt := rfl
@[simp] theorem scanned_huff0 (v : Valid) : v.scanned.huff0 = v.huff0 := rfl
@[simp] theorem scanned_huff1 (v : Valid) : v.scanned.huff1 = v.huff1 := rfl
@[simp] theorem scanned_huff2 (v : Valid) : v.scanned.huff2 = v.huff2 := rfl
@[simp] theorem scanned_huff3 (v : Valid) : v.scanned.huff3 = v.huff3 := rfl
@[simp] theorem scanned_planes (v : Valid) : v.scanned.planes = v.planes := rfl
@[simp] theorem scanned_lumaSmp (v : Valid) : v.scanned.lumaSmp = v.lumaSmp := rfl
@[simp] theorem scanned_chromaSmp (v : Valid) : v.scanned.chromaSmp = v.chromaSmp := rfl
@[simp] theorem scanned_coef (v : Valid) : v.scanned.coef = v.coef := rfl
@[simp] theorem scanned_scan (v : Valid) : v.scanned.scan = true := rfl

@[simp] theorem newGeometry_qt (v : Valid) : v.newGeometry.qt = v.qt := rfl
@[simp] theorem newGeometry_huff0 (v : Valid) : v.newGeometry.huff0 = v.huff0 := rfl
@[simp] theorem newGeometry_huff1 (v : Valid) : v.newGeometry.huff1 = v.huff1 := rfl
@[simp] theorem newGeometry_huff2 (v : Valid) : v.newGeometry.huff2 = v.huff2 := rfl
@[simp] theorem newGeometry_huff3 (v : Valid) : v.newGeometry.huff3 = v.huff3 := rfl
@[simp] theorem newGeometry_planes (v : Valid) : v.newGeometry.planes = false := rfl
@[simp] theorem newGeometry_lumaSmp (v : Valid) : v.newGeometry.lumaSmp = false := rfl
@[simp] theorem newGeometry_chromaSmp (v : Valid) : v.newGeometry.chromaSmp = false := rfl
@[simp] theorem newGeometry_coef (v : Valid) : v.newGeometry.coef = false := rfl
@[simp] theorem newGeometry_scan (v : Valid) : v.newGeometry.scan = false := rfl

end Sys2Proof.Machine
end

