-- ==== Sys2Proof/Laws/Ops.lean ====
section
/-! SUPPORT. What the shared operations do, once each: commands and checks, reading bytes, writing blocks. -/

namespace Sys2Proof.Machine

/-! ## Commands -/

/-- A command whose checks pass runs and completes. -/
theorem command_pass {check : State → Option CmdError} {s : State} (run : State → Ran) (h : check s = none) :
    command check run s = .next (complete (run s).err (run s).st) := by simp [command, h]

/-- A command whose check fails completes with that error and writes nothing else. -/
theorem command_fail {check : State → Option CmdError} {s : State} {e : CmdError} (run : State → Ran)
    (h : check s = some e) : command check run s = .next (complete (some e) s) := by simp [command, h]

/-- A command always answers a next state. -/
theorem command_next (check : State → Option CmdError) (run : State → Ran) (s : State) :
    ∃ r t, command check run s = .next (complete r t) ∧
      ((check s = none ∧ r = (run s).err ∧ t = (run s).st) ∨ (check s = r ∧ r ≠ none ∧ t = s)) := by
  cases h : check s with
  | none => exact ⟨_, _, command_pass run h, .inl ⟨rfl, rfl, rfl⟩⟩
  | some e => exact ⟨_, _, command_fail run h, .inr ⟨rfl, by simp, rfl⟩⟩

theorem complete_none_eq (s : State) :
    complete none s = { s with status := { s.status with busy := false, done := true }, pending := 0 } := rfl

theorem complete_some_eq (e : CmdError) (s : State) : complete (some e) s = failedWith s e.code e.info := rfl

/-- Completion touches STATUS, PENDING and ERRINFO alone. -/
theorem complete_frame (r : Option CmdError) (s : State) :
    complete r s = { s with
      status := (complete r s).status, pending := 0, errInfo := (complete r s).errInfo } := by
  cases r <;> rfl

/-! ## Checks -/

theorem geometryOk_iff (s : State) : s.geometryOk = true ↔ GeometryValid s := by
  simp only [State.geometryOk, Bool.and_eq_true, decide_eq_true_eq, and_assoc]
  exact Iff.rfl

theorem checkAll_none_iff (tables stages : State → Bool) (s : State) :
    checkAll tables stages s = none ↔ GeometryValid s ∧ tables s = true ∧ stages s = true := by
  rw [← geometryOk_iff]
  unfold checkAll
  cases s.geometryOk <;> cases tables s <;> cases stages s <;> simp

theorem checkAll_invalidArgs {s : State} (tables stages : State → Bool) (h : ¬GeometryValid s) :
    checkAll tables stages s = some .invalidArgs := by
  rw [← geometryOk_iff] at h
  simp [checkAll, h]

theorem checkAll_tablesNotBuilt {s : State} {tables : State → Bool} (stages : State → Bool) (h : GeometryValid s)
    (ht : tables s = false) : checkAll tables stages s = some .tablesNotBuilt := by
  rw [← geometryOk_iff] at h
  simp [checkAll, h, ht]

theorem checkAll_sequenceError {s : State} {tables stages : State → Bool} (h : GeometryValid s)
    (ht : tables s = true) (hs : stages s = false) : checkAll tables stages s = some .sequenceError := by
  rw [← geometryOk_iff] at h
  simp [checkAll, h, ht, hs]

/-! ## Reading bytes -/

theorem byte_of_read {s : State} {r : Ram} {off : Nat} {b : Byte} (site : Site)
    (h : (s.mem.cells r).read r off = some b) : s.byte site r off = b := by simp [State.byte, h]

/-- Two states of one step that read the same byte of a RAM, written or not. -/
theorem byte_congr {s t : State} {r : Ram} {off : Nat} (site : Site) (he : t.epoch = s.epoch)
    (h : (t.mem.cells r).read r off = (s.mem.cells r).read r off) : t.byte site r off = s.byte site r off := by
  simp [State.byte, h, he]

theorem blk_eq (s : State) (site : Site) (b i : Nat) :
    s.blk site b i =
      (BitVec.ofNat 16 (fromLe [s.byte site .blk (128 * b + 2 * i), s.byte site .blk (128 * b + 2 * i + 1)])).toInt := by
  simp [State.blk, State.bytes, blkOff, List.range_succ]

/-- A word of a block whose two bytes are those of the value `v`. -/
theorem blk_of_bytes {s : State} {b i : Nat} {v : Int} (site : Site)
    (h : ∀ j, j < 2 → (s.mem.cells .blk).read .blk (128 * b + 2 * i + j) = (toLe 2 (pattern16 v).toNat)[j]?) :
    s.blk site b i = s16 v := by
  have h0 := h 0 (by omega)
  have h1 := h 1 (by omega)
  rw [toLe_two] at h0 h1
  have e0 : s.byte site .blk (128 * b + 2 * i) = BitVec.ofNat 8 (pattern16 v).toNat := byte_of_read site h0
  have e1 : s.byte site .blk (128 * b + 2 * i + 1) = BitVec.ofNat 8 ((pattern16 v).toNat / 256) :=
    byte_of_read site h1
  rw [blk_eq, e0, e1, s16, ← toLe_two, fromLe_toLe_two]

/-! ## Writing blocks -/

theorem cells_updateBlocks (s : State) (p : Nat → Bool) (f : Nat → List Byte) (r : Ram) :
    (s.updateBlocks p f).cells r =
      if r = .blk then (s.mem.cells .blk).writeAll .blk (s.blockWrites p f) else s.mem.cells r :=
  s.mem.cells_writeAll .blk r _

theorem mem_blockWrites {s : State} {p : Nat → Bool} {f : Nat → List Byte} {w : Nat × List Byte}
    (h : w ∈ s.blockWrites p f) : ∃ b, b < s.nblocks ∧ p b = true ∧ w = (128 * b, f b) := by
  simp only [State.blockWrites, List.mem_map, List.mem_filter, List.mem_range] at h
  obtain ⟨b, ⟨hb, hp⟩, rfl⟩ := h
  exact ⟨b, hb, hp, rfl⟩

/-- Reading a byte that a block write stored. -/
theorem read_updateBlocks_inside {s : State} {p : Nat → Bool} {f : Nat → List Byte} {b i : Nat}
    (hlen : ∀ b, (f b).length ≤ 128) (hb : b < s.nblocks) (hp : p b = true) (hi : i < (f b).length) :
    ((s.updateBlocks p f).cells .blk).read .blk (128 * b + i) = (f b)[i]? := by
  rw [cells_updateBlocks, if_pos rfl, List.getElem?_eq_getElem hi]
  refine Cells.read_writeAll_inside _ _ _ _ _ ⟨(128 * b, f b), ?_, by simp, by simpa using hi⟩ ?_
  · simp only [State.blockWrites, List.mem_map, List.mem_filter, List.mem_range]
    exact ⟨b, ⟨hb, hp⟩, rfl⟩
  · intro w hw h1 h2
    obtain ⟨b', -, -, rfl⟩ := mem_blockWrites hw
    have hl := hlen b'
    have hl' := hlen b
    simp only at h1 h2
    have hbb : b' = b := by omega
    subst hbb
    simp only [Nat.add_sub_cancel_left]
    rw [List.getElem?_eq_getElem hi]

/-- Reading a byte that no block write stored. -/
theorem read_updateBlocks_outside {s : State} {p : Nat → Bool} {f : Nat → List Byte} {off : Nat}
    (hlen : ∀ b, (f b).length ≤ 128)
    (h : ¬(off / 128 < s.nblocks ∧ p (off / 128) = true ∧ off % 128 < (f (off / 128)).length)) :
    ((s.updateBlocks p f).cells .blk).read .blk off = (s.mem.cells .blk).read .blk off := by
  rw [cells_updateBlocks, if_pos rfl]
  refine Cells.read_writeAll_outside _ _ _ _ fun w hw hc => h ?_
  obtain ⟨b', hb', hp', rfl⟩ := mem_blockWrites hw
  have hl := hlen b'
  simp only at hc
  have : off / 128 = b' := by omega
  subst this
  exact ⟨hb', hp', by omega⟩

theorem updateBlocks_wf {s : State} (h : s.mem.wf = true) (p : Nat → Bool) (f : Nat → List Byte) :
    (s.updateBlocks p f).wf = true :=
  Memory.writeAll_wf h _ _

/-- A word of a block that a command wrote as one of 64 values. -/
theorem blk_updateBlocks {s t : State} {p : Nat → Bool} {f : Nat → List Int} {b i : Nat} (site : Site)
    (ht : t.mem = s.updateBlocks p fun b => blockBytes (f b)) (hlen : ∀ b, (f b).length = 64) (hb : b < s.nblocks)
    (hp : p b = true) (hi : i < 64) : t.blk site b i = s16 ((f b)[i]'(by rw [hlen]; exact hi)) := by
  apply blk_of_bytes
  intro j hj
  rw [ht, Nat.add_assoc,
    read_updateBlocks_inside (fun b => by simp [hlen]) hb hp (by simp only [blockBytes_length, hlen]; omega),
    blockBytes_getElem? _ _ _ hj, List.getElem?_eq_getElem (by rw [hlen]; exact hi)]
  rfl

/-! ## Geometry -/

theorem nsbw_pos {s : State} (h : GeometryValid s) : 0 < s.nsbw := by
  have := h.1
  simp only [State.nsbw, ceilDiv, State.w]
  omega

theorem nsbh_pos {s : State} (h : GeometryValid s) : 0 < s.nsbh := by
  have := h.2.2.1
  simp only [State.nsbh, ceilDiv, State.h]
  omega

theorem gx_mcu {s : State} {gx : Nat} (gy : Nat) (h : gx < s.nsbw) : s.gx (gy * s.nsbw + gx) = gx := by
  simp [State.gx, Nat.mod_eq_of_lt h]

theorem gy_mcu {s : State} {gx : Nat} (gy : Nat) (h : gx < s.nsbw) : s.gy (gy * s.nsbw + gx) = gy := by
  rw [State.gy, Nat.mul_comm, Nat.mul_add_div (by omega), Nat.div_eq_of_lt h, Nat.add_zero]

/-- Block k of the MCU at (gx, gy) is one of the image's. -/
theorem block_lt {s : State} {gx gy k : Nat} (hx : gx < s.nsbw) (hy : gy < s.nsbh) (hk : k < 6) :
    6 * (gy * s.nsbw + gx) + k < s.nblocks := by
  have h1 : (gy + 1) * s.nsbw ≤ s.nsbh * s.nsbw := Nat.mul_le_mul_right _ hy
  have h2 : (gy + 1) * s.nsbw = gy * s.nsbw + s.nsbw := by ring
  have h3 : s.nsbw * s.nsbh = s.nsbh * s.nsbw := Nat.mul_comm _ _
  simp only [State.nblocks, State.nmcu]
  omega

theorem blockMcu_mul_add {m k : Nat} (hk : k < 6) : blockMcu (6 * m + k) = m := by simp only [blockMcu]; omega

theorem blockPlace_mul_add {m k : Nat} (hk : k < 6) : blockPlace (6 * m + k) = k := by simp only [blockPlace]; omega

end Sys2Proof.Machine
end

