-- ==== Sys2Proof/Laws/Commands.lean ====
section
/-! SUPPORT. What every command keeps: the registers it does not work on. -/

namespace Sys2Proof.Machine

/-- `t` is `s` but for the RAMs, the VALID flags, OUT_COUNT and the entropy registers. -/
structure Kept (s t : State) : Prop where
  params : t.params = s.params
  pending : t.pending = s.pending
  status : t.status = s.status
  irqEn : t.irqEn = s.irqEn
  quality : t.quality = s.quality
  width : t.width = s.width
  height : t.height = s.height
  edgeOrder : t.edgeOrder = s.edgeOrder
  errInfo : t.errInfo = s.errInfo
  rst : t.rst = s.rst
  events : t.events = s.events
  replies : t.replies = s.replies
  epoch : t.epoch = s.epoch

theorem Kept.refl (s : State) : Kept s s := ⟨rfl, rfl, rfl, rfl, rfl, rfl, rfl, rfl, rfl, rfl, rfl, rfl, rfl⟩

theorem Kept.trans {s t u : State} (h : Kept s t) (k : Kept t u) : Kept s u :=
  ⟨k.params.trans h.params, k.pending.trans h.pending, k.status.trans h.status, k.irqEn.trans h.irqEn,
   k.quality.trans h.quality, k.width.trans h.width, k.height.trans h.height, k.edgeOrder.trans h.edgeOrder,
   k.errInfo.trans h.errInfo, k.rst.trans h.rst, k.events.trans h.events, k.replies.trans h.replies,
   k.epoch.trans h.epoch⟩

/-- Also the output registers are kept. -/
structure KeptOut (s t : State) : Prop extends Kept s t where
  outCount : t.outCount = s.outCount
  entBuf : t.entBuf = s.entBuf
  entBits : t.entBits = s.entBits
  lastDc0 : t.lastDc0 = s.lastDc0
  lastDc1 : t.lastDc1 = s.lastDc1
  lastDc2 : t.lastDc2 = s.lastDc2

theorem KeptOut.refl (s : State) : KeptOut s s := ⟨Kept.refl s, rfl, rfl, rfl, rfl, rfl, rfl⟩

theorem KeptOut.trans {s t u : State} (h : KeptOut s t) (k : KeptOut t u) : KeptOut s u :=
  ⟨h.toKept.trans k.toKept, k.outCount.trans h.outCount, k.entBuf.trans h.entBuf, k.entBits.trans h.entBits,
   k.lastDc0.trans h.lastDc0, k.lastDc1.trans h.lastDc1, k.lastDc2.trans h.lastDc2⟩

/-- A state is its kept part, its RAMs and its flags. -/
theorem KeptOut.eq {s t : State} (h : KeptOut s t) : t = { s with mem := t.mem, valid := t.valid } := by
  obtain ⟨⟨h1, h2, h3, h4, h5, h6, h7, h8, h9, h10, h11, h12, h13⟩, k1, k2, k3, k4, k5, k6⟩ := h
  cases s; cases t
  simp only at *
  subst h1 h2 h3 h4 h5 h6 h7 h8 h9 h10 h11 h12 h13 k1 k2 k3 k4 k5 k6
  rfl

/-- A command that ran without an error and kept the output registers has completed. -/
theorem KeptOut.completedOk {s t : State} (h : KeptOut s t) : CompletedOk s (complete none t) t.valid := by
  rw [h.eq]; rfl

/-! ## The runs -/

theorem runBuildQtables_kept (s : State) : KeptOut s (runBuildQtables s).st :=
  ⟨⟨rfl, rfl, rfl, rfl, rfl, rfl, rfl, rfl, rfl, rfl, rfl, rfl, rfl⟩, rfl, rfl, rfl, rfl, rfl, rfl⟩

theorem runColorConvert_kept (s : State) : KeptOut s (runColorConvert s).st :=
  ⟨⟨rfl, rfl, rfl, rfl, rfl, rfl, rfl, rfl, rfl, rfl, rfl, rfl, rfl⟩, rfl, rfl, rfl, rfl, rfl, rfl⟩

theorem runExtractLuma_kept (s : State) : KeptOut s (runExtractLuma s).st :=
  ⟨⟨rfl, rfl, rfl, rfl, rfl, rfl, rfl, rfl, rfl, rfl, rfl, rfl, rfl⟩, rfl, rfl, rfl, rfl, rfl, rfl⟩

theorem runExtractChroma_kept (s : State) : KeptOut s (runExtractChroma s).st :=
  ⟨⟨rfl, rfl, rfl, rfl, rfl, rfl, rfl, rfl, rfl, rfl, rfl, rfl, rfl⟩, rfl, rfl, rfl, rfl, rfl, rfl⟩

theorem runEdgeDcFixup_kept (s : State) : KeptOut s (runEdgeDcFixup s).st :=
  ⟨⟨rfl, rfl, rfl, rfl, rfl, rfl, rfl, rfl, rfl, rfl, rfl, rfl, rfl⟩, rfl, rfl, rfl, rfl, rfl, rfl⟩

theorem runZeroRight_kept (s : State) : KeptOut s (runZeroRight s).st :=
  ⟨⟨rfl, rfl, rfl, rfl, rfl, rfl, rfl, rfl, rfl, rfl, rfl, rfl, rfl⟩, rfl, rfl, rfl, rfl, rfl, rfl⟩

theorem runZeroBottom_kept (s : State) : KeptOut s (runZeroBottom s).st :=
  ⟨⟨rfl, rfl, rfl, rfl, rfl, rfl, rfl, rfl, rfl, rfl, rfl, rfl, rfl⟩, rfl, rfl, rfl, rfl, rfl, rfl⟩

theorem runFdctQuant_kept (s : State) : KeptOut s (runFdctQuant s).st :=
  ⟨⟨rfl, rfl, rfl, rfl, rfl, rfl, rfl, rfl, rfl, rfl, rfl, rfl, rfl⟩, rfl, rfl, rfl, rfl, rfl, rfl⟩


theorem runBuildHuff_kept (t : BitVec 2) (s : State) : KeptOut s (runBuildHuff t s).st := by
  unfold runBuildHuff
  dsimp only
  split
  · exact ⟨⟨rfl, rfl, rfl, rfl, rfl, rfl, rfl, rfl, rfl, rfl, rfl, rfl, rfl⟩, rfl, rfl, rfl, rfl, rfl, rfl⟩
  · split <;>
      exact ⟨⟨rfl, rfl, rfl, rfl, rfl, rfl, rfl, rfl, rfl, rfl, rfl, rfl, rfl⟩, rfl, rfl, rfl, rfl, rfl, rfl⟩

theorem runEncodeScan_kept (s : State) : Kept s (runEncodeScan s).st := by
  unfold runEncodeScan
  split <;> exact ⟨rfl, rfl, rfl, rfl, rfl, rfl, rfl, rfl, rfl, rfl, rfl, rfl, rfl⟩

/-! ## One after the other -/

theorem andDo_ok {r : Ran} (run : State → Ran) (h : r.err = none) : r.andDo run = run r.st := by
  unfold Ran.andDo; rw [h]

theorem andDo_err {r : Ran} (run : State → Ran) (h : r.err ≠ none) : r.andDo run = r := by
  unfold Ran.andDo
  cases hr : r.err with
  | none => exact absurd hr h
  | some e => rfl

/-- What holds of every run holds of one after the other. -/
theorem andDo_rel {P : State → State → Prop} (htrans : ∀ s t u, P s t → P t u → P s u) {s : State} {r : Ran}
    {run : State → Ran} (hr : P s r.st) (hrun : ∀ t, P t (run t).st) : P s (r.andDo run).st := by
  by_cases h : r.err = none
  · rw [andDo_ok run h]; exact htrans _ _ _ hr (hrun _)
  · rw [andDo_err run h]; exact hr

theorem andDo_keptOut {s : State} {r : Ran} {run : State → Ran} (hr : KeptOut s r.st)
    (hrun : ∀ t, KeptOut t (run t).st) : KeptOut s (r.andDo run).st :=
  andDo_rel (P := KeptOut) (fun _ _ _ => KeptOut.trans) hr hrun

theorem runInitTables_kept (s : State) : KeptOut s (runInitTables s).st :=
  andDo_keptOut (andDo_keptOut (andDo_keptOut (andDo_keptOut (runBuildQtables_kept s) (runBuildHuff_kept 0))
    (runBuildHuff_kept 1)) (runBuildHuff_kept 2)) (runBuildHuff_kept 3)

theorem edges_keptOut {s : State} {r : Ran} (order : Bool) (h : KeptOut s r.st) : KeptOut s (r.edges order).st := by
  unfold Ran.edges
  cases order
  · exact andDo_keptOut (andDo_keptOut (andDo_keptOut h runEdgeDcFixup_kept) runZeroRight_kept) runZeroBottom_kept
  · exact andDo_keptOut (andDo_keptOut (andDo_keptOut h runZeroRight_kept) runZeroBottom_kept) runEdgeDcFixup_kept

theorem runBeforeScan_kept (s : State) : KeptOut s (runBeforeScan s).st :=
  edges_keptOut _ (andDo_keptOut (andDo_keptOut (andDo_keptOut (runColorConvert_kept s) runExtractLuma_kept)
    runExtractChroma_kept) runFdctQuant_kept)

theorem runEncodeImage_kept (s : State) : Kept s (runEncodeImage s).st :=
  andDo_rel (P := Kept) (fun _ _ _ => Kept.trans) (runBeforeScan_kept s).toKept runEncodeScan_kept

/-- The run of a command; that of SOFT_RESET, which is none, does nothing. -/
def runOf : Instr → State → Ran
  | .nop => fun s => ⟨s, none⟩
  | .buildQtables => runBuildQtables
  | .buildHuff t => runBuildHuff t
  | .initTables => runInitTables
  | .colorConvert => runColorConvert
  | .extractLuma => runExtractLuma
  | .extractChroma => runExtractChroma
  | .edgeDcFixup => runEdgeDcFixup
  | .zeroRight => runZeroRight
  | .zeroBottom => runZeroBottom
  | .fdctQuant => runFdctQuant
  | .encodeScan => runEncodeScan
  | .encodeImage => runEncodeImage
  | .softReset _ => fun s => ⟨s, none⟩

/-- The checks of a command (R163). -/
def checkOf : Instr → State → Option CmdError
  | .nop => checkNothing
  | .buildQtables => checkNothing
  | .buildHuff _ => checkNothing
  | .initTables => checkNothing
  | .colorConvert => checkGeometry
  | .extractLuma => checkPlanes
  | .extractChroma => checkPlanes
  | .edgeDcFixup => checkCoef
  | .zeroRight => checkCoef
  | .zeroBottom => checkCoef
  | .fdctQuant => checkSamples
  | .encodeScan => checkScan
  | .encodeImage => checkImage
  | .softReset _ => checkNothing

/-- What CMD takes are commands, never SOFT_RESET. -/
theorem port_of_decode {w : Word} {i : Instr} (h : decodePort .cmd w = .ok i) : i.port = .cmd := by
  have hw : ∀ (sel : BitVec 2) (j : Instr), j.port = .cmd → withoutSel sel j = .ok i → i.port = .cmd := by
    intro sel j hj h
    unfold withoutSel at h
    split at h
    · cases h; exact hj
    · cases h
  simp only [decodePort, decodeCommand] at h
  split at h
  · unfold decodeOp at h
    split at h <;> first
      | exact hw _ _ rfl h
      | (cases h; rfl)
      | cases h
  · cases h

/-- Every command is its checks, its run and its completion. -/
theorem exec_command {i : Instr} (h : i.port = .cmd) (s : State) : exec i s = command (checkOf i) (runOf i) s := by
  cases i <;> first | rfl | cases h

theorem runOf_kept (i : Instr) (s : State) : Kept s (runOf i s).st := by
  cases i with
  | nop => exact Kept.refl s
  | buildQtables => exact (runBuildQtables_kept s).toKept
  | buildHuff t => exact (runBuildHuff_kept t s).toKept
  | initTables => exact (runInitTables_kept s).toKept
  | colorConvert => exact (runColorConvert_kept s).toKept
  | extractLuma => exact (runExtractLuma_kept s).toKept
  | extractChroma => exact (runExtractChroma_kept s).toKept
  | edgeDcFixup => exact (runEdgeDcFixup_kept s).toKept
  | zeroRight => exact (runZeroRight_kept s).toKept
  | zeroBottom => exact (runZeroBottom_kept s).toKept
  | fdctQuant => exact (runFdctQuant_kept s).toKept
  | encodeScan => exact runEncodeScan_kept s
  | encodeImage => exact runEncodeImage_kept s
  | softReset _ => exact Kept.refl s

theorem runOf_keptOut {i : Instr} (h1 : i ≠ .encodeScan) (h2 : i ≠ .encodeImage) (s : State) :
    KeptOut s (runOf i s).st := by
  cases i with
  | nop => exact KeptOut.refl s
  | buildQtables => exact runBuildQtables_kept s
  | buildHuff t => exact runBuildHuff_kept t s
  | initTables => exact runInitTables_kept s
  | colorConvert => exact runColorConvert_kept s
  | extractLuma => exact runExtractLuma_kept s
  | extractChroma => exact runExtractChroma_kept s
  | edgeDcFixup => exact runEdgeDcFixup_kept s
  | zeroRight => exact runZeroRight_kept s
  | zeroBottom => exact runZeroBottom_kept s
  | fdctQuant => exact runFdctQuant_kept s
  | encodeScan => exact absurd rfl h1
  | encodeImage => exact absurd rfl h2
  | softReset _ => exact KeptOut.refl s

/-- What a command can do: it completes after its run, or with the error of its first failed check and from the same
state. -/
theorem exec_cases {i : Instr} (h : i.port = .cmd) (s : State) :
    (checkOf i s = none ∧ exec i s = .next (complete (runOf i s).err (runOf i s).st)) ∨
      ∃ e, checkOf i s = some e ∧ exec i s = .next (complete (some e) s) := by
  rw [exec_command h]
  cases hc : checkOf i s with
  | none => exact .inl ⟨rfl, command_pass _ hc⟩
  | some e => exact .inr ⟨e, rfl, command_fail _ hc⟩

/-- Every command answers a next state: a completion of a state that keeps the configuration. -/
theorem exec_kept {i : Instr} (h : i.port = .cmd) (s : State) :
    ∃ r t, exec i s = .next (complete r t) ∧ Kept s t := by
  rcases exec_cases h s with ⟨-, he⟩ | ⟨e, -, he⟩
  · exact ⟨_, _, he, runOf_kept i s⟩
  · exact ⟨_, _, he, Kept.refl s⟩

end Sys2Proof.Machine
end

