-- ==== Sys2Proof/Laws/Entropy.lean ====
section
/-! SUPPORT. What the bit buffer does: the bits of values, the bytes that leave it, the stuffing. -/

namespace Sys2Proof.Machine

/-! ## Bits -/

@[simp] theorem msbBits_length (n v : Nat) : (msbBits n v).length = n := by
  induction n with
  | zero => rfl
  | succ n ih => simp [msbBits, ih]

/-- The high bits of a value, and then the low ones. -/
theorem msbBits_add (n m v : Nat) : msbBits (n + m) v = msbBits n (v / 2 ^ m) ++ msbBits m v := by
  induction n with
  | zero => simp [msbBits]
  | succ n ih =>
    rw [show n + 1 + m = (n + m) + 1 by omega]
    simp only [msbBits, List.cons_append, ih]
    rw [Nat.testBit_div_two_pow]

/-- Only the low bits of a value count. -/
theorem msbBits_mod (n v : Nat) : msbBits n (v % 2 ^ n) = msbBits n v := by
  have h : ∀ k, k ≤ n → msbBits k (v % 2 ^ n) = msbBits k v := by
    intro k
    induction k with
    | zero => intro _; rfl
    | succ k ih =>
      intro hk
      simp only [msbBits, ih (by omega), Nat.testBit_mod_two_pow]
      simp [show k < n by omega]
  exact h n (Nat.le_refl _)

/-- A value put above another. -/
theorem msbBits_concat {n m a b : Nat} (hb : b < 2 ^ m) : msbBits (n + m) (a * 2 ^ m + b) = msbBits n a ++ msbBits m b := by
  rw [msbBits_add]
  congr 1
  · rw [Nat.mul_comm, Nat.mul_add_div (by positivity), Nat.div_eq_of_lt hb, Nat.add_zero]
  · rw [← msbBits_mod m (a * 2 ^ m + b), ← msbBits_mod m b, Nat.mul_comm, Nat.mul_add_mod]

theorem bitsValue_append_single (p : List Bool) (b : Bool) : bitsValue (p ++ [b]) = 2 * bitsValue p + b.toNat := by
  simp [bitsValue]

/-- Eight bits give back the byte they were taken from. -/
theorem bitsValue_msbBits {n v : Nat} (h : v < 2 ^ n) : bitsValue (msbBits n v) = v := by
  induction n generalizing v with
  | zero =>
    have : v = 0 := by simpa using h
    subst this; rfl
  | succ n ih =>
    rw [msbBits_add n 1, show msbBits 1 v = [v.testBit 0] from rfl, bitsValue_append_single]
    rw [ih (by rw [pow_one]; rw [Nat.pow_succ] at h; omega), pow_one]
    have hb : (v.testBit 0).toNat = v % 2 := by
      rw [Nat.testBit_zero]
      rcases Nat.mod_two_eq_zero_or_one v with h0 | h0 <;> simp [h0]
    rw [hb]; omega

/-! ## Packing -/

theorem packBits_cons_of_lt (p bs : List Bool) (b : Bool) (h : p.length < 7) :
    packBits p (b :: bs) = packBits (p ++ [b]) bs := by
  rw [packBits, if_neg (by omega)]

/-- Bits begun and bits to come. -/
theorem packBits_pending (q p bs : List Bool) (h : p.length + q.length ≤ 7) :
    packBits p (q ++ bs) = packBits (p ++ q) bs := by
  induction q generalizing p with
  | nil => simp
  | cons b q ih =>
    simp only [List.length_cons] at h
    rw [List.cons_append, packBits_cons_of_lt _ _ _ (by omega), ih _ (by simp; omega)]
    simp

/-- A whole byte is packed as it is. -/
theorem packBits_byte (x : Byte) (bs : List Bool) : packBits [] (msbBits 8 x.toNat ++ bs) = x :: packBits [] bs := by
  have h8 : msbBits 8 x.toNat = msbBits 7 (x.toNat / 2) ++ [x.toNat.testBit 0] := msbBits_add 7 1 x.toNat
  rw [h8, List.append_assoc, packBits_pending _ _ _ (by simp), List.nil_append, List.singleton_append, packBits,
    if_pos (by simp), ← h8, bitsValue_msbBits x.isLt, BitVec.ofNat_toNat]
  simp

/-- The bits of bytes. -/
def bytesBits (xs : List Byte) : List Bool := xs.flatMap fun x => msbBits 8 x.toNat

theorem packBits_bytes (xs : List Byte) (bs : List Bool) : packBits [] (bytesBits xs ++ bs) = xs ++ packBits [] bs := by
  induction xs with
  | nil => rfl
  | cons x xs ih =>
    rw [show bytesBits (x :: xs) = msbBits 8 x.toNat ++ bytesBits xs from rfl, List.append_assoc, packBits_byte, ih]
    rfl

theorem packBits_length (bs : List Bool) (p : List Bool) (h : p.length ≤ 7) :
    (packBits p bs).length = (p.length + bs.length + 7) / 8 := by
  induction bs generalizing p with
  | nil =>
    rw [packBits]
    by_cases hp : p = []
    · subst hp; rfl
    · have : 0 < p.length := List.length_pos_of_ne_nil hp
      rw [if_neg hp]
      simp only [List.length_cons, List.length_nil]
      omega
  | cons b bs ih =>
    rw [packBits]
    by_cases hp : p.length = 7
    · rw [if_pos hp]
      simp only [List.length_cons, ih [] (by simp), List.length_nil]
      omega
    · rw [if_neg hp, ih _ (by simp; omega)]
      simp only [List.length_append, List.length_cons, List.length_nil]
      congr 1
      omega

/-! ## Stuffing -/

@[simp] theorem stuffBytes_append (a b : List Byte) : stuffBytes (a ++ b) = stuffBytes a ++ stuffBytes b := by
  simp [stuffBytes]

theorem stuffBytes_length (xs : List Byte) : (stuffBytes xs).length = xs.length + xs.count 0xFF := by
  induction xs with
  | nil => rfl
  | cons x xs ih =>
    rw [show stuffBytes (x :: xs) = (if x = 0xFF then [0xFF, 0] else [x]) ++ stuffBytes xs from rfl, List.length_append, ih,
      List.count_cons, List.length_cons]
    by_cases h : x = 0xFF
    · rw [if_pos h, if_pos (beq_iff_eq.2 h)]
      simp only [List.length_cons, List.length_nil]
      omega
    · rw [if_neg h, if_neg (mt beq_iff_eq.1 h)]
      simp only [List.length_cons, List.length_nil]
      omega

/-- What has been stuffed stays so, when a byte and its stuffing follow. -/
theorem stuffed_append_stuffBytes {out : List Byte} (h : Stuffed out) (xs : List Byte) : Stuffed (out ++ stuffBytes xs) := by
  have hbase : ∀ xs, Stuffed (stuffBytes xs) := by
    intro xs
    induction xs with
    | nil => trivial
    | cons x xs ih =>
      rw [show stuffBytes (x :: xs) = (if x = 0xFF then [0xFF, 0] else [x]) ++ stuffBytes xs from rfl]
      by_cases hx : x = 0xFF
      · simp only [hx, if_true, List.cons_append, List.nil_append]
        cases hs : stuffBytes xs with
        | nil => exact ⟨fun _ => rfl, show (0 : Byte) ≠ 0xFF by decide⟩
        | cons y ys => rw [hs] at ih; exact ⟨fun _ => rfl, fun h => absurd h (by decide), ih⟩
      · simp only [hx, if_false, List.cons_append, List.nil_append]
        cases hs : stuffBytes xs with
        | nil => exact hx
        | cons y ys => rw [hs] at ih; exact ⟨fun h => absurd h hx, ih⟩
  induction out with
  | nil => exact hbase xs
  | cons a out ih =>
    cases out with
    | nil =>
      rw [List.cons_append, List.nil_append]
      cases hs : stuffBytes xs with
      | nil => exact h
      | cons y ys =>
        have := hbase xs
        rw [hs] at this
        exact ⟨fun he => absurd he h, this⟩
    | cons b out => exact ⟨h.1, ih h.2⟩

/-- Unstuffing what has been stuffed gives it back. -/
theorem unstuff_append_stuffBytes {out : List Byte} (h : Stuffed out) (xs : List Byte) :
    unstuff (out ++ stuffBytes xs) = unstuff out ++ xs := by
  have hcons : ∀ (a : Byte) (l : List Byte), (a = 0xFF → ∃ l', l = 0 :: l') → a ≠ 0xFF → unstuff (a :: l) = a :: unstuff l := by
    intro a l _ ha
    cases l with
    | nil => rfl
    | cons b l => rw [unstuff, if_neg fun hc => ha hc.1]
  have hbase : ∀ xs, unstuff (stuffBytes xs) = xs := by
    intro xs
    induction xs with
    | nil => rfl
    | cons x xs ih =>
      rw [show stuffBytes (x :: xs) = (if x = 0xFF then [0xFF, 0] else [x]) ++ stuffBytes xs from rfl]
      by_cases hx : x = 0xFF
      · simp only [hx, if_true, List.cons_append, List.nil_append]
        rw [unstuff, if_pos ⟨rfl, rfl⟩, ih]
      · simp only [hx, if_false, List.cons_append, List.nil_append]
        rw [hcons x _ (fun h => absurd h hx) hx, ih]
  have key : ∀ n (out : List Byte), out.length ≤ n → Stuffed out → unstuff (out ++ stuffBytes xs) = unstuff out ++ xs := by
    intro n
    induction n with
    | zero =>
      intro out hl _
      have : out = [] := List.eq_nil_of_length_eq_zero (Nat.le_zero.1 hl)
      subst this
      exact hbase xs
    | succ n ih =>
      intro out hl hst
      match out, hl, hst with
      | [], _, _ => exact hbase xs
      | [a], _, hst =>
        rw [List.cons_append, List.nil_append, hcons a _ (fun h => absurd h hst) hst, hbase]
        rfl
      | a :: b :: out, hl, hst =>
        simp only [List.length_cons] at hl
        by_cases ha : a = 0xFF
        · have hb := hst.1 ha
          subst ha hb
          have hst' : Stuffed out := by
            cases out with
            | nil => trivial
            | cons c out => exact hst.2.2
          rw [List.cons_append, List.cons_append, unstuff, if_pos ⟨rfl, rfl⟩, unstuff, if_pos ⟨rfl, rfl⟩,
            ih out (by omega) hst']
          rfl
        · rw [List.cons_append, hcons a _ (fun h => absurd h ha) ha, hcons a _ (fun h => absurd h ha) ha,
            ih (b :: out) (by simp; omega) hst.2]
          rfl
  exact key _ out (Nat.le_refl _) h

/-! ## The coder -/

/-- The coder's counter is the number of bytes appended, and OUT holds them (R40). -/
structure Fits (cap : Nat) (c : Coder) : Prop where
  count : c.count = c.out.length
  le : c.count ≤ cap

/-- Two entropy states with the same DC predictors. -/
structure SameDc (c d : Coder) : Prop where
  dc0 : d.dc0 = c.dc0
  dc1 : d.dc1 = c.dc1
  dc2 : d.dc2 = c.dc2

theorem SameDc.refl (c : Coder) : SameDc c c := ⟨rfl, rfl, rfl⟩

theorem SameDc.trans {c d e : Coder} (h : SameDc c d) (k : SameDc d e) : SameDc c e :=
  ⟨k.dc0.trans h.dc0, k.dc1.trans h.dc1, k.dc2.trans h.dc2⟩

/-- EMIT_BYTE appends the byte and its stuffing, or finds OUT full. -/
theorem emitByte_spec {cap : Nat} {c : Coder} (x : Byte) (h : Fits cap c) :
    (∀ d, emitByte cap x c = .ok d →
      Fits cap d ∧ d.out.reverse = c.out.reverse ++ stuffBytes [x] ∧ d.buffer = c.buffer ∧ d.bits = c.bits ∧ SameDc c d ∧
        d.emissions = c.emissions) ∧
    (∀ e, emitByte cap x c = .error e → e.1 = .ioFailure ∧ SameDc c e.2 ∧ cap < c.out.length + (stuffBytes [x]).length) ∧
    (c.out.length + (stuffBytes [x]).length ≤ cap → ∃ d, emitByte cap x c = .ok d) := by
  obtain ⟨h1, h2⟩ := h
  unfold emitByte append
  by_cases hf : c.count = cap
  · simp only [hf, if_true]
    refine ⟨fun d hd => (by cases hd), fun e he => ?_, fun hl => ?_⟩
    · cases he
      refine ⟨rfl, SameDc.refl c, ?_⟩
      have : 0 < (stuffBytes [x]).length := by
        simp [stuffBytes]; split <;> simp
      omega
    · exfalso
      have : 0 < (stuffBytes [x]).length := by
        simp [stuffBytes]; split <;> simp
      omega
  · simp only [hf, if_false]
    by_cases hx : x = 0xFF
    · simp only [hx, if_true]
      have hs : (stuffBytes [(0xFF : Byte)]) = [0xFF, 0] := by decide
      rw [hs]
      by_cases hf2 : c.count + 1 = cap
      · simp only [hf2, if_true]
        refine ⟨fun d hd => (by cases hd), fun e he => ?_, fun hl => ?_⟩
        · cases he
          exact ⟨rfl, ⟨rfl, rfl, rfl⟩, by simp; omega⟩
        · simp at hl; omega
      · simp only [hf2, if_false]
        refine ⟨fun d hd => ?_, fun e he => (by cases he), fun _ => ⟨_, rfl⟩⟩
        cases hd
        refine ⟨⟨?_, ?_⟩, ?_, rfl, rfl, ⟨rfl, rfl, rfl⟩, rfl⟩
        · simp; omega
        · simp; omega
        · simp
    · simp only [hx, if_false]
      have hs : stuffBytes [x] = [x] := by
        show (if x = 0xFF then [0xFF, 0] else [x]) ++ [] = [x]
        rw [if_neg hx]; rfl
      rw [hs]
      refine ⟨fun d hd => ?_, fun e he => (by cases he), fun _ => ⟨_, rfl⟩⟩
      cases hd
      refine ⟨⟨?_, ?_⟩, ?_, rfl, rfl, ⟨rfl, rfl, rfl⟩, rfl⟩
      · simp; omega
      · simp; omega
      · simp

/-- The drain takes whole bytes from the top of the buffer, in order; or finds OUT full for them. -/
theorem drain_spec {cap : Nat} (n : Nat) : ∀ {c : Coder}, Fits cap c → 8 * n ≤ c.bits →
    (∀ d, drain cap n c = .ok d →
      Fits cap d ∧ SameDc c d ∧ d.emissions = c.emissions ∧ d.bits = c.bits - 8 * n ∧
        (c.buffer < 2 ^ c.bits → d.buffer < 2 ^ d.bits) ∧
        ∃ xs, xs.length = n ∧ d.out.reverse = c.out.reverse ++ stuffBytes xs ∧
          msbBits c.bits c.buffer = bytesBits xs ++ msbBits d.bits d.buffer) ∧
    (∀ e, drain cap n c = .error e → e.1 = .ioFailure ∧ SameDc c e.2 ∧
      ∃ xs bs, msbBits c.bits c.buffer = bytesBits xs ++ bs ∧ cap < c.out.length + (stuffBytes xs).length) ∧
    (c.out.length + 2 * n ≤ cap → ∃ d, drain cap n c = .ok d) := by
  induction n with
  | zero =>
    intro c h _
    refine ⟨fun d hd => ?_, fun e he => (by cases he), fun _ => ⟨_, rfl⟩⟩
    cases hd
    exact ⟨h, SameDc.refl c, rfl, rfl, fun h => h, [], rfl, by simp [stuffBytes], by simp [bytesBits]⟩
  | succ n ih =>
    intro c h hn
    generalize hb : BitVec.ofNat 8 (c.buffer >>> (c.bits - 8)) = byte
    have hc1 : Fits cap { c with bits := c.bits - 8, buffer := c.buffer % 2 ^ (c.bits - 8) } := ⟨h.count, h.le⟩
    generalize hc' : ({ c with bits := c.bits - 8, buffer := c.buffer % 2 ^ (c.bits - 8) } : Coder) = c1 at hc1
    have hout : c1.out = c.out := by rw [← hc']
    have hdc : SameDc c c1 := by rw [← hc']; exact ⟨rfl, rfl, rfl⟩
    have hem : c1.emissions = c.emissions := by rw [← hc']
    have hbits : c1.bits = c.bits - 8 := by rw [← hc']
    have hbuf : c1.buffer = c.buffer % 2 ^ (c.bits - 8) := by rw [← hc']
    have htop : msbBits c.bits c.buffer = msbBits 8 byte.toNat ++ msbBits c1.bits c1.buffer := by
      have : c.bits = 8 + (c.bits - 8) := by omega
      rw [hbits, hbuf, msbBits_mod]
      conv => lhs; rw [this]
      rw [msbBits_add, ← hb, BitVec.toNat_ofNat, Nat.shiftRight_eq_div_pow, msbBits_mod]
    have hstep : drain cap (n + 1) c = match emitByte cap byte c1 with
        | .error e => .error e
        | .ok c' => drain cap n c' := by
      rw [drain]
      simp only [hb, hc'] <;> rfl
    obtain ⟨eok, eerr, eroom⟩ := emitByte_spec byte hc1
    rw [hstep]
    have hlen2 : (stuffBytes [byte]).length ≤ 2 := by simp [stuffBytes]; split <;> simp
    cases hbyte : emitByte cap byte c1 with
    | error e =>
      obtain ⟨h1, h2, h3⟩ := eerr e hbyte
      refine ⟨fun d hd => (by cases hd), fun e' he => ?_, fun hl => ?_⟩
      · cases he
        refine ⟨h1, hdc.trans h2, [byte], msbBits c1.bits c1.buffer, ?_, by rw [← hout]; exact h3⟩
        rw [htop]; simp [bytesBits]
      · obtain ⟨d, hd⟩ := eroom (by rw [hout]; omega)
        rw [hd] at hbyte; cases hbyte
    | ok c2 =>
      obtain ⟨f2, o2, b2, bt2, dc2, em2⟩ := eok c2 hbyte
      obtain ⟨iok, ierr, iroom⟩ := ih f2 (show 8 * n ≤ c2.bits by omega)
      have hlen : c2.out.length = c.out.length + (stuffBytes [byte]).length := by
        have := congrArg List.length o2
        simpa [hout] using this
      refine ⟨fun d hd => ?_, fun e he => ?_, fun hl => ?_⟩
      · obtain ⟨g1, g2, g3, g4, g5, xs, g6, g7, g8⟩ := iok d hd
        refine ⟨g1, (hdc.trans dc2).trans g2, g3.trans (em2.trans hem), by omega, ?_, byte :: xs, by simp [g6], ?_, ?_⟩
        · intro _
          apply g5
          rw [b2, bt2, hbuf, hbits]
          exact Nat.mod_lt _ (by positivity)
        · rw [g7, o2, hout, List.append_assoc, ← stuffBytes_append]; rfl
        · rw [htop, ← b2, ← bt2, g8]; simp [bytesBits]
      · obtain ⟨g1, g2, xs, bs, g3, g4⟩ := ierr e he
        refine ⟨g1, (hdc.trans dc2).trans g2, byte :: xs, bs, ?_, ?_⟩
        · rw [htop, ← b2, ← bt2, g3]; simp [bytesBits]
        · rw [show byte :: xs = [byte] ++ xs from rfl, stuffBytes_append, List.length_append]; omega
      · exact iroom (by omega)

/-- PUT_BITS appends its bits to those in the buffer, and whole bytes leave it, each stuffed (R131, R132); or OUT is too
full for them. -/
theorem putBits_spec {cap code size : Nat} {c : Coder} (h : Fits cap c) (hcode : code < 2 ^ size) :
    (∀ d, putBits cap code size c = .ok d →
      Fits cap d ∧ SameDc c d ∧ d.emissions = c.emissions ∧ d.bits ≤ 7 ∧
        (c.buffer < 2 ^ c.bits → d.buffer < 2 ^ d.bits) ∧
        ∃ xs, d.out.reverse = c.out.reverse ++ stuffBytes xs ∧
          msbBits c.bits c.buffer ++ msbBits size code = bytesBits xs ++ msbBits d.bits d.buffer) ∧
    (∀ e, putBits cap code size c = .error e → e.1 = .ioFailure ∧ SameDc c e.2 ∧
      ∃ xs bs, msbBits c.bits c.buffer ++ msbBits size code = bytesBits xs ++ bs ∧
        cap < c.out.length + (stuffBytes xs).length) ∧
    (c.out.length + 2 * ((c.bits + size) / 8) ≤ cap → ∃ d, putBits cap code size c = .ok d) := by
  have hor : c.buffer <<< size ||| code = c.buffer * 2 ^ size + code := by
    rw [← Nat.shiftLeft_add_eq_or_of_lt hcode, Nat.shiftLeft_eq]
  have hcat : msbBits (c.bits + size) (c.buffer <<< size ||| code) = msbBits c.bits c.buffer ++ msbBits size code := by
    rw [hor, msbBits_concat hcode]
  have hlt : c.buffer < 2 ^ c.bits → c.buffer <<< size ||| code < 2 ^ (c.bits + size) := by
    intro hb
    rw [hor, Nat.pow_add]
    have : (c.buffer + 1) * 2 ^ size ≤ 2 ^ c.bits * 2 ^ size := Nat.mul_le_mul_right _ hb
    have h2 : (c.buffer + 1) * 2 ^ size = c.buffer * 2 ^ size + 2 ^ size := by ring
    omega
  have hc : Fits cap { c with buffer := c.buffer <<< size ||| code, bits := c.bits + size } := ⟨h.count, h.le⟩
  obtain ⟨dok, derr, droom⟩ := drain_spec ((c.bits + size) / 8) hc (by simp only; omega)
  unfold putBits
  refine ⟨fun d hd => ?_, fun e he => ?_, droom⟩
  · obtain ⟨g1, g2, g3, g4, g5, xs, -, g7, g8⟩ := dok d hd
    exact ⟨g1, ⟨g2.dc0, g2.dc1, g2.dc2⟩, g3, by simp only at g4; omega, fun hb => g5 (hlt hb), xs, g7, by rw [← hcat]; exact g8⟩
  · obtain ⟨g1, g2, xs, bs, g3, g4⟩ := derr e he
    exact ⟨g1, ⟨g2.dc0, g2.dc1, g2.dc2⟩, xs, bs, by rw [← hcat]; exact g3, g4⟩

end Sys2Proof.Machine
end

