-- ==== Sys2Proof/Laws/Huffman.lean ====
section
/-! SUPPORT. What the canonical code assignment does: the codes it gives, and when it fails. -/

namespace Sys2Proof.Machine

/-- The code words of length `l` that the sizes up to `l` use or cover (R107). -/
def covered (sizes : List Nat) (l : Nat) : Nat := (sizes.map fun z => if z ≤ l then 2 ^ (l - z) else 0).sum

/-- The canonical code of position `p`: the code words of its size that the positions before it use or cover. -/
def codeAt (sizes : List Nat) (p : Nat) : Nat :=
  ((List.range p).map fun q => 2 ^ (sizes.getD p 0 - sizes.getD q 0)).sum

theorem covered_append (a b : List Nat) (l : Nat) : covered (a ++ b) l = covered a l + covered b l := by
  simp [covered]

theorem covered_replicate (n z l : Nat) : covered (List.replicate n z) l = if z ≤ l then n * 2 ^ (l - z) else 0 := by
  simp only [covered, List.map_replicate, List.sum_replicate, smul_eq_mul]
  split <;> simp

theorem covered_eq_zero {sizes : List Nat} {l : Nat} (h : ∀ z ∈ sizes, l < z) : covered sizes l = 0 := by
  induction sizes with
  | nil => rfl
  | cons z zs ih =>
    have h1 := h z List.mem_cons_self
    have h2 := ih fun x hx => h x (List.mem_cons_of_mem _ hx)
    simp only [covered, List.map_cons, List.sum_cons] at h2 ⊢
    rw [h2, if_neg (by omega)]

/-- Covering doubles with the length, where no new size begins. -/
theorem covered_shift {sizes : List Nat} {l k : Nat} (h : ∀ z ∈ sizes, z ≤ l) :
    covered sizes (l + k) = covered sizes l * 2 ^ k := by
  induction sizes with
  | nil => simp [covered]
  | cons z zs ih =>
    have h1 := h z List.mem_cons_self
    have h2 := ih fun x hx => h x (List.mem_cons_of_mem _ hx)
    simp only [covered, List.map_cons, List.sum_cons] at h2 ⊢
    rw [h2, if_pos h1, if_pos (by omega), Nat.add_mul, ← Nat.pow_add]
    congr 2
    omega

/-- A sorted list from `si` on is a run of `si` followed by larger sizes. -/
theorem run_split {sizes : List Nat} {si : Nat} (hs : sizes.Pairwise (· ≤ ·)) (hge : ∀ z ∈ sizes, si ≤ z) :
    sizes.takeWhile (· == si) = List.replicate (sizes.takeWhile (· == si)).length si ∧
      ∀ z ∈ sizes.dropWhile (· == si), si + 1 ≤ z := by
  constructor
  · rw [List.eq_replicate_iff]
    refine ⟨rfl, fun z hz => ?_⟩
    have := List.mem_takeWhile_imp hz
    simpa using this
  · intro z hz
    cases hd : sizes.dropWhile (· == si) with
    | nil => rw [hd] at hz; cases hz
    | cons y ys =>
      have hy : y ≠ si := by
        have := List.head?_dropWhile_not (· == si) sizes
        rw [hd] at this
        simpa using this
      have hy' : si ≤ y := hge y ((List.dropWhile_suffix _).subset (by rw [hd]; exact List.mem_cons_self))
      have hsub : (y :: ys).Pairwise (· ≤ ·) := by
        rw [← hd]; exact hs.sublist (List.dropWhile_suffix _).sublist
      rw [hd] at hz
      rcases List.mem_cons.1 hz with rfl | hz
      · omega
      · have := (List.pairwise_cons.1 hsub).1 z hz
        omega

/-- The assignment from the length `si` and the code `code` on: the codes, or the first over-filled length. -/
theorem assignCodes_spec (n : Nat) : ∀ (sizes : List Nat) (si code : Nat), sizes.Pairwise (· ≤ ·) →
    (∀ z ∈ sizes, si ≤ z ∧ z < si + n) →
    (∀ codes, assignCodes n sizes si code = .ok codes →
      codes.length = sizes.length ∧
      (∀ p, p < sizes.length → codes.getD p 0 = code * 2 ^ (sizes.getD p 0 - si) + codeAt sizes p) ∧
      ∀ l, si ≤ l → (∃ z ∈ sizes, l ≤ z) → code * 2 ^ (l - si) + covered sizes l ≤ 2 ^ l) ∧
    (∀ l, assignCodes n sizes si code = .error l →
      si ≤ l ∧ (∃ z ∈ sizes, l ≤ z) ∧ 2 ^ l < code * 2 ^ (l - si) + covered sizes l ∧
      ∀ k, si ≤ k → k < l → code * 2 ^ (k - si) + covered sizes k ≤ 2 ^ k) := by
  induction n with
  | zero =>
    intro sizes si code _ hb
    have : sizes = [] := by
      cases sizes with
      | nil => rfl
      | cons z zs => have := hb z List.mem_cons_self; omega
    subst this
    constructor
    · intro codes h; cases h; simp
    · intro l h; cases h
  | succ n ih =>
    intro sizes si code hs hb
    by_cases he : sizes = []
    · subst he
      constructor
      · intro codes h; simp [assignCodes] at h; subst h; simp
      · intro l h; simp [assignCodes] at h
    · obtain ⟨hrun, hrest⟩ := run_split hs fun z hz => (hb z hz).1
      generalize hr : (sizes.takeWhile (· == si)).length = run at hrun
      generalize hd : sizes.dropWhile (· == si) = rest at hrest
      have hsizes : sizes = List.replicate run si ++ rest := by
        rw [← hrun, ← hd, List.takeWhile_append_dropWhile]
      have hemp : sizes.isEmpty = false := by cases sizes with
        | nil => exact absurd rfl he
        | cons _ _ => rfl
      have hstep : assignCodes (n + 1) sizes si code =
          if 2 ^ si < code + run then .error si
          else match assignCodes n rest (si + 1) (2 * (code + run)) with
            | .ok codes => .ok (List.range' code run ++ codes)
            | .error l => .error l := by
        conv => lhs; unfold assignCodes
        simp only [hemp, Bool.false_eq_true, if_false, hr, hd] <;> rfl
      have hs' : rest.Pairwise (· ≤ ·) := by
        rw [hsizes] at hs; exact (List.pairwise_append.1 hs).2.1
      have hb' : ∀ z ∈ rest, si + 1 ≤ z ∧ z < si + 1 + n := by
        intro z hz
        have := hb z (by rw [hsizes]; exact List.mem_append_right _ hz)
        exact ⟨hrest z hz, by omega⟩
      have hcovsi : covered sizes si = run := by
        rw [hsizes, covered_append, covered_replicate, if_pos (Nat.le_refl _), covered_eq_zero fun z hz => hrest z hz]
        simp
      have hcov : ∀ l, si + 1 ≤ l → code * 2 ^ (l - si) + covered sizes l =
          2 * (code + run) * 2 ^ (l - (si + 1)) + covered rest l := by
        intro l hl
        obtain ⟨d, rfl⟩ : ∃ d, l = si + 1 + d := ⟨l - (si + 1), by omega⟩
        rw [hsizes, covered_append, covered_replicate, if_pos (by omega), show si + 1 + d - si = d + 1 by omega,
          show si + 1 + d - (si + 1) = d by omega, Nat.pow_succ]
        ring
      obtain ⟨ihok, iherr⟩ := ih rest (si + 1) (2 * (code + run)) hs' hb'
      have hhead : ∃ z ∈ sizes, si ≤ z := by
        cases sizes with
        | nil => exact absurd rfl he
        | cons z zs => exact ⟨z, List.mem_cons_self, (hb z List.mem_cons_self).1⟩
      rw [hstep]
      by_cases hover : 2 ^ si < code + run
      · rw [if_pos hover]
        constructor
        · intro codes h; cases h
        · intro l h; cases h
          refine ⟨Nat.le_refl _, hhead, ?_, fun k h1 h2 => by omega⟩
          rw [hcovsi]; simpa using hover
      · rw [if_neg hover]
        cases hrec : assignCodes n rest (si + 1) (2 * (code + run)) with
        | error l =>
          obtain ⟨h1, ⟨z, hz, hlz⟩, h2, h3⟩ := iherr l hrec
          constructor
          · intro codes h; cases h
          · intro l' h; cases h
            refine ⟨by omega, ⟨z, by rw [hsizes]; exact List.mem_append_right _ hz, hlz⟩, ?_, ?_⟩
            · rw [hcov l h1]; exact h2
            · intro k hk1 hk2
              rcases Nat.eq_or_lt_of_le hk1 with rfl | hk1
              · rw [hcovsi]; simp; omega
              · rw [hcov k hk1]; exact h3 k hk1 hk2
        | ok codes' =>
          obtain ⟨hlen, hcodes, hfit⟩ := ihok codes' hrec
          constructor
          · intro codes h
            cases h
            refine ⟨by rw [hsizes]; simp [hlen], ?_, ?_⟩
            · intro p hp
              rw [hsizes] at hp ⊢
              by_cases hpr : p < run
              · rw [List.getD_append _ _ _ _ (by simpa using hpr), List.getD_append _ _ _ _ (by simpa using hpr)]
                have e1 : (List.replicate run si).getD p 0 = si := by
                  simp [List.getD_eq_getElem?_getD, hpr]
                have e2 : (List.range' code run).getD p 0 = code + p := by
                  simp [List.getD_eq_getElem?_getD, hpr]
                rw [e1, e2, Nat.sub_self, pow_zero, Nat.mul_one]
                congr 1
                unfold codeAt
                have : ∀ q ∈ List.range p, 2 ^ ((List.replicate run si ++ rest).getD p 0 -
                    (List.replicate run si ++ rest).getD q 0) = 1 := by
                  intro q hq
                  have hq' : q < run := by have := List.mem_range.1 hq; omega
                  rw [List.getD_append _ _ _ _ (by simpa using hpr), List.getD_append _ _ _ _ (by simpa using hq'), e1]
                  simp [List.getD_eq_getElem?_getD, hq']
                rw [List.map_congr_left this]
                simp
              · obtain ⟨j, rfl⟩ : ∃ j, p = run + j := ⟨p - run, by omega⟩
                have hj : j < rest.length := by simp at hp; omega
                have e1 : (List.replicate run si ++ rest).getD (run + j) 0 = rest.getD j 0 := by
                  rw [List.getD_append_right _ _ _ _ (by simp)]; simp
                have e2 : (List.range' code run ++ codes').getD (run + j) 0 = codes'.getD j 0 := by
                  rw [List.getD_append_right _ _ _ _ (by simp)]; simp
                have hz : si + 1 ≤ rest.getD j 0 := by
                  rw [List.getD_eq_getElem _ _ hj]; exact hrest _ (List.getElem_mem hj)
                rw [e2, hcodes j hj, e1]
                unfold codeAt
                rw [List.range_add, List.map_append, List.sum_append, List.map_map]
                have h1 : ((List.range run).map fun q => 2 ^ ((List.replicate run si ++ rest).getD (run + j) 0 -
                    (List.replicate run si ++ rest).getD q 0)).sum = run * 2 ^ (rest.getD j 0 - si) := by
                  have : ∀ q ∈ List.range run, 2 ^ ((List.replicate run si ++ rest).getD (run + j) 0 -
                      (List.replicate run si ++ rest).getD q 0) = 2 ^ (rest.getD j 0 - si) := by
                    intro q hq
                    have hq' : q < run := List.mem_range.1 hq
                    rw [e1, List.getD_append _ _ _ _ (by simpa using hq')]
                    simp [List.getD_eq_getElem?_getD, hq']
                  rw [List.map_congr_left this]
                  simp
                have h2 : ((List.range j).map ((fun q => 2 ^ ((List.replicate run si ++ rest).getD (run + j) 0 -
                    (List.replicate run si ++ rest).getD q 0)) ∘ fun x => run + x)).sum =
                    ((List.range j).map fun q => 2 ^ (rest.getD j 0 - rest.getD q 0)).sum := by
                  congr 1
                  apply List.map_congr_left
                  intro q _
                  simp only [Function.comp_apply, e1]
                  rw [List.getD_append_right _ _ _ _ (by simp)]; simp
                rw [h1, h2]
                obtain ⟨d, hd'⟩ : ∃ d, rest.getD j 0 = si + 1 + d := ⟨rest.getD j 0 - (si + 1), by omega⟩
                rw [hd', show si + 1 + d - si = d + 1 by omega, show si + 1 + d - (si + 1) = d by omega, Nat.pow_succ]
                ring
            · intro l hl ⟨z, hz, hlz⟩
              rcases Nat.eq_or_lt_of_le hl with rfl | hl
              · rw [hcovsi]; simp; omega
              · rw [hcov l hl]
                refine hfit l hl ⟨z, ?_, hlz⟩
                rw [hsizes] at hz
                rcases List.mem_append.1 hz with hz | hz
                · have := List.eq_of_mem_replicate hz; omega
                · exact hz
          · intro l h; cases h

/-! ## A whole specification -/

/-- The sizes of a specification are sorted and lie in 1..16 (R104). -/
theorem huffSizes_sorted (s : State) (t : Nat) : (s.huffSizes t).Pairwise (· ≤ ·) ∧ ∀ z ∈ s.huffSizes t, 1 ≤ z ∧ z ≤ 16 := by
  constructor
  · unfold State.huffSizes
    rw [List.pairwise_flatMap]
    refine ⟨fun l _ => ?_, ?_⟩
    · rw [List.pairwise_replicate]; exact .inr (Nat.le_refl _)
    · refine (List.pairwise_lt_range' (s := 1) (n := 16)).imp ?_
      intro a b hab x hx y hy
      rw [List.eq_of_mem_replicate hx, List.eq_of_mem_replicate hy]
      omega
  · intro z hz
    simp only [State.huffSizes, List.mem_flatMap, List.mem_range'_1] at hz
    obtain ⟨l, hl, hz⟩ := hz
    rw [List.eq_of_mem_replicate hz]
    omega

theorem huffSizes_length (s : State) (t : Nat) : (s.huffSizes t).length = bitsSum s t := by
  simp [State.huffSizes, bitsSum, List.length_flatMap]

/-- What the sizes of a specification cover, length by length. -/
theorem covered_huffSizes (s : State) (t : Nat) {l : Nat} (hl : l ≤ 16) :
    covered (s.huffSizes t) l = ((List.range' 1 l).map fun k => (s.hbits t k).toNat * 2 ^ (l - k)).sum := by
  have key : ∀ n, covered ((List.range' 1 n).flatMap fun k => List.replicate (s.hbits t k).toNat k) l =
      ((List.range' 1 n).map fun k => if k ≤ l then (s.hbits t k).toNat * 2 ^ (l - k) else 0).sum := by
    intro n
    induction n with
    | zero => rfl
    | succ n ih =>
      rw [List.range'_concat, List.flatMap_append, covered_append, ih, List.map_append, List.sum_append]
      simp [covered_replicate]
  unfold State.huffSizes
  rw [key]
  obtain ⟨d, hd⟩ : ∃ d, 16 = l + d := ⟨16 - l, by omega⟩
  rw [hd, ← List.range'_append, List.map_append, List.sum_append]
  have h1 : ((List.range' 1 l).map fun k => if k ≤ l then (s.hbits t k).toNat * 2 ^ (l - k) else 0) =
      (List.range' 1 l).map fun k => (s.hbits t k).toNat * 2 ^ (l - k) := by
    apply List.map_congr_left
    intro k hk
    rw [List.mem_range'_1] at hk
    rw [if_pos (by omega)]
  have h2 : ((List.range' (1 + 1 * l) d).map fun k => if k ≤ l then (s.hbits t k).toNat * 2 ^ (l - k) else 0) =
      (List.range' (1 + 1 * l) d).map fun _ => 0 := by
    apply List.map_congr_left
    intro k hk
    rw [List.mem_range'_1] at hk
    rw [if_neg (by omega)]
  rw [h1, h2]
  simp

theorem covered_kraft (s : State) (t : Nat) : covered (s.huffSizes t) 16 = kraftSum s t :=
  covered_huffSizes s t (Nat.le_refl _)

/-- Covering never shrinks from one length to the next by more than the doubling: once over-filled, always. -/
theorem covered_mono {sizes : List Nat} (l k : Nat) : covered sizes l * 2 ^ k ≤ covered sizes (l + k) := by
  induction sizes with
  | nil => simp [covered]
  | cons z zs ih =>
    simp only [covered, List.map_cons, List.sum_cons] at ih ⊢
    rw [Nat.add_mul]
    refine Nat.add_le_add ?_ ih
    by_cases h : z ≤ l
    · rw [if_pos h, if_pos (by omega), ← Nat.pow_add]
      exact Nat.pow_le_pow_right (by decide) (by omega)
    · rw [if_neg h]; simp

/-- What `huffCodes` gives for a specification (R106, R107): the canonical codes, if the code space is not over-filled;
otherwise the first over-filled length. -/
theorem huffCodes_spec (s : State) (t : Nat) :
    (∀ codes, huffCodes (s.huffSizes t) = .ok codes →
      codes.length = bitsSum s t ∧ (∀ p, p < bitsSum s t → codes.getD p 0 = codeAt (s.huffSizes t) p) ∧
      ∀ l, l ≤ 16 → covered (s.huffSizes t) l ≤ 2 ^ l) ∧
    (∀ l, huffCodes (s.huffSizes t) = .error l →
      1 ≤ l ∧ l ≤ 16 ∧ 2 ^ l < covered (s.huffSizes t) l ∧ ∀ k, k < l → covered (s.huffSizes t) k ≤ 2 ^ k) := by
  obtain ⟨hs, hb⟩ := huffSizes_sorted s t
  have hlen := huffSizes_length s t
  generalize s.huffSizes t = sizes at *
  have hge : ∀ z ∈ sizes, sizes.headD 0 ≤ z := by
    intro z hz
    cases sizes with
    | nil => cases hz
    | cons y ys =>
      rcases List.mem_cons.1 hz with rfl | hz
      · exact Nat.le_refl _
      · exact (List.pairwise_cons.1 hs).1 z hz
  obtain ⟨hok, herr⟩ := assignCodes_spec 17 sizes (sizes.headD 0) 0 hs
    fun z hz => ⟨hge z hz, by have := (hb z hz).2; omega⟩
  have hsmall : ∀ k, k < sizes.headD 0 → covered sizes k = 0 := fun k hk =>
    covered_eq_zero fun z hz => by have := hge z hz; omega
  constructor
  · intro codes h
    obtain ⟨h1, h2, h3⟩ := hok codes h
    refine ⟨h1.trans hlen, fun p hp => by simpa using h2 p (by omega), fun l hl => ?_⟩
    by_cases hex : ∃ z ∈ sizes, l ≤ z
    · by_cases hlow : sizes.headD 0 ≤ l
      · simpa using h3 l hlow hex
      · rw [hsmall l (by omega)]; exact Nat.zero_le _
    · cases hsz : sizes.getLast? with
      | none =>
        rw [List.getLast?_eq_none_iff] at hsz
        subst hsz
        simp [covered]
      | some m =>
        have hm : m ∈ sizes := List.mem_of_getLast? hsz
        have hmax : ∀ z ∈ sizes, z ≤ m := by
          intro z hz
          obtain ⟨ys, rfl⟩ : ∃ ys, sizes = ys ++ [m] := List.getLast?_eq_some_iff.1 hsz
          rcases List.mem_append.1 hz with hz | hz
          · exact (List.pairwise_append.1 hs).2.2 z hz m (by simp)
          · simp at hz; omega
        have hml : m < l := by
          by_contra hc
          exact hex ⟨m, hm, by omega⟩
        have hfit := h3 m (hge m hm) ⟨m, hm, Nat.le_refl _⟩
        obtain ⟨d, rfl⟩ : ∃ d, l = m + d := ⟨l - m, by omega⟩
        rw [covered_shift hmax, Nat.pow_add]
        exact Nat.mul_le_mul_right _ (by simpa using hfit)
  · intro l h
    obtain ⟨h1, ⟨z, hz, hlz⟩, h2, h3⟩ := herr l h
    have hz' := hb z hz
    have hhead : 1 ≤ sizes.headD 0 := by
      cases sizes with
      | nil => cases hz
      | cons y ys => exact (hb y List.mem_cons_self).1
    refine ⟨by omega, by omega, by simpa using h2, fun k hk => ?_⟩
    by_cases hlow : sizes.headD 0 ≤ k
    · simpa using h3 k hlow hk
    · rw [hsmall k (by omega)]; exact Nat.zero_le _

/-- The code space is over-filled exactly when it is at the length 16. -/
theorem huffCodes_ok_iff (s : State) (t : Nat) :
    (∃ codes, huffCodes (s.huffSizes t) = .ok codes) ↔ kraftSum s t ≤ 2 ^ 16 := by
  obtain ⟨hok, herr⟩ := huffCodes_spec s t
  rw [← covered_kraft]
  constructor
  · rintro ⟨codes, h⟩
    exact (hok codes h).2.2 16 (Nat.le_refl _)
  · intro h
    cases hc : huffCodes (s.huffSizes t) with
    | ok codes => exact ⟨codes, rfl⟩
    | error l =>
      obtain ⟨-, h2, h3, -⟩ := herr l hc
      exfalso
      obtain ⟨d, hd⟩ : ∃ d, 16 = l + d := ⟨16 - l, by omega⟩
      rw [hd] at h
      have h4 := covered_mono (sizes := s.huffSizes t) l d
      have h5 : 2 ^ l * 2 ^ d < covered (s.huffSizes t) l * 2 ^ d := Nat.mul_lt_mul_of_pos_right h3 (by positivity)
      rw [← Nat.pow_add] at h5
      omega

/-! ## The codes -/

/-- One more than the code of a position is what the positions up to it cover. -/
theorem codeAt_succ_le_covered {sizes : List Nat} (hs : sizes.Pairwise (· ≤ ·)) {p : Nat} (hp : p < sizes.length) :
    codeAt sizes p + 1 ≤ covered sizes (sizes.getD p 0) := by
  have hle : ∀ q, q ≤ p → sizes.getD q 0 ≤ sizes.getD p 0 := by
    intro q hq
    rcases Nat.eq_or_lt_of_le hq with rfl | hq
    · exact Nat.le_refl _
    · rw [List.getD_eq_getElem _ _ (by omega), List.getD_eq_getElem _ _ hp]
      exact List.pairwise_iff_getElem.1 hs q p (by omega) hp hq
  have hsum : codeAt sizes p + 1 = ((List.range (p + 1)).map fun q => 2 ^ (sizes.getD p 0 - sizes.getD q 0)).sum := by
    rw [List.range_succ, List.map_append, List.sum_append]
    simp [codeAt]
  have htake : ((List.range (p + 1)).map fun q => 2 ^ (sizes.getD p 0 - sizes.getD q 0)) =
      (sizes.take (p + 1)).map fun z => if z ≤ sizes.getD p 0 then 2 ^ (sizes.getD p 0 - z) else 0 := by
    apply List.ext_getElem
    · simp; omega
    · intro i h1 h2
      simp only [List.length_map, List.length_range] at h1
      have := hle i (by omega)
      simp only [List.getElem_map, List.getElem_range, List.getElem_take]
      rw [List.getD_eq_getElem _ _ (show i < sizes.length by omega)] at this ⊢
      rw [if_pos this]
  rw [hsum, htake]
  unfold covered
  conv => rhs; rw [← List.take_append_drop (p + 1) sizes]
  rw [List.map_append, List.sum_append]
  simp only [List.take_append_drop]
  exact Nat.le_add_right _ _

/-- A later code begins with no earlier one. -/
theorem codeAt_prefix_free {sizes : List Nat} (hs : sizes.Pairwise (· ≤ ·)) {p q : Nat} (hpq : p < q)
    (hq : q < sizes.length) :
    codeAt sizes p < codeAt sizes q / 2 ^ (sizes.getD q 0 - sizes.getD p 0) := by
  have hle : ∀ i j, i ≤ j → j < sizes.length → sizes.getD i 0 ≤ sizes.getD j 0 := by
    intro i j hij hj
    rcases Nat.eq_or_lt_of_le hij with rfl | hij
    · exact Nat.le_refl _
    · rw [List.getD_eq_getElem _ _ (by omega), List.getD_eq_getElem _ _ hj]
      exact List.pairwise_iff_getElem.1 hs i j (by omega) hj hij
  rw [Nat.lt_iff_add_one_le, Nat.le_div_iff_mul_le (by positivity)]
  have h1 : (codeAt sizes p + 1) * 2 ^ (sizes.getD q 0 - sizes.getD p 0) =
      ((List.range (p + 1)).map fun r => 2 ^ (sizes.getD q 0 - sizes.getD r 0)).sum := by
    have : codeAt sizes p + 1 = ((List.range (p + 1)).map fun r => 2 ^ (sizes.getD p 0 - sizes.getD r 0)).sum := by
      rw [List.range_succ, List.map_append, List.sum_append]
      simp [codeAt]
    rw [this, ← List.sum_map_mul_right]
    congr 1
    apply List.map_congr_left
    intro r hr
    have hr' := List.mem_range.1 hr
    have := hle r p (by omega) (by omega)
    have := hle p q (by omega) hq
    rw [← Nat.pow_add]
    congr 1
    omega
  have h2 : ((List.range (p + 1)).map fun r => 2 ^ (sizes.getD q 0 - sizes.getD r 0)).sum ≤ codeAt sizes q := by
    obtain ⟨d, rfl⟩ : ∃ d, q = p + 1 + d := ⟨q - (p + 1), by omega⟩
    unfold codeAt
    rw [List.range_add (n := p + 1) (m := d), List.map_append, List.sum_append]
    exact Nat.le_add_right _ _
  omega

/-! ## The derived table -/

/-- Looking a key up from the end of a list finds its last place. -/
theorem lookup_reverse_last {β : Type} (l : List (Nat × β)) (a : Nat) {p : Nat} (hp : p < l.length)
    (ha : l[p].1 = a) (hlast : ∀ q (hq : q < l.length), p < q → l[q].1 ≠ a) : l.reverse.lookup a = some l[p].2 := by
  induction l using List.reverseRecOn with
  | nil => simp at hp
  | append_singleton l x ih =>
    rw [List.reverse_append, List.reverse_singleton, List.singleton_append, List.lookup_cons]
    by_cases hx : p = l.length
    · subst hx
      simp at ha ⊢
      simp [ha]
    · have hp' : p < l.length := by simp at hp; omega
      have hxa : x.1 ≠ a := by
        have := hlast l.length (by simp) hp'
        simpa using this
      rw [show (a == x.1) = false by simpa using fun h => hxa h.symm]
      simp only [List.getElem_append_left hp'] at ha ⊢
      refine ih hp' ha fun q hq hpq => ?_
      have := hlast q (by simp; omega) hpq
      simpa [List.getElem_append_left hq] using this

theorem lookup_eq_none_of {β : Type} (l : List (Nat × β)) (a : Nat) (h : ∀ x ∈ l, x.1 ≠ a) : l.lookup a = none := by
  induction l with
  | nil => rfl
  | cons x l ih =>
    rw [List.lookup_cons, show (a == x.1) = false by simpa using fun he => h x List.mem_cons_self he.symm]
    exact ih fun y hy => h y (List.mem_cons_of_mem _ hy)

theorem assignments_length (s : State) (t : Nat) {sizes codes : List Nat} (h : codes.length = sizes.length) :
    (s.assignments t sizes codes).length = sizes.length := by simp [State.assignments, h]

theorem assignments_getElem (s : State) (t : Nat) {sizes codes : List Nat} (h : codes.length = sizes.length) {p : Nat}
    (hp : p < (s.assignments t sizes codes).length) :
    (s.assignments t sizes codes)[p] = ((s.hvals t p).toNat, codes.getD p 0, sizes.getD p 0) := by
  rw [assignments_length s t h] at hp
  rw [List.getD_eq_getElem _ _ hp, List.getD_eq_getElem _ _ (show p < codes.length by omega)]
  simp [State.assignments]

/-- The entry of the symbol of position `p`, where no later position has it (R108). -/
theorem derivedEntry_last (s : State) (t : Nat) {sizes codes : List Nat} (h : codes.length = sizes.length) {p : Nat}
    (hp : p < sizes.length) (hlast : ∀ q, p < q → q < sizes.length → s.hvals t q ≠ s.hvals t p) :
    derivedEntry (s.assignments t sizes codes) (s.hvals t p).toNat = (codes.getD p 0, sizes.getD p 0) := by
  have hlen := assignments_length s t h
  unfold derivedEntry
  rw [lookup_reverse_last _ _ (p := p) (by omega) (by rw [assignments_getElem s t h])]
  · rw [assignments_getElem s t h]; rfl
  · intro q hq hpq
    rw [assignments_getElem s t h]
    intro he
    exact hlast q hpq (by omega) (BitVec.eq_of_toNat_eq he)

/-- The entry of a symbol that no position has (R108). -/
theorem derivedEntry_absent (s : State) (t : Nat) {sizes codes : List Nat} (h : codes.length = sizes.length) {sym : Nat}
    (hno : ∀ p, p < sizes.length → (s.hvals t p).toNat ≠ sym) :
    derivedEntry (s.assignments t sizes codes) sym = (0, 0) := by
  unfold derivedEntry
  rw [lookup_eq_none_of]
  · rfl
  · intro x hx
    rw [List.mem_reverse] at hx
    obtain ⟨p, hp, rfl⟩ := List.getElem_of_mem hx
    rw [assignments_getElem s t h]
    exact hno p (by rw [assignments_length s t h] at hp; exact hp)

/-- The entry of a symbol is that of its last position, if it has one. -/
theorem exists_last (s : State) (t n sym : Nat) :
    (∀ p, p < n → (s.hvals t p).toNat ≠ sym) ∨
      ∃ p, p < n ∧ (s.hvals t p).toNat = sym ∧ ∀ q, p < q → q < n → s.hvals t q ≠ s.hvals t p := by
  induction n with
  | zero => exact .inl fun p hp => absurd hp (Nat.not_lt_zero _)
  | succ n ih =>
    by_cases hn : (s.hvals t n).toNat = sym
    · exact .inr ⟨n, by omega, hn, fun q h1 h2 => by omega⟩
    · rcases ih with h | ⟨p, hp, hs, hl⟩
      · refine .inl fun p hp => ?_
        rcases Nat.lt_succ_iff_lt_or_eq.1 hp with hp | rfl
        · exact h p hp
        · exact hn
      · refine .inr ⟨p, by omega, hs, fun q h1 h2 => ?_⟩
        rcases Nat.lt_succ_iff_lt_or_eq.1 h2 with h2 | rfl
        · exact hl q h1 h2
        · intro he; rw [he] at hn; exact hn hs

/-! ## EHUF entries as bytes -/

theorem fromLe_toLe_four (v : Word) : BitVec.ofNat 32 (fromLe (toLe 4 v.toNat)) = v := by
  apply BitVec.eq_of_toNat_eq
  have := v.isLt
  simp only [toLe, List.range_succ, List.range_zero, List.nil_append, List.map_cons, List.map_nil,
    List.cons_append, fromLe, BitVec.toNat_ofNat, Nat.shiftRight_eq_div_pow]
  omega

/-- The word of an entry. -/
def entryWord (code size : Nat) : Word := (0 : BitVec 11) ++ BitVec.ofNat 5 size ++ BitVec.ofNat 16 code

theorem toNat_append_eq {n m : Nat} (a : BitVec n) (b : BitVec m) : (a ++ b).toNat = a.toNat * 2 ^ m + b.toNat := by
  rw [BitVec.toNat_append, ← Nat.shiftLeft_add_eq_or_of_lt b.isLt, Nat.shiftLeft_eq]

theorem entryWord_toNat (code size : Nat) :
    (entryWord code size).toNat = size % 32 * 65536 + code % 65536 := by
  unfold entryWord
  rw [toNat_append_eq, toNat_append_eq]
  simp

theorem entryCode_word {code size : Nat} (h : code < 2 ^ 16) : entryCode (entryWord code size) = code := by
  unfold entryCode
  rw [BitVec.extractLsb'_toNat, entryWord_toNat, Nat.shiftRight_eq_div_pow]
  omega

theorem entrySize_word {code size : Nat} (h : size < 32) : entrySize (entryWord code size) = size := by
  unfold entrySize
  rw [BitVec.extractLsb'_toNat, entryWord_toNat, Nat.shiftRight_eq_div_pow]
  omega

theorem entryBytes_length (code size : Nat) : (entryBytes code size).length = 4 := toLe_length _ _

/-- A list made of blocks of four. -/
theorem getElem?_flatMap_four {f : Nat → List Byte} (hf : ∀ k, (f k).length = 4) (n : Nat) {k j : Nat} (hk : k < n)
    (hj : j < 4) : ((List.range n).flatMap f)[4 * k + j]? = (f k)[j]? := by
  induction n with
  | zero => omega
  | succ n ih =>
    have hlen : ((List.range n).flatMap f).length = 4 * n := by simp [List.length_flatMap, hf]; omega
    rw [List.range_succ, List.flatMap_append]
    by_cases h : k < n
    · rw [List.getElem?_append_left (by omega)]; exact ih h
    · have : k = n := by omega
      subst this
      rw [List.getElem?_append_right (by omega), hlen]
      simp

theorem ehufBytes_length (assigned : List (Nat × Nat × Nat)) : (ehufBytes assigned).length = 1024 := by
  have h : ∀ (f : Nat → List Byte) (hf : ∀ k, (f k).length = 4) (n : Nat), ((List.range n).flatMap f).length = 4 * n := by
    intro f hf n
    simp [List.length_flatMap, hf]
    omega
  exact h _ (fun _ => entryBytes_length _ _) 256

theorem ehufBytes_getElem? (assigned : List (Nat × Nat × Nat)) {sym j : Nat} (hs : sym < 256) (hj : j < 4) :
    (ehufBytes assigned)[4 * sym + j]? =
      (entryBytes (derivedEntry assigned sym).1 (derivedEntry assigned sym).2)[j]? :=
  getElem?_flatMap_four (fun _ => entryBytes_length _ _) 256 hs hj

/-- The entry of a symbol in a state whose EHUF[t] has been written from an assignment. -/
theorem ehufEntry_of_write {s u : State} {t : Nat} {assigned : List (Nat × Nat × Nat)}
    (hm : u.mem.cells .ehuf = (s.mem.cells .ehuf).write .ehuf (ehufOff t 0) (ehufBytes assigned)) (site : Site)
    {sym : Nat} (hs : sym < 256) :
    u.ehufEntry site t sym = entryWord (derivedEntry assigned sym).1 (derivedEntry assigned sym).2 := by
  have hbyte : ∀ j, j < 4 → u.byte site .ehuf (ehufOff t sym + j) =
      (toLe 4 (entryWord (derivedEntry assigned sym).1 (derivedEntry assigned sym).2).toNat)[j]?.getD 0 := by
    intro j hj
    have hread : (u.mem.cells .ehuf).read .ehuf (ehufOff t sym + j) =
        (entryBytes (derivedEntry assigned sym).1 (derivedEntry assigned sym).2)[j]? := by
      rw [hm, Cells.read_write, ehufBytes_length, if_pos (by simp only [ehufOff]; omega)]
      rw [show ehufOff t sym + j - ehufOff t 0 = 4 * sym + j by simp only [ehufOff]; omega]
      exact ehufBytes_getElem? _ hs hj
    have hsome : (entryBytes (derivedEntry assigned sym).1 (derivedEntry assigned sym).2)[j]? =
        some ((entryBytes (derivedEntry assigned sym).1 (derivedEntry assigned sym).2)[j]'(by
          rw [entryBytes_length]; exact hj)) := List.getElem?_eq_getElem _
    rw [byte_of_read site (hread.trans hsome)]
    show _ = (entryBytes (derivedEntry assigned sym).1 (derivedEntry assigned sym).2)[j]?.getD 0
    rw [hsome]; rfl
  have hlist : u.bytes site .ehuf (ehufOff t sym) 4 =
      toLe 4 (entryWord (derivedEntry assigned sym).1 (derivedEntry assigned sym).2).toNat := by
    apply List.ext_getElem
    · simp [State.bytes]
    · intro j h1 h2
      have hj : j < 4 := by simpa using h2
      simp only [State.bytes, List.getElem_map, List.getElem_range]
      rw [hbyte j hj, List.getElem?_eq_getElem h2]; rfl
  unfold State.ehufEntry
  rw [hlist, fromLe_toLe_four]

/-! ## The run of BUILD_HUFF -/

/-- A code fits its size, which lies in 1..16. -/
theorem codeAt_lt {s : State} {t : Nat} {codes : List Nat} (hc : huffCodes (s.huffSizes t) = .ok codes) {p : Nat}
    (hp : p < (s.huffSizes t).length) :
    codeAt (s.huffSizes t) p < 2 ^ (s.huffSizes t).getD p 0 ∧ 1 ≤ (s.huffSizes t).getD p 0 ∧
      (s.huffSizes t).getD p 0 ≤ 16 := by
  obtain ⟨hs, hb⟩ := huffSizes_sorted s t
  have hm := hb _ (List.getElem_mem hp)
  have h1 := codeAt_succ_le_covered hs hp
  have h2 := ((huffCodes_spec s t).1 codes hc).2.2 _ hm.2
  rw [List.getD_eq_getElem _ _ hp] at h1 ⊢
  omega

/-- BUILD_HUFF of an accepted specification writes the derived table and sets its flag. -/
theorem runBuildHuff_accepted {s : State} {t : BitVec 2} (h : SpecAccepted s t.toNat) :
    ∃ codes, huffCodes (s.huffSizes t.toNat) = .ok codes ∧ codes.length = (s.huffSizes t.toNat).length ∧
      runBuildHuff t s =
        { st :=
            { s with
              mem := s.mem.write .ehuf (ehufOff t.toNat 0)
                (ehufBytes (s.assignments t.toNat (s.huffSizes t.toNat) codes))
              valid := s.valid.setHuff t.toNat true }
          err := none } := by
  obtain ⟨codes, hc⟩ := (huffCodes_ok_iff s t.toNat).2 h.2
  refine ⟨codes, hc, by rw [((huffCodes_spec s t.toNat).1 codes hc).1, huffSizes_length], ?_⟩
  unfold runBuildHuff
  dsimp only
  rw [if_neg (by rw [huffSizes_length]; exact Nat.not_lt.2 h.1), hc]

/-- BUILD_HUFF of any other fails with InternalInvariant, sub-cause 1 or 2, and clears its flag. -/
theorem runBuildHuff_rejected {s : State} {t : BitVec 2} (h : ¬SpecAccepted s t.toNat) :
    ∃ sub sym, (sub = 1 ∨ sub = 2) ∧ runBuildHuff t s = s.huffFailed t.toNat (internal sub t.toNat sym) := by
  unfold runBuildHuff
  dsimp only
  rw [huffSizes_length]
  by_cases hn : 256 < bitsSum s t.toNat
  · rw [if_pos hn]; exact ⟨1, 0, .inl rfl, rfl⟩
  · rw [if_neg hn]
    cases hc : huffCodes (s.huffSizes t.toNat) with
    | ok codes => exact absurd ⟨Nat.not_lt.1 hn, (huffCodes_ok_iff s t.toNat).1 ⟨codes, hc⟩⟩ h
    | error l => exact ⟨2, l, .inr rfl, rfl⟩

/-- Every entry of a derived table has a code of its size, at most 16 bits. -/
theorem entry_proper {s : State} {t : Nat} {codes : List Nat} (hc : huffCodes (s.huffSizes t) = .ok codes) (sym : Nat) :
    let e := derivedEntry (s.assignments t (s.huffSizes t) codes) sym
    entrySize (entryWord e.1 e.2) ≤ 16 ∧ entryCode (entryWord e.1 e.2) < 2 ^ entrySize (entryWord e.1 e.2) := by
  have hlen : codes.length = (s.huffSizes t).length := by
    rw [((huffCodes_spec s t).1 codes hc).1, huffSizes_length]
  rcases exists_last s t (s.huffSizes t).length sym with hno | ⟨p, hp, rfl, hl⟩
  · rw [derivedEntry_absent s t hlen hno]; decide
  · rw [derivedEntry_last s t hlen hp hl]
    obtain ⟨h1, h2, h3⟩ := codeAt_lt hc hp
    have h4 := ((huffCodes_spec s t).1 codes hc).2.1 p (by rw [← huffSizes_length]; exact hp)
    have h5 : codes.getD p 0 < 2 ^ 16 := by
      rw [h4]; exact lt_of_lt_of_le h1 (Nat.pow_le_pow_right (by decide) h3)
    dsimp only
    rw [entrySize_word (by omega), entryCode_word h5, h4]
    exact ⟨h3, h1⟩

end Sys2Proof.Machine
end

