-- ==== Sys2Proof/Laws/PerInstr.lean ====
section
/-! SUPPORT. What holds of the word of every operation, one lemma per constructor. -/

namespace Sys2Proof.Laws

/-- The word of a command has RSV = 0, and SEL = 0 unless OP is 0x02 (R81); the word of a SOFT_RESET has bit 0 = 1
(R154). -/
def WordForm.Statement (i : Instr) : Prop :=
  i.wellFormed = true →
    (i.port = .cmd → rsvField (encode i) = 0 ∧ (selField (encode i) ≠ 0 → opField (encode i) = 0x02)) ∧
    (i.port = .ctrl → (encode i).getLsbD 0 = true)

theorem WordForm.nop : WordForm.Statement .nop := by
  unfold WordForm.Statement; decide

theorem WordForm.buildQtables : WordForm.Statement .buildQtables := by
  unfold WordForm.Statement; decide

theorem WordForm.buildHuff (t : BitVec 2) : WordForm.Statement (.buildHuff t) := by
  revert t; unfold WordForm.Statement; decide

theorem WordForm.initTables : WordForm.Statement .initTables := by
  unfold WordForm.Statement; decide

theorem WordForm.colorConvert : WordForm.Statement .colorConvert := by
  unfold WordForm.Statement; decide

theorem WordForm.extractLuma : WordForm.Statement .extractLuma := by
  unfold WordForm.Statement; decide

theorem WordForm.extractChroma : WordForm.Statement .extractChroma := by
  unfold WordForm.Statement; decide

theorem WordForm.edgeDcFixup : WordForm.Statement .edgeDcFixup := by
  unfold WordForm.Statement; decide

theorem WordForm.zeroRight : WordForm.Statement .zeroRight := by
  unfold WordForm.Statement; decide

theorem WordForm.zeroBottom : WordForm.Statement .zeroBottom := by
  unfold WordForm.Statement; decide

theorem WordForm.fdctQuant : WordForm.Statement .fdctQuant := by
  unfold WordForm.Statement; decide

theorem WordForm.encodeScan : WordForm.Statement .encodeScan := by
  unfold WordForm.Statement; decide

theorem WordForm.encodeImage : WordForm.Statement .encodeImage := by
  unfold WordForm.Statement; decide

theorem WordForm.softReset (ctrl : Word) : WordForm.Statement (.softReset ctrl) :=
  fun h => ⟨nofun, fun _ => h⟩

end Sys2Proof.Laws
end

