-- ==== Sys2Proof/Laws/Port.lean ====
section
/-! SUPPORT. What the slave port and a step do, once each: where an address lies, when an access is no bus error, what a
host transaction gives. -/

namespace Sys2Proof.Machine

theorem advance_eq_taken (s : State) : s.advance = taken s := rfl

/-! ## The address map -/

theorem locate_reg (p : Params) {a : Nat} (h : a < 0x60) : locate p a = some (.reg a) := by simp [locate, h]

/-- What a byte of a window says of its address. -/
theorem locate_ram {p : Params} {a : Nat} {r : Ram} {off : Nat} (h : locate p a = some (.ram r off)) :
    0x60 ≤ a ∧ a = r.base + off ∧ off < p.size r ∧ off < 2 ^ 28 := by
  unfold locate at h
  split at h
  · cases h
  · next ha =>
    rw [Option.map_eq_some_iff] at h
    obtain ⟨r', hf, he⟩ := h
    cases he
    have hw := List.find?_some hf
    simp only [inWindow, Bool.and_eq_true, decide_eq_true_eq] at hw
    omega

/-- The windows do not overlap: an address of a window of the map lies in that one. -/
theorem locate_of_window {p : Params} {r : Ram} {off : Nat} (hs : off < p.size r) (hb : off < 2 ^ 28) :
    locate p (r.base + off) = some (.ram r off) := by
  have h60 : ¬r.base + off < 0x60 := by cases r <;> simp only [Ram.base] <;> omega
  have hin : inWindow p (r.base + off) r = true := by simp [inWindow]; omega
  unfold locate
  rw [if_neg h60]
  suffices h : allRams.find? (inWindow p (r.base + off)) = some r by
    rw [h]; simp
  have hout : ∀ r', r' ≠ r → inWindow p (r.base + off) r' = false := by
    intro r' hne
    rw [← Bool.not_eq_true]
    intro hw
    simp only [inWindow, Bool.and_eq_true, decide_eq_true_eq] at hw
    cases r <;> cases r' <;> simp only [Ram.base, Params.size] at * <;> first | exact hne rfl | omega
  cases r <;> simp [allRams, List.find?, hout, hin]

/-- An access is no bus error exactly when R65, R66 and R67 say so. -/
theorem accessOk_iff (p : Params) (a n : Nat) : accessOk p a n = true ↔ AccessOk p a n := by
  simp only [accessOk, mapped, AccessOk, Bool.and_eq_true, Bool.or_eq_true, decide_eq_true_eq, List.all_eq_true,
    List.mem_range, and_assoc]
  constructor
  · rintro ⟨h1, h2, h3⟩; exact ⟨h1, h2, fun h => by omega⟩
  · rintro ⟨h1, h2, h3⟩; exact ⟨h1, h2, by omega⟩

/-- A four-byte access to a register is no bus error. -/
theorem accessOk_reg (p : Params) {a : Nat} (h : a < 0x60) (h4 : a % 4 = 0) : AccessOk p a 4 :=
  ⟨fun j hj => by rw [locate_reg p (by omega)]; rfl, h4, fun _ => rfl⟩

/-- Where the first byte of an access lies: a register, at its own offset, or a window. -/
theorem AccessOk.place {p : Params} {a n : Nat} (hn : 0 < n) (h : AccessOk p a n) :
    (a < 0x60 ∧ n = 4 ∧ a % 4 = 0 ∧ locate p a = some (.reg a)) ∨
      (0x60 ≤ a ∧ ∃ r off, locate p a = some (.ram r off) ∧ a = r.base + off ∧ off < p.size r) := by
  obtain ⟨hm, ha, h4⟩ := h
  have h0 := hm 0 hn
  by_cases hr : a < 0x60
  · exact .inl ⟨hr, h4 hr, by rw [← h4 hr]; exact ha, locate_reg p hr⟩
  · right
    rw [Nat.add_zero, Option.isSome_iff_exists] at h0
    obtain ⟨pl, hp⟩ := h0
    cases pl with
    | reg off => simp [locate, hr] at hp
    | ram r off =>
      have := locate_ram hp
      exact ⟨by omega, r, off, hp, this.2.1, this.2.2.1⟩

theorem Size.bytes_pos (n : Size) : 0 < n.bytes := by cases n <;> decide

/-! ## Steps -/

/-- The step of a host transaction. -/
theorem step_host {s : State} {x : Txn} (h : NextIsHost s x) : step s = hostStep x (taken s) := by
  obtain ⟨-, he⟩ := h
  unfold step nextStep
  cases hs : s.events with
  | nil => simp [hs] at he
  | cons e es =>
    rw [hs] at he
    cases he
    rfl

/-- The step at the engine's turn. -/
theorem step_engine {s : State} (h : EngineNext s) : step s = engineTurn (taken s) := by
  unfold step nextStep
  cases hs : s.events with
  | nil => rfl
  | cons e es =>
    rw [EngineNext, hs] at h
    rcases h with h | h <;> cases h
    rfl

/-- The step of a change of rst. -/
theorem step_rst {s : State} {b : Bool} (h : s.events.head? = some (.rst b)) : step s = .next (resetInput b (taken s)) := by
  unfold step nextStep
  cases hs : s.events with
  | nil => simp [hs] at h
  | cons e es =>
    rw [hs] at h
    cases h
    rfl

/-- Every event is one of the three. -/
theorem event_cases (s : State) :
    (∃ x, s.events.head? = some (.host x)) ∨ EngineNext s ∨ ∃ b, s.events.head? = some (.rst b) := by
  unfold EngineNext
  cases s.events.head? with
  | none => exact .inr (.inl (.inl rfl))
  | some e =>
    cases e with
    | host x => exact .inl ⟨x, rfl⟩
    | engine => exact .inr (.inl (.inr rfl))
    | rst b => exact .inr (.inr ⟨b, rfl⟩)

/-- A transaction while rst is asserted is refused. -/
theorem step_host_rst {s : State} {x : Txn} (hr : s.rst = true) (he : s.events.head? = some (.host x)) :
    step s = .refused .transactionDuringReset := by
  unfold step nextStep
  cases hs : s.events with
  | nil => simp [hs] at he
  | cons e es =>
    rw [hs] at he
    cases he
    simp [perform, hostStep, State.advance, hr]

/-- A read that is no bus error answers a value, and changes nothing else. -/
theorem step_read {s : State} {a : Word} {n : Size} (h : NextIsHost s (.read a n))
    (ha : AccessOk s.params a.toNat n.bytes) :
    ∃ v, (taken s).memRead a.toNat n.bytes = some v ∧ step s = .next (replied (taken s) (.okRead n v)) := by
  have hok : accessOk (taken s).params a.toNat n.bytes = true := (accessOk_iff _ _ _).2 ha
  have hrst : (taken s).rst = false := h.1
  obtain ⟨v, hv⟩ : ∃ v, (taken s).memRead a.toNat n.bytes = some v := by
    unfold State.memRead
    rw [if_pos hok]
    split <;> exact ⟨_, rfl⟩
  refine ⟨v, hv, ?_⟩
  rw [step_host h, hostStep, hrst]
  simp only [Bool.false_eq_true, if_false, hv]
  rfl

/-- A write that is no bus error is performed and answered. -/
theorem step_write {s t : State} {a : Word} {n : Size} {v : Word} (h : NextIsHost s (.write a n v))
    (ha : AccessOk s.params a.toNat n.bytes) (hm : (taken s).memWrite a.toNat n.bytes v = .next t) :
    step s = .next (t.answer .okWrite) := by
  have hok : accessOk (taken s).params a.toNat n.bytes = true := (accessOk_iff _ _ _).2 ha
  have hrst : (taken s).rst = false := h.1
  rw [step_host h, hostStep, hrst]
  simp only [Bool.false_eq_true, if_false, hok, if_true, hm]

/-- A bus error is a fault. -/
theorem step_busError {s : State} {x : Txn} (h : NextIsHost s x) (ha : ¬AccessOk s.params x.addr.toNat x.bytes) :
    step s = .fault (.busError x.addr) := by
  have hrst : (taken s).rst = false := h.1
  rw [← accessOk_iff, Bool.not_eq_true] at ha
  rw [step_host h]
  cases x with
  | read a n =>
    have : (taken s).memRead a.toNat n.bytes = none := by
      unfold State.memRead
      exact if_neg (by rw [Bool.not_eq_true]; exact ha)
    simp [hostStep, hrst, this, Txn.addr]
  | write a n v =>
    have : accessOk (taken s).params a.toNat n.bytes = false := ha
    simp [hostStep, hrst, this, Txn.addr]

/-- A write to a register. -/
theorem memWrite_reg (s : State) {a : Nat} {r : Reg} (n : Nat) (v : Word) (h : a < 0x60) (hr : regAt a = r) :
    s.memWrite a n v =
      if r.readOnly then .next s
      else if s.status.busy && r.locked then .next s.drop
      else s.writeReg r v := by
  subst hr
  simp [State.memWrite, locate_reg s.params h]

/-- A write to a window. -/
theorem memWrite_ram {s : State} {a : Nat} {r : Ram} {off : Nat} (n : Nat) (v : Word)
    (h : locate s.params a = some (.ram r off)) :
    s.memWrite a n v =
      if !r.writable then .next s
      else if s.status.busy then .next s.drop
      else .next { s with mem := s.mem.writeAll r (storeWrites r off n v) } := by
  simp [State.memWrite, h]

/-- A write of CTRL. -/
theorem writeReg_ctrl (s : State) (v : Word) :
    s.writeReg .ctrl v = .next (if v.getLsbD 0 then s.resetCore else s) := by
  have hd : decodePort .ctrl v = if v.getLsbD 0 then .ok (.softReset v) else .error .noReset := rfl
  cases h : v.getLsbD 0 <;> simp only [State.writeReg, hd, h, if_true, Bool.false_eq_true, if_false, exec, execSoftReset]

/-- A write to a register always answers a next state. -/
theorem writeReg_next (s : State) (r : Reg) (v : Word) : ∃ t, s.writeReg r v = .next t := by
  cases r with
  | ctrl => exact ⟨_, writeReg_ctrl s v⟩
  | _ => exact ⟨_, rfl⟩

/-- A write that is no bus error answers a next state. -/
theorem memWrite_next (s : State) (a n : Nat) (v : Word) : ∃ t, s.memWrite a n v = .next t := by
  unfold State.memWrite
  split
  · dsimp only
    split
    · exact ⟨_, rfl⟩
    · split
      · exact ⟨_, rfl⟩
      · exact writeReg_next _ _ _
  · split
    · exact ⟨_, rfl⟩
    · split <;> exact ⟨_, rfl⟩
  · exact ⟨_, rfl⟩

/-- A write to a register leaves the parameters, rst and the port alone. -/
theorem writeReg_port {s t : State} {r : Reg} {v : Word} (h : s.writeReg r v = .next t) :
    t.params = s.params ∧ t.rst = s.rst ∧ t.events = s.events ∧ t.replies = s.replies ∧ t.epoch = s.epoch := by
  cases r
  case ctrl =>
    rw [writeReg_ctrl] at h
    cases h
    split <;> exact ⟨rfl, rfl, rfl, rfl, rfl⟩
  case cmd =>
    cases h
    unfold State.present
    split <;> exact ⟨rfl, rfl, rfl, rfl, rfl⟩
  case width =>
    cases h
    unfold State.setWidth
    split <;> exact ⟨rfl, rfl, rfl, rfl, rfl⟩
  case height =>
    cases h
    unfold State.setHeight
    split <;> exact ⟨rfl, rfl, rfl, rfl, rfl⟩
  all_goals
    cases h
    exact ⟨rfl, rfl, rfl, rfl, rfl⟩

/-- A write leaves the parameters, rst and the port alone. -/
theorem memWrite_port {s t : State} {a n : Nat} {v : Word} (h : s.memWrite a n v = .next t) :
    t.params = s.params ∧ t.rst = s.rst ∧ t.events = s.events ∧ t.replies = s.replies ∧ t.epoch = s.epoch := by
  unfold State.memWrite at h
  split at h
  · dsimp only at h
    split at h
    · cases h; exact ⟨rfl, rfl, rfl, rfl, rfl⟩
    · split at h
      · cases h; exact ⟨rfl, rfl, rfl, rfl, rfl⟩
      · exact writeReg_port h
  · split at h
    · cases h; exact ⟨rfl, rfl, rfl, rfl, rfl⟩
    · split at h <;> cases h <;> exact ⟨rfl, rfl, rfl, rfl, rfl⟩
  · cases h; exact ⟨rfl, rfl, rfl, rfl, rfl⟩

/-- What a host transaction that answers a next state has done: a read, or a write. -/
theorem step_host_cases {s t : State} {x : Txn} (h : NextIsHost s x) (ht : step s = .next t) :
    AccessOk s.params x.addr.toNat x.bytes ∧
      ((∃ a n v, x = .read a n ∧ (taken s).memRead a.toNat n.bytes = some v ∧ t = replied (taken s) (.okRead n v)) ∨
        ∃ a n v u, x = .write a n v ∧ (taken s).memWrite a.toNat n.bytes v = .next u ∧ t = u.answer .okWrite) := by
  by_cases ha : AccessOk s.params x.addr.toNat x.bytes
  · refine ⟨ha, ?_⟩
    cases x with
    | read a n =>
      obtain ⟨v, hv, hs⟩ := step_read h ha
      rw [hs] at ht
      cases ht
      exact .inl ⟨a, n, v, rfl, hv, rfl⟩
    | write a n v =>
      obtain ⟨u, hu⟩ := memWrite_next (taken s) a.toNat n.bytes v
      rw [step_write h ha hu] at ht
      cases ht
      exact .inr ⟨a, n, v, u, rfl, hu, rfl⟩
  · rw [step_busError h ha] at ht
    cases ht

end Sys2Proof.Machine
end

