-- ==== Sys2Proof/Laws/Scan.lean ====
section
/-! SUPPORT. A scan as a list of items (`Token`): the pseudocode of ENCODE_SCAN runs the items of its blocks one after the
other, and what running items does to the bit buffer, OUT and last_dc is said once. -/

namespace Sys2Proof.Machine

/-! ## Running items -/

/-- What the pseudocode does for one item (R130, R134, R135). -/
def runToken (s : State) : Token → Coder → Coded
  | .code t sym, c => emit s t sym c
  | .magnitude v, c => putMag s v c
  | .predict comp v, c => .ok (c.setLastDc comp v)
  | .tooLong t n, c => .error (internal 4 t n, c)

/-- Items one after the other, up to the first that raises an error. -/
def runTokens (s : State) : List Token → Coder → Coded
  | [], c => .ok c
  | x :: xs, c =>
    match runToken s x c with
    | .error e => .error e
    | .ok d => runTokens s xs d

@[simp] theorem runTokens_nil (s : State) (c : Coder) : runTokens s [] c = .ok c := rfl

theorem runTokens_ok {s : State} {x : Token} {c d : Coder} (xs : List Token) (h : runToken s x c = .ok d) :
    runTokens s (x :: xs) c = runTokens s xs d := by simp only [runTokens, h]

theorem runTokens_error {s : State} {x : Token} {c : Coder} {e : CmdError × Coder} (xs : List Token)
    (h : runToken s x c = .error e) : runTokens s (x :: xs) c = .error e := by simp only [runTokens, h]

/-- Items `xs` that complete, and then items `ys`. -/
theorem runTokens_append_ok {s : State} {xs : List Token} {c d : Coder} (ys : List Token) (h : runTokens s xs c = .ok d) :
    runTokens s (xs ++ ys) c = runTokens s ys d := by
  induction xs generalizing c with
  | nil => cases h; rfl
  | cons x xs ih =>
    cases hx : runToken s x c with
    | error e => rw [runTokens_error xs hx] at h; cases h
    | ok c' =>
      rw [runTokens_ok xs hx] at h
      rw [List.cons_append, runTokens_ok _ hx, ih h]

theorem runTokens_append_error {s : State} {xs : List Token} {c : Coder} {e : CmdError × Coder} (ys : List Token)
    (h : runTokens s xs c = .error e) : runTokens s (xs ++ ys) c = .error e := by
  induction xs generalizing c with
  | nil => cases h
  | cons x xs ih =>
    cases hx : runToken s x c with
    | error e' => rw [runTokens_error xs hx] at h; rw [List.cons_append, runTokens_error _ hx, h]
    | ok c' =>
      rw [runTokens_ok xs hx] at h
      rw [List.cons_append, runTokens_ok _ hx, ih h]

theorem runTokens_cons (s : State) (x : Token) (xs : List Token) (c : Coder) :
    runTokens s (x :: xs) c = match runToken s x c with
      | .error e => .error e
      | .ok d => runTokens s xs d := rfl

/-! ## The coder runs the items of its blocks -/

theorem emitZrls_eq (s : State) (t n : Nat) (c : Coder) :
    emitZrls s t n c = runTokens s (List.replicate n (.code t 0xF0)) c := by
  induction n generalizing c with
  | zero => rfl
  | succ n ih =>
    rw [List.replicate_succ, emitZrls]
    cases h : emit s t 0xF0 c with
    | error e => rw [runTokens_error (x := .code t 0xF0) _ h]
    | ok d => rw [runTokens_ok (x := .code t 0xF0) _ h, ← ih]

theorem acNonzero_eq (s : State) (t r : Nat) (v : Int) (c : Coder) :
    acNonzero s t r v c = runTokens s (List.replicate (r / 16) (.code t 0xF0) ++
      (if 15 < magSize v then [.tooLong t (magSize v)] else [.code t (16 * (r % 16) + magSize v), .magnitude v])) c := by
  rw [acNonzero, emitZrls_eq]
  cases h : runTokens s (List.replicate (r / 16) (.code t 0xF0)) c with
  | error e => rw [runTokens_append_error _ h]
  | ok d =>
    rw [runTokens_append_ok _ h]
    by_cases hv : 15 < magSize v
    · simp only [hv, if_true]
      rfl
    · simp only [hv, if_false]
      cases he : emit s t (16 * (r % 16) + magSize v) d with
      | error e => rw [runTokens_error (x := .code t _) _ he]
      | ok d' =>
        rw [runTokens_ok (x := .code t _) _ he, runTokens_cons]
        simp only [runToken]
        cases putMag s v d' <;> rfl

/-- The AC walk runs the items of its coefficients (R135). -/
theorem acWalk_eq (s : State) (t : Nat) (vs : List Int) (r : Nat) (c : Coder) :
    acWalk s t vs r c = runTokens s (acTokens t vs r) c := by
  induction vs generalizing r c with
  | nil =>
    rw [acWalk, acTokens]
    split
    · rw [runTokens_cons]
      simp only [runToken]
      cases emit s t 0 c <;> rfl
    · rfl
  | cons v vs ih =>
    rw [acWalk, acTokens]
    split
    · exact ih _ _
    · rw [← List.append_assoc, acNonzero_eq]
      cases h : runTokens s (List.replicate (r / 16) (.code t 0xF0) ++
          (if 15 < magSize v then [.tooLong t (magSize v)] else [.code t (16 * (r % 16) + magSize v), .magnitude v])) c with
      | error e => rw [runTokens_append_error _ h]
      | ok d => rw [runTokens_append_ok _ h]; exact ih _ _

/-- A block whose component's last_dc is the DC of the block before it runs its items (R136). -/
theorem encodeBlock_eq {s : State} {b : Nat} {c : Coder}
    (h : s.blk .scanBlock b 0 - c.lastDc (blockComp b) = dcDiff s b) :
    encodeBlock s (s.block .scanBlock b) (blockComp b) (dcTable b) (acTable b) c = runTokens s (blockTokens s b) c := by
  have h0 : (s.block .scanBlock b).getD 0 0 = s.blk .scanBlock b 0 := by simp [State.block]
  rw [encodeBlock, dcStep, h0, h, blockTokens, List.cons_append, runTokens_cons]
  simp only [runToken]
  cases emit s (dcTable b) (magSize (dcDiff s b)) c with
  | error e => rfl
  | ok c1 =>
    simp only
    rw [List.cons_append, runTokens_cons]
    simp only [runToken]
    cases putMag s (dcDiff s b) c1 with
    | error e => rfl
    | ok c2 => exact acWalk_eq _ _ _ _ _

/-! ## last_dc -/

theorem emitByte_sameDc (cap : Nat) (x : Byte) (c : Coder) :
    (∀ d, emitByte cap x c = .ok d → SameDc c d) ∧ ∀ e, emitByte cap x c = .error e → SameDc c e.2 := by
  unfold emitByte append
  by_cases h1 : c.count = cap
  · simp only [h1, if_true]
    exact ⟨fun d hd => (by cases hd), fun e he => (by cases he; exact SameDc.refl c)⟩
  · simp only [h1, if_false]
    by_cases hx : x = 0xFF
    · simp only [hx, if_true]
      by_cases h2 : c.count + 1 = cap
      · simp only [h2, if_true]
        exact ⟨fun d hd => (by cases hd), fun e he => (by cases he; exact ⟨rfl, rfl, rfl⟩)⟩
      · simp only [h2, if_false]
        exact ⟨fun d hd => (by cases hd; exact ⟨rfl, rfl, rfl⟩), fun e he => (by cases he)⟩
    · simp only [hx, if_false]
      exact ⟨fun d hd => (by cases hd; exact ⟨rfl, rfl, rfl⟩), fun e he => (by cases he)⟩

theorem drain_sameDc (cap n : Nat) (c : Coder) :
    (∀ d, drain cap n c = .ok d → SameDc c d) ∧ ∀ e, drain cap n c = .error e → SameDc c e.2 := by
  induction n generalizing c with
  | zero => exact ⟨fun d hd => (by cases hd; exact SameDc.refl c), fun e he => (by cases he)⟩
  | succ n ih =>
    rw [drain]
    generalize hc1 : ({ c with bits := c.bits - 8, buffer := c.buffer % 2 ^ (c.bits - 8) } : Coder) = c1
    have h1 : SameDc c c1 := by rw [← hc1]; exact ⟨rfl, rfl, rfl⟩
    obtain ⟨hok, herr⟩ := emitByte_sameDc cap (BitVec.ofNat 8 (c.buffer >>> (c.bits - 8))) c1
    cases hb : emitByte cap (BitVec.ofNat 8 (c.buffer >>> (c.bits - 8))) c1 with
    | error e => exact ⟨fun d hd => (by cases hd), fun e' he => (by cases he; exact h1.trans (herr _ hb))⟩
    | ok c2 =>
      have h2 := h1.trans (hok _ hb)
      exact ⟨fun d hd => h2.trans ((ih c2).1 d hd), fun e he => h2.trans ((ih c2).2 e he)⟩

/-- PUT_BITS leaves last_dc alone. -/
theorem putBits_sameDc {cap code size : Nat} {c d : Coder} (h : putBits cap code size c = .ok d) : SameDc c d := by
  have := (drain_sameDc cap _ _).1 d h
  exact ⟨this.dc0, this.dc1, this.dc2⟩

theorem SameDc.lastDc {c d : Coder} (h : SameDc c d) (comp : Nat) : d.lastDc comp = c.lastDc comp := by
  unfold Coder.lastDc
  split
  · exact h.dc0
  · exact h.dc1
  · exact h.dc2

theorem setLastDc_lastDc (c : Coder) (v : Int) {comp comp' : Nat} (h : comp < 3) (h' : comp' < 3) :
    (c.setLastDc comp' v).lastDc comp = if comp' = comp then v else c.lastDc comp := by
  have : comp = 0 ∨ comp = 1 ∨ comp = 2 := by omega
  have : comp' = 0 ∨ comp' = 1 ∨ comp' = 2 := by omega
  rcases ‹comp = 0 ∨ _› with rfl | rfl | rfl <;> rcases ‹comp' = 0 ∨ _› with rfl | rfl | rfl <;> rfl

/-- Every component an item predicts is one of the three. -/
def Token.Comp : Token → Prop
  | .predict c _ => c < 3
  | .code _ _ => True
  | .magnitude _ => True
  | .tooLong _ _ => True

theorem emit_sameDc {s : State} {t sym : Nat} {c d : Coder} (h : emit s t sym c = .ok d) : SameDc c d := by
  simp only [emit] at h
  split at h
  · cases h
  · have := putBits_sameDc h
    exact ⟨this.dc0, this.dc1, this.dc2⟩

theorem putMag_sameDc {s : State} {v : Int} {c d : Coder} (h : putMag s v c = .ok d) : SameDc c d := by
  simp only [putMag] at h
  split at h
  · cases h; exact SameDc.refl c
  · exact putBits_sameDc h

/-- Items that complete leave the DC they predict last in last_dc. -/
theorem runTokens_lastDc {s : State} {xs : List Token} {c d : Coder} (hw : ∀ x ∈ xs, x.Comp) (h : runTokens s xs c = .ok d)
    {comp : Nat} (hc : comp < 3) : d.lastDc comp = xs.foldl (Token.predicted comp) (c.lastDc comp) := by
  induction xs generalizing c with
  | nil => cases h; rfl
  | cons x xs ih =>
    cases hx : runToken s x c with
    | error e => rw [runTokens_error xs hx] at h; cases h
    | ok c' =>
      rw [runTokens_ok xs hx] at h
      rw [ih (fun y hy => hw y (List.mem_cons_of_mem _ hy)) h, List.foldl_cons]
      congr 1
      cases x with
      | code t sym => exact (emit_sameDc hx).lastDc comp
      | magnitude v => exact (putMag_sameDc hx).lastDc comp
      | predict comp' v =>
        cases hx
        exact setLastDc_lastDc c v hc (hw _ (List.mem_cons_self ..) : comp' < 3)
      | tooLong t n => cases hx

/-! ## The scan runs its items -/

theorem blockComp_lt (b : Nat) : blockComp b < 3 := by unfold blockComp blockPlace; split <;> omega

/-- A property of the items of the AC step that holds of each kind of them. -/
theorem acTokens_forall {P : Token → Prop} {t : Nat} {vs : List Int} {r : Nat} (hc : ∀ sym, sym < 256 → P (.code t sym))
    (hv : ∀ v ∈ vs, v ≠ 0 → if 15 < magSize v then P (.tooLong t (magSize v)) else P (.magnitude v)) :
    ∀ x ∈ acTokens t vs r, P x := by
  induction vs generalizing r with
  | nil =>
    intro x hx
    rw [acTokens] at hx
    split at hx
    · rw [List.mem_singleton.1 hx]; exact hc 0 (by omega)
    · cases hx
  | cons v vs ih =>
    intro x hx
    have ih' := fun r => ih (r := r) fun w hw => hv w (List.mem_cons_of_mem _ hw)
    rw [acTokens] at hx
    split at hx
    · exact ih' _ x hx
    · rename_i hv0
      have h := hv v (List.mem_cons_self ..) hv0
      rcases List.mem_append.1 hx with hx | hx
      · rw [List.eq_of_mem_replicate hx]; exact hc 0xF0 (by omega)
      · rcases List.mem_append.1 hx with hx | hx
        · split at hx
          · rw [if_pos ‹_›] at h; rw [List.mem_singleton.1 hx]; exact h
          · rw [if_neg ‹_›] at h
            rcases List.mem_cons.1 hx with hx | hx
            · rw [hx]; exact hc _ (by omega)
            · rw [List.mem_singleton.1 hx]; exact h
        · exact ih' _ x hx

theorem acTokens_comp (t : Nat) (vs : List Int) (r : Nat) : ∀ x ∈ acTokens t vs r, x.Comp :=
  acTokens_forall (fun _ _ => trivial) fun v _ _ => by split <;> trivial

theorem acTokens_predicted (comp t : Nat) (vs : List Int) (r : Nat) (d : Int) :
    (acTokens t vs r).foldl (Token.predicted comp) d = d := by
  have h : ∀ xs : List Token, (∀ x ∈ xs, ∀ d, Token.predicted comp d x = d) → xs.foldl (Token.predicted comp) d = d := by
    intro xs
    induction xs with
    | nil => intro _; rfl
    | cons x xs ih =>
      intro hx
      rw [List.foldl_cons, hx x (List.mem_cons_self ..), ih fun y hy => hx y (List.mem_cons_of_mem _ hy)]
  exact h _ (acTokens_forall (fun _ _ _ => rfl) fun v _ _ => by split <;> exact fun _ => rfl)

theorem blockTokens_comp (s : State) (b : Nat) : ∀ x ∈ blockTokens s b, x.Comp := by
  intro x hx
  rw [blockTokens] at hx
  rcases List.mem_append.1 hx with hx | hx
  · simp only [List.mem_cons, List.not_mem_nil, or_false] at hx
    rcases hx with rfl | rfl | rfl
    · trivial
    · trivial
    · exact blockComp_lt b
  · exact acTokens_comp _ _ _ x hx

theorem blockTokens_predicted (s : State) (comp b : Nat) (d : Int) :
    (blockTokens s b).foldl (Token.predicted comp) d = if blockComp b = comp then s.blk .scanBlock b 0 else d := by
  rw [blockTokens, List.foldl_append, acTokens_predicted]
  rfl

/-- The DC of the last block of a component before block `b`, or 0 (R134, R139). -/
def dcBefore (s : State) (comp : Nat) : Nat → Int
  | 0 => 0
  | b + 1 => if blockComp b = comp then s.blk .scanBlock b 0 else dcBefore s comp b

theorem dcBefore_step (s : State) {comp b : Nat} (h : blockComp b = comp) : dcBefore s comp (b + 1) = s.blk .scanBlock b 0 := by
  rw [dcBefore, if_pos h]

theorem dcBefore_skip (s : State) {comp b : Nat} (h : blockComp b ≠ comp) : dcBefore s comp (b + 1) = dcBefore s comp b := by
  rw [dcBefore, if_neg h]

theorem dcDiff_eq (s : State) (b : Nat) : dcDiff s b = s.blk .scanBlock b 0 - dcBefore s (blockComp b) b := by
  rw [dcDiff]
  congr 1
  obtain ⟨m, k, hk, rfl⟩ : ∃ m k, k < 6 ∧ b = 6 * m + k := ⟨b / 6, b % 6, by omega, by omega⟩
  have hcomp : ∀ m k, k < 6 → blockComp (6 * m + k) = if k < 4 then 0 else k - 3 := by
    intro m k hk
    rw [blockComp, blockPlace_mul_add hk]
  have hmod : (6 * m + k) % 6 = k := by omega
  have hk' : k = 0 ∨ k = 1 ∨ k = 2 ∨ k = 3 ∨ k = 4 ∨ k = 5 := by omega
  cases m with
  | zero =>
    have hp : prevBlock (6 * 0 + k) = if 1 ≤ k ∧ k ≤ 3 then some (6 * 0 + k - 1) else none := by
      rw [prevBlock, hmod]
      split
      · rfl
      · rw [if_pos (by omega)]
    rw [hp]
    rcases hk' with rfl | rfl | rfl | rfl | rfl | rfl <;> rfl
  | succ m =>
    have hp : prevBlock (6 * (m + 1) + k) =
        some (if 1 ≤ k ∧ k ≤ 3 then 6 * (m + 1) + k - 1 else if k = 0 then 6 * m + 3 else 6 * m + k) := by
      rw [prevBlock, hmod]
      split
      · rfl
      · rw [if_neg (by omega)]
        split <;> congr 1 <;> omega
    rw [hp, hcomp _ _ hk]
    have hc : ∀ j, j < 6 → blockComp (6 * m + j) = if j < 4 then 0 else j - 3 := fun j hj => hcomp m j hj
    have hc1 : ∀ j, j < 6 → blockComp (6 * m + 6 + j) = if j < 4 then 0 else j - 3 := fun j hj => by
      rw [show 6 * m + 6 + j = 6 * (m + 1) + j by ring, hcomp _ _ hj]
    rw [show 6 * (m + 1) + k = 6 * m + 6 + k by ring]
    have d : ∀ comp j, j < 6 → dcBefore s comp (6 * m + j + 1) =
        if (if j < 4 then 0 else j - 3) = comp then s.blk .scanBlock (6 * m + j) 0 else dcBefore s comp (6 * m + j) := by
      intro comp j hj
      rw [dcBefore, hc j hj]
    have d1 : ∀ comp j, j < 6 → dcBefore s comp (6 * m + 6 + j + 1) =
        if (if j < 4 then 0 else j - 3) = comp then s.blk .scanBlock (6 * m + 6 + j) 0 else dcBefore s comp (6 * m + 6 + j) := by
      intro comp j hj
      rw [dcBefore, hc1 j hj]
    have e : ∀ comp, dcBefore s comp (6 * m + 6 + 0) = dcBefore s comp (6 * m + 5 + 1) := fun _ => rfl
    rcases hk' with rfl | rfl | rfl | rfl | rfl | rfl
    · simp [e, d]
    · simp [d1 0 0]
    · simp [d1 0 1]
    · simp [d1 0 2]
    · simp [d1 1 3, d1 1 2, d1 1 1, d1 1 0, e, d 1 5, d 1 4]
    · simp [d1 2 4, d1 2 3, d1 2 2, d1 2 1, d1 2 0, e, d 2 5]

/-- The blocks from `b` on, in states whose last_dc is that of the blocks before, run their items. -/
theorem encodeBlocks_eq (s : State) (n : Nat) : ∀ (b : Nat) (c : Coder), (∀ comp, comp < 3 → c.lastDc comp = dcBefore s comp b) →
    encodeBlocks s (List.range' b n) c = runTokens s ((List.range' b n).flatMap (blockTokens s)) c := by
  induction n with
  | zero => intro b c _; rfl
  | succ n ih =>
    intro b c hc
    rw [List.range'_succ, encodeBlocks, encodeBlock_eq (by rw [hc _ (blockComp_lt b), dcDiff_eq]), List.flatMap_cons]
    cases h : runTokens s (blockTokens s b) c with
    | error e => rw [runTokens_append_error _ h]
    | ok d =>
      rw [runTokens_append_ok _ h]
      refine ih (b + 1) d fun comp hcomp => ?_
      rw [runTokens_lastDc (blockTokens_comp s b) h hcomp, blockTokens_predicted, dcBefore, hc comp hcomp]

/-- The scan runs its items and then flushes (R138). -/
theorem scan_eq (s : State) : s.scan =
    match runTokens s (scanTokens s) Coder.fresh with
    | .error e => .error e
    | .ok c => flush s.params.outCap c := by
  rw [State.scan, List.range_eq_range', encodeBlocks_eq s _ 0 Coder.fresh, ← List.range_eq_range']
  · rfl
  · intro comp hcomp
    have : comp = 0 ∨ comp = 1 ∨ comp = 2 := by omega
    rcases this with rfl | rfl | rfl <;> rfl

/-! ## What items do to the bit buffer and OUT -/

/-- The coder has taken the bits `bs`: whole bytes stand stuffed in OUT, and the rest in the drained buffer. -/
structure Taken (cap : Nat) (c : Coder) (bs : List Bool) : Prop where
  fits : Fits cap c
  bits : c.bits ≤ 7
  buffer : c.buffer < 2 ^ c.bits
  stream : ∃ ys, c.out.reverse = stuffBytes ys ∧ bs = bytesBits ys ++ msbBits c.bits c.buffer

/-- The whole bytes of the bits `bs`, stuffed, are more than OUT has room for. -/
def Overfull (cap : Nat) (bs : List Bool) : Prop := ∃ ys rest, bs = bytesBits ys ++ rest ∧ cap < (stuffBytes ys).length

theorem Overfull.append {cap : Nat} {bs : List Bool} (h : Overfull cap bs) (more : List Bool) : Overfull cap (bs ++ more) := by
  obtain ⟨ys, rest, rfl, hlt⟩ := h
  exact ⟨ys, rest ++ more, by rw [List.append_assoc], hlt⟩

theorem bytesBits_length (ys : List Byte) : (bytesBits ys).length = 8 * ys.length := by
  induction ys with
  | nil => rfl
  | cons y ys ih =>
    rw [show bytesBits (y :: ys) = msbBits 8 y.toNat ++ bytesBits ys from rfl, List.length_append, msbBits_length, ih,
      List.length_cons]
    omega

/-- Overfull bits have emitted more bytes than OUT has room for. -/
theorem Overfull.emitted {cap : Nat} {bs : List Bool} (h : Overfull cap bs) : cap < (emittedBytes bs).length := by
  obtain ⟨ys, rest, rfl, hlt⟩ := h
  have hlen : 8 * ys.length ≤ (bytesBits ys ++ rest).length / 8 * 8 := by
    rw [List.length_append, bytesBits_length]
    omega
  rw [emittedBytes, List.take_append, List.take_of_length_le (by rwa [bytesBits_length]), packBits_bytes, stuffBytes_append,
    List.length_append]
  omega

theorem fresh_taken (cap : Nat) : Taken cap Coder.fresh [] :=
  ⟨⟨rfl, Nat.zero_le _⟩, Nat.zero_le _, Nat.one_pos, [], rfl, rfl⟩

theorem Taken.emissions {cap : Nat} {c : Coder} {bs : List Bool} (h : Taken cap c bs) (n : Nat) :
    Taken cap { c with emissions := n } bs := ⟨⟨h.fits.count, h.fits.le⟩, h.bits, h.buffer, h.stream⟩

theorem Taken.setLastDc {cap : Nat} {c : Coder} {bs : List Bool} (h : Taken cap c bs) (comp : Nat) (v : Int) :
    Taken cap (c.setLastDc comp v) bs := by
  unfold Coder.setLastDc
  split <;> exact ⟨⟨h.fits.count, h.fits.le⟩, h.bits, h.buffer, h.stream⟩

/-- PUT_BITS takes its bits, or ends with IoFailure where their whole bytes do not fit OUT (R131, R132, R161). -/
theorem putBits_taken {cap code size : Nat} {c : Coder} {bs : List Bool} (h : Taken cap c bs) (hcode : code < 2 ^ size) :
    (∀ d, putBits cap code size c = .ok d → Taken cap d (bs ++ msbBits size code)) ∧
    ∀ e, putBits cap code size c = .error e → e.1 = .ioFailure ∧ Overfull cap (bs ++ msbBits size code) := by
  obtain ⟨hok, herr, -⟩ := putBits_spec h.fits hcode
  obtain ⟨ys, hout, rfl⟩ := h.stream
  refine ⟨fun d hd => ?_, fun e he => ?_⟩
  · obtain ⟨g1, -, -, g4, g5, xs, g6, g7⟩ := hok d hd
    refine ⟨g1, g4, g5 h.buffer, ys ++ xs, by rw [g6, hout, stuffBytes_append], ?_⟩
    rw [List.append_assoc, g7, bytesBits, bytesBits, bytesBits, List.flatMap_append, List.append_assoc]
  · obtain ⟨g1, -, xs, rest, g3, g4⟩ := herr e he
    refine ⟨g1, ys ++ xs, rest, ?_, ?_⟩
    · rw [List.append_assoc, g3, bytesBits, bytesBits, bytesBits, List.flatMap_append, List.append_assoc]
    · rw [stuffBytes_append, List.length_append, ← hout, List.length_reverse]
      exact g4

/-- The magnitude bits fit their number (R129). -/
theorem magBits_lt (v : Int) : magBits v < 2 ^ magSize v := by
  have hp : (0 : Int) < 2 ^ magSize v := by positivity
  have key : ∀ x : Int, (x % 2 ^ magSize v).toNat < 2 ^ magSize v := by
    intro x
    have h1 := Int.emod_lt_of_pos x hp
    have h2 := Int.emod_nonneg x (ne_of_gt hp)
    zify
    rw [Int.toNat_of_nonneg h2]
    exact h1
  rw [magBits]
  split <;> exact key _

/-- Every read of EHUF finds the same entries, and every code fits its size: so it is where EHUF is filled by BUILD_HUFF
(`Vouched`). -/
structure FixedCodes (s : State) : Prop where
  entry : ∀ site t sym, t < 4 → sym < 256 → s.ehufEntry site t sym = s.ehufEntry .port t sym
  proper : ∀ t sym, t < 4 → sym < 256 → entryCode (s.ehufEntry .port t sym) < 2 ^ entrySize (s.ehufEntry .port t sym)

theorem byte_site {s : State} {r : Ram} {lo hi off : Nat} (h : Filled s r lo hi) (h1 : lo ≤ off) (h2 : off < hi) (site : Site) :
    s.byte site r off = s.byte .port r off := by
  obtain ⟨b, hb⟩ := Option.isSome_iff_exists.1 (h off h1 h2)
  rw [byte_of_read site hb, byte_of_read .port hb]

theorem Vouched.fixedCodes {s : State} (h : Vouched s) (hh : ∀ t, t < 4 → s.valid.huff t = true) : FixedCodes s where
  entry := by
    intro site t sym ht hsym
    have hf := (h.huff t ht (hh t ht)).1
    simp only [State.ehufEntry, State.bytes]
    have hb : ∀ j ∈ List.range 4, s.byte site .ehuf (ehufOff t sym + j) = s.byte .port .ehuf (ehufOff t sym + j) := by
      intro j hj
      have := List.mem_range.1 hj
      exact byte_site hf (by simp only [ehufOff]; omega) (by simp only [ehufOff]; omega) site
    rw [List.map_congr_left hb]
  proper := fun t sym ht hsym => ((h.huff t ht (hh t ht)).2 .port sym hsym).2

/-- The item names a table and a symbol that EHUF has. -/
def Token.InRange : Token → Prop
  | .code t sym => t < 4 ∧ sym < 256
  | .magnitude _ => True
  | .predict _ _ => True
  | .tooLong _ _ => True

/-- An item that can be coded takes its bits, or ends with IoFailure where their whole bytes do not fit OUT. -/
theorem runToken_taken {s : State} (hs : FixedCodes s) {x : Token} (hr : x.InRange) (hx : x.Codable s) {c : Coder}
    {bs : List Bool} (h : Taken s.params.outCap c bs) :
    (∀ d, runToken s x c = .ok d → Taken s.params.outCap d (bs ++ tokenBits s x)) ∧
    ∀ e, runToken s x c = .error e → e.1 = .ioFailure ∧ Overfull s.params.outCap (bs ++ tokenBits s x) := by
  cases x with
  | code t sym =>
    simp only [runToken, emit, hs.entry _ t sym hr.1 hr.2, tokenBits, codeBits]
    rw [if_neg hx]
    exact putBits_taken (h.emissions _) (hs.proper t sym hr.1 hr.2)
  | magnitude v =>
    simp only [runToken, putMag, tokenBits, magnitudeBits]
    by_cases h0 : magSize v = 0
    · rw [if_pos h0, h0, msbBits, List.append_nil]
      exact ⟨fun d hd => (by cases hd; exact h), fun e he => (by cases he)⟩
    · rw [if_neg h0]
      exact putBits_taken h (magBits_lt v)
  | predict comp v =>
    simp only [runToken, tokenBits, List.append_nil]
    exact ⟨fun d hd => (by cases hd; exact h.setLastDc comp v), fun e he => (by cases he)⟩
  | tooLong t n => exact absurd hx id

/-- Items that can be coded take their bits, or end with IoFailure where their whole bytes do not fit OUT. -/
theorem runTokens_taken {s : State} (hs : FixedCodes s) {xs : List Token} (hxs : ∀ x ∈ xs, x.InRange ∧ x.Codable s) {c : Coder}
    {bs : List Bool} (h : Taken s.params.outCap c bs) :
    (∀ d, runTokens s xs c = .ok d → Taken s.params.outCap d (bs ++ tokensBits s xs)) ∧
    ∀ e, runTokens s xs c = .error e → e.1 = .ioFailure ∧ Overfull s.params.outCap (bs ++ tokensBits s xs) := by
  induction xs generalizing c bs with
  | nil =>
    simp only [runTokens_nil, tokensBits, List.flatMap_nil, List.append_nil]
    exact ⟨fun d hd => (by cases hd; exact h), fun e he => (by cases he)⟩
  | cons x xs ih =>
    have hx := hxs x (List.mem_cons_self ..)
    obtain ⟨hok, herr⟩ := runToken_taken hs hx.1 hx.2 h
    rw [show tokensBits s (x :: xs) = tokenBits s x ++ tokensBits s xs from rfl, ← List.append_assoc]
    cases hc : runToken s x c with
    | error e =>
      rw [runTokens_error xs hc]
      refine ⟨fun d hd => (by cases hd), fun e' he => ?_⟩
      cases he
      exact ⟨(herr e hc).1, (herr e hc).2.append _⟩
    | ok d =>
      rw [runTokens_ok xs hc]
      exact ih (fun y hy => hxs y (List.mem_cons_of_mem _ hy)) (hok d hc)

/-- Items that can be coded and whose bytes fit OUT complete. -/
theorem runTokens_fit {s : State} (hs : FixedCodes s) {xs : List Token} (hxs : ∀ x ∈ xs, x.InRange ∧ x.Codable s)
    (hfit : (emittedBytes (tokensBits s xs)).length ≤ s.params.outCap) :
    ∃ d, runTokens s xs Coder.fresh = .ok d ∧ Taken s.params.outCap d (tokensBits s xs) := by
  obtain ⟨hok, herr⟩ := runTokens_taken hs hxs (fresh_taken s.params.outCap)
  cases h : runTokens s xs Coder.fresh with
  | error e => exact absurd (herr e h).2.emitted (by rw [List.nil_append]; omega)
  | ok d => exact ⟨d, rfl, by simpa using hok d h⟩

/-! ## The items of a scan -/

/-- bitlen(v) is the least n with v < 2^n (R18). -/
theorem bitlen_le_iff (v n : Nat) : bitlen v ≤ n ↔ v < 2 ^ n := by
  rw [bitlen]
  split
  · rename_i h
    subst h
    exact ⟨fun _ => by positivity, fun _ => Nat.zero_le _⟩
  · rename_i h
    rw [← Nat.log2_lt h]
    exact Iff.rfl

theorem blk_range (s : State) (site : Site) (b i : Nat) : -32768 ≤ s.blk site b i ∧ s.blk site b i < 32768 := by
  rw [State.blk]
  have h1 := BitVec.le_toInt (BitVec.ofNat 16 (fromLe (s.bytes site .blk (blkOff b i) 2)))
  have h2 := BitVec.toInt_lt (x := BitVec.ofNat 16 (fromLe (s.bytes site .blk (blkOff b i) 2)))
  norm_num at h1 h2
  exact ⟨h1, h2⟩

theorem magSize_dcDiff (s : State) (b : Nat) : magSize (dcDiff s b) ≤ 16 := by
  rw [magSize, bitlen_le_iff, dcDiff]
  have h0 := blk_range s .scanBlock b 0
  cases prevBlock b with
  | none => simp only [Option.map_none, Option.getD_none]; omega
  | some p =>
    have hp := blk_range s .scanBlock p 0
    simp only [Option.map_some, Option.getD_some]
    omega

/-- The items of a scan name tables and symbols that EHUF has. -/
theorem scanTokens_inRange (s : State) : ∀ x ∈ scanTokens s, x.InRange := by
  intro x hx
  obtain ⟨b, -, hx⟩ := List.mem_flatMap.1 hx
  have ht : dcTable b < 4 ∧ acTable b < 4 := by
    simp only [dcTable, acTable]
    constructor <;> split <;> omega
  rcases List.mem_append.1 hx with hx | hx
  · simp only [List.mem_cons, List.not_mem_nil, or_false] at hx
    rcases hx with rfl | rfl | rfl
    · exact ⟨ht.1, by have := magSize_dcDiff s b; omega⟩
    · trivial
    · trivial
  · exact acTokens_forall (P := Token.InRange) (fun _ h => ⟨ht.2, h⟩) (fun v _ _ => by split <;> trivial) x hx

theorem scanTokens_comp (s : State) : ∀ x ∈ scanTokens s, x.Comp := by
  intro x hx
  obtain ⟨b, -, hx⟩ := List.mem_flatMap.1 hx
  exact blockTokens_comp s b x hx

/-- ENCODE_SCAN whose items up to `x` can be coded and fit OUT, and whose item `x` raises an error, ends with that error
and with last_dc as the items before left it (R138). -/
theorem scan_raises {s : State} (hs : FixedCodes s) {pre post : List Token} {x : Token} {e : CmdError}
    (hsplit : scanTokens s = pre ++ x :: post) (hpre : ∀ y ∈ pre, y.Codable s)
    (hfit : (emittedBytes (tokensBits s pre)).length ≤ s.params.outCap) (hx : ∀ c, runToken s x c = .error (e, c)) :
    ∃ c, s.scan = .error (e, c) ∧ ∀ comp, comp < 3 → c.lastDc comp = lastPredicted comp pre := by
  have hmem : ∀ y ∈ pre, y ∈ scanTokens s := fun y hy => by rw [hsplit]; exact List.mem_append_left _ hy
  obtain ⟨d, hd, -⟩ := runTokens_fit hs (fun y hy => ⟨scanTokens_inRange s y (hmem y hy), hpre y hy⟩) hfit
  refine ⟨d, ?_, fun comp hc => ?_⟩
  · rw [scan_eq, hsplit, runTokens_append_ok _ hd, runTokens_error _ (hx d)]
  · rw [runTokens_lastDc (fun y hy => scanTokens_comp s y (hmem y hy)) hd hc]
    have : comp = 0 ∨ comp = 1 ∨ comp = 2 := by omega
    rcases this with rfl | rfl | rfl <;> rfl

end Sys2Proof.Machine
end

