-- ==== Sys2Proof/Tests/Slice0.lean ====
section
/-! SUPPORT. Tests of the model, with values from spec/95_test_vectors.md and from the encodings of spec/30_encoding.md,
and for every statement of Certificates/Slice0/Obligations.lean that has hypotheses a state that meets them. -/

namespace Sys2Proof.Tests

open Sys2Proof Sys2Proof.Machine

/-! ## States -/

/-- A small core after reset. -/
def base : State := State.resetWith ⟨16, 16, 64, .reference⟩

/-- `s` with one event to come. -/
def withEvent (s : State) (e : Event) : State := { s with events := [e] }

/-- `s` with one transaction to come. -/
def withHost (s : State) (t : Txn) : State := withEvent s (.host t)

/-- `s` with a W × H image. -/
def sized (s : State) (w h : Half) : State := { s with width := w, height := h }

/-- What a step leaves, if it answers a next state. -/
def after {α : Type} (s : State) (f : State → α) : Option α :=
  match step s with
  | .next t => some (f t)
  | .fault _ => none
  | .refused _ => none

/-- What an operation leaves, if it answers a next state. -/
def afterExec {α : Type} (i : Instr) (s : State) (f : State → α) : Option α :=
  match exec i s with
  | .next t => some (f t)
  | .fault _ => none
  | .refused _ => none

/-- STATUS as a number. -/
def statusWord (s : State) : Nat := s.status.toWord.toNat

/-- VALID as a number. -/
def validWord (s : State) : Nat := s.valid.toWord.toNat

/-- All flags that FDCT_QUANT or ENCODE_SCAN need. -/
def ready : Valid := ⟨true, true, true, true, true, true, false, false, true, false⟩

/-- All flags that FDCT_QUANT needs. -/
def sampled : Valid := ⟨true, true, true, true, true, true, true, true, false, false⟩

/-! ## WellFormed -/

theorem test_wellFormed_refuses_softReset_without_bit0 : (Instr.softReset 0).wellFormed = false := by decide
theorem test_wellFormed_refuses_softReset_of_res_bits : (Instr.softReset 0xFFFFFFFE).wellFormed = false := by decide
theorem test_wellFormed_accepts_softReset : (Instr.softReset 1).wellFormed = true := by decide

/-! ## Decoding: every operation's word, bit by bit (R78, R80, R154) -/

theorem test_decode_nop : decodeCommand 0b00000000000000000000000000000000 = .ok .nop := by decide
theorem test_decode_buildQtables : decodeCommand 0b00000000000000000000000000000001 = .ok .buildQtables := by decide
theorem test_decode_buildHuff : decodeCommand 0b00000000000000000000001100000010 = .ok (.buildHuff 3) := by decide
theorem test_decode_initTables : decodeCommand 0b00000000000000000000000000000011 = .ok .initTables := by decide
theorem test_decode_colorConvert : decodeCommand 0b00000000000000000000000000010000 = .ok .colorConvert := by decide
theorem test_decode_extractLuma : decodeCommand 0b00000000000000000000000000010001 = .ok .extractLuma := by decide
theorem test_decode_extractChroma : decodeCommand 0b00000000000000000000000000010010 = .ok .extractChroma := by decide
theorem test_decode_edgeDcFixup : decodeCommand 0b00000000000000000000000000010011 = .ok .edgeDcFixup := by decide
theorem test_decode_zeroRight : decodeCommand 0b00000000000000000000000000010100 = .ok .zeroRight := by decide
theorem test_decode_zeroBottom : decodeCommand 0b00000000000000000000000000010101 = .ok .zeroBottom := by decide
theorem test_decode_fdctQuant : decodeCommand 0b00000000000000000000000000011000 = .ok .fdctQuant := by decide
theorem test_decode_encodeScan : decodeCommand 0b00000000000000000000000000100000 = .ok .encodeScan := by decide
theorem test_decode_encodeImage : decodeCommand 0b00000000000000000000000000110000 = .ok .encodeImage := by decide
theorem test_decode_softReset :
    decodePort .ctrl 0b00000000000000000000000000000001 = .ok (.softReset 1) := by decide

/-- The illegal words of vector L1. -/
theorem test_decode_illegal :
    decodeCommand 0x00000004 = .error .unassignedOp ∧ decodeCommand 0x000000FF = .error .unassignedOp ∧
    decodeCommand 0x00000100 = .error .selectorNotAllowed ∧ decodeCommand 0x00000101 = .error .selectorNotAllowed ∧
    decodeCommand 0x00000400 = .error .reservedBits ∧ decodeCommand 0x80000030 = .error .reservedBits := by decide

/-! ## One step per operation -/

/-- I14: `RUN NOP` gives STATUS 0x00000002. -/
theorem test_nop : after (base.latch 0x00) statusWord = some 0x00000002 := by decide

/-- B6 and B13: QTBL and DIV after QUALITY.Q = 75. -/
theorem test_buildQtables :
    afterExec .buildQtables { base with quality := 75 } (fun t =>
      ((List.range 4).map fun i => (t.qtbl .port 0 i).toNat,
        (t.divWord .port 0 0 0).toNat, (t.divWord .port 0 0 1).toNat, (t.divWord .port 0 1 0).toNat)) =
      some ([8, 6, 5, 8], 0x8000, 0xAAAB, 0x0020) := by decide +kernel

/-- B10: QUALITY.Q = 0 builds the q = 1 tables. -/
theorem test_buildQtables_clamp :
    afterExec .buildQtables { base with quality := 0 } (fun t => ((t.qtbl .port 0 0).toNat, validWord t)) =
      some (255, 1) := by decide +kernel

/-- C1: the DC-luma code of 5 is 110. -/
theorem test_buildHuff :
    afterExec (.buildHuff 0) base (fun t => ((t.ehufEntry .port 0 0).toNat, (t.ehufEntry .port 0 5).toNat)) =
      some (0x00020000, 0x00030006) := by decide +kernel

/-- C6: HBITS[0][1] = 3 over-fills length 1. -/
theorem test_buildHuff_overfull :
    afterExec (.buildHuff 0) { base with mem := base.mem.write .huffSpec 1 [3] }
      (fun t => (t.errInfo.toWord.toNat, validWord t, t.status.errcode.toNat)) = some (0x00002001, 0, 4) := by decide +kernel

/-- I0: INIT_TABLES after reset. -/
theorem test_initTables :
    after (base.latch 0x03) (fun t => (statusWord t, validWord t)) = some (0x00030002, 0x0000001F) := by decide +kernel

/-- D3: (255, 0, 0) gives (76, 85, 255). -/
theorem test_colorConvert :
    afterExec .colorConvert (sized { base with mem := base.mem.write .rgb 0 [255, 0, 0] } 1 1) (fun t =>
      ((t.byte .port .py 0).toNat, (t.byte .port .pcb 0).toNat, (t.byte .port .pcr 0).toNat, validWord t)) =
      some (76, 85, 255, 0x20) := by decide +kernel

/-- W = 0 is InvalidArgs (R163). -/
theorem test_colorConvert_invalidArgs : after (base.latch 0x10) statusWord = some 0x00100106 := by decide

/-- A 1 × 1 image with the planes of vectors E1 and E2. -/
def onePixel : State :=
  sized { base with
    mem := ((base.mem.write .py 0 [76]).write .pcb 0 [85]).write .pcr 0 [255]
    valid := { ready with coef := false } } 1 1

/-- E1: the luma blocks of a 1 × 1 image. -/
theorem test_extractLuma :
    afterExec .extractLuma onePixel (fun t => (t.blk .port 0 0, t.blk .port 0 1, t.blk .port 3 63)) =
      some (76, 0, 0) := by decide +kernel

/-- E2: the chroma blocks of a 1 × 1 image. -/
theorem test_extractChroma :
    afterExec .extractChroma onePixel (fun t => (t.blk .port 4 0, t.blk .port 5 0, t.blk .port 4 1)) =
      some (21, 64, 0) := by decide +kernel

/-- The DCs of vector E6 after FDCT_QUANT: an image of 16 × 8. -/
def sixDcs : State :=
  sized { base with
    mem := (((base.mem.write .blk 0 (toLe 2 0xFFCC)).write .blk 128 (toLe 2 0xFFCC)).write .blk 256
      (toLe 2 0xFF80)).write .blk 384 (toLe 2 0xFF80)
    valid := ready } 16 8

/-- E6: the DC of Y1 is copied to Y2 and Y3. -/
theorem test_edgeDcFixup :
    afterExec .edgeDcFixup sixDcs (fun t => (t.blk .port 0 0, t.blk .port 2 0, t.blk .port 3 0)) =
      some (-52, -52, -52) := by decide +kernel

/-- E5, 16 × 8: ZERO_RIGHT zeroes no block. -/
theorem test_zeroRight_none :
    afterExec .zeroRight sixDcs (fun t => (t.blk .port 1 0, t.blk .port 3 0)) = some (-52, -128) := by decide +kernel

/-- E5, 8 × 8: ZERO_RIGHT zeroes blocks 1 and 3. -/
theorem test_zeroRight :
    afterExec .zeroRight (sized sixDcs 8 8) (fun t => (t.blk .port 0 0, t.blk .port 1 0, t.blk .port 2 0, t.blk .port 3 0)) =
      some (-52, 0, -128, 0) := by decide +kernel

/-- E5, 16 × 8: ZERO_BOTTOM zeroes blocks 2 and 3. -/
theorem test_zeroBottom :
    afterExec .zeroBottom sixDcs (fun t => (t.blk .port 0 0, t.blk .port 1 0, t.blk .port 2 0, t.blk .port 3 0)) =
      some (-52, -52, 0, 0) := by decide +kernel

/-- F8: ties away from zero, and the sign. -/
theorem test_quantize :
    quantize 32 32768 32 5 = 1 ∧ quantize 31 32768 32 5 = 0 ∧ quantize (-32) 32768 32 5 = -1 ∧
    quantize 32768 32768 4 2 = 4096 ∧ quantize (-8192) 32897 1020 10 = -4 ∧ quantize 12 43691 12 4 = 1 := by decide

/-- B12: quads. -/
theorem test_quad :
    quad 24 = ⟨43691, 12, 4096, 4⟩ ∧ quad 56 = ⟨37449, 29, 2048, 5⟩ ∧ quad 64 = ⟨32768, 32, 2048, 5⟩ ∧
    quad 1032 = ⟨65028, 516, 64, 10⟩ := by decide

/-- F4: FDCT_REF of one bright sample. -/
theorem test_fdctRef :
    (fdctRef (127 :: List.replicate 63 0)).take 16 =
      [127, 175, 165, 150, 127, 99, 70, 40, 175, 242, 228, 207, 175, 137, 96, 52] := by decide +kernel

/-- The samples of vector F9: the 1 × 1 red image at q = 75. -/
def redSamples : State :=
  sized { base with
    mem := (base.mem.write .blk 0 (([[76], [0], [0], [0], [21], [64]] : List (List Int)).flatMap fun v =>
      blockBytes (v ++ List.replicate 63 0))).write .div 0 (divBytes 75)
    valid := sampled } 1 1

/-- F9: `R32 0x6000_0000` gives the words 0xFF81 and 2. -/
theorem test_fdctQuant :
    afterExec .fdctQuant redSamples (fun t => ((List.range 2).map (t.blk .port 0), validWord t)) =
      some ([-127, 2], 0x13F) := by decide +kernel

/-- F10: FDCT_QUANT with QT = 0. -/
theorem test_fdctQuant_noTables :
    after (sized (base.latch 0x18) 16 16) statusWord = some 0x00180706 := by decide

/-- L2: ENCODE_SCAN after INIT_TABLES, with COEF = 0. -/
theorem test_encodeScan_sequenceError :
    after (sized { base.latch 0x20 with valid := { ready with coef := false } } 16 16) statusWord =
      some 0x00200806 := by decide

/-- L2: ENCODE_IMAGE after reset is InvalidArgs, and with W = H = 16 TablesNotBuilt. -/
theorem test_encodeImage_checks :
    after (base.latch 0x30) statusWord = some 0x00300106 ∧
    after (sized (base.latch 0x30) 16 16) statusWord = some 0x00300706 := by decide

/-- I15: SOFT_RESET, here while a command is pending. -/
theorem test_softReset :
    after (withHost { base.latch 0x01 with quality := 75, valid := ready } (w32 0x008 1)) (fun t =>
      (statusWord t, t.quality.toNat, validWord t, (t.byte .port .huffSpec 2).toNat, t.pending)) =
      some (0, 0x32, 0, 1, 0) := by decide

/-! ## The port (vectors of §2.9 and §2.10) -/

/-- L3: acceptance clears all but OVR. -/
theorem test_acceptance :
    after (withHost { base with status := ⟨false, true, true, true, 7, 0x18⟩ } (w32 0x00C 0)) statusWord =
      some 0x00000009 := by decide

/-- L5: the interrupt truth table, three rows. -/
theorem test_irq :
    ({ base with status := ⟨false, true, false, false, 0, 0⟩, irqEn := ⟨true, false⟩ } : State).irq = true ∧
    ({ base with status := ⟨false, true, false, false, 0, 0⟩, irqEn := ⟨false, true⟩ } : State).irq = false ∧
    ({ base with status := ⟨false, false, false, true, 0, 0⟩, irqEn := ⟨false, true⟩ } : State).irq = true := by decide

/-- §2.10: bus errors. -/
theorem test_busErrors :
    step (withHost base (r16 0x010)) = .fault (.busError 0x010) ∧
    step (withHost base (r32 0x002)) = .fault (.busError 0x002) ∧
    step (withHost base (r32 0x060)) = .fault (.busError 0x060) ∧
    step (withHost base (r8 0x180)) = .fault (.busError 0x180) ∧
    step (withHost base (r16 0x201)) = .fault (.busError 0x201) := ⟨rfl, rfl, rfl, rfl, rfl⟩

/-- §2.10: ID, VERSION, a RES byte of HUFFSPEC, the standard HBITS[0][2]. -/
theorem test_reads :
    after (withHost base (r32 0x000)) (·.replies) = some [.okRead .word 0x4A504547] ∧
    after (withHost base (r32 0x004)) (·.replies) = some [.okRead .word 0x00000007] ∧
    after (withHost base (r8 0x811)) (·.replies) = some [.okRead .byte 0] ∧
    after (withHost base (r8 0x802)) (·.replies) = some [.okRead .byte 1] := by decide

/-- §2.10: `W32 0x6000_0000, 0x0002FF81` stores two words. -/
theorem test_blk_write :
    after (withHost base (w32 0x60000000 0x0002FF81)) (fun t => (t.blk .port 0 0, t.blk .port 0 1)) =
      some (-127, 2) := by decide

/-- §2.10: writes to a RES byte and to RO windows are ignored. -/
theorem test_ignored_writes :
    after (withHost base (w8 0x811 0x55)) (·.mem) = some base.mem ∧
    after (withHost base (w8 0x100 0x12)) (·.mem) = some base.mem ∧
    after (withHost base (w8 0x20000000 0x12)) (·.mem) = some base.mem := by decide

/-- The words of the opcode table run as the first instruction after reset. -/
theorem test_withFetchWord :
    after (State.reset.withFetchWord 32 0x00) statusWord = some 0x00000002 ∧
    after (State.reset.withFetchWord 32 0x30) statusWord = some 0x00300106 := by decide

/-! ## States that meet the hypotheses of the statements -/

theorem test_witness_DecodeAndEncodeAreInverse :
    (Instr.softReset 0x80000001).wellFormed = true ∧ (Instr.buildHuff 3).wellFormed = true ∧
    decodePort .cmd 0x302 = .ok (.buildHuff 3) ∧ decodePort .ctrl 0x80000001 = .ok (.softReset 0x80000001) := by decide

/-- A pending BUILD_HUFF 3 at the engine's turn, with an empty list of events and with the engine's event; and idleness. -/
theorem test_witness_StepRunsThePendingCommand :
    EngineNext (base.latch 0x302) ∧ EngineNext (withEvent (base.latch 0x302) .engine) ∧
    (base.latch 0x302).status.busy = true ∧ decodePort .cmd (base.latch 0x302).pending = .ok (.buildHuff 3) ∧
    EngineNext base ∧ base.status.busy = false :=
  ⟨.inl rfl, .inr rfl, rfl, rfl, .inl rfl, rfl⟩

theorem test_witness_IllegalWordCompletesWithAnError :
    EngineNext (base.latch 0x402) ∧ (base.latch 0x402).status.busy = true ∧
    ∀ i, decodeCommand (base.latch 0x402).pending ≠ .ok i :=
  ⟨.inl rfl, rfl, fun i h => by
    rw [show decodeCommand (base.latch 0x402).pending = .error .reservedBits from rfl] at h
    cases h⟩

theorem test_witness_SoftResetResetsAtOnce :
    NextIsHost (withHost (base.latch 0) (.write 0x008 .word 1)) (.write 0x008 .word 1) ∧
    NextIsHost (withHost base (.write 0x008 .word 0xFFFFFFFE)) (.write 0x008 .word 0xFFFFFFFE) ∧
    (1 : Word).toNat % 2 = 1 ∧ (0xFFFFFFFE : Word).toNat % 2 = 0 :=
  ⟨⟨rfl, rfl⟩, ⟨rfl, rfl⟩, rfl, rfl⟩

theorem test_witness_ResetInputResets :
    (withEvent (base.latch 0) (.rst true)).events.head? = some (.rst true) ∧
    (withEvent { base with rst := true } (.rst false)).events.head? = some (.rst false) ∧
    (withHost { base with rst := true } (r32 0)).rst = true ∧
    (withHost { base with rst := true } (r32 0)).events.head? = some (.host (r32 0)) :=
  ⟨rfl, rfl, rfl, rfl⟩

theorem test_witness_EachStepTakesOneEvent :
    (∃ t, step (withHost base (r32 0)) = .next t) ∧ (withHost base (r32 0)).events.head? = some (.host (r32 0)) ∧
    (∃ t, step (base.latch 0) = .next t) ∧ ∀ x, (base.latch 0).events.head? ≠ some (.host x) :=
  ⟨⟨_, rfl⟩, rfl, ⟨_, rfl⟩, fun x h => by cases h⟩

/-- The first and the last byte of every window, and the byte past it. -/
theorem test_witness_AddressMapPlacesTheWindows :
    base.params.Legal ∧
    locate base.params 0x5F = some (.reg 0x5F) ∧ locate base.params 0x60 = none ∧
    locate base.params 0x100 = some (.ram .qtbl 0) ∧ locate base.params 0x17F = some (.ram .qtbl 0x7F) ∧
    locate base.params 0x180 = none ∧
    locate base.params 0x200 = some (.ram .div 0) ∧ locate base.params 0x5FF = some (.ram .div 0x3FF) ∧
    locate base.params 0x600 = none ∧
    locate base.params 0x800 = some (.ram .huffSpec 0) ∧ locate base.params 0xFFF = some (.ram .huffSpec 0x7FF) ∧
    locate base.params 0x1000 = some (.ram .ehuf 0) ∧ locate base.params 0x1FFF = some (.ram .ehuf 0xFFF) ∧
    locate base.params 0x2000 = none ∧
    locate base.params 0x10000000 = some (.ram .rgb 0) ∧ locate base.params 0x100002FF = some (.ram .rgb 0x2FF) ∧
    locate base.params 0x10000300 = none ∧
    locate base.params 0x2000003F = some (.ram .out 0x3F) ∧ locate base.params 0x20000040 = none ∧
    locate base.params 0x300000FF = some (.ram .py 0xFF) ∧ locate base.params 0x30000100 = none ∧
    locate base.params 0x400000FF = some (.ram .pcb 0xFF) ∧ locate base.params 0x500000FF = some (.ram .pcr 0xFF) ∧
    locate base.params 0x600002FF = some (.ram .blk 0x2FF) ∧ locate base.params 0x60000300 = none := by decide

/-- The largest legal parameters. -/
theorem test_legal_params : Config.reference.Legal ∧ Params.Legal ⟨65535, 1, 1, .reference⟩ := by decide

theorem test_witness_AccessesAnswerOrFault :
    NextIsHost (withHost base (r32 0x05C)) (r32 0x05C) ∧ AccessOk base.params 0x05C 4 ∧
    AccessOk base.params 0x17F 1 ∧ AccessOk base.params 0x600002FC 4 ∧
    ¬AccessOk base.params 0x05C 2 ∧ ¬AccessOk base.params 0x060 4 ∧ ¬AccessOk base.params 0x17E 4 ∧
    ¬AccessOk base.params 0x101 2 ∧ ¬AccessOk base.params 0xFFFFFFFC 4 := by
  unfold NextIsHost AccessOk
  decide

theorem test_witness_ReadsReturnTheBytes :
    NextIsHost (withHost base (r16 0x802)) (r16 0x802) ∧ base.status.busy = false ∧ AccessOk base.params 0x802 2 ∧
    NextIsHost (withHost (base.latch 0) (r32 0x05C)) (r32 0x05C) ∧ (base.latch 0).status.busy = true ∧
    AccessOk base.params 0x05C 4 ∧ VolatileAddr 0x05C ∧ ¬VolatileAddr 0x058 ∧
    locate base.params 0x802 = some (.ram .huffSpec 2) ∧ locate base.params 0x05F = some (.reg 0x05F) := by
  unfold NextIsHost AccessOk VolatileAddr
  decide

theorem test_witness_RegistersReadAsLaidOut : base.params.Legal := by decide

theorem test_witness_CommandWritesAreAccepted :
    NextIsHost (withHost base (.write 0x00C .word 0xFFFFFFFF)) (.write 0x00C .word 0xFFFFFFFF) ∧
    base.status.busy = false ∧
    NextIsHost (withHost (base.latch 0) (.write 0x00C .word 1)) (.write 0x00C .word 1) ∧
    (base.latch 0).status.busy = true :=
  ⟨⟨rfl, rfl⟩, rfl, ⟨rfl, rfl⟩, rfl⟩

/-- Each clause at the ends of its ranges: locked (RES bytes of HUFFSPEC among them), read-only, STATUS, IRQ_EN, CTRL. -/
theorem test_witness_BusyWritesAreDropped :
    (base.latch 0).status.busy = true ∧
    (∀ a : Word, NextIsHost (withHost (base.latch 0) (.write a .word 1)) (.write a .word 1)) ∧
    (∀ a ∈ [0x00C, 0x018, 0x01C, 0x020, 0x04C, 0x800, 0xFFC, 0x10000000, 0x100002FC, 0x30000000, 0x600002FC],
      AccessOk base.params a 4 ∧ LockedAddr a ∧ ¬ReadOnlyAddr a) ∧
    (∀ a ∈ [0x811, 0x8FF, 0xE11, 0xEFF], AccessOk base.params a 1 ∧ LockedAddr a ∧ ¬ReadOnlyAddr a ∧
      NextIsHost (withHost (base.latch 0) (.write (BitVec.ofNat 32 a) .byte 1)) (.write (BitVec.ofNat 32 a) .byte 1)) ∧
    (∀ a ∈ [0x000, 0x024, 0x05C, 0x100, 0x17C, 0x200, 0x5FC, 0x1000, 0x1FFC, 0x20000000, 0x2000003C],
      AccessOk base.params a 4 ∧ ReadOnlyAddr a ∧ ¬LockedAddr a) ∧
    (∀ a ∈ [0x008, 0x010, 0x014], AccessOk base.params a 4 ∧ ¬LockedAddr a ∧ ¬ReadOnlyAddr a) ∧
    (1 : Word).getLsbD 0 = true := by
  refine ⟨rfl, fun a => ⟨rfl, rfl⟩, ?_, ?_, ?_, ?_, rfl⟩ <;> unfold AccessOk LockedAddr ReadOnlyAddr <;> try unfold NextIsHost
  all_goals decide

theorem test_witness_GeometryWritesInvalidate :
    (sized base 16 8).status.busy = false ∧
    NextIsHost (withHost (sized base 16 8) (.write 0x01C .word 0xABCD0010)) (.write 0x01C .word 0xABCD0010) ∧
    (0xABCD0010 : Word).toNat % 0x10000 = (sized base 16 8).width.toNat ∧
    NextIsHost (withHost (sized base 16 8) (.write 0x01C .word 0)) (.write 0x01C .word 0) ∧
    (0 : Word).toNat % 0x10000 ≠ (sized base 16 8).width.toNat ∧
    NextIsHost (withHost (sized base 16 8) (.write 0x020 .word 8)) (.write 0x020 .word 8) ∧
    (8 : Word).toNat % 0x10000 = (sized base 16 8).height.toNat ∧
    (0xFFFF : Word).toNat % 0x10000 ≠ (sized base 16 8).height.toNat := by
  unfold NextIsHost
  decide

theorem test_witness_RegisterWritesTakeEffect :
    base.status.busy = false ∧
    (∀ a : Word, NextIsHost (withHost base (.write a .word 0xFFFFFFFF)) (.write a .word 0xFFFFFFFF)) ∧
    (0x010 : Word) = 0x010 ∧ (0x000 : Word).toNat < 0x60 ∧ (0x000 : Word).toNat % 4 = 0 ∧
    ReadOnlyAddr (0x000 : Word).toNat ∧ (0x05C : Word).toNat < 0x60 ∧ (0x05C : Word).toNat % 4 = 0 ∧
    ReadOnlyAddr (0x05C : Word).toNat := by
  refine ⟨rfl, fun a => ⟨rfl, rfl⟩, rfl, ?_⟩
  unfold ReadOnlyAddr
  decide

/-- A RW window, the bytes on both sides of the RES bytes of HUFFSPEC, and a RO window. -/
theorem test_witness_WindowWritesStoreTheirBytes :
    base.status.busy = false ∧
    (∀ (a : Word) n v, NextIsHost (withHost base (.write a n v)) (.write a n v)) ∧
    AccessOk base.params 0x600002FC 4 ∧ locate base.params 0x600002FC = some (.ram .blk 0x2FC) ∧
    AccessOk base.params 0x810 2 ∧ locate base.params 0x810 = some (.ram .huffSpec 0x10) ∧
    AccessOk base.params 0x8FC 4 ∧ locate base.params 0x8FC = some (.ram .huffSpec 0xFC) ∧
    AccessOk base.params 0x2000003F 1 ∧ locate base.params 0x2000003F = some (.ram .out 0x3F) := by
  refine ⟨rfl, fun a n v => ⟨rfl, rfl⟩, ?_⟩
  unfold AccessOk
  decide

theorem test_witness_OperandsHoldWhileBusy :
    NextIsHost (withHost (base.latch 0x18) (.write 0x01C .word 5)) (.write 0x01C .word 5) ∧
    ∃ t, step (withHost (base.latch 0x18) (.write 0x01C .word 5)) = .next t ∧ t.status.busy = true :=
  ⟨⟨rfl, rfl⟩, _, rfl, rfl⟩

theorem test_witness_HostSetsNoFlag :
    NextIsHost (withHost (sized base 16 8) (.write 0x020 .word 9)) (.write 0x020 .word 9) ∧
    (∃ t, step (withHost (sized base 16 8) (.write 0x020 .word 9)) = .next t) ∧
    ¬∃ v : Word, Txn.write 0x020 .word 9 = .write 0x008 .word v ∧ v.getLsbD 0 = true :=
  ⟨⟨rfl, rfl⟩, ⟨_, rfl⟩, fun ⟨v, h, _⟩ => by injection h with h _ _; exact absurd h (by decide)⟩

theorem test_witness_OnlyCompletionOrResetEndsBusy :
    (∃ t, step (base.latch 0) = .next t ∧ t.status.busy = false) ∧ (base.latch 0).status.busy = true ∧
    ∃ t, step (withEvent (base.latch 0) (.rst true)) = .next t ∧ t.status.busy = false :=
  ⟨⟨_, rfl, rfl⟩, rfl, _, rfl, rfl⟩

theorem test_witness_CommandsCompleteAndKeepTheConfiguration :
    Instr.nop.port = .cmd ∧ Instr.encodeImage.port = .cmd := by decide

theorem test_witness_CommandsWriteOnlyTheirRams :
    Instr.colorConvert.port = .cmd ∧ Instr.colorConvert ≠ .encodeScan ∧ Instr.colorConvert ≠ .encodeImage ∧
    ∃ t, exec .colorConvert (sized base 16 8) = .next t :=
  ⟨rfl, by decide, by decide, _, rfl⟩

theorem test_witness_FailedStagesSetNoFlag :
    Instr.colorConvert.port = .cmd ∧ Instr.colorConvert ≠ .initTables ∧ Instr.colorConvert ≠ .encodeImage ∧
    base.status.err = false ∧ ∃ t, exec .colorConvert base = .next t ∧ t.status.err = true :=
  ⟨rfl, by decide, by decide, rfl, _, rfl, rfl⟩

/-- The geometry test at its four boundaries; a missing table; a missing stage; a table builder that fails. -/
theorem test_witness_ChecksComeInOrder :
    ¬GeometryValid (sized base 0 16) ∧ ¬GeometryValid (sized base 16 0) ∧ ¬GeometryValid (sized base 17 16) ∧
    ¬GeometryValid (sized base 16 17) ∧ GeometryValid (sized base 16 16) ∧ GeometryValid (sized base 1 1) ∧
    (sized base 16 16).valid.qt = false ∧ (sized base 16 16).valid.huff 3 = false ∧
    (sized base 16 16).valid.planes = false ∧ (sized { base with valid := ready } 16 16).valid.lumaSmp = false ∧
    base.status.err = false ∧
    ∃ t, exec (.buildHuff 0) { base with mem := base.mem.write .huffSpec 1 [3] } = .next t ∧ t.status.err = true := by
  refine ⟨?_, ?_, ?_, ?_, ?_, ?_, rfl, rfl, rfl, rfl, rfl, _, rfl, ?_⟩
  · unfold GeometryValid; decide
  · unfold GeometryValid; decide
  · unfold GeometryValid; decide
  · unfold GeometryValid; decide
  · unfold GeometryValid; decide
  · unfold GeometryValid; decide
  · decide +kernel

theorem test_witness_QuadRangeFacts : (1 : Nat) ≤ 1 ∧ (1 : Nat) ≤ 255 ∧ (255 : Nat) ≤ 255 := by decide

/-- The quantizer entries at their ends, and the largest |X| of the second clause. -/
theorem test_witness_QuantizerRoundsToNearest :
    (1 : Nat) ≤ 1 ∧ (1 : Nat) ≤ 255 ∧ (255 : Nat) ≤ 255 ∧ (32768 : Int).natAbs ≤ 32768 ∧ (-32768 : Int).natAbs ≤ 32768 := by
  decide

/-- The standard specifications are accepted, and so is one that fills 256 symbols (C12); in the standard DC-luma table
every position is the last of its symbol, and symbol 12 has none. -/
theorem test_witness_BuildHuffBuildsTheCanonicalCodes :
    SpecAccepted base 0 ∧ SpecAccepted base 1 ∧ SpecAccepted base 2 ∧ SpecAccepted base 3 ∧
    SpecAccepted { base with mem := base.mem.write .huffSpec 1 [0, 0, 0, 0, 0, 0, 0, 0, 0, 0, 0, 0, 0, 0, 1, 255] } 0 ∧
    ((List.range' 1 16).flatMap fun l => List.replicate (base.hbits 0 l).toNat l).length = 12 ∧
    (∀ p, p < 12 → ∀ q, q < 12 → p < q → base.hvals 0 q ≠ base.hvals 0 p) ∧
    (∀ p, p < 12 → (base.hvals 0 p).toNat ≠ 12) := by
  unfold SpecAccepted
  decide +kernel

/-- C11: 257 symbols. -/
theorem test_witness_TooManySymbolsAreRejected :
    256 < bitsSum { base with mem := base.mem.write .huffSpec 1 [0, 0, 0, 0, 0, 0, 0, 0, 0, 0, 0, 0, 0, 0, 2, 255] } 0 := by
  decide +kernel

/-- C7: length 2 is the first that is over-filled. -/
theorem test_witness_OverfullCodeSpaceIsRejected :
    let s : State := { base with mem := base.mem.write .huffSpec 1 [1, 3, 0, 0, 0, 0, 0, 0, 0, 0, 0, 0, 0, 0, 0, 0] }
    let used := fun l => ((List.range' 1 l).map fun k => (s.hbits 0 k).toNat * 2 ^ (l - k)).sum
    bitsSum s 0 ≤ 256 ∧ 2 ^ 2 < used 2 ∧ used 1 ≤ 2 ^ 1 := by decide +kernel

/-- The standard DC-luma symbols 0 and 11 have codes, the first not longer. -/
theorem test_witness_HuffmanCodesArePrefixFree :
    afterExec (.buildHuff 0) base (fun u =>
      (entrySize (u.ehufEntry .port 0 0), entrySize (u.ehufEntry .port 0 11))) = some (2, 9) := by decide +kernel

/-- Stage-ready images of the largest and of the smallest size, and one whose bottom luma blocks lie below it. -/
theorem images_valid :
    GeometryValid (sized { base with valid := ready } 16 16) ∧ GeometryValid (sized { base with valid := ready } 1 1) ∧
    GeometryValid (sized { base with valid := ready } 1 8) := by
  unfold GeometryValid
  decide

/-- The first and the last pixel of the largest image. -/
theorem test_witness_ColorConvertWritesThePlanes :
    GeometryValid (sized base 16 16) ∧ 0 < (sized base 16 16).width.toNat ∧ 15 < (sized base 16 16).height.toNat ∧
    GeometryValid (sized base 1 1) :=
  ⟨images_valid.1, by decide, by decide, images_valid.2.1⟩

/-- A sample on the image's last row, and one below it: block 2, rows 0 and 1, of a 1 × 9 image. -/
theorem test_witness_ExtractLumaFillsTheLumaBlocks :
    (let s := sized { base with valid := ready } 1 9;
      GeometryValid s ∧ s.valid.planes = true ∧ 0 < (s.width.toNat + 15) / 16 ∧ 0 < (s.height.toNat + 15) / 16 ∧
      (16 * 0 + 8 * (2 / 2) + 0 < s.height.toNat) ∧ ¬(16 * 0 + 8 * (2 / 2) + 1 < s.height.toNat)) ∧
    GeometryValid (sized { base with valid := ready } 16 16) := by
  unfold GeometryValid
  decide

theorem test_witness_ExtractChromaFillsTheChromaBlocks :
    (let s := sized { base with valid := ready } 1 9;
      GeometryValid s ∧ s.valid.planes = true ∧ 0 < (s.width.toNat + 15) / 16 ∧ 0 < (s.height.toNat + 15) / 16) ∧
    GeometryValid (sized { base with valid := ready } 16 16) := by
  unfold GeometryValid
  decide

/-- The copy happens with nbh = 1 (height 8) and does not with nbh = 2 (height 9). -/
theorem test_witness_EdgeDcFixupCopiesTheDc :
    (let s := sized { base with valid := ready } 1 8;
      GeometryValid s ∧ s.valid.coef = true ∧
      (s.height.toNat + 7) / 8 ≤ 2 * ((s.height.toNat + 15) / 16 - 1) + 1 ∧ 0 < (s.width.toNat + 15) / 16) ∧
    (let s := sized { base with valid := ready } 1 9;
      GeometryValid s ∧ s.valid.coef = true ∧ ¬(s.height.toNat + 7) / 8 ≤ 2 * ((s.height.toNat + 15) / 16 - 1) + 1) := by
  unfold GeometryValid
  decide

theorem test_witness_FixupConditionIsAnOddHeight :
    1 ≤ (sized base 1 1).height.toNat ∧ 1 ≤ (sized base 1 0xFFFF).height.toNat := by decide

/-- Width 8: blocks 1 and 3 lie to the right; width 16: none does. -/
theorem test_witness_ZeroRightZeroesTheBlocksRight :
    (let s := sized { base with valid := ready } 8 8;
      GeometryValid s ∧ s.valid.coef = true ∧ 0 < (s.width.toNat + 15) / 16 ∧ 0 < (s.height.toNat + 15) / 16 ∧
      (s.width.toNat + 7) / 8 ≤ 2 * 0 + 1 % 2 ∧ ¬(s.width.toNat + 7) / 8 ≤ 2 * 0 + 2 % 2) ∧
    GeometryValid (sized { base with valid := ready } 16 16) := by
  unfold GeometryValid
  decide

/-- Height 8: blocks 2 and 3 lie below. -/
theorem test_witness_ZeroBottomZeroesTheBlocksBelow :
    let s := sized { base with valid := ready } 8 8
    GeometryValid s ∧ s.valid.coef = true ∧ 0 < (s.width.toNat + 15) / 16 ∧ 0 < (s.height.toNat + 15) / 16 ∧
    (s.height.toNat + 7) / 8 ≤ 2 * 0 + 2 / 2 ∧ ¬(s.height.toNat + 7) / 8 ≤ 2 * 0 + 1 / 2 := by
  unfold GeometryValid
  decide

theorem test_witness_ZeroingCommutesAndIsIdempotent :
    GeometryValid (sized { base with valid := ready } 1 1) ∧ (sized { base with valid := ready } 1 1).valid.coef = true :=
  ⟨images_valid.2.1, rfl⟩

theorem test_witness_ZeroBottomUndoesTheFixup :
    GeometryValid (sized { base with valid := ready } 1 8) ∧ (sized { base with valid := ready } 1 8).valid.coef = true ∧
    (sized { base with valid := ready } 1 8).fixupApplies = true :=
  ⟨images_valid.2.2, rfl, by decide⟩

theorem test_witness_FdctQuantQuantizesEveryBlock :
    GeometryValid redSamples ∧ redSamples.valid.qt = true ∧ redSamples.valid.lumaSmp = true ∧
    redSamples.valid.chromaSmp = true := ⟨by unfold GeometryValid; decide, rfl, rfl, rfl⟩

theorem test_witness_ConstantBlocksTransformExactly : (-128 : Int) ≤ -128 ∧ (-128 : Int) ≤ 127 ∧ (127 : Int) ≤ 127 := by
  decide

/-- R129: 5 and −5 have three bits, 101 and 010; 0 has none; the largest differences. -/
theorem test_magnitude :
    (magSize 5, magBits 5) = (3, 5) ∧ (magSize (-5), magBits (-5)) = (3, 2) ∧ magSize 0 = 0 ∧
    (magSize (-1), magBits (-1)) = (1, 0) ∧ (magSize (-65535), magBits (-65535)) = (16, 0) := by decide

/-- Seven bits are left in the buffer, and OUT has room. -/
theorem test_witness_PutBitsAppendsTheBits :
    let c : Coder := ⟨0x7F, 7, 0, 0, 0, [0, 0xFF], 2, 0⟩
    c.Drained ∧ Stuffed c.out.reverse ∧ c.count + 4 ≤ 6 ∧ 0xFFFF < 2 ^ 16 ∧
    (putBits 6 0xFFFF 16 c).toOption = some ⟨0x7F, 7, 0, 0, 0, [0, 0xFF, 0, 0xFF, 0, 0xFF], 6, 0⟩ := by
  refine ⟨⟨by decide, by decide⟩, ⟨fun _ => rfl, ?_⟩, by decide, by decide, by decide +kernel⟩
  show (0 : Byte) ≠ 0xFF
  decide

/-! ## Scans: an image of zeros, under codes of one bit -/

/-- The EHUF entry of every symbol of the tables `p`: the one-bit code 0; the other tables have no code. -/
def codesOf (p : Nat → Bool) : Cells :=
  Cells.write .ehuf [] 0 ((List.range 0x1000).map fun k => if k % 4 = 2 ∧ p (k / 0x400) = true then 1 else 0)

/-- Every table has the one-bit codes. -/
def oneBitCodes : Cells := codesOf fun _ => true

/-- An MCU of zero coefficients, ready for ENCODE_SCAN. -/
def zeroScan (cap : Nat) : State :=
  sized { State.resetWith ⟨16, 16, cap, .reference⟩ with
    mem :=
      { Memory.empty with
        ehuf := oneBitCodes
        blk := Cells.write .blk [] 0 (List.replicate 768 0) }
    valid := ⟨false, true, true, true, true, false, false, false, true, false⟩ } 16 16

theorem codesOf_read (p : Nat → Bool) {off : Nat} (h : off < 0x1000) :
    (codesOf p).read .ehuf off = some (if off % 4 = 2 ∧ p (off / 0x400) = true then 1 else 0) := by
  rw [codesOf, Cells.read_write]
  simp [h]

theorem codesOf_entry {p : Nat → Bool} {s : State} (hs : s.mem.ehuf = codesOf p) (site : Site) {t sym : Nat} (ht : t < 4)
    (hsym : sym < 256) : s.ehufEntry site t sym = if p t = true then 0x10000 else 0 := by
  have hb : ∀ j, j < 4 → s.byte site .ehuf (ehufOff t sym + j) = if j = 2 ∧ p t = true then 1 else 0 := by
    intro j hj
    apply byte_of_read
    rw [show s.mem.cells .ehuf = codesOf p from hs, codesOf_read p (by simp only [ehufOff]; omega)]
    simp only [ehufOff, show (0x400 * t + 4 * sym + j) % 4 = 2 ↔ j = 2 by omega,
      show (0x400 * t + 4 * sym + j) / 0x400 = t by omega]
  simp only [State.ehufEntry, State.bytes]
  rw [show List.range 4 = [0, 1, 2, 3] from rfl]
  simp only [List.map_cons, List.map_nil, hb 0 (by omega), hb 1 (by omega), hb 2 (by omega), hb 3 (by omega)]
  cases p t <;> decide

theorem codesOf_huff {p : Nat → Bool} {s : State} (hs : s.mem.ehuf = codesOf p) {t : Nat} (ht : t < 4) :
    Filled s .ehuf (0x400 * t) (0x400 * t + 0x400) ∧ CodesProper s t := by
  constructor
  · intro off _ hoff
    rw [show s.mem.cells .ehuf = codesOf p from hs, codesOf_read p (by omega)]
    rfl
  · intro site sym hsym
    rw [codesOf_entry hs site ht hsym]
    cases p t <;> decide

theorem oneBitCodes_huff {s : State} (hs : s.mem.ehuf = oneBitCodes) {t : Nat} (ht : t < 4) :
    Filled s .ehuf (0x400 * t) (0x400 * t + 0x400) ∧ CodesProper s t := codesOf_huff (hs.trans oneBitCodes.eq_def) ht

theorem oneBitCodes_entry {s : State} (hs : s.mem.ehuf = oneBitCodes) (site : Site) {t sym : Nat} (ht : t < 4)
    (hsym : sym < 256) : s.ehufEntry site t sym = 0x10000 := by
  rw [codesOf_entry (hs.trans oneBitCodes.eq_def) site ht hsym, if_pos rfl]

/-- `s` has the one-bit codes, one MCU, and zero coefficients. -/
structure Flat (s : State) : Prop where
  codes : s.mem.ehuf = oneBitCodes
  blocks : s.nblocks = 6
  zero : ∀ site b i, b < 6 → i < 64 → s.blk site b i = 0

/-- The words of an MCU of zeros. -/
theorem blk_zero {s : State} (hs : s.mem.blk = Cells.write .blk [] 0 (List.replicate 768 0)) (site : Site) {b i : Nat}
    (hb : b < 6) (hi : i < 64) : s.blk site b i = 0 := by
  have h : ∀ j, j < 2 → s.byte site .blk (128 * b + 2 * i + j) = 0 := by
    intro j hj
    apply byte_of_read
    rw [show s.mem.cells .blk = Cells.write .blk [] 0 (List.replicate 768 0) from hs, Cells.read_write,
      if_pos (by rw [List.length_replicate]; omega), List.getElem?_replicate_of_lt (by omega)]
  rw [blk_eq, show 128 * b + 2 * i = 128 * b + 2 * i + 0 from rfl, h 0 (by omega), h 1 (by omega)]
  decide

theorem block_zero {s : State} (h : ∀ site b i, b < 6 → i < 64 → s.blk site b i = 0) (site : Site) {b : Nat} (hb : b < 6) :
    s.block site b = List.replicate 64 0 := by
  apply List.ext_getElem
  · simp [State.block]
  · intro i h1 h2
    simp only [State.block, List.getElem_map, List.getElem_range, List.getElem_replicate]
    exact h site b i hb (by simpa using h2)

theorem Flat.block {s : State} (h : Flat s) (site : Site) {b : Nat} (hb : b < 6) :
    s.block site b = List.replicate 64 0 := block_zero h.zero site hb

theorem Flat.codesReady {s : State} (h : Flat s) : CodesReady s := by
  have hc : ∀ t sym, t < 4 → sym < 256 → HasCode s t sym := by
    intro t sym ht hsym n
    rw [oneBitCodes_entry h.codes _ ht hsym]
    decide
  exact ⟨fun n hn => ⟨hc 0 n (by omega) (by omega), hc 2 n (by omega) (by omega)⟩, fun t ht =>
    ⟨hc t _ (by omega) (by omega), hc t _ (by omega) (by omega), fun r n hr _ hn => hc t _ (by omega) (by omega)⟩⟩

theorem Flat.coefsSmall {s : State} (h : Flat s) : CoefsSmall s := by
  intro b hb
  rw [h.blocks] at hb
  refine ⟨?_, fun i _ hi => ?_⟩ <;> rw [h.zero _ _ _ hb (by omega)] <;> omega

theorem acTokens_zeros (t n r : Nat) : acTokens t (List.replicate n 0) r = if 0 < n + r then [.code t 0] else [] := by
  induction n generalizing r with
  | zero => simp [acTokens]
  | succ n ih =>
    rw [List.replicate_succ, acTokens, if_pos rfl, ih, if_pos (by omega), if_pos (by omega)]

/-- Twelve zero bits: one byte 0x00, and four of them filled up with ones (R137). -/
theorem Flat.ecs {s : State} (h : Flat s) : ecsOf s = [0x00, 0x0F] := by
  have hcode : ∀ t sym, t < 4 → sym < 256 → codeBits s t sym = [false] := by
    intro t sym ht hsym
    rw [codeBits, oneBitCodes_entry h.codes _ ht hsym]
    decide
  have hblock : ∀ b, b < 6 → (blockTokens s b).flatMap (tokenBits s) = [false, false] := by
    intro b hb
    have hd : dcDiff s b = 0 := by
      rw [dcDiff, h.zero _ _ _ hb (by omega)]
      have hp : prevBlock b = none ∨ ∃ p, p < 6 ∧ prevBlock b = some p := by
        rw [prevBlock]
        split
        · exact .inr ⟨b - 1, by omega, rfl⟩
        · exact .inl rfl
      obtain hp | ⟨p, hp6, hp⟩ := hp
      · rw [hp]; rfl
      · rw [hp]
        show 0 - s.blk .scanBlock p 0 = 0
        rw [h.zero _ _ _ hp6 (by omega)]
        rfl
    have ht : dcTable b < 4 ∧ acTable b < 4 := by
      simp only [dcTable, acTable]
      constructor <;> split <;> omega
    rw [blockTokens, hd, h.block _ hb, show zigzagAc (List.replicate 64 0) = List.replicate 63 0 by decide, acTokens_zeros,
      if_pos (by omega)]
    simp only [List.cons_append, List.nil_append, List.flatMap_cons, List.flatMap_nil, tokenBits, hcode _ _ ht.1 (show magSize 0 < 256 by decide),
      hcode _ _ ht.2 (show 0 < 256 by omega)]
    rfl
  rw [ecsOf, scanBits, tokensBits, scanTokens, List.flatMap_assoc, h.blocks, show List.range 6 = [0, 1, 2, 3, 4, 5] from rfl]
  simp only [List.flatMap_cons, List.flatMap_nil, hblock 0 (by omega), hblock 1 (by omega), hblock 2 (by omega),
    hblock 3 (by omega), hblock 4 (by omega), hblock 5 (by omega)]
  decide

theorem zeroScan_blocks (cap : Nat) : (zeroScan cap).nblocks = 6 := by
  show 6 * (ceilDiv 16 16 * ceilDiv 16 16) = 6
  decide

theorem zeroScan_flat (cap : Nat) : Flat (zeroScan cap) where
  codes := rfl
  blocks := zeroScan_blocks cap
  zero := fun site _ _ hb hi => blk_zero rfl site hb hi

theorem filled_of_write {s : State} {r : Ram} {bs : List Byte} {n : Nat} (h : s.mem.cells r = Cells.write r [] 0 bs)
    (hn : n ≤ bs.length) (lo : Nat) : Filled s r lo n := by
  intro off _ hoff
  rw [h, Cells.read_write, if_pos (by omega), List.getElem?_eq_getElem (by omega)]
  rfl

theorem filled_mono {s : State} {r : Ram} {lo hi lo' hi' : Nat} (h : Filled s r lo hi) (h1 : lo ≤ lo') (h2 : hi' ≤ hi) :
    Filled s r lo' hi' := fun off a b => h off (by omega) (by omega)

theorem zeros_filled {s : State} (hs : s.mem.blk = Cells.write .blk [] 0 (List.replicate 768 0)) (hn : s.nblocks = 6) :
    BlocksFilled s fun _ => True := by
  intro b hb _
  rw [hn] at hb
  exact filled_mono (filled_of_write (n := 768) (r := .blk) hs (by rw [List.length_replicate]) 0) (by omega) (by omega)

theorem zeroScan_vouched (cap : Nat) : Vouched (zeroScan cap) where
  qt := fun h => (nomatch h)
  huff := fun _ ht _ => oneBitCodes_huff (zeroScan_flat cap).codes ht
  planes := fun h => (nomatch h)
  lumaSmp := fun h => (nomatch h)
  chromaSmp := fun h => (nomatch h)
  coef := fun _ => zeros_filled rfl (zeroScan_blocks cap)
  scan := fun h => (nomatch h)

/-- What a block of zeros after a DC of 0 emits: the code of the difference 0 and EOB (R134, R135). -/
theorem encodeBlock_zero {s : State} {b cd sd ca sa : Nat} {c : Coder}
    (hd : ∀ n, entrySize (s.ehufEntry (.emission n) (dcTable b) 0) = sd ∧ entryCode (s.ehufEntry (.emission n) (dcTable b) 0) = cd)
    (ha : ∀ n, entrySize (s.ehufEntry (.emission n) (acTable b) 0) = sa ∧ entryCode (s.ehufEntry (.emission n) (acTable b) 0) = ca)
    (hsd : sd ≠ 0) (hsa : sa ≠ 0) (hc : c.lastDc (blockComp b) = 0) :
    encodeBlock s (List.replicate 64 0) (blockComp b) (dcTable b) (acTable b) c =
      match putBits s.params.outCap cd sd { c with emissions := c.emissions + 1 } with
      | .error e => .error e
      | .ok d => putBits s.params.outCap ca sa
          { d.setLastDc (blockComp b) 0 with emissions := (d.setLastDc (blockComp b) 0).emissions + 1 } := by
  have hac : ∀ n r c, 0 < n + r → acWalk s (acTable b) (List.replicate n 0) r c =
      putBits s.params.outCap ca sa { c with emissions := c.emissions + 1 } := by
    intro n
    induction n with
    | zero =>
      intro r c hr
      rw [List.replicate_zero, acWalk, if_pos (by omega), emit, (ha _).1, (ha _).2, if_neg hsa]
    | succ n ih =>
      intro r c _
      rw [List.replicate_succ, acWalk, if_pos rfl, ih (r + 1) c (by omega)]
  have hdiff : magSize (0 - 0) = 0 := by decide
  rw [encodeBlock, dcStep, hc, show (List.replicate 64 (0 : Int)).getD 0 0 = 0 from rfl, hdiff, emit, (hd _).1, (hd _).2,
    if_neg hsd]
  cases hp : putBits s.params.outCap cd sd { c with emissions := c.emissions + 1 } with
  | error e => rfl
  | ok d =>
    simp only [putMag, hdiff, if_true]
    rw [show zigzagAc (List.replicate 64 0) = List.replicate 63 0 by decide, hac _ _ _ (by omega)]

/-- One block more of an MCU of zeros. -/
theorem encodeBlocks_step {s : State} (hz : ∀ site b i, b < 6 → i < 64 → s.blk site b i = 0) {b : Nat} (hb : b < 6)
    (bs : List Nat) {c d : Coder}
    (h : encodeBlock s (List.replicate 64 0) (blockComp b) (dcTable b) (acTable b) c = .ok d) :
    encodeBlocks s (b :: bs) c = encodeBlocks s bs d := by
  simp only [encodeBlocks, block_zero hz _ hb, h]

theorem zeroScan_scan : (zeroScan 64).scan = .ok ⟨0, 0, 0, 0, 0, [0x0F, 0x00], 2, 12⟩ := by
  have hF := zeroScan_flat 64
  have he : ∀ t, t < 4 → ∀ n, entrySize ((zeroScan 64).ehufEntry (.emission n) t 0) = 1 ∧
      entryCode ((zeroScan 64).ehufEntry (.emission n) t 0) = 0 := by
    intro t ht n
    rw [oneBitCodes_entry hF.codes _ ht (by omega)]
    decide
  have hb : ∀ (b : Nat) (c : Coder), c.lastDc (blockComp b) = 0 → _ := fun b c hc =>
    encodeBlock_zero (s := zeroScan 64) (b := b) (c := c) (he (dcTable b) (by unfold dcTable; split <;> omega))
      (he (acTable b) (by unfold acTable; split <;> omega)) (by decide) (by decide) hc
  rw [State.scan, hF.blocks, show List.range 6 = [0, 1, 2, 3, 4, 5] from rfl, Coder.fresh,
    encodeBlocks_step hF.zero (d := ⟨0, 2, 0, 0, 0, [], 0, 2⟩) (by omega) _ ((hb 0 _ rfl).trans rfl),
    encodeBlocks_step hF.zero (d := ⟨0, 4, 0, 0, 0, [], 0, 4⟩) (by omega) _ ((hb 1 _ rfl).trans rfl),
    encodeBlocks_step hF.zero (d := ⟨0, 6, 0, 0, 0, [], 0, 6⟩) (by omega) _ ((hb 2 _ rfl).trans rfl),
    encodeBlocks_step hF.zero (d := ⟨0, 0, 0, 0, 0, [0], 1, 8⟩) (by omega) _ ((hb 3 _ rfl).trans rfl),
    encodeBlocks_step hF.zero (d := ⟨0, 2, 0, 0, 0, [0], 1, 10⟩) (by omega) _ ((hb 4 _ rfl).trans rfl),
    encodeBlocks_step hF.zero (d := ⟨0, 4, 0, 0, 0, [0], 1, 12⟩) (by omega) _ ((hb 5 _ rfl).trans rfl)]
  rfl

/-- ENCODE_SCAN of the zero MCU completes. -/
theorem zeroScan_completes : ∃ u, exec .encodeScan (zeroScan 64) = .next u ∧ u.valid.scan = true := by
  have hg : GeometryValid (zeroScan 64) := by unfold GeometryValid; decide
  refine ⟨_, (command_pass runEncodeScan
    ((checkAll_none_iff (fun s => s.valid.allHuff) (fun s => s.valid.coef) (zeroScan 64)).2 ⟨hg, rfl, rfl⟩) :), ?_⟩
  rw [runEncodeScan, zeroScan_scan]
  rfl

/-- An EHUF entry whose four bytes are written. -/
theorem entry_of_reads {s : State} {site : Site} {t sym : Nat} {b0 b1 b2 b3 : Byte}
    (h0 : s.mem.ehuf.read .ehuf (ehufOff t sym) = some b0) (h1 : s.mem.ehuf.read .ehuf (ehufOff t sym + 1) = some b1)
    (h2 : s.mem.ehuf.read .ehuf (ehufOff t sym + 2) = some b2) (h3 : s.mem.ehuf.read .ehuf (ehufOff t sym + 3) = some b3) :
    s.ehufEntry site t sym = BitVec.ofNat 32 (fromLe [b0, b1, b2, b3]) := by
  simp only [State.ehufEntry, State.bytes]
  rw [show List.range 4 = [0, 1, 2, 3] from rfl]
  simp only [List.map_cons, List.map_nil, Nat.add_zero, byte_of_read (s := s) (r := .ehuf) site h0, byte_of_read (s := s) (r := .ehuf) site h1,
    byte_of_read (s := s) (r := .ehuf) site h2, byte_of_read (s := s) (r := .ehuf) site h3]

/-- G1: 16 × 16, all coefficients 0, with the standard codes of the four symbols that the scan needs. -/
def greyScan : State :=
  sized { base with
    mem :=
      { Memory.empty with
        ehuf := (((Cells.write .ehuf [] 0x000 (toLe 3 0x00020000)).write .ehuf 0x400 (toLe 3 0x0004000A)).write .ehuf 0x800
          (toLe 3 0x00020000)).write .ehuf 0xC00 (toLe 3 0x00020000)
        blk := Cells.write .blk [] 0 (List.replicate 768 0) }
    valid := ready } 16 16

/-- G1: the ECS is 28 A2 8A 00. -/
theorem test_scan : greyScan.scan = .ok ⟨0, 0, 0, 0, 0, [0x00, 0x8A, 0xA2, 0x28], 4, 12⟩ := by
  have hz : ∀ site b i, b < 6 → i < 64 → greyScan.blk site b i = 0 := fun site _ _ hb hi => blk_zero rfl site hb hi
  have e0 : ∀ n, entrySize (greyScan.ehufEntry (.emission n) 0 0) = 2 ∧ entryCode (greyScan.ehufEntry (.emission n) 0 0) = 0 := by
    intro n
    rw [entry_of_reads (b0 := 0) (b1 := 0) (b2 := 2) (b3 := 0) (by decide +kernel) (by decide +kernel) (by decide +kernel) (by decide +kernel)]
    decide
  have e1 : ∀ n, entrySize (greyScan.ehufEntry (.emission n) 1 0) = 4 ∧ entryCode (greyScan.ehufEntry (.emission n) 1 0) = 10 := by
    intro n
    rw [entry_of_reads (b0 := 10) (b1 := 0) (b2 := 4) (b3 := 0) (by decide +kernel) (by decide +kernel) (by decide +kernel) (by decide +kernel)]
    decide
  have e2 : ∀ n, entrySize (greyScan.ehufEntry (.emission n) 2 0) = 2 ∧ entryCode (greyScan.ehufEntry (.emission n) 2 0) = 0 := by
    intro n
    rw [entry_of_reads (b0 := 0) (b1 := 0) (b2 := 2) (b3 := 0) (by decide +kernel) (by decide +kernel) (by decide +kernel) (by decide +kernel)]
    decide
  have e3 : ∀ n, entrySize (greyScan.ehufEntry (.emission n) 3 0) = 2 ∧ entryCode (greyScan.ehufEntry (.emission n) 3 0) = 0 := by
    intro n
    rw [entry_of_reads (b0 := 0) (b1 := 0) (b2 := 2) (b3 := 0) (by decide +kernel) (by decide +kernel) (by decide +kernel) (by decide +kernel)]
    decide
  have hl : ∀ b, b < 4 → ∀ c : Coder, c.lastDc (blockComp b) = 0 → _ := fun b hb c hc =>
    encodeBlock_zero (s := greyScan) (b := b) (c := c) (by rw [show dcTable b = 0 from if_pos (by simp only [blockPlace]; omega)]; exact e0)
      (by rw [show acTable b = 1 from if_pos (by simp only [blockPlace]; omega)]; exact e1) (by decide) (by decide) hc
  have h4 := fun (c : Coder) hc => encodeBlock_zero (s := greyScan) (b := 4) (c := c) e2 e3 (by decide) (by decide) hc
  have h5 := fun (c : Coder) hc => encodeBlock_zero (s := greyScan) (b := 5) (c := c) e2 e3 (by decide) (by decide) hc
  rw [State.scan, show greyScan.nblocks = 6 by decide, show List.range 6 = [0, 1, 2, 3, 4, 5] from rfl, Coder.fresh,
    encodeBlocks_step hz (d := ⟨10, 6, 0, 0, 0, [], 0, 2⟩) (by omega) _ ((hl 0 (by omega) _ rfl).trans rfl),
    encodeBlocks_step hz (d := ⟨10, 4, 0, 0, 0, [0x28], 1, 4⟩) (by omega) _ ((hl 1 (by omega) _ rfl).trans rfl),
    encodeBlocks_step hz (d := ⟨2, 2, 0, 0, 0, [0xA2, 0x28], 2, 6⟩) (by omega) _ ((hl 2 (by omega) _ rfl).trans rfl),
    encodeBlocks_step hz (d := ⟨0, 0, 0, 0, 0, [0x8A, 0xA2, 0x28], 3, 8⟩) (by omega) _ ((hl 3 (by omega) _ rfl).trans rfl),
    encodeBlocks_step hz (d := ⟨0, 4, 0, 0, 0, [0x8A, 0xA2, 0x28], 3, 10⟩) (by omega) _ ((h4 _ rfl).trans rfl),
    encodeBlocks_step hz (d := ⟨0, 0, 0, 0, 0, [0x00, 0x8A, 0xA2, 0x28], 4, 12⟩) (by omega) _ ((h5 _ rfl).trans rfl)]
  rfl

/-! ## An image whose coefficients are all quantized to 0 -/

/-- A 16 × 16 image, ready for ENCODE_IMAGE, with reciprocals 0 in DIV. -/
def zeroImage : State :=
  sized { State.resetWith ⟨16, 16, 64, .reference⟩ with
    mem :=
      { Memory.empty with
        qtbl := Cells.write .qtbl [] 0 (List.replicate 128 1)
        div := Cells.write .div [] 0 (List.replicate 1024 0)
        ehuf := oneBitCodes }
    valid := ⟨true, true, true, true, true, false, false, false, false, false⟩ } 16 16

theorem zeroImage_div (s : State) (hs : s.mem.div = zeroImage.mem.div) (site : Site) {t k i : Nat} (ht : t < 2) (hk : k < 4)
    (hi : i < 64) : s.divWord site t k i = 0 := by
  have h : ∀ j, j < 2 → s.byte site .div (divOff t k i + j) = 0 := by
    intro j hj
    apply byte_of_read
    rw [show s.mem.cells .div = Cells.write .div [] 0 (List.replicate 1024 0) from hs, Cells.read_write,
      if_pos (by rw [List.length_replicate]; simp only [divOff]; omega),
      List.getElem?_replicate_of_lt (by simp only [divOff]; omega)]
  simp only [State.divWord, State.bytes]
  rw [show List.range 2 = [0, 1] from rfl]
  simp only [List.map_cons, List.map_nil, h 0 (by omega), h 1 (by omega)]
  decide

theorem quantize_zero (x : Int) : quantize x 0 0 0 = 0 := by
  have : shiftDown ((x.natAbs + 0) * 0) (16 + 0) = 0 := by
    rw [Nat.mul_zero]; decide
  rw [quantize, this]
  split <;> decide

/-- Every block is quantized to zeros. -/
theorem runFdctQuant_zero {s : State} (hs : s.mem.div = zeroImage.mem.div) (hk : s.params.kernel = .reference) (site : Site)
    {b i : Nat} (hb : b < s.nblocks) (hi : i < 64) : (runFdctQuant s).st.blk site b i = 0 := by
  have hlen : ∀ b, (s.quantized b).length = 64 := by
    intro b
    simp [State.quantized, State.coefs, fdctKernel, hk, fdctRef]
  rw [blk_updateBlocks (f := s.quantized) (p := fun _ => true) site rfl hlen hb rfl hi]
  have : (s.quantized b)[i]'(by rw [hlen]; exact hi) = 0 := by
    simp only [State.quantized, List.getElem_map, List.getElem_zipIdx, Nat.zero_add]
    have ht : blockTable b < 2 := by unfold blockTable; split <;> omega
    rw [zeroImage_div s hs _ ht (by omega) hi, zeroImage_div s hs _ ht (by omega) hi, zeroImage_div s hs _ ht (by omega) hi]
    exact quantize_zero _
  rw [this]
  decide

/-- An edge operation that finds no block to change. -/
theorem blk_updateBlocks_none {s : State} {p : Nat → Bool} {f : Nat → List Byte} {t : State} (ht : t.mem = s.updateBlocks p f)
    (he : t.epoch = s.epoch) (hlen : ∀ b, (f b).length ≤ 128) (hp : ∀ b, b < s.nblocks → p b = false) (site : Site) (b i : Nat) :
    t.blk site b i = s.blk site b i := by
  have h : ∀ off, t.byte site .blk off = s.byte site .blk off := by
    intro off
    apply byte_congr site he
    rw [ht]
    refine read_updateBlocks_outside hlen fun hc => ?_
    rw [hp _ hc.1] at hc
    exact absurd hc.2.1 (by decide)
  simp only [blk_eq, h]

theorem runColorConvert_tables (s : State) :
    (runColorConvert s).st.mem.ehuf = s.mem.ehuf ∧ (runColorConvert s).st.mem.div = s.mem.div := ⟨rfl, rfl⟩
theorem runExtractLuma_tables (s : State) :
    (runExtractLuma s).st.mem.ehuf = s.mem.ehuf ∧ (runExtractLuma s).st.mem.div = s.mem.div := ⟨rfl, rfl⟩
theorem runExtractChroma_tables (s : State) :
    (runExtractChroma s).st.mem.ehuf = s.mem.ehuf ∧ (runExtractChroma s).st.mem.div = s.mem.div := ⟨rfl, rfl⟩
theorem runFdctQuant_ehuf (s : State) : (runFdctQuant s).st.mem.ehuf = s.mem.ehuf := rfl
theorem runEdgeDcFixup_ehuf (s : State) : (runEdgeDcFixup s).st.mem.ehuf = s.mem.ehuf := rfl
theorem runZeroRight_ehuf (s : State) : (runZeroRight s).st.mem.ehuf = s.mem.ehuf := rfl
theorem runZeroBottom_ehuf (s : State) : (runZeroBottom s).st.mem.ehuf = s.mem.ehuf := rfl

/-- One MCU: 16 × 16. -/
abbrev Sixteen (s : State) : Prop := s.w = 16 ∧ s.h = 16

theorem Sixteen.kept {s t : State} (hs : Sixteen s) (h : KeptOut s t) : Sixteen t := by
  simp only [Sixteen, State.w, State.h, h.1.width, h.1.height]
  exact hs

theorem Sixteen.nblocks {t : State} (ht : Sixteen t) : t.nblocks = 6 := by
  simp only [State.nblocks, State.nmcu, State.nsbw, State.nsbh, ht.1, ht.2]
  decide

theorem Sixteen.isBelow {s : State} (h : Sixteen s) {b : Nat} (hb : b < 6) : s.isBelow b = false := by
  have h6 : b / 6 = 0 := by omega
  rw [State.isBelow, Bool.and_eq_false_iff]
  by_cases h4 : b % 6 < 4
  · refine .inr (decide_eq_false ?_)
    simp only [State.blockY, State.gy, State.nbh, State.nsbw, h.1, h.2, blockMcu, h6, blockPlace, ceilDiv]
    omega
  · exact .inl (decide_eq_false h4)

theorem Sixteen.isRight {s : State} (h : Sixteen s) (b : Nat) : s.isRight b = false := by
  simp only [State.isRight, State.blockX, State.gx, State.nbw, State.nsbw, h.1, blockPlace]
  simp [ceilDiv]
  omega

theorem Sixteen.isFixed {s : State} (h : Sixteen s) (b : Nat) : s.isFixed b = false := by
  simp only [State.isFixed, State.fixupApplies, State.nbh, State.nsbh, h.2]
  rw [show decide (ceilDiv 16 8 ≤ 2 * (ceilDiv 16 16 - 1) + 1) = false by decide]
  rfl

theorem runEdgeDcFixup_blk {s : State} (h : Sixteen s) (site : Site) (b i : Nat) :
    (runEdgeDcFixup s).st.blk site b i = s.blk site b i :=
  blk_updateBlocks_none (s := s) (t := (runEdgeDcFixup s).st) (p := s.isFixed) (f := s.fixupDc) rfl rfl
    (fun _ => by simp [State.fixupDc]) (fun b _ => h.isFixed b) site b i

theorem runZeroRight_blk {s : State} (h : Sixteen s) (site : Site) (b i : Nat) :
    (runZeroRight s).st.blk site b i = s.blk site b i :=
  blk_updateBlocks_none (s := s) (t := (runZeroRight s).st) (p := s.isRight) (f := fun _ => zeroBlock) rfl rfl
    (fun _ => by simp [zeroBlock]) (fun b _ => h.isRight b) site b i

theorem runZeroBottom_blk {s : State} (h : Sixteen s) (site : Site) (b i : Nat) :
    (runZeroBottom s).st.blk site b i = s.blk site b i :=
  blk_updateBlocks_none (s := s) (t := (runZeroBottom s).st) (p := s.isBelow) (f := fun _ => zeroBlock) rfl rfl
    (fun _ => by simp [zeroBlock]) (fun b hb => h.isBelow (by rwa [h.nblocks] at hb)) site b i

/-- The stages after the samples are placed, on tables of zeros. -/
theorem afterSamples_flat {s : State} (h : Sixteen s) (hc : s.mem.ehuf = oneBitCodes) (hd : s.mem.div = zeroImage.mem.div)
    (hk : s.params.kernel = .reference) :
    Flat (runZeroBottom (runZeroRight (runEdgeDcFixup (runFdctQuant s).st).st).st).st := by
  have h1 := h.kept (runFdctQuant_kept s)
  have h2 := h1.kept (runEdgeDcFixup_kept _)
  have h3 := h2.kept (runZeroRight_kept _)
  refine ⟨?_, (h3.kept (runZeroBottom_kept _)).nblocks, fun site b i hb hi => ?_⟩
  · rw [runZeroBottom_ehuf, runZeroRight_ehuf, runEdgeDcFixup_ehuf, runFdctQuant_ehuf, hc]
  · rw [runZeroBottom_blk h3, runZeroRight_blk h2, runEdgeDcFixup_blk h1]
    exact runFdctQuant_zero hd hk site (by rwa [h.nblocks]) hi

theorem beforeScan_forward {s : State} (ho : s.edgeOrder = false) :
    beforeScan s = (runZeroBottom (runZeroRight (runEdgeDcFixup (runFdctQuant
      (runExtractChroma (runExtractLuma (runColorConvert s).st).st).st).st).st).st).st := by
  rw [beforeScan, runBeforeScan, ho]
  rfl

theorem beforeScan_flat {s : State} (ho : s.edgeOrder = false) (hc : s.mem.ehuf = oneBitCodes) (hw : Sixteen s)
    (hd : s.mem.div = zeroImage.mem.div) (hk : s.params.kernel = .reference) : Flat (beforeScan s) := by
  rw [beforeScan_forward ho]
  refine afterSamples_flat (((hw.kept (runColorConvert_kept _)).kept (runExtractLuma_kept _)).kept (runExtractChroma_kept _))
    ?_ ?_ ?_
  · rw [(runExtractChroma_tables _).1, (runExtractLuma_tables _).1, (runColorConvert_tables _).1, hc]
  · rw [(runExtractChroma_tables _).2, (runExtractLuma_tables _).2, (runColorConvert_tables _).2, hd]
  · rw [(runExtractChroma_kept _).1.params, (runExtractLuma_kept _).1.params, (runColorConvert_kept _).1.params, hk]

theorem zeroImage_beforeScan : Flat (beforeScan zeroImage) :=
  beforeScan_flat rfl rfl ⟨rfl, rfl⟩ rfl rfl

theorem zeroImage_codes : zeroImage.mem.ehuf = oneBitCodes := rfl

theorem zeroImage_vouched : Vouched zeroImage where
  qt := fun _ => ⟨filled_of_write (r := .qtbl) rfl (by rw [List.length_replicate]) 0,
    filled_of_write (r := .div) rfl (by rw [List.length_replicate]) 0⟩
  huff := fun _ ht _ => oneBitCodes_huff zeroImage_codes ht
  planes := fun h => (nomatch h)
  lumaSmp := fun h => (nomatch h)
  chromaSmp := fun h => (nomatch h)
  coef := fun h => (nomatch h)
  scan := fun h => (nomatch h)

/-! ## The witnesses -/

theorem allHuff_set {v : Valid} (h : v.allHuff = true) : ∀ t, t < 4 → v.huff t = true := by
  simp only [Valid.allHuff, Bool.and_eq_true] at h
  intro t ht
  match t with
  | 0 => exact h.1.1.1
  | 1 => exact h.1.1.2
  | 2 => exact h.1.2
  | 3 => exact h.2

theorem test_witness_ScanEndsCompleteOrEmpty :
    GeometryValid (zeroScan 64) ∧ (∀ t, t < 4 → (zeroScan 64).valid.huff t = true) ∧ (zeroScan 64).valid.coef = true :=
  ⟨(by unfold GeometryValid; decide), allHuff_set rfl, rfl⟩

theorem zeroScan_items {s : State} (hz : ∀ site b i, b < 6 → i < 64 → s.blk site b i = 0) (hb : s.nblocks = 6) :
    scanTokens s = [.code 0 0, .magnitude 0, .predict 0 0] ++ .code 1 0 :: (List.range' 1 5).flatMap (blockTokens s) := by
  have h0 : blockTokens s 0 = [.code 0 0, .magnitude 0, .predict 0 0, .code 1 0] := by
    have hd : dcDiff s 0 = 0 := by
      rw [dcDiff, hz _ _ _ (by omega) (by omega)]
      rfl
    rw [blockTokens, hd, block_zero hz _ (by omega), hz _ _ _ (by omega) (by omega),
      show zigzagAc (List.replicate 64 0) = List.replicate 63 0 by decide, acTokens_zeros]
    rfl
  rw [scanTokens, hb, show List.range 6 = 0 :: List.range' 1 5 from rfl, List.flatMap_cons, h0]
  rfl

/-- The DC tables, 0 and 2. -/
def isDcTable (t : Nat) : Bool := t == 0 || t == 2

/-- DC codes, and no AC code: the EOB of block 0 is the first symbol without one. -/
theorem test_witness_SymbolWithoutACodeFailsTheScan_eob :
    let s : State := { zeroScan 64 with mem := { (zeroScan 64).mem with ehuf := codesOf isDcTable } };
    let pre : List Token := [.code 0 0, .magnitude 0, .predict 0 0];
    GeometryValid s ∧ (∀ t, t < 4 → s.valid.huff t = true) ∧ s.valid.coef = true ∧ Vouched s ∧
    (∃ post, scanTokens s = pre ++ .code 1 0 :: post) ∧ (∀ x ∈ pre, x.Codable s) ∧
    (emittedBytes (tokensBits s pre)).length ≤ s.params.outCap ∧ entrySize (s.ehufEntry .port 1 0) = 0 := by
  intro s pre
  have hz : ∀ site b i, b < 6 → i < 64 → s.blk site b i = 0 := fun site _ _ hb hi => blk_zero rfl site hb hi
  have hs : s.mem.ehuf = codesOf isDcTable := rfl
  have hblk : s.mem.blk = Cells.write .blk [] 0 (List.replicate 768 0) := rfl
  have hcode : s.ehufEntry .port 0 0 = 0x10000 := codesOf_entry hs _ (by omega) (by omega)
  have hn : s.nblocks = 6 := by
    show 6 * (ceilDiv 16 16 * ceilDiv 16 16) = 6
    decide
  refine ⟨(by unfold GeometryValid; decide), allHuff_set rfl, rfl, ⟨fun h => (nomatch h), fun _ ht _ => codesOf_huff hs ht,
    fun h => (nomatch h), fun h => (nomatch h), fun h => (nomatch h), fun _ => zeros_filled hblk hn, fun h => (nomatch h)⟩,
    ⟨_, zeroScan_items hz hn⟩, ?_, ?_, ?_⟩
  · intro x hx
    simp only [pre, List.mem_cons, List.not_mem_nil, or_false] at hx
    rcases hx with rfl | rfl | rfl
    · rw [Token.Codable, hcode]; decide
    · trivial
    · trivial
  · simp only [pre, tokensBits, List.flatMap_cons, List.flatMap_nil, tokenBits, codeBits, hcode]
    decide
  · rw [codesOf_entry hs _ (by omega) (by omega)]
    decide

/-- A DC of 0 without a code. -/
theorem test_witness_SymbolWithoutACodeFailsTheScan :
    let s : State := { zeroScan 64 with mem := { (zeroScan 64).mem with ehuf := Cells.write .ehuf [] 0 (List.replicate 0x1000 0) } }
    GeometryValid s ∧ (∀ t, t < 4 → s.valid.huff t = true) ∧ s.valid.coef = true ∧
    entrySize (s.ehufEntry (.emission 0) 0 (magSize (s.blk .scanBlock 0 0))) = 0 := by
  intro s
  refine ⟨(by unfold GeometryValid; decide), allHuff_set rfl, rfl, ?_⟩
  rw [blk_zero (s := s) rfl _ (by omega) (by omega), show magSize 0 = 0 by decide]
  have h : ∀ off, off < 4 → s.mem.ehuf.read .ehuf off = some 0 := by
    intro off ho
    show (Cells.write .ehuf [] 0 (List.replicate 0x1000 0)).read .ehuf off = _
    rw [Cells.read_write, if_pos (by rw [List.length_replicate]; omega), List.getElem?_replicate_of_lt (by omega)]
  rw [entry_of_reads (t := 0) (sym := 0) (h (ehufOff 0 0) (by decide)) (h (ehufOff 0 0 + 1) (by decide))
    (h (ehufOff 0 0 + 2) (by decide)) (h (ehufOff 0 0 + 3) (by decide))]
  decide

/-- A first AC coefficient of −32768 after a DC of 0 that has a code. -/
theorem test_witness_OversizedCoefficientFailsTheScan :
    let s : State := { zeroScan 64 with
      mem := { (zeroScan 64).mem with blk := Cells.write .blk [] 0 ([0, 0, 0, 0x80] ++ List.replicate 764 0) } }
    GeometryValid s ∧ (∀ t, t < 4 → s.valid.huff t = true) ∧ s.valid.coef = true ∧ 8 ≤ s.params.outCap ∧
    CodesProper s 0 ∧ HasCode s 0 (magSize (s.blk .scanBlock 0 0)) ∧ s.blk .scanBlock 0 1 = -32768 := by
  intro s
  have hr : ∀ off, off < 768 → (s.mem.cells .blk).read .blk off = ([0, 0, 0, 0x80] ++ List.replicate 764 (0 : Byte))[off]? := by
    intro off ho
    show (Cells.write .blk [] 0 ([0, 0, 0, 0x80] ++ List.replicate 764 0)).read .blk off = _
    rw [Cells.read_write, if_pos (by rw [List.length_append, List.length_replicate]; simp; omega), Nat.sub_zero]
  have h0 : s.blk .scanBlock 0 0 = 0 := by
    rw [blk_eq, byte_of_read (b := 0) _ (hr _ (by omega)), byte_of_read (b := 0) _ (hr _ (by omega))]
    decide
  have h1 : s.blk .scanBlock 0 1 = -32768 := by
    rw [blk_eq, byte_of_read (b := 0) _ (hr _ (by omega)), byte_of_read (b := 0x80) _ (hr _ (by omega))]
    decide
  have hs : s.mem.ehuf = oneBitCodes := (zeroScan_flat 64).codes
  refine ⟨(by unfold GeometryValid; decide), allHuff_set rfl, rfl, (by decide), ?_, ?_, h1⟩
  · exact (oneBitCodes_huff hs (by omega)).2
  · rw [h0]
    intro n
    rw [oneBitCodes_entry hs _ (by omega) (by decide)]
    decide

/-- −32768 at the last place of block 0: after the three ZRLs of the run of 62 zeros. -/
theorem test_witness_OversizedCoefficientFailsTheScan_run :
    let s : State := { zeroScan 64 with
      mem := { (zeroScan 64).mem with blk := Cells.write .blk [] 0 (List.replicate 127 0 ++ 0x80 :: List.replicate 640 0) } };
    let pre : List Token := [.code 0 0, .magnitude 0, .predict 0 0, .code 1 0xF0, .code 1 0xF0, .code 1 0xF0];
    GeometryValid s ∧ (∀ t, t < 4 → s.valid.huff t = true) ∧ s.valid.coef = true ∧ Vouched s ∧
    (∃ post, scanTokens s = pre ++ .tooLong 1 16 :: post) ∧ (∀ x ∈ pre, x.Codable s) ∧
    (emittedBytes (tokensBits s pre)).length ≤ s.params.outCap := by
  intro s pre
  have hr : ∀ off, off < 768 →
      (s.mem.cells .blk).read .blk off = some (if off = 127 then 0x80 else 0) := by
    intro off ho
    show (Cells.write .blk [] 0 (List.replicate 127 0 ++ 0x80 :: List.replicate 640 0)).read .blk off = _
    rw [Cells.read_write, if_pos (by rw [List.length_append, List.length_cons, List.length_replicate, List.length_replicate]; omega),
      Nat.sub_zero]
    by_cases h1 : off < 127
    · rw [List.getElem?_append_left (by rwa [List.length_replicate]), List.getElem?_replicate_of_lt h1, if_neg (by omega)]
    · rw [List.getElem?_append_right (by rw [List.length_replicate]; omega), List.length_replicate]
      by_cases h2 : off = 127
      · subst h2; rfl
      · rw [show off - 127 = (off - 128) + 1 by omega, List.getElem?_cons_succ,
          List.getElem?_replicate_of_lt (by omega), if_neg h2]
  have hblk : ∀ i, i < 64 → s.blk .scanBlock 0 i = if i = 63 then -32768 else 0 := by
    intro i hi
    rw [blk_eq, byte_of_read _ (hr _ (by omega)), byte_of_read _ (hr _ (by omega))]
    by_cases h : i = 63
    · subst h; decide
    · rw [if_neg (by omega), if_neg (by omega), if_neg h]
      decide
  have hblock : s.block .scanBlock 0 = List.replicate 63 0 ++ [-32768] := by
    rw [State.block, List.map_congr_left fun i hi => hblk i (List.mem_range.1 hi)]
    decide
  have h0 : blockTokens s 0 = pre ++ [.tooLong 1 16] := by
    have hd : dcDiff s 0 = 0 := by
      rw [dcDiff, hblk 0 (by omega)]
      rfl
    rw [blockTokens, hd, hblock, hblk 0 (by omega)]
    decide
  have hs : s.mem.ehuf = oneBitCodes := (zeroScan_flat 64).codes
  have hcode : ∀ t sym, t < 4 → sym < 256 → s.ehufEntry .port t sym = 0x10000 := fun t sym ht hsym =>
    oneBitCodes_entry hs _ ht hsym
  refine ⟨(by unfold GeometryValid; decide), allHuff_set rfl, rfl, ⟨fun h => (nomatch h),
    fun _ ht _ => oneBitCodes_huff hs ht, fun h => (nomatch h), fun h => (nomatch h), fun h => (nomatch h),
    fun _ b hb _ off _ hoff => ?_, fun h => (nomatch h)⟩, ⟨(List.range' 1 5).flatMap (blockTokens s), ?_⟩, ?_, ?_⟩
  · have : b < 6 := by rwa [show s.nblocks = 6 from zeroScan_blocks 64] at hb
    rw [hr off (by omega)]
    rfl
  · rw [scanTokens, show s.nblocks = 6 from zeroScan_blocks 64, show List.range 6 = 0 :: List.range' 1 5 from rfl,
      List.flatMap_cons, h0, List.append_assoc]
    rfl
  · intro x hx
    simp only [pre, List.mem_cons, List.not_mem_nil, or_false] at hx
    rcases hx with rfl | rfl | rfl | rfl | rfl | rfl
    · rw [Token.Codable, hcode _ _ (by omega) (by omega)]; decide
    · trivial
    · trivial
    · rw [Token.Codable, hcode _ _ (by omega) (by omega)]; decide
    · rw [Token.Codable, hcode _ _ (by omega) (by omega)]; decide
    · rw [Token.Codable, hcode _ _ (by omega) (by omega)]; decide
  · simp only [pre, tokensBits, List.flatMap_cons, List.flatMap_nil, tokenBits, codeBits,
      hcode _ _ (show (0 : Nat) < 4 by omega) (show (0 : Nat) < 256 by omega),
      hcode _ _ (show (1 : Nat) < 4 by omega) (show (0xF0 : Nat) < 256 by omega)]
    decide

/-- A scan that completes, with the hypotheses of ScanOutputIsStuffed, SuccessfulScanIsTheStuffedBits and
ScanDependsOnBlocksAndCodesAlone (the second state differs in QUALITY and the epoch). -/
theorem test_witness_successfulScan :
    Vouched (zeroScan 64) ∧ (zeroScan 64).params.outCap ≤ 2 ^ 28 ∧ GeometryValid (zeroScan 64) ∧
    (∀ t, t < 4 → (zeroScan 64).valid.huff t = true) ∧ (zeroScan 64).valid.coef = true ∧
    (∃ u, exec .encodeScan (zeroScan 64) = .next u ∧ u.valid.scan = true) ∧
    (let s' : State := { zeroScan 64 with quality := 7, epoch := 9 };
      s'.params = (zeroScan 64).params ∧ (∀ t, t < 4 → s'.valid.huff t = true) ∧ s'.valid.coef = true ∧
      s'.width = (zeroScan 64).width ∧ s'.height = (zeroScan 64).height ∧ s'.mem.blk = (zeroScan 64).mem.blk ∧
      s'.mem.ehuf = (zeroScan 64).mem.ehuf ∧ ∃ u', exec .encodeScan s' = .next u') :=
  ⟨zeroScan_vouched 64, (by decide), (by unfold GeometryValid; decide), allHuff_set rfl, rfl, zeroScan_completes, rfl,
    allHuff_set rfl, rfl, rfl, rfl, rfl, rfl, by
      obtain ⟨r, t, h, -⟩ := exec_kept (i := .encodeScan) rfl { zeroScan 64 with quality := 7, epoch := 9 }
      exact ⟨_, h⟩⟩

theorem test_witness_ScanOutputIsStuffed :
    (zeroScan 64).params.outCap ≤ 2 ^ 28 ∧ GeometryValid (zeroScan 64) ∧
    (∀ t, t < 4 → (zeroScan 64).valid.huff t = true) ∧ (zeroScan 64).valid.coef = true ∧
    ∃ u, exec .encodeScan (zeroScan 64) = .next u ∧ u.valid.scan = true :=
  have ⟨_, h1, h2, h3, h4, h5, _⟩ := test_witness_successfulScan
  ⟨h1, h2, h3, h4, h5⟩

theorem test_witness_SuccessfulScanIsTheStuffedBits :
    Vouched (zeroScan 64) ∧ (zeroScan 64).params.outCap ≤ 2 ^ 28 ∧ GeometryValid (zeroScan 64) ∧
    (∀ t, t < 4 → (zeroScan 64).valid.huff t = true) ∧ (zeroScan 64).valid.coef = true ∧
    ∃ u, exec .encodeScan (zeroScan 64) = .next u ∧ u.valid.scan = true :=
  ⟨zeroScan_vouched 64, test_witness_ScanOutputIsStuffed⟩

theorem test_witness_ScanDependsOnBlocksAndCodesAlone :
    let s' : State := { zeroScan 64 with quality := 7, epoch := 9 };
    Vouched (zeroScan 64) ∧ (zeroScan 64).params.outCap ≤ 2 ^ 28 ∧ GeometryValid (zeroScan 64) ∧
    (∀ t, t < 4 → (zeroScan 64).valid.huff t = true) ∧ (zeroScan 64).valid.coef = true ∧
    (∃ u, exec .encodeScan (zeroScan 64) = .next u) ∧
    s'.params = (zeroScan 64).params ∧ (∀ t, t < 4 → s'.valid.huff t = true) ∧ s'.valid.coef = true ∧
    s'.width = (zeroScan 64).width ∧ s'.height = (zeroScan 64).height ∧ s'.mem.blk = (zeroScan 64).mem.blk ∧
    s'.mem.ehuf = (zeroScan 64).mem.ehuf ∧ ∃ u', exec .encodeScan s' = .next u' :=
  have ⟨h0, h1, h2, h3, h4, ⟨u, h5, _⟩, h6⟩ := test_witness_successfulScan
  ⟨h0, h1, h2, h3, h4, ⟨u, h5⟩, h6⟩

/-- The zero MCU fits 64 bytes, exactly 2, and not 1. -/
theorem test_witness_ScanCompletesExactlyWhenItFits :
    (∀ cap, Vouched (zeroScan cap)) ∧ (zeroScan 2).params.outCap ≤ 2 ^ 28 ∧ GeometryValid (zeroScan 2) ∧
    GeometryValid (zeroScan 1) ∧ (∀ cap t, t < 4 → (zeroScan cap).valid.huff t = true) ∧
    (∀ cap, (zeroScan cap).valid.coef = true) ∧ (∀ cap, CodesReady (zeroScan cap)) ∧ (∀ cap, CoefsSmall (zeroScan cap)) ∧
    (ecsOf (zeroScan 2)).length ≤ (zeroScan 2).params.outCap ∧ (zeroScan 1).params.outCap < (ecsOf (zeroScan 1)).length := by
  refine ⟨zeroScan_vouched, (by decide), (by unfold GeometryValid; decide), (by unfold GeometryValid; decide),
    fun cap => allHuff_set rfl, fun _ => rfl, fun cap => (zeroScan_flat cap).codesReady, fun cap => (zeroScan_flat cap).coefsSmall,
    ?_, ?_⟩
  · rw [(zeroScan_flat 2).ecs]; decide
  · rw [(zeroScan_flat 1).ecs]; decide

/-- The standard specifications are all accepted; with an over-filled table 2, tables 0 and 1 still are. -/
theorem test_witness_InitTablesIsItsComponents :
    (∀ t, t < 4 → SpecAccepted base t) ∧
    (let s : State := { base with mem := base.mem.write .huffSpec 0x401 [3] };
      (∀ k, k < 2 → SpecAccepted s k) ∧ ¬SpecAccepted s 2) := by
  unfold SpecAccepted
  decide +kernel

theorem test_witness_EncodeImageIsItsStages :
    GeometryValid zeroImage ∧ zeroImage.valid.qt = true ∧ (∀ t, t < 4 → zeroImage.valid.huff t = true) :=
  ⟨(by unfold GeometryValid; decide), rfl, allHuff_set rfl⟩

theorem test_witness_EncodeImageCompletes :
    Vouched zeroImage ∧ zeroImage.params.outCap ≤ 2 ^ 28 ∧ GeometryValid zeroImage ∧ zeroImage.valid.qt = true ∧
    (∀ t, t < 4 → zeroImage.valid.huff t = true) ∧ CodesReady (beforeScan zeroImage) ∧ CoefsSmall (beforeScan zeroImage) ∧
    (ecsOf (beforeScan zeroImage)).length ≤ zeroImage.params.outCap := by
  refine ⟨zeroImage_vouched, (by decide), (by unfold GeometryValid; decide), rfl, allHuff_set rfl, zeroImage_beforeScan.codesReady,
    zeroImage_beforeScan.coefsSmall, ?_⟩
  rw [zeroImage_beforeScan.ecs]
  decide

/-- Standard tables; an encode that completes without an error; a command that ends in one. -/
theorem test_witness_FramingIsSixHundredTwentyFiveBytes :
    base.mem.huffSpec = [] ∧
    (let s : State := { zeroScan 64 with status := { (zeroScan 64).status with lastOp := 0x20 } };
      s.status.lastOp = opField (encode .encodeScan) ∧ s.status.err = false ∧
      ∃ u, exec .encodeScan s = .next u) ∧
    ∃ u, exec .colorConvert base = .next u ∧ u.status.err = true := by
  refine ⟨rfl, ⟨by decide, rfl, ?_⟩, _, rfl, rfl⟩
  obtain ⟨r, t, h, -⟩ := exec_kept (i := .encodeScan) rfl
    { zeroScan 64 with status := { (zeroScan 64).status with lastOp := 0x20 } }
  exact ⟨_, h⟩

/-- R150: after a scan that completed, table 0 is lost, and the next ENCODE_IMAGE ends in TablesNotBuilt with SCAN still set:
nothing is written. Without the error the file would be. -/
theorem test_hostOutput :
    let scanned : State := { sized base 16 16 with
      valid := ⟨true, false, true, true, true, true, false, false, true, true⟩
      status := { busy := true, done := false, err := false, ovr := false, errcode := 0, lastOp := 0x30 } };
    afterExec .encodeImage scanned (fun u => (u.valid.scan, u.status.errcode, u.hostOutput)) = some (true, 7, []) ∧
    ({ scanned with status := { scanned.status with busy := false, done := true } } : State).encoded = true := by
  decide +kernel

/-- A pending BUILD_QTABLES, which the next step runs. -/
theorem test_witness_StepKeepsTheInvariant :
    Inv (base.latch 1) ∧ Vouched (base.latch 1) ∧ ∃ t, step (base.latch 1) = .next t ∧ t.valid.qt = true := by
  refine ⟨⟨by decide, ⟨fun _ _ => rfl, fun _ _ => rfl, fun _ _ _ h => by cases h⟩, ?_, ?_⟩, ?_, _, rfl, rfl⟩
  · exact ⟨fun _ => rfl, (by decide), fun h => (nomatch h), fun _ => ⟨rfl, rfl, rfl⟩, ⟨by decide, fun h => (nomatch h)⟩, fun h => (nomatch h)⟩
  · exact ⟨fun h => (nomatch h), fun h => (nomatch h), fun h => (nomatch h), fun h => (nomatch h), fun h => (nomatch h), (by decide), fun h => (nomatch h)⟩
  · exact ⟨fun h => (nomatch h), fun t ht h => absurd h (by rw [show (base.latch 1).valid = Valid.none from rfl]; match t, ht with
      | 0, _ => decide
      | 1, _ => decide
      | 2, _ => decide
      | 3, _ => decide), fun h => (nomatch h), fun h => (nomatch h), fun h => (nomatch h), fun h => (nomatch h), fun h => (nomatch h)⟩

theorem test_witness_StepKeepsTheDataVouchedFor :
    Inv (base.latch 1) ∧ Vouched (base.latch 1) ∧ ∃ t, step (base.latch 1) = .next t :=
  have ⟨h1, h2, t, h3, _⟩ := test_witness_StepKeepsTheInvariant
  ⟨h1, h2, t, h3⟩

end Sys2Proof.Tests
end

section
/-! SUPPORT. One step of the machine, taken apart: what a host write can do to the state, what the engine's turn can do. -/

namespace Sys2Proof.Machine

/-! ## Host writes -/

/-- What a host write of `v` at the address `a` that is no bus error can do (R58, R64): one case per effect, with BUSY = 0
where the write is one that BUSY = 1 drops. -/
inductive Wrote (a : Nat) (v : Word) (s : State) : State → Prop where
  /-- A read-only place, a CTRL write with bit 0 = 0, or a geometry write of the same value. -/
  | ignored : Wrote a v s s
  | dropped : Wrote a v s s.drop
  | reset (ha : a = 0x008) (hv : v.getLsbD 0 = true) : Wrote a v s s.resetCore
  | accepted (idle : s.status.busy = false) : Wrote a v s (s.latch v)
  | acknowledged : Wrote a v s (s.acknowledge v)
  | irqEnabled (e : IrqEn) : Wrote a v s { s with irqEn := e }
  | configured (idle : s.status.busy = false) (q : Byte) (o : Bool) :
      Wrote a v s { s with quality := q, edgeOrder := o }
  | resized (idle : s.status.busy = false) (w h : Half) :
      Wrote a v s { s with width := w, height := h, valid := s.valid.newGeometry }
  | stored (idle : s.status.busy = false) (r : Ram) (hr : r.writable = true) (off n : Nat) :
      Wrote a v s { s with mem := s.mem.writeAll r (storeWrites r off n v) }

theorem present_idle {s : State} (h : s.status.busy = false) (w : Word) : s.present w = s.latch w := by
  simp [State.present, h]

/-- CTRL stands at the offset 8 alone (R31). -/
theorem eq_eight_of_regAt_ctrl {a : Nat} (h : a < 0x60) (h4 : a % 4 = 0) (hr : regAt a = .ctrl) : a = 0x008 := by
  have key : ∀ k, k < 24 → allRegs.getD k .id = .ctrl → k = 2 := by decide
  have := key (a / 4) (by omega) hr
  omega

/-- A register write that is not dropped. -/
theorem writeReg_wrote {s t : State} {a : Nat} {r : Reg} {v : Word} (hctrl : r = .ctrl → a = 0x008)
    (hidle : r.locked = true → s.status.busy = false) (h : s.writeReg r v = .next t) : Wrote a v s t := by
  cases r with
  | ctrl =>
    rw [writeReg_ctrl] at h
    cases h
    split
    · exact .reset (hctrl rfl) ‹_›
    · exact .ignored
  | cmd => cases h; rw [present_idle (hidle rfl)]; exact .accepted (hidle rfl)
  | status => cases h; exact .acknowledged
  | irqEn => cases h; exact .irqEnabled _
  | quality => cases h; exact .configured (hidle rfl) _ s.edgeOrder
  | edgeCfg => cases h; exact .configured (hidle rfl) s.quality _
  | width =>
    cases h
    unfold State.setWidth
    split
    · exact .ignored
    · exact .resized (hidle rfl) _ s.height
  | height =>
    cases h
    unfold State.setHeight
    split
    · exact .ignored
    · exact .resized (hidle rfl) s.width _
  | _ => cases h; exact .ignored

/-- A write that is no bus error has one of the effects of `Wrote`. -/
theorem memWrite_wrote {s t : State} {a n : Nat} {v : Word} (hn : 0 < n) (ha : AccessOk s.params a n)
    (h : s.memWrite a n v = .next t) : Wrote a v s t := by
  rcases ha.place hn with ⟨hr, rfl, h4, -⟩ | ⟨-, r, off, hl, -, -⟩
  · rw [memWrite_reg s 4 v hr rfl] at h
    split at h
    · cases h; exact .ignored
    · split at h
      · cases h; exact .dropped
      · next hd =>
        rw [Bool.and_eq_true, not_and'] at hd
        exact writeReg_wrote (eq_eight_of_regAt_ctrl hr h4) (fun hl => Bool.eq_false_iff.2 (hd hl)) h
  · rw [memWrite_ram n v hl] at h
    split at h
    · cases h; exact .ignored
    · next hw =>
      split at h
      · cases h; exact .dropped
      · next hb => cases h; exact .stored (Bool.eq_false_iff.2 hb) r (by simpa using hw) off n

/-! ## The engine's turn -/

/-- The error can stand in STATUS.ERRCODE and ERRINFO.SUB: sub-causes are 0..4, and not 0 with InternalInvariant (R160). -/
def CmdError.Legal (e : CmdError) : Prop := e.info.sub.toNat ≤ 4 ∧ (e.code = 4 → 1 ≤ e.info.sub.toNat)

theorem internal_legal {sub : Nat} (t sym : Nat) (h1 : 1 ≤ sub) (h4 : sub ≤ 4) : (internal sub t sym).Legal := by
  have : sub % 16 = sub := by omega
  simp [CmdError.Legal, internal, CmdError.info, this, h1, h4]

/-- Every error but InternalInvariant is legal: its ERRINFO is 0. -/
theorem CmdError.legal_of_code {e : CmdError} (h : e.code ≠ 4) : e.Legal := by
  refine ⟨?_, fun h4 => absurd h4 h⟩
  cases e with
  | internalInvariant => exact absurd rfl h
  | _ => exact Nat.zero_le _

/-- A failed check is no InternalInvariant (R163). -/
theorem checkAll_legal {tables stages : State → Bool} {s : State} {e : CmdError} (h : checkAll tables stages s = some e) :
    e.Legal := by
  apply CmdError.legal_of_code
  unfold checkAll at h
  split at h
  · split at h
    · split at h <;> cases h
      decide
    · cases h; decide
  · cases h; decide

theorem checkOf_legal {i : Instr} {s : State} {e : CmdError} (h : checkOf i s = some e) : e.Legal := by
  cases i with
  | nop | buildQtables | buildHuff | initTables | softReset => cases h
  | _ =>
    simp only [checkOf, checkGeometry, checkPlanes, checkCoef, checkSamples, checkScan, checkImage] at h
    exact checkAll_legal h

/-- What the engine's turn can do: nothing, or run the pending command, or complete it with an error and no other effect. -/
theorem engineTurn_cases {s t : State} (h : engineTurn s = .next t) :
    (s.status.busy = false ∧ t = s) ∨
      s.status.busy = true ∧
        ((∃ i, checkOf i s = none ∧ t = complete (runOf i s).err (runOf i s).st) ∨
          ∃ e : CmdError, e.Legal ∧ t = complete (some e) s) := by
  unfold engineTurn at h
  split at h
  · next hb =>
    refine .inr ⟨hb, ?_⟩
    unfold engineStep at h
    split at h
    · next i hi =>
      rcases exec_cases (port_of_decode hi) s with ⟨hc, he⟩ | ⟨e, hc, he⟩
      · rw [he] at h; cases h; exact .inl ⟨i, hc, rfl⟩
      · rw [he] at h; cases h; exact .inr ⟨e, checkOf_legal hc, rfl⟩
    · cases h; exact .inr ⟨.illegalCommand, CmdError.legal_of_code (by decide), rfl⟩
  · next hb => cases h; exact .inl ⟨Bool.eq_false_iff.2 hb, rfl⟩

/-! ## Every step -/

/-- A host transaction has been answered: a read changes nothing else, and a write is one of `Wrote`. -/
theorem step_host_wrote {s t : State} {x : Txn} (h : NextIsHost s x) (ht : step s = .next t) :
    (∃ r, t = replied (taken s) r) ∨
      ∃ a n v u, x = .write a n v ∧ AccessOk s.params a.toNat n.bytes ∧ Wrote a.toNat v (taken s) u ∧
        t = u.answer .okWrite := by
  obtain ⟨ha, ⟨a, n, v, -, -, rfl⟩ | ⟨a, n, v, u, rfl, hm, rfl⟩⟩ := step_host_cases h ht
  · exact .inl ⟨_, rfl⟩
  · exact .inr ⟨a, n, v, u, rfl, ha, memWrite_wrote n.bytes_pos ha hm, rfl⟩

/-- What a step can do: a host transaction, the engine's turn, or a change of rst. -/
theorem step_cases {s t : State} (h : step s = .next t) :
    (∃ x, NextIsHost s x) ∨ (EngineNext s ∧ engineTurn (taken s) = .next t) ∨
      ∃ b, s.events.head? = some (.rst b) ∧ t = resetInput b (taken s) := by
  rcases event_cases s with ⟨x, hx⟩ | he | ⟨b, hb⟩
  · cases hr : s.rst with
    | false => exact .inl ⟨x, hr, hx⟩
    | true => rw [step_host_rst hr hx] at h; cases h
  · rw [step_engine he] at h; exact .inr (.inl ⟨he, h⟩)
  · rw [step_rst hb] at h; cases h; exact .inr (.inr ⟨b, hb, rfl⟩)

end Sys2Proof.Machine
end

section
/-! SUPPORT. What a scan leaves whatever the tables hold: OUT_COUNT within OUT_CAP, an empty bit buffer, a legal error. -/

namespace Sys2Proof.Machine

theorem putBits_fits {cap code size : Nat} {c : Coder} (h : Fits cap c) :
    (∀ d, putBits cap code size c = .ok d → Fits cap d) ∧ ∀ e, putBits cap code size c = .error e → e.1 = .ioFailure := by
  have hc : Fits cap { c with buffer := c.buffer <<< size ||| code, bits := c.bits + size } := ⟨h.count, h.le⟩
  obtain ⟨hok, herr, -⟩ := drain_spec ((c.bits + size) / 8) hc (Nat.mul_div_le ..)
  exact ⟨fun d hd => (hok d hd).1, fun e he => (herr e he).1⟩

theorem putBits_legal {cap code size : Nat} {c : Coder} (h : Fits cap c) {e : CmdError × Coder}
    (he : putBits cap code size c = .error e) : e.1.Legal := by
  rw [(putBits_fits h).2 e he]
  exact CmdError.legal_of_code (by decide)

theorem runToken_fits {s : State} {x : Token} {c : Coder}
    (h : Fits s.params.outCap c) :
    (∀ d, runToken s x c = .ok d → Fits s.params.outCap d) ∧ ∀ e, runToken s x c = .error e → e.1.Legal := by
  cases x with
  | code t sym =>
    simp only [runToken, emit]
    split
    · exact ⟨nofun, fun e he => by cases he; exact internal_legal t sym (by decide) (by decide)⟩
    · have h' : Fits s.params.outCap { c with emissions := c.emissions + 1 } := ⟨h.count, h.le⟩
      exact ⟨(putBits_fits h').1, fun e => putBits_legal h'⟩
  | magnitude v =>
    simp only [runToken, putMag]
    split
    · exact ⟨fun d hd => by cases hd; exact h, nofun⟩
    · exact ⟨(putBits_fits h).1, fun e => putBits_legal h⟩
  | predict comp v =>
    refine ⟨fun d hd => ?_, nofun⟩
    cases hd
    unfold Coder.setLastDc
    split <;> exact ⟨h.count, h.le⟩
  | tooLong t n => exact ⟨nofun, fun e he => by cases he; exact internal_legal t n (by decide) (by decide)⟩

theorem runTokens_fits {s : State} (xs : List Token) {c : Coder} (h : Fits s.params.outCap c) :
    (∀ d, runTokens s xs c = .ok d → Fits s.params.outCap d) ∧ ∀ e, runTokens s xs c = .error e → e.1.Legal := by
  induction xs generalizing c with
  | nil => exact ⟨fun d hd => by cases hd; exact h, nofun⟩
  | cons x xs ih =>
    cases hx : runToken s x c with
    | error e =>
      rw [runTokens_error xs hx]
      exact ⟨nofun, fun e' he => by cases he; exact (runToken_fits h).2 e hx⟩
    | ok d =>
      rw [runTokens_ok xs hx]
      exact ih ((runToken_fits h).1 d hx)

/-- A scan that succeeds has flushed the bit buffer and stayed within OUT (R137, R161). -/
theorem scan_ok {s : State} {c : Coder} (h : s.scan = .ok c) : Fits s.params.outCap c ∧ c.buffer = 0 ∧ c.bits = 0 := by
  rw [scan_eq] at h
  split at h
  · cases h
  · next d hd =>
    have hf := (runTokens_fits _ ⟨rfl, Nat.zero_le _⟩).1 d hd
    unfold flush at h
    split at h
    · cases h
    · next d' hd' =>
      cases h
      have hf' := (putBits_fits hf).1 d' hd'
      exact ⟨⟨hf'.count, hf'.le⟩, rfl, rfl⟩

/-- A scan that fails raises an error of R160 or R161. -/
theorem scan_error_legal {s : State} {e : CmdError × Coder} (h : s.scan = .error e) : e.1.Legal := by
  rw [scan_eq] at h
  have hfresh : Fits s.params.outCap Coder.fresh := ⟨rfl, Nat.zero_le _⟩
  split at h
  · next e' he => cases h; exact (runTokens_fits _ hfresh).2 _ he
  · next d hd =>
    unfold flush at h
    split at h
    · next e' he => cases h; exact putBits_legal ((runTokens_fits _ hfresh).1 d hd) he
    · cases h

/-! ## The errors of runs -/

theorem runBuildHuff_err_legal {t : BitVec 2} {s : State} {e : CmdError} (h : (runBuildHuff t s).err = some e) :
    e.Legal := by
  by_cases ha : SpecAccepted s t.toNat
  · obtain ⟨codes, -, -, hr⟩ := runBuildHuff_accepted ha
    rw [hr] at h; cases h
  · obtain ⟨sub, sym, hsub, hr⟩ := runBuildHuff_rejected ha
    rw [hr] at h; cases h
    exact internal_legal _ _ (by omega) (by omega)

theorem runEncodeScan_err_legal {s : State} {e : CmdError} (h : (runEncodeScan s).err = some e) : e.Legal := by
  unfold runEncodeScan at h
  split at h
  · cases h
  · next e' he => cases h; exact scan_error_legal he

/-- An error of one run after the other is one of the first or of the second. -/
theorem andDo_err_legal {r : Ran} {run : State → Ran} (hr : ∀ e, r.err = some e → e.Legal)
    (hrun : ∀ s e, (run s).err = some e → e.Legal) : ∀ e, (r.andDo run).err = some e → e.Legal := by
  by_cases h : r.err = none
  · rw [andDo_ok run h]; exact hrun r.st
  · rw [andDo_err run h]; exact hr

theorem runInitTables_err_legal (s : State) : ∀ e, (runInitTables s).err = some e → e.Legal :=
  andDo_err_legal (andDo_err_legal (andDo_err_legal (andDo_err_legal nofun
    fun _ _ => runBuildHuff_err_legal) fun _ _ => runBuildHuff_err_legal) fun _ _ => runBuildHuff_err_legal)
    fun _ _ => runBuildHuff_err_legal

/-- The stages of ENCODE_IMAGE before its scan raise no error (R153). -/
theorem runBeforeScan_err (s : State) : (runBeforeScan s).err = none := by
  unfold runBeforeScan Ran.edges
  split <;> rfl

theorem runOf_err_legal {i : Instr} {s : State} {e : CmdError} (h : (runOf i s).err = some e) : e.Legal := by
  cases i with
  | buildHuff t => exact runBuildHuff_err_legal h
  | initTables => exact runInitTables_err_legal s e h
  | encodeScan => exact runEncodeScan_err_legal h
  | encodeImage =>
    have he : runOf .encodeImage s = runEncodeScan (runBeforeScan s).st := andDo_ok _ (runBeforeScan_err s)
    rw [he] at h
    exact runEncodeScan_err_legal h
  | _ => cases h

end Sys2Proof.Machine
end

section
/-! SUPPORT. The invariant `Inv`, kept by every update of the state. -/

namespace Sys2Proof.Machine

/-! ## What the RAMs do not store -/

/-- The listed byte after a write: the written one, unless an unlisted byte reads as it anyway. -/
theorem Cells.get_write (r : Ram) (c : Cells) (off : Nat) (bs : List Byte) (a : Nat) :
    (c.write r off bs).get a =
      if off ≤ a ∧ a < off + bs.length then (bs[a - off]?).filter fun b => decide (r.unlisted a ≠ some b) else c.get a := by
  have hlow := lookup_filter_key (fun k => decide (k < off)) c a
  have hhigh := lookup_filter_key (fun k => decide (off + bs.length ≤ k)) c a
  simp only [Cells.get, Cells.write, List.append_assoc, List.lookup_append, lookup_filter_keeps]
  rw [hlow, hhigh]
  by_cases h1 : a < off
  · simp [h1, Nat.not_le.2 h1, show ¬off + bs.length ≤ a by omega]
  · by_cases h2 : a < off + bs.length
    · simp [h1, h2, Nat.not_lt.1 h1, Nat.not_le.2 h2]
    · have hnone : bs[a - off]? = none := List.getElem?_eq_none (by omega)
      simp [h1, h2, Nat.not_lt.1 h1, Nat.not_lt.1 h2, hnone]

/-- Several writes leave the listed byte outside all of them alone. -/
theorem Cells.get_writeAll_outside (r : Ram) (ws : List (Nat × List Byte)) (c : Cells) (a : Nat)
    (h : ∀ w ∈ ws, ¬(w.1 ≤ a ∧ a < w.1 + w.2.length)) : (c.writeAll r ws).get a = c.get a := by
  induction ws generalizing c with
  | nil => rfl
  | cons w ws ih =>
    rw [Cells.writeAll, ih _ fun x hx => h x (List.mem_cons_of_mem _ hx), Cells.get_write, if_neg (h w List.mem_cons_self)]

/-- A host write covers no RES byte of HUFFSPEC (R61). -/
theorem storeWrites_skip_res {off n a : Nat} {v : Word} (ha : isResByte a = true) :
    ∀ w ∈ storeWrites .huffSpec off n v, ¬(w.1 ≤ a ∧ a < w.1 + w.2.length) := by
  intro w hw hcov
  simp only [storeWrites, List.mem_map, List.mem_filter] at hw
  obtain ⟨j, ⟨-, hj⟩, rfl⟩ := hw
  have haj : off + j = a := Nat.le_antisymm hcov.1 (Nat.lt_succ_iff.1 hcov.2)
  simp [haj, ha] at hj

theorem writable_ne_ehuf {r : Ram} (h : r.writable = true) : Ram.ehuf ≠ r := by
  rintro rfl; cases h

theorem reservedInv_stored {s : State} (h : ReservedInv s) {r : Ram} (hr : r.writable = true) (off n : Nat) (v : Word) :
    ReservedInv { s with mem := s.mem.writeAll r (storeWrites r off n v) } := by
  have hehuf : (s.mem.writeAll r (storeWrites r off n v)).ehuf = s.mem.ehuf := by
    rw [← cells_ehuf, Memory.cells_writeAll, if_neg (writable_ne_ehuf hr), cells_ehuf]
  refine ⟨fun a ha => ?_, hehuf ▸ h.ehuf_high, hehuf ▸ h.ehuf_size⟩
  rw [← h.res_byte a ha]
  simp only
  rw [← cells_huffSpec, Memory.cells_writeAll]
  split
  · next hh => subst hh; exact Cells.get_writeAll_outside _ _ _ _ (storeWrites_skip_res ha)
  · rfl

theorem entryBytes_getElem? (code size : Nat) {j : Nat} (hj : j < 4) :
    (entryBytes code size)[j]? = some (BitVec.ofNat 8 ((size % 32 * 65536 + code % 65536) / 2 ^ (8 * j))) := by
  rw [← entryWord_toNat, ← Nat.shiftRight_eq_div_pow]
  simp [entryBytes, entryWord, toLe, hj]

/-- Bits [31:21] of a derived entry are 0 (R83). -/
theorem ehufBytes_reserved (assigned : List (Nat × Nat × Nat)) {n : Nat} (hn : n < 1024) :
    (n % 4 = 3 → (ehufBytes assigned)[n]? = some 0) ∧
      (n % 4 = 2 → ∀ b, (ehufBytes assigned)[n]? = some b → b.toNat < 32) := by
  obtain ⟨sym, j, hj, rfl⟩ : ∃ sym j, j < 4 ∧ n = 4 * sym + j := ⟨n / 4, n % 4, by omega, by omega⟩
  rw [ehufBytes_getElem? _ (by omega) hj, entryBytes_getElem? _ _ hj, Nat.mul_add_mod, Nat.mod_eq_of_lt hj]
  refine ⟨?_, ?_⟩
  · rintro rfl
    congr 1
    apply BitVec.eq_of_toNat_eq
    rw [BitVec.toNat_ofNat]
    change _ = 0
    omega
  · rintro rfl b hb
    cases hb
    simp only [BitVec.toNat_ofNat]
    omega

theorem reservedInv_built {s : State} (h : ReservedInv s) (t : Nat) (assigned : List (Nat × Nat × Nat)) (v : Valid) :
    ReservedInv { s with mem := s.mem.write .ehuf (ehufOff t 0) (ehufBytes assigned), valid := v } := by
  have hget := Cells.get_write .ehuf s.mem.ehuf (ehufOff t 0) (ehufBytes assigned)
  rw [ehufBytes_length] at hget
  refine ⟨h.res_byte, fun off ho => ?_, fun off b ho hb => ?_⟩
  · refine (hget off).trans ?_
    split
    · next hin =>
      have := (ehufBytes_reserved assigned (n := off - ehufOff t 0) (by omega)).1 (by simp only [ehufOff] at *; omega)
      simp [this, Ram.unlisted, ho]
    · exact h.ehuf_high off ho
  · have hb' := (hget off).symm.trans hb
    split at hb'
    · next hin =>
      refine (ehufBytes_reserved assigned (n := off - ehufOff t 0) (by omega)).2 (by simp only [ehufOff] at *; omega) b ?_
      exact (Option.filter_eq_some_iff.1 hb').1
    · exact h.ehuf_size off b ho hb'

/-! ## Reset -/

theorem resetWith_inv (p : Params) : Inv (State.resetWith p) where
  mem := Memory.empty_wf
  reserved := ⟨fun _ _ => rfl, fun _ _ => rfl, nofun⟩
  status := ⟨fun _ => rfl, List.mem_cons_self, fun _ => rfl, nofun, ⟨Nat.zero_le _, nofun⟩, nofun⟩
  valid := ⟨nofun, nofun, nofun, nofun, nofun, Nat.zero_le _, nofun⟩

theorem resetCore_inv (s : State) : Inv s.resetCore :=
  have h := resetWith_inv s.params
  ⟨h.mem, { h.reserved with }, { h.status with reset_idle := fun _ => rfl }, { h.valid with }⟩

theorem resetInput_inv {s : State} (h : Inv s) (b : Bool) : Inv (resetInput b s) := by
  cases b with
  | true =>
    have h := resetCore_inv s
    exact ⟨h.mem, { h.reserved with }, { h.status with reset_idle := fun _ => rfl }, { h.valid with }⟩
  | false => exact ⟨h.mem, { h.reserved with }, { h.status with reset_idle := nofun }, { h.valid with }⟩

/-! ## Registers -/

theorem answer_inv {s : State} (h : Inv s) (r : Reply) : Inv (s.answer r) :=
  ⟨h.mem, { h.reserved with }, { h.status with }, { h.valid with }⟩

theorem taken_inv {s : State} (h : Inv s) : Inv (taken s) :=
  ⟨h.mem, { h.reserved with }, { h.status with }, { h.valid with }⟩

theorem latch_statusInv {s : State} (hr : s.rst = false) (w : Word) : StatusInv (s.latch w) where
  errcode_zero := fun _ => rfl
  errcode_legal := List.mem_cons_self
  idle_pending := nofun
  busy_clear := fun _ => ⟨rfl, rfl, rfl⟩
  sub_legal := ⟨Nat.zero_le _, nofun⟩
  reset_idle := fun h => by rw [latch_rst, hr] at h; cases h

/-- Clearing ERR clears ERRCODE, and clearing the others breaks nothing (R33). -/
theorem acknowledge_statusInv {s : State} (h : StatusInv s) (v : Word) : StatusInv (s.acknowledge v) where
  errcode_zero := by
    simp only [acknowledge_status, w1c_err, w1c_errcode, Bool.and_eq_false_iff]
    intro he
    split
    · rfl
    · next hv => exact h.errcode_zero (he.resolve_right (by simpa using hv))
  errcode_legal := by
    simp only [acknowledge_status, w1c_errcode]
    split
    · exact List.mem_cons_self
    · exact h.errcode_legal
  idle_pending := h.idle_pending
  busy_clear := fun hb => by
    obtain ⟨hd, he, hi⟩ := h.busy_clear hb
    simp [hd, he, hi]
  sub_legal := by
    refine ⟨h.sub_legal.1, ?_⟩
    simp only [acknowledge_status, w1c_errcode]
    split
    · nofun
    · exact h.sub_legal.2
  reset_idle := h.reset_idle

theorem wrote_inv {a : Nat} {v : Word} {s t : State} (h : Inv s) (hr : s.rst = false) (hw : Wrote a v s t) : Inv t := by
  cases hw with
  | ignored => exact h
  | dropped => exact ⟨h.mem, { h.reserved with }, { h.status with }, { h.valid with }⟩
  | reset => exact resetCore_inv s
  | accepted => exact ⟨h.mem, { h.reserved with }, latch_statusInv hr v, { h.valid with }⟩
  | acknowledged => exact ⟨h.mem, { h.reserved with }, acknowledge_statusInv h.status v, { h.valid with }⟩
  | irqEnabled e => exact ⟨h.mem, { h.reserved with }, { h.status with }, { h.valid with }⟩
  | configured _ q o => exact ⟨h.mem, { h.reserved with }, { h.status with }, { h.valid with }⟩
  | resized =>
    exact ⟨h.mem, { h.reserved with }, { h.status with }, nofun, nofun, nofun, nofun, nofun, h.valid.out_count, nofun⟩
  | stored _ r hw off n =>
    exact ⟨Memory.writeAll_wf h.mem r _, reservedInv_stored h.reserved hw off n v, { h.status with }, { h.valid with }⟩

/-! ## Completion -/

theorem errcode_mem (e : CmdError) : e.code ∈ ([0, 1, 2, 4, 5, 7, 8] : List (BitVec 4)) := by
  cases e <;> simp [CmdError.code]

theorem complete_inv {s : State} (h : Inv s) (hb : s.status.busy = true) {r : Option CmdError}
    (hr : ∀ e, r = some e → e.Legal) : Inv (complete r s) := by
  obtain ⟨-, herr, hinfo⟩ := h.status.busy_clear hb
  cases r with
  | none =>
    exact ⟨h.mem, { h.reserved with },
      { h.status with idle_pending := fun _ => rfl, busy_clear := nofun, reset_idle := fun _ => rfl }, { h.valid with }⟩
  | some e =>
    exact ⟨h.mem, { h.reserved with },
      ⟨nofun, errcode_mem e, fun _ => rfl, nofun, hr e rfl, fun _ => rfl⟩, { h.valid with }⟩

end Sys2Proof.Machine
end

section
/-! SUPPORT. The runs of the commands keep `Inv`, and so does every step. -/

namespace Sys2Proof.Machine

/-- Writing blocks keeps the invariant where the new flags do. -/
theorem updateBlocks_inv {s : State} (h : Inv s) (p : Nat → Bool) (f : Nat → List Byte) {v : Valid}
    (hv : ValidInv { s with valid := v }) : Inv { s with mem := s.updateBlocks p f, valid := v } :=
  ⟨updateBlocks_wf h.mem p f, { h.reserved with }, { h.status with }, { hv with }⟩

theorem unscanned_validInv {s : State} (h : ValidInv s) : ValidInv { s with valid := s.valid.unscanned } :=
  { h with scan_coef := nofun, scan_flushed := nofun }

theorem runColorConvert_inv {s : State} (h : Inv s) (hg : GeometryValid s) : Inv (runColorConvert s).st where
  mem := Memory.write_wf (Memory.write_wf (Memory.write_wf h.mem _ _ _) _ _ _) _ _ _
  reserved := { h.reserved with }
  status := { h.status with }
  valid :=
    { h.valid with
      planes_geometry := fun _ => hg
      luma_planes := fun hl => ⟨rfl, (h.valid.luma_planes hl).2⟩
      chroma_planes := fun hc => ⟨rfl, (h.valid.chroma_planes hc).2⟩
      coef_planes := fun _ => rfl }

theorem runExtractLuma_inv {s : State} (h : Inv s) (hp : s.valid.planes = true) : Inv (runExtractLuma s).st :=
  updateBlocks_inv h _ _
    { h.valid with
      luma_planes := fun _ => ⟨hp, rfl⟩
      chroma_planes := fun hc => ⟨(h.valid.chroma_planes hc).1, rfl⟩
      coef_planes := nofun
      scan_coef := nofun
      scan_flushed := nofun }

theorem runExtractChroma_inv {s : State} (h : Inv s) (hp : s.valid.planes = true) : Inv (runExtractChroma s).st :=
  updateBlocks_inv h _ _
    { h.valid with
      luma_planes := fun hl => ⟨(h.valid.luma_planes hl).1, rfl⟩
      chroma_planes := fun _ => ⟨hp, rfl⟩
      coef_planes := nofun
      scan_coef := nofun
      scan_flushed := nofun }

theorem runFdctQuant_inv {s : State} (h : Inv s) (hp : s.valid.planes = true) : Inv (runFdctQuant s).st :=
  updateBlocks_inv h _ _
    { h.valid with
      luma_planes := nofun
      chroma_planes := nofun
      coef_planes := fun _ => hp
      scan_coef := nofun
      scan_flushed := nofun }

theorem runEdgeDcFixup_inv {s : State} (h : Inv s) : Inv (runEdgeDcFixup s).st :=
  updateBlocks_inv h _ _ (unscanned_validInv h.valid)

theorem runZeroRight_inv {s : State} (h : Inv s) : Inv (runZeroRight s).st :=
  updateBlocks_inv h _ _ (unscanned_validInv h.valid)

theorem runZeroBottom_inv {s : State} (h : Inv s) : Inv (runZeroBottom s).st :=
  updateBlocks_inv h _ _ (unscanned_validInv h.valid)

theorem runBuildQtables_inv {s : State} (h : Inv s) : Inv (runBuildQtables s).st :=
  ⟨Memory.write_wf (Memory.write_wf h.mem _ _ _) _ _ _, { h.reserved with }, { h.status with }, { h.valid with }⟩

theorem setHuff_validInv {s : State} (h : ValidInv s) (t : Nat) (b : Bool) :
    ValidInv { s with valid := s.valid.setHuff t b } := by
  unfold Valid.setHuff
  split <;> exact { h with }

theorem runBuildHuff_inv {s : State} (h : Inv s) (t : BitVec 2) : Inv (runBuildHuff t s).st := by
  by_cases ha : SpecAccepted s t.toNat
  · obtain ⟨codes, -, -, hr⟩ := runBuildHuff_accepted ha
    rw [hr]
    exact ⟨Memory.write_wf h.mem _ _ _, reservedInv_built h.reserved _ _ _, { h.status with },
      { setHuff_validInv h.valid t.toNat true with }⟩
  · obtain ⟨sub, sym, -, hr⟩ := runBuildHuff_rejected ha
    rw [hr]
    exact ⟨h.mem, { h.reserved with }, { h.status with }, setHuff_validInv h.valid t.toNat false⟩

/-- A scan keeps the invariant where COEF is set, as its checks ask. -/
theorem runEncodeScan_inv {s : State} (h : Inv s) (hc : s.valid.coef = true) : Inv (runEncodeScan s).st := by
  unfold runEncodeScan
  split
  · next c hs =>
    obtain ⟨hfits, hbuf, hbits⟩ := scan_ok hs
    have hcount : (s.scanDone c).outCount.toNat ≤ s.params.outCap :=
      le_trans (by rw [scanDone_outCount, BitVec.toNat_ofNat]; exact Nat.mod_le ..) hfits.le
    have hempty : (s.scanDone c).entBuf = 0 ∧ (s.scanDone c).entBits = 0 := by simp [hbuf, hbits]
    exact ⟨Memory.write_wf (Memory.forget_wf h.mem _) _ _ _, { h.reserved with }, { h.status with },
      { h.valid with scan_coef := fun _ => hc, out_count := hcount, scan_flushed := fun _ => hempty }⟩
  · exact ⟨Memory.forget_wf h.mem _, { h.reserved with }, { h.status with },
      { h.valid with scan_coef := nofun, out_count := Nat.zero_le _, scan_flushed := nofun }⟩

/-! ## One run after the other -/

theorem andDo_keeps {P : State → Prop} {r : Ran} {run : State → Ran} (hr : P r.st)
    (hrun : ∀ s, P s → P (run s).st) : P (r.andDo run).st :=
  andDo_rel (P := fun s t => P s → P t) (s := r.st) (fun _ _ _ f g => g ∘ f) id hrun hr

/-- What each edge operation keeps, the three of them keep in either order (R153). -/
theorem edges_keeps {P : State → Prop} {r : Ran} (order : Bool) (hr : P r.st)
    (hf : ∀ s, P s → P (runEdgeDcFixup s).st) (hz : ∀ s, P s → P (runZeroRight s).st)
    (hb : ∀ s, P s → P (runZeroBottom s).st) : P (r.edges order).st := by
  cases order
  · exact andDo_keeps (andDo_keeps (andDo_keeps hr hf) hz) hb
  · exact andDo_keeps (andDo_keeps (andDo_keeps hr hz) hb) hf

/-- What every stage of INIT_TABLES keeps, INIT_TABLES keeps (R152). -/
theorem runInitTables_keeps {P : State → Prop} {s : State} (h : P s) (hq : ∀ s, P s → P (runBuildQtables s).st)
    (hh : ∀ t s, P s → P (runBuildHuff t s).st) : P (runInitTables s).st :=
  andDo_keeps (andDo_keeps (andDo_keeps (andDo_keeps (hq s h) (hh 0)) (hh 1)) (hh 2)) (hh 3)

/-- ENCODE_IMAGE reaches its scan with the invariant and COEF (R153). -/
theorem runBeforeScan_inv {s : State} (h : Inv s) (hg : GeometryValid s) :
    Inv (runBeforeScan s).st ∧ (runBeforeScan s).st.valid.coef = true := by
  have h1 := runColorConvert_inv h hg
  have h2 := runExtractLuma_inv h1 rfl
  have h3 := runExtractChroma_inv h2 rfl
  have h4 := runFdctQuant_inv h3 rfl
  exact edges_keeps (P := fun s => Inv s ∧ s.valid.coef = true) s.edgeOrder ⟨h4, rfl⟩
    (fun _ h => ⟨runEdgeDcFixup_inv h.1, h.2⟩) (fun _ h => ⟨runZeroRight_inv h.1, h.2⟩)
    (fun _ h => ⟨runZeroBottom_inv h.1, h.2⟩)

theorem runEncodeImage_inv {s : State} (h : Inv s) (hg : GeometryValid s) : Inv (runEncodeImage s).st := by
  obtain ⟨hi, hc⟩ := runBeforeScan_inv h hg
  rw [runEncodeImage, andDo_ok _ (runBeforeScan_err s)]
  exact runEncodeScan_inv hi hc

theorem geometryValid_of_checkGeometry {s : State} (h : checkGeometry s = none) : GeometryValid s :=
  ((checkAll_none_iff _ _ s).1 h).1

theorem geometryValid_of_checkImage {s : State} (h : checkImage s = none) : GeometryValid s :=
  ((checkAll_none_iff _ _ s).1 h).1

theorem coef_of_checkScan {s : State} (h : checkScan s = none) : s.valid.coef = true :=
  ((checkAll_none_iff _ _ s).1 h).2.2

theorem planes_of_checkPlanes {s : State} (h : checkPlanes s = none) : s.valid.planes = true :=
  ((checkAll_none_iff _ _ s).1 h).2.2

theorem lumaSmp_of_checkSamples {s : State} (h : checkSamples s = none) : s.valid.lumaSmp = true :=
  (Bool.and_eq_true_iff.1 ((checkAll_none_iff _ _ s).1 h).2.2).1

/-- The run of every command whose checks pass keeps the invariant. -/
theorem runOf_inv {i : Instr} {s : State} (h : Inv s) (hc : checkOf i s = none) : Inv (runOf i s).st := by
  cases i with
  | nop => exact h
  | softReset => exact h
  | buildQtables => exact runBuildQtables_inv h
  | buildHuff t => exact runBuildHuff_inv h t
  | initTables => exact runInitTables_keeps h (fun _ => runBuildQtables_inv) fun t _ h => runBuildHuff_inv h t
  | colorConvert => exact runColorConvert_inv h (geometryValid_of_checkGeometry hc)
  | extractLuma => exact runExtractLuma_inv h (planes_of_checkPlanes hc)
  | extractChroma => exact runExtractChroma_inv h (planes_of_checkPlanes hc)
  | edgeDcFixup => exact runEdgeDcFixup_inv h
  | zeroRight => exact runZeroRight_inv h
  | zeroBottom => exact runZeroBottom_inv h
  | fdctQuant => exact runFdctQuant_inv h (h.valid.luma_planes (lumaSmp_of_checkSamples hc)).1
  | encodeScan => exact runEncodeScan_inv h (coef_of_checkScan hc)
  | encodeImage => exact runEncodeImage_inv h (geometryValid_of_checkImage hc)

/-! ## The step -/

theorem engineTurn_inv {s t : State} (h : Inv s) (ht : engineTurn s = .next t) : Inv t := by
  rcases engineTurn_cases ht with ⟨-, rfl⟩ | ⟨hb, ⟨i, hc, rfl⟩ | ⟨e, he, rfl⟩⟩
  · exact h
  · exact complete_inv (runOf_inv h hc) ((runOf_kept i s).status ▸ hb) fun _ => runOf_err_legal
  · exact complete_inv h hb fun _ he' => Option.some.inj he' ▸ he

/-- Settles O59: host writes, the engine's turn and rst each keep the invariant. -/
theorem stepKeepsTheInvariant : Obligations.StepKeepsTheInvariant := by
  unfold Obligations.StepKeepsTheInvariant
  intro s t h hst
  rcases step_cases hst with ⟨x, hx⟩ | ⟨-, he⟩ | ⟨b, -, rfl⟩
  · rcases step_host_wrote hx hst with ⟨r, rfl⟩ | ⟨a, n, v, u, -, -, hw, rfl⟩
    · exact answer_inv (taken_inv h) r
    · exact answer_inv (wrote_inv (taken_inv h) hx.1 hw) _
  · exact engineTurn_inv (taken_inv h) he
  · exact resetInput_inv (taken_inv h) b

end Sys2Proof.Machine
end

section
/-! SUPPORT. The invariant `Vouched`, kept by every update of the state. -/

namespace Sys2Proof.Machine

/-! ## Written bytes stay written -/

/-- The RAM has in `t` every byte that it has in `s`. -/
def StaysWritten (s t : State) (r : Ram) : Prop :=
  ∀ off, ((s.mem.cells r).read r off).isSome → ((t.mem.cells r).read r off).isSome

theorem Filled.mono {s t : State} {r : Ram} {lo hi : Nat} (h : Filled s r lo hi) (k : StaysWritten s t r) : Filled t r lo hi :=
  fun off h1 h2 => k off (h off h1 h2)

theorem Cells.isSome_read_write {r : Ram} {c : Cells} {off a : Nat} {bs : List Byte} (h : (c.read r a).isSome) :
    ((c.write r off bs).read r a).isSome := by
  rw [Cells.read_write]
  split
  · next hin => rw [List.getElem?_eq_getElem (by omega)]; rfl
  · exact h

theorem Cells.isSome_read_writeAll {r : Ram} (ws : List (Nat × List Byte)) {c : Cells} {a : Nat}
    (h : (c.read r a).isSome) : ((c.writeAll r ws).read r a).isSome := by
  induction ws generalizing c with
  | nil => exact h
  | cons w ws ih => exact ih (Cells.isSome_read_write h)

theorem Memory.isSome_read_write {m : Memory} {r r' : Ram} {off a : Nat} {bs : List Byte}
    (h : ((m.cells r').read r' a).isSome) : (((m.write r off bs).cells r').read r' a).isSome := by
  rw [Memory.cells_write]
  split
  · next hr => subst hr; exact Cells.isSome_read_write h
  · exact h

theorem Memory.isSome_read_writeAll {m : Memory} {r r' : Ram} {ws : List (Nat × List Byte)} {a : Nat}
    (h : ((m.cells r').read r' a).isSome) : (((m.writeAll r ws).cells r').read r' a).isSome := by
  rw [Memory.cells_writeAll]
  split
  · next hr => subst hr; exact Cells.isSome_read_writeAll ws h
  · exact h

/-- A RAM written from its offset `off` on is filled there. -/
theorem filled_write {s : State} {m : Memory} {r : Ram} {off hi : Nat} {bs : List Byte}
    (hm : s.mem.cells r = (m.cells r).write r off bs) (hhi : hi ≤ off + bs.length) : Filled s r off hi := by
  intro a h1 h2
  rw [hm, Cells.read_write, if_pos ⟨h1, by omega⟩, List.getElem?_eq_getElem (by omega)]
  rfl

/-- Blocks written whole are filled. -/
theorem blocksFilled_updateBlocks {s t : State} {p : Nat → Bool} {f : Nat → List Byte} {places : Nat → Prop}
    (hm : t.mem = s.updateBlocks p f) (hn : t.nblocks = s.nblocks) (hlen : ∀ b, (f b).length = 128)
    (hp : ∀ b, places (b % 6) → p b = true) : BlocksFilled t places := by
  intro b hb hpl off h1 h2
  obtain ⟨i, rfl⟩ := Nat.exists_eq_add_of_le h1
  have hi : i < (f b).length := by rw [hlen]; omega
  rw [hm, read_updateBlocks_inside (fun b => (hlen b).le) (hn ▸ hb) (hp b hpl) hi, List.getElem?_eq_getElem hi]
  rfl

/-! ## Huffman tables -/

/-- A filled table whose bytes read in `t` as in `s` has the same entries, whichever step reads it. -/
theorem ehufEntry_congr {s t : State} {k : Nat} (hf : Filled s .ehuf (0x400 * k) (0x400 * k + 0x400))
    (hr : ∀ off, 0x400 * k ≤ off → off < 0x400 * k + 0x400 →
      (t.mem.cells .ehuf).read .ehuf off = (s.mem.cells .ehuf).read .ehuf off)
    (site : Site) {sym : Nat} (hs : sym < 256) : t.ehufEntry site k sym = s.ehufEntry site k sym := by
  have hb : ∀ j ∈ List.range 4, t.byte site .ehuf (ehufOff k sym + j) = s.byte site .ehuf (ehufOff k sym + j) := by
    intro j hj
    have hj4 := List.mem_range.1 hj
    have h1 : 0x400 * k ≤ ehufOff k sym + j := by simp only [ehufOff]; omega
    have h2 : ehufOff k sym + j < 0x400 * k + 0x400 := by simp only [ehufOff]; omega
    obtain ⟨b, hb⟩ := Option.isSome_iff_exists.1 (hf _ h1 h2)
    rw [byte_of_read site hb, byte_of_read site ((hr _ h1 h2).trans hb)]
  simp only [State.ehufEntry, State.bytes, List.map_congr_left hb]

/-- The table `k` of `s` is built: it is filled, and every code fits its size. -/
def TableBuilt (s : State) (k : Nat) : Prop :=
  Filled s .ehuf (0x400 * k) (0x400 * k + 0x400) ∧ CodesProper s k

theorem TableBuilt.congr {s t : State} {k : Nat} (h : TableBuilt s k)
    (hr : ∀ off, 0x400 * k ≤ off → off < 0x400 * k + 0x400 →
      (t.mem.cells .ehuf).read .ehuf off = (s.mem.cells .ehuf).read .ehuf off) : TableBuilt t k := by
  obtain ⟨hf, hc⟩ := h
  refine ⟨fun off h1 h2 => hr off h1 h2 ▸ hf off h1 h2, fun site sym hs => ?_⟩
  rw [ehufEntry_congr hf hr site hs]
  exact hc site sym hs

/-- BUILD_HUFF builds the table it writes. -/
theorem tableBuilt_of_write {s t : State} {k : Nat} {codes : List Nat} (hc : huffCodes (s.huffSizes k) = .ok codes)
    (hm : t.mem.cells .ehuf = (s.mem.cells .ehuf).write .ehuf (ehufOff k 0)
      (ehufBytes (s.assignments k (s.huffSizes k) codes))) : TableBuilt t k := by
  refine ⟨filled_write hm (by rw [ehufBytes_length]), fun site sym hs => ?_⟩
  rw [ehufEntry_of_write hm site hs]
  exact entry_proper hc sym

/-! ## The frame -/

/-- What an update has to keep so that the flags of `s` still vouch for the data. -/
theorem Vouched.frame {s t : State} (h : Vouched s) (k : ∀ r, r ≠ .out → StaysWritten s t r)
    (huff : ∀ k, k < 4 → s.valid.huff k = true → TableBuilt t k) (hw : t.width = s.width) (hh : t.height = s.height)
    (scan : s.valid.scan = true → Filled t .out 0 t.outCount.toNat) : Vouched { t with valid := s.valid } := by
  have hn : t.nblocks = s.nblocks := by simp only [State.nblocks, State.nmcu, State.nsbw, State.nsbh, State.w, State.h, hw, hh]
  have hblk : ∀ {places}, BlocksFilled s places → BlocksFilled t places := fun hf b hb hp =>
    (hf b (hn ▸ hb) hp).mono (k .blk nofun)
  have hwh : t.w * t.h = s.w * s.h := by simp only [State.w, State.h, hw, hh]
  refine ⟨fun hv => ?_, huff, fun hv => ?_, fun hv => hblk (h.lumaSmp hv), fun hv => hblk (h.chromaSmp hv),
    fun hv => hblk (h.coef hv), scan⟩
  · exact ⟨(h.qt hv).1.mono (k .qtbl nofun), (h.qt hv).2.mono (k .div nofun)⟩
  · obtain ⟨hy, hcb, hcr⟩ := h.planes hv
    rw [← hwh] at hy hcb hcr
    exact ⟨hy.mono (k .py nofun), hcb.mono (k .pcb nofun), hcr.mono (k .pcr nofun)⟩

/-- `Vouched` is about the flags, the geometry, OUT_COUNT and the RAMs alone. -/
theorem Vouched.congr {s t : State} (h : Vouched s) (hm : t.mem = s.mem) (hv : t.valid = s.valid) (hw : t.width = s.width)
    (hh : t.height = s.height) (ho : t.outCount = s.outCount) : Vouched t := by
  have hk : ∀ r, StaysWritten s t r := fun r off => by rw [hm]; exact id
  have := h.frame (t := t) (fun r _ => hk r) (fun k hlt hf => TableBuilt.congr (h.huff k hlt hf) fun off _ _ => by rw [hm])
    hw hh fun hs => ho ▸ (h.scan hs).mono (hk .out)
  rwa [← hv] at this

theorem Valid.huff_setHuff (v : Valid) (b : Bool) {t k : Nat} (ht : t < 4) (hk : k < 4) :
    (v.setHuff t b).huff k = if k = t then b else v.huff k := by
  have : t = 0 ∨ t = 1 ∨ t = 2 ∨ t = 3 := by omega
  have : k = 0 ∨ k = 1 ∨ k = 2 ∨ k = 3 := by omega
  rcases ‹t = 0 ∨ _› with rfl | rfl | rfl | rfl <;> rcases ‹k = 0 ∨ _› with rfl | rfl | rfl | rfl <;> rfl

/-- Setting a HUFF flag needs the table built; clearing it needs nothing. -/
theorem setHuff_vouched {s : State} (h : Vouched s) {t : Nat} (ht : t < 4) {b : Bool} (hb : b = true → TableBuilt s t) :
    Vouched { s with valid := s.valid.setHuff t b } := by
  have huff : ∀ k, k < 4 → (s.valid.setHuff t b).huff k = true → TableBuilt s k := by
    intro k hk hv
    rw [Valid.huff_setHuff _ _ ht hk] at hv
    split at hv
    · next he => exact he ▸ hb hv
    · exact h.huff k hk hv
  generalize hv : s.valid.setHuff t b = v at huff
  unfold Valid.setHuff at hv
  split at hv <;> subst hv <;> exact { h with huff := huff }

/-! ## Runs -/

theorem divBytes_length (raw : Nat) : (divBytes raw).length = 1024 := by
  simp only [divBytes, List.length_flatMap, toLe_length, List.map_const', List.length_range, List.sum_replicate,
    smul_eq_mul]

theorem qtblBytes_length (raw : Nat) : (qtblBytes raw).length = 128 := by simp [qtblBytes]

/-- Writing QTBL and DIV whole vouches for QT. -/
theorem writeTables_vouched {s : State} (h : Vouched s) {qs ds : List Byte} (hq : qs.length = 128) (hd : ds.length = 1024) :
    Vouched { s with mem := (s.mem.write .qtbl 0 qs).write .div 0 ds, valid := s.valid.builtQt } :=
  { h.frame (t := { s with mem := (s.mem.write .qtbl 0 qs).write .div 0 ds })
      (fun _ _ _ hr => Memory.isSome_read_write (Memory.isSome_read_write hr)) h.huff rfl rfl h.scan with
    qt := fun _ => ⟨filled_write (m := s.mem) rfl (by rw [hq]), filled_write (m := s.mem) rfl (by rw [hd])⟩ }

theorem runBuildQtables_vouched {s : State} (h : Vouched s) : Vouched (runBuildQtables s).st :=
  writeTables_vouched h (qtblBytes_length _) (divBytes_length _)

theorem runBuildHuff_vouched {s : State} (h : Vouched s) (t : BitVec 2) : Vouched (runBuildHuff t s).st := by
  by_cases ha : SpecAccepted s t.toNat
  · obtain ⟨codes, hc, -, hr⟩ := runBuildHuff_accepted ha
    generalize hbs : ehufBytes (s.assignments t.toNat (s.huffSizes t.toNat) codes) = bs at hr
    rw [hr]
    have hlen : bs.length = 1024 := hbs ▸ ehufBytes_length _
    have hbuilt : TableBuilt { s with mem := s.mem.write .ehuf (ehufOff t.toNat 0) bs } t.toNat :=
      tableBuilt_of_write hc (hbs ▸ rfl)
    have hframe := h.frame (t := { s with mem := s.mem.write .ehuf (ehufOff t.toNat 0) bs })
      (fun _ _ _ => Memory.isSome_read_write) (fun k hk hv => ?_) rfl rfl h.scan
    · exact setHuff_vouched hframe t.isLt fun _ => hbuilt
    · by_cases hkt : k = t.toNat
      · exact hkt ▸ hbuilt
      · refine TableBuilt.congr (h.huff k hk hv) fun off h1 h2 => ?_
        refine (Cells.read_write ..).trans (if_neg ?_)
        simp only [ehufOff]
        omega
  · obtain ⟨sub, sym, -, hr⟩ := runBuildHuff_rejected ha
    rw [hr]
    exact setHuff_vouched h t.isLt nofun

theorem planeBytes_length (s : State) (f : Int → Int → Int → Int) : (s.planeBytes f).length = s.w * s.h := by
  simp [State.planeBytes]

theorem runColorConvert_vouched {s : State} (h : Vouched s) : Vouched (runColorConvert s).st :=
  { h.frame (t := (runColorConvert s).st)
      (fun _ _ _ hr => Memory.isSome_read_write (Memory.isSome_read_write (Memory.isSome_read_write hr)))
      h.huff rfl rfl h.scan with
    planes := fun _ =>
      have hlen (f) : (s.w * s.h) ≤ 0 + (s.planeBytes f).length := by simp [planeBytes_length]
      ⟨filled_write (m := s.mem) rfl (hlen pixelY), filled_write (m := s.mem) rfl (hlen pixelCb),
        filled_write (m := s.mem) rfl (hlen pixelCr)⟩ }

/-- Writing blocks keeps every flag vouched for. -/
theorem updateBlocks_vouched {s : State} (h : Vouched s) (p : Nat → Bool) (f : Nat → List Byte) :
    Vouched { s with mem := s.updateBlocks p f } :=
  h.frame (t := { s with mem := s.updateBlocks p f }) (fun _ _ _ => Memory.isSome_read_writeAll) h.huff rfl rfl h.scan

theorem runExtractLuma_vouched {s : State} (h : Vouched s) : Vouched (runExtractLuma s).st :=
  { updateBlocks_vouched h isLuma fun b => blockBytes (s.lumaSamples b) with
    lumaSmp := fun _ => blocksFilled_updateBlocks rfl rfl (fun b => by simp [State.lumaSamples]) fun _ => decide_eq_true
    coef := nofun
    scan := nofun }

theorem runExtractChroma_vouched {s : State} (h : Vouched s) : Vouched (runExtractChroma s).st :=
  { updateBlocks_vouched h isChroma fun b => blockBytes (s.chromaSamples b) with
    chromaSmp := fun _ => blocksFilled_updateBlocks rfl rfl (fun b => by simp [State.chromaSamples]) fun _ => decide_eq_true
    coef := nofun
    scan := nofun }

theorem fdctKernel_length (k : Kernel) (epoch block : Nat) (d : List Int) : (fdctKernel k epoch block d).length = 64 := by
  unfold fdctKernel
  split
  · simp [fdctRef]
  · split
    · split <;> simp
    · simp

theorem runFdctQuant_vouched {s : State} (h : Vouched s) : Vouched (runFdctQuant s).st :=
  { updateBlocks_vouched h (fun _ => true) fun b => blockBytes (s.quantized b) with
    lumaSmp := nofun
    chromaSmp := nofun
    coef := fun _ => blocksFilled_updateBlocks rfl rfl
      (fun b => by simp [State.quantized, State.coefs, fdctKernel_length]) fun _ _ => rfl
    scan := nofun }

theorem runEdgeDcFixup_vouched {s : State} (h : Vouched s) : Vouched (runEdgeDcFixup s).st :=
  { updateBlocks_vouched h s.isFixed s.fixupDc with scan := nofun }

theorem runZeroRight_vouched {s : State} (h : Vouched s) : Vouched (runZeroRight s).st :=
  { updateBlocks_vouched h s.isRight fun _ => zeroBlock with scan := nofun }

theorem runZeroBottom_vouched {s : State} (h : Vouched s) : Vouched (runZeroBottom s).st :=
  { updateBlocks_vouched h s.isBelow fun _ => zeroBlock with scan := nofun }

/-- A scan that succeeds has written the OUT_COUNT bytes of OUT. -/
theorem scanDone_filled {s : State} {c : Coder} (h : s.scan = .ok c) :
    Filled (s.scanDone c) .out 0 (s.scanDone c).outCount.toNat := by
  refine filled_write (m := s.mem.forget .out) rfl ?_
  obtain ⟨⟨hcount, -⟩, -, -⟩ := scan_ok h
  rw [scanDone_outCount, BitVec.toNat_ofNat, hcount, List.length_reverse, Nat.zero_add]
  exact Nat.mod_le ..

/-- Whatever a scan does to OUT, it leaves the other RAMs alone. -/
theorem runEncodeScan_vouched {s : State} (h : Vouched s) : Vouched (runEncodeScan s).st := by
  have hforget : ∀ r, r ≠ .out → (s.mem.forget .out).cells r = s.mem.cells r := fun r hr => by
    rw [Memory.cells_forget, if_neg hr]
  unfold runEncodeScan
  split
  · next c hs =>
    have hfilled := scanDone_filled hs
    exact { h.frame (t := s.scanDone c)
        (fun r hr off => by rw [scanDone_mem, Memory.cells_write, if_neg hr, hforget r hr]; exact id)
        h.huff rfl rfl (fun _ => hfilled) with
      scan := fun _ => hfilled }
  · next e _ =>
    exact { h.frame (t := s.scanFailed e.2) (fun r hr off => by rw [scanFailed_mem, hforget r hr]; exact id)
        h.huff rfl rfl (fun _ off _ hlt => absurd hlt (Nat.not_lt_zero off)) with
      scan := nofun }

/-- The run of every command keeps what the flags vouch for. -/
theorem runOf_vouched (i : Instr) {s : State} (h : Vouched s) : Vouched (runOf i s).st := by
  cases i with
  | nop => exact h
  | softReset => exact h
  | buildQtables => exact runBuildQtables_vouched h
  | buildHuff t => exact runBuildHuff_vouched h t
  | initTables => exact runInitTables_keeps h (fun _ => runBuildQtables_vouched) fun t _ h => runBuildHuff_vouched h t
  | colorConvert => exact runColorConvert_vouched h
  | extractLuma => exact runExtractLuma_vouched h
  | extractChroma => exact runExtractChroma_vouched h
  | edgeDcFixup => exact runEdgeDcFixup_vouched h
  | zeroRight => exact runZeroRight_vouched h
  | zeroBottom => exact runZeroBottom_vouched h
  | fdctQuant => exact runFdctQuant_vouched h
  | encodeScan => exact runEncodeScan_vouched h
  | encodeImage =>
    have h4 := runFdctQuant_vouched (runExtractChroma_vouched (runExtractLuma_vouched (runColorConvert_vouched h)))
    exact andDo_keeps (edges_keeps s.edgeOrder h4 (fun _ => runEdgeDcFixup_vouched) (fun _ => runZeroRight_vouched)
      fun _ => runZeroBottom_vouched) fun _ => runEncodeScan_vouched

/-! ## The step -/

theorem complete_vouched {s : State} (h : Vouched s) (r : Option CmdError) : Vouched (complete r s) := by
  rw [complete_frame]
  exact { h with }

theorem engineTurn_vouched {s t : State} (h : Vouched s) (ht : engineTurn s = .next t) : Vouched t := by
  rcases engineTurn_cases ht with ⟨-, rfl⟩ | ⟨-, ⟨i, -, rfl⟩ | ⟨e, -, rfl⟩⟩
  · exact h
  · exact complete_vouched (runOf_vouched i h) _
  · exact complete_vouched h _

/-- No flag is set, so none vouches for anything. -/
theorem vouched_of_none {s : State} (h : s.valid = Valid.none) : Vouched s := by
  have huff : ∀ k, Valid.none.huff k = false := fun k => by unfold Valid.huff; split <;> rfl
  constructor <;> rw [h]
  · nofun
  · intro k _ hk; rw [huff k] at hk; cases hk
  all_goals nofun

theorem stored_vouched {s : State} (h : Vouched s) {r : Ram} (hr : r.writable = true) (ws : List (Nat × List Byte)) :
    Vouched { s with mem := s.mem.writeAll r ws } := by
  have hkeep : ∀ r', StaysWritten s { s with mem := s.mem.writeAll r ws } r' := fun _ _ => Memory.isSome_read_writeAll
  refine h.frame (t := { s with mem := s.mem.writeAll r ws }) (fun r' _ => hkeep r') (fun k hk hv => ?_) rfl rfl
    fun hv => (h.scan hv).mono (hkeep .out)
  refine TableBuilt.congr (h.huff k hk hv) fun off _ _ => ?_
  simp only
  rw [Memory.cells_writeAll, if_neg (writable_ne_ehuf hr)]

theorem wrote_vouched {a : Nat} {v : Word} {s t : State} (h : Vouched s) (hw : Wrote a v s t) : Vouched t := by
  cases hw with
  | ignored => exact h
  | dropped => exact { h with }
  | reset => exact vouched_of_none rfl
  | accepted => exact { h with }
  | acknowledged => exact { h with }
  | irqEnabled => exact { h with }
  | configured => exact { h with }
  | resized => exact { h with planes := nofun, lumaSmp := nofun, chromaSmp := nofun, coef := nofun, scan := nofun }
  | stored _ r hr off n => exact stored_vouched h hr _

/-- Settles O60: no update of the state takes a written byte away from under a flag, but that of OUT by a scan, which
writes it anew or clears SCAN. -/
theorem stepKeepsTheDataVouchedFor : Obligations.StepKeepsTheDataVouchedFor := by
  unfold Obligations.StepKeepsTheDataVouchedFor
  intro s t _ h hst
  have htaken : Vouched (taken s) := h.congr rfl rfl rfl rfl rfl
  rcases step_cases hst with ⟨x, hx⟩ | ⟨-, he⟩ | ⟨b, -, rfl⟩
  · rcases step_host_wrote hx hst with ⟨r, rfl⟩ | ⟨a, n, v, u, -, -, hw, rfl⟩
    · exact { htaken with }
    · exact { wrote_vouched htaken hw with }
  · exact engineTurn_vouched htaken he
  · cases b with
    | true => exact vouched_of_none rfl
    | false => exact { htaken with }

end Sys2Proof.Machine
end

section
/-! SUPPORT. The registers and the slave port: reset values, the layout of the registers, what each host write does. -/

namespace Sys2Proof.Machine

/-! ## Reset -/

/-- Settles O58: the invariant is the base case, and after reset no flag vouches for anything. -/
theorem resetMeetsTheInvariants : Obligations.ResetMeetsTheInvariants := by
  unfold Obligations.ResetMeetsTheInvariants
  exact fun p => ⟨resetWith_inv p, vouched_of_none rfl⟩

/-- After reset every byte of HUFFSPEC reads as R48 gives it. -/
theorem resetWith_byte_huffSpec (p : Params) (site : Site) (off : Nat) :
    (State.resetWith p).byte site .huffSpec off = huffSpecReset off := rfl

theorem resetWith_hbits_zero (p : Params) (t : Nat) : (State.resetWith p).hbits t 0 = 0 := by
  rw [State.hbits, resetWith_byte_huffSpec, huffSpecReset, Nat.add_zero, Nat.mul_mod_right, if_pos rfl]

/-- The standard specifications are lists of bytes. -/
theorem stdSpec_lt {t : Nat} (ht : t < 4) : (∀ x ∈ stdBits t, x < 256) ∧ ∀ x ∈ stdValues t, x < 256 := by
  revert t; decide +kernel

theorem getD_byte_lt {l : List Nat} (h : ∀ x ∈ l, x < 256) (i : Nat) : l.getD i 0 < 256 := by
  rw [List.getD_eq_getElem?_getD]
  cases hi : l[i]? with
  | none => decide
  | some x => exact h x (List.mem_of_getElem? hi)

theorem resetWith_hbits (p : Params) {t l : Nat} (ht : t < 4) (h1 : 1 ≤ l) (h16 : l ≤ 16) :
    ((State.resetWith p).hbits t l).toNat = (stdBits t).getD (l - 1) 0 := by
  have hdiv : (0x200 * t + l) / 0x200 = t := by omega
  have hmod : (0x200 * t + l) % 0x200 = l := by omega
  rw [State.hbits, resetWith_byte_huffSpec, huffSpecReset]
  simp only [hdiv, hmod]
  rw [if_neg (by omega), if_pos (by omega), BitVec.toNat_ofNat]
  exact Nat.mod_eq_of_lt (getD_byte_lt (stdSpec_lt ht).1 _)

theorem resetWith_hvals (p : Params) {t q : Nat} (ht : t < 4) (hq : q < 256) :
    ((State.resetWith p).hvals t q).toNat = (stdValues t).getD q 0 := by
  have hdiv : (0x200 * t + 0x100 + q) / 0x200 = t := by omega
  have hmod : (0x200 * t + 0x100 + q) % 0x200 = 0x100 + q := by omega
  rw [State.hvals, resetWith_byte_huffSpec, huffSpecReset]
  simp only [hdiv, hmod]
  rw [if_neg (by omega), if_neg (by omega), if_neg (by omega), BitVec.toNat_ofNat, Nat.add_sub_cancel_left]
  exact Nat.mod_eq_of_lt (getD_byte_lt (stdSpec_lt ht).2 _)

/-- Settles O8: the registers are constants, and HUFFSPEC reads as its reset contents. -/
theorem resetValues : Obligations.ResetValues := by
  unfold Obligations.ResetValues
  intro p
  have hstatus : (⟨false, false, false, false, 0, 0⟩ : Status).toWord = 0 := by decide
  have hirqEn : (⟨false, false⟩ : IrqEn).toWord = 0 := by decide
  have hvalid : Valid.none.toWord = 0 := by decide
  have hgeom (n : Nat) (hn : ceilDiv 0 n = 0) :
      BitVec.ofNat 16 (ceilDiv 0 n) ++ BitVec.ofNat 16 (ceilDiv 0 n) = (0 : Word) := by rw [hn]; decide
  have hbuf (start : Nat) : (0 : BitVec 64).extractLsb' start 32 = 0 := BitVec.extractLsb'_zero
  have hinfo : (⟨0, 0, 0⟩ : ErrInfo).toWord = 0 := by decide
  refine ⟨rfl, rfl, hstatus, rfl, hirqEn, rfl, rfl, rfl, hvalid, hgeom 8 rfl, hgeom 16 rfl, rfl, hbuf 0, hbuf 32, rfl, rfl,
    rfl, rfl, rfl, hinfo, rfl, ?_, ?_⟩
  · exact fun t ht => ⟨resetWith_hbits_zero p t, fun l => resetWith_hbits p ht, fun q => resetWith_hvals p ht⟩
  · intro r _; exact Memory.cells_empty r

/-! ## The layout of the registers -/

theorem bit_toNat (b : Bool) : (bit b).toNat = b.toNat := by cases b <;> rfl

theorem status_toNat (st : Status) : st.toWord.toNat = st.busy.toNat + 2 * st.done.toNat + 4 * st.err.toNat +
    8 * st.ovr.toNat + 0x100 * st.errcode.toNat + 0x10000 * st.lastOp.toNat := by
  simp only [Status.toWord, toNat_append_eq, bit_toNat, BitVec.ofNat_eq_ofNat, BitVec.toNat_ofNat]
  omega

theorem irqEn_toNat (e : IrqEn) : e.toWord.toNat = e.doneIe.toNat + 2 * e.errIe.toNat := by
  simp only [IrqEn.toWord, toNat_append_eq, bit_toNat, BitVec.ofNat_eq_ofNat, BitVec.toNat_ofNat]
  omega

theorem valid_toNat (v : Valid) : v.toWord.toNat = v.qt.toNat + 2 * v.huff0.toNat + 4 * v.huff1.toNat +
    8 * v.huff2.toNat + 0x10 * v.huff3.toNat + 0x20 * v.planes.toNat + 0x40 * v.lumaSmp.toNat +
    0x80 * v.chromaSmp.toNat + 0x100 * v.coef.toNat + 0x200 * v.scan.toNat := by
  simp only [Valid.toWord, toNat_append_eq, bit_toNat, BitVec.ofNat_eq_ofNat, BitVec.toNat_ofNat]
  omega

theorem errInfo_toNat (e : ErrInfo) : e.toWord.toNat = e.sym.toNat + 0x100 * e.tbl.toNat + 0x1000 * e.sub.toNat := by
  simp only [ErrInfo.toWord, toNat_append_eq, BitVec.ofNat_eq_ofNat, BitVec.toNat_ofNat]
  omega

theorem geomB_toNat (s : State) :
    s.geomB.toNat = (s.width.toNat + 7) / 8 + 0x10000 * ((s.height.toNat + 7) / 8) := by
  have := s.width.isLt
  have := s.height.isLt
  simp only [State.geomB, State.nbh, State.nbw, State.w, State.h, ceilDiv, toNat_append_eq, BitVec.toNat_ofNat]
  omega

theorem geomMcu_toNat (s : State) :
    s.geomMcu.toNat = (s.width.toNat + 15) / 16 + 0x10000 * ((s.height.toNat + 15) / 16) := by
  have := s.width.isLt
  have := s.height.isLt
  simp only [State.geomMcu, State.nsbh, State.nsbw, State.w, State.h, ceilDiv, toNat_append_eq, BitVec.toNat_ofNat]
  omega

/-- The two halves of the bit buffer (R41). -/
theorem entBuf_halves (b : BitVec 64) :
    (b.extractLsb' 0 32).toNat + 0x100000000 * (b.extractLsb' 32 32).toNat = b.toNat := by
  have := b.isLt
  simp only [BitVec.extractLsb'_toNat, Nat.shiftRight_eq_div_pow]
  omega

theorem irq_iff (s : State) : s.irq = true ↔
    (s.status.done = true ∧ s.irqEn.doneIe = true) ∨
      ((s.status.err = true ∨ s.status.ovr = true) ∧ s.irqEn.errIe = true) := by
  simp only [State.irq, Bool.or_eq_true, Bool.and_eq_true]

/-- Legal parameters fit a register (R10 to R12, R43). -/
theorem params_toNat {p : Params} (h : p.Legal) :
    (BitVec.ofNat 32 p.maxW).toNat = p.maxW ∧ (BitVec.ofNat 32 p.maxH).toNat = p.maxH ∧
      (BitVec.ofNat 32 p.outCap).toNat = p.outCap := by
  obtain ⟨-, hw, -, hh, -, -, -, ho⟩ := h
  simp only [BitVec.toNat_ofNat]
  omega

/-- Settles O13: word by word. -/
theorem registersReadAsLaidOut : Obligations.RegistersReadAsLaidOut := by
  unfold Obligations.RegistersReadAsLaidOut
  intro s
  have hwide {n : Nat} (hn : n ≤ 32) (x : BitVec n) : (x.setWidth 32).toNat = x.toNat :=
    BitVec.toNat_setWidth_of_le hn
  refine ⟨by decide, fun a j ha hj => ?_, irq_iff s, rfl, rfl, rfl, rfl, status_toNat _, irqEn_toNat _,
    hwide (by decide) _, hwide (by decide) _, hwide (by decide) _, valid_toNat _, geomB_toNat s, geomMcu_toNat s, rfl,
    entBuf_halves _, hwide (by decide) _, rfl, rfl, rfl, (hwide (by decide) _).trans (bit_toNat _), params_toNat,
    errInfo_toNat _⟩
  rw [regAt, regAt, show (a + j) / 4 = a / 4 by omega]

end Sys2Proof.Machine
end

section
/-! SUPPORT. Which writes are dropped, ignored or take effect, and what no host transaction does. -/

namespace Sys2Proof.Machine

/-! ## Locked and read-only places -/

/-- An aligned register address is one of the 24. -/
theorem exists_reg_index {a : Nat} (h : a < 0x60) (h4 : a % 4 = 0) : ∃ k, k < 24 ∧ a = 4 * k :=
  ⟨a / 4, by omega, by omega⟩

theorem lockedAddr_reg {a : Nat} (h : a < 0x60) (h4 : a % 4 = 0) : LockedAddr a ↔ (regAt a).locked = true := by
  obtain ⟨k, hk, rfl⟩ := exists_reg_index h h4
  unfold LockedAddr
  clear h h4
  revert k
  decide

theorem readOnlyAddr_reg {a : Nat} (h : a < 0x60) (h4 : a % 4 = 0) : ReadOnlyAddr a ↔ (regAt a).readOnly = true := by
  obtain ⟨k, hk, rfl⟩ := exists_reg_index h h4
  unfold ReadOnlyAddr
  clear h h4
  revert k
  decide

theorem not_readOnly_of_locked {r : Reg} (h : r.locked = true) : r.readOnly = false := by
  revert h; cases r <;> decide

/-- The windows that `LockedAddr` lists are the RW ones (R61). -/
theorem writable_of_lockedAddr {p : Params} {a : Nat} {r : Ram} {off : Nat} (h : locate p a = some (.ram r off))
    (hl : LockedAddr a) : r.writable = true := by
  obtain ⟨h60, ha, hs, hb⟩ := locate_ram h
  simp only [LockedAddr, List.mem_cons, List.not_mem_nil, or_false] at hl
  cases r with
  | qtbl | div | ehuf | out => simp only [Ram.base, Params.size] at ha hs; omega
  | _ => rfl

/-- The windows that `ReadOnlyAddr` lists are the RO ones (R61). -/
theorem not_writable_of_readOnlyAddr {p : Params} {a : Nat} {r : Ram} {off : Nat} (h : locate p a = some (.ram r off))
    (hl : ReadOnlyAddr a) : r.writable = false := by
  obtain ⟨h60, ha, hs, hb⟩ := locate_ram h
  simp only [ReadOnlyAddr, List.mem_cons, List.not_mem_nil, or_false] at hl
  cases r with
  | qtbl | div | ehuf | out => rfl
  | _ => simp only [Ram.base, Params.size] at ha hs; omega

/-- A write to a locked place is dropped while BUSY = 1 (R58). -/
theorem memWrite_locked {s : State} {a n : Nat} (v : Word) (hn : 0 < n) (ha : AccessOk s.params a n)
    (hb : s.status.busy = true) (hl : LockedAddr a) : s.memWrite a n v = .next s.drop := by
  rcases ha.place hn with ⟨hr, -, h4, -⟩ | ⟨-, r, off, hloc, -, -⟩
  · have hlk := (lockedAddr_reg hr h4).1 hl
    rw [memWrite_reg s n v hr rfl, not_readOnly_of_locked hlk, hlk, hb]
    rfl
  · rw [memWrite_ram n v hloc, writable_of_lockedAddr hloc hl, hb]
    rfl

/-- A write to a read-only place is ignored (R28, R61). -/
theorem memWrite_readOnly {s : State} {a n : Nat} (v : Word) (hn : 0 < n) (ha : AccessOk s.params a n)
    (hl : ReadOnlyAddr a) : s.memWrite a n v = .next s := by
  rcases ha.place hn with ⟨hr, -, h4, -⟩ | ⟨-, r, off, hloc, -, -⟩
  · rw [memWrite_reg s n v hr rfl, (readOnlyAddr_reg hr h4).1 hl]
    rfl
  · rw [memWrite_ram n v hloc, not_writable_of_readOnlyAddr hloc hl]
    rfl

/-- A write to a register that is neither read-only nor locked at that moment is one of the register. -/
theorem memWrite_writeReg {s : State} {a : Nat} {r : Reg} (n : Nat) (v : Word) (h : a < 0x60) (hr : regAt a = r)
    (hro : r.readOnly = false) (hl : s.status.busy = false ∨ r.locked = false) : s.memWrite a n v = s.writeReg r v := by
  have hdrop : (s.status.busy && r.locked) = false := Bool.and_eq_false_iff.2 hl
  rw [memWrite_reg s n v h hr, hro, hdrop]
  rfl

/-! ## The statements about writes -/

/-- Settles O15: by the place of the address. -/
theorem busyWritesAreDropped : Obligations.BusyWritesAreDropped := by
  unfold Obligations.BusyWritesAreDropped
  intro s a n v h hb ha
  have hstep {t : State} (hm : (taken s).memWrite a.toNat n.bytes v = .next t) : step s = .next (t.answer .okWrite) :=
    step_write h ha hm
  refine ⟨fun hl => hstep (memWrite_locked v n.bytes_pos ha hb hl),
    fun hr => hstep (memWrite_readOnly v n.bytes_pos ha hr), ?_, ?_, ?_⟩
  · rintro rfl
    exact hstep (memWrite_writeReg (r := .status) _ v (by decide) rfl rfl (.inr rfl))
  · rintro rfl
    exact hstep (memWrite_writeReg (r := .irqEn) _ v (by decide) rfl rfl (.inr rfl))
  · rintro rfl hv
    rw [hstep ((memWrite_writeReg (r := .ctrl) _ v (by decide) rfl rfl (.inr rfl)).trans (writeReg_ctrl _ v)), if_pos hv]
    have hrst := h.1
    simp only [State.answer, State.resetCore, taken, hrst]

/-- An idle write to a register that is not read-only. -/
theorem step_write_reg {s t : State} {a : Word} {r : Reg} {v : Word} (h : NextIsHost s (.write a .word v))
    (hb : s.status.busy = false) (ha : a.toNat < 0x60) (h4 : a.toNat % 4 = 0) (hr : regAt a.toNat = r)
    (hro : r.readOnly = false) (hw : (taken s).writeReg r v = .next t) : step s = .next (t.answer .okWrite) :=
  step_write h (accessOk_reg s.params ha h4) ((memWrite_writeReg (s := taken s) 4 v ha hr hro (.inl hb)).trans hw)

theorem extractLsb_eq_iff (v : Word) (x : Half) : v.extractLsb' 0 16 = x ↔ v.toNat % 0x10000 = x.toNat := by
  rw [← BitVec.toNat_inj, BitVec.extractLsb'_toNat, Nat.shiftRight_zero]

theorem setWidth_same {s : State} {v : Half} (h : v = s.width) : s.setWidth v = s := if_pos h

theorem setWidth_new {s : State} {v : Half} (h : v ≠ s.width) :
    s.setWidth v = { s with width := v, valid := s.valid.newGeometry } := if_neg h

theorem setHeight_same {s : State} {v : Half} (h : v = s.height) : s.setHeight v = s := if_pos h

theorem setHeight_new {s : State} {v : Half} (h : v ≠ s.height) :
    s.setHeight v = { s with height := v, valid := s.valid.newGeometry } := if_neg h

/-- Settles O16: the new value is the old one, or not. -/
theorem geometryWritesInvalidate : Obligations.GeometryWritesInvalidate := by
  unfold Obligations.GeometryWritesInvalidate
  intro s v hb
  refine ⟨fun h => ?_, fun h => ?_⟩
  · have hstep := step_write_reg (r := .width) h hb (by decide) (by decide) rfl rfl rfl
    refine ⟨fun he => ?_, fun hne => ?_⟩
    · rw [hstep, setWidth_same (s := taken s) ((extractLsb_eq_iff ..).2 he)]; rfl
    · rw [hstep, setWidth_new (s := taken s) (mt (extractLsb_eq_iff ..).1 hne)]; rfl
  · have hstep := step_write_reg (r := .height) h hb (by decide) (by decide) rfl rfl rfl
    refine ⟨fun he => ?_, fun hne => ?_⟩
    · rw [hstep, setHeight_same (s := taken s) ((extractLsb_eq_iff ..).2 he)]; rfl
    · rw [hstep, setHeight_new (s := taken s) (mt (extractLsb_eq_iff ..).1 hne)]; rfl

/-- Settles O17: register by register. -/
theorem registerWritesTakeEffect : Obligations.RegisterWritesTakeEffect := by
  unfold Obligations.RegisterWritesTakeEffect
  intro s a v h hb
  refine ⟨?_, ?_, ?_, ?_, fun ha h4 hro => ?_⟩
  · rintro rfl; exact step_write_reg (r := .status) h hb (by decide) (by decide) rfl rfl rfl
  · rintro rfl; exact step_write_reg (r := .irqEn) h hb (by decide) (by decide) rfl rfl rfl
  · rintro rfl; exact step_write_reg (r := .quality) h hb (by decide) (by decide) rfl rfl rfl
  · rintro rfl; exact step_write_reg (r := .edgeCfg) h hb (by decide) (by decide) rfl rfl rfl
  · have hok := accessOk_reg s.params ha h4
    exact step_write h hok (memWrite_readOnly v (by decide) hok hro)

/-! ## What no transaction does -/

/-- A write while BUSY = 1 that leaves BUSY = 1 is ignored, dropped, or one of STATUS or IRQ_EN. -/
theorem wrote_busy {a : Nat} {v : Word} {s t : State} (hw : Wrote a v s t) (hb : s.status.busy = true)
    (ht : t.status.busy = true) :
    t.pending = s.pending ∧ t.quality = s.quality ∧ t.width = s.width ∧ t.height = s.height ∧
      t.edgeOrder = s.edgeOrder ∧ t.valid = s.valid ∧ t.mem = s.mem := by
  have hbusy : s.status.busy ≠ false := by rw [hb]; decide
  cases hw with
  | ignored | dropped | acknowledged | irqEnabled => exact ⟨rfl, rfl, rfl, rfl, rfl, rfl, rfl⟩
  | reset => cases ht
  | accepted idle | configured idle | resized idle | stored idle => exact absurd idle hbusy

/-- Settles O19: a read changes nothing, and of the writes only those of STATUS and IRQ_EN leave BUSY = 1 and an effect. -/
theorem operandsHoldWhileBusy : Obligations.OperandsHoldWhileBusy := by
  unfold Obligations.OperandsHoldWhileBusy
  intro s t x hx hb hst ht
  rcases step_host_wrote hx hst with ⟨r, rfl⟩ | ⟨a, n, v, u, -, -, hw, rfl⟩
  · exact ⟨rfl, rfl, rfl, rfl, rfl, rfl, rfl⟩
  · exact wrote_busy (s := taken s) (t := u) hw hb ht

/-- A geometry change keeps VALID bits [4:0] alone (R57). -/
theorem newGeometry_toWord (v : Valid) : v.newGeometry.toWord = v.toWord &&& 0x1F := by
  apply BitVec.eq_of_toNat_eq
  rw [BitVec.toNat_and, show (0x1F : Word).toNat = 2 ^ 5 - 1 from rfl, Nat.and_two_pow_sub_one_eq_mod, valid_toNat, valid_toNat]
  simp only [newGeometry_qt, newGeometry_huff0, newGeometry_huff1, newGeometry_huff2, newGeometry_huff3,
    newGeometry_planes, newGeometry_lumaSmp, newGeometry_chromaSmp, newGeometry_coef, newGeometry_scan, Bool.toNat_false]
  have := v.qt.toNat_le
  have := v.huff0.toNat_le
  have := v.huff1.toNat_le
  have := v.huff2.toNat_le
  have := v.huff3.toNat_le
  omega

/-- No host write sets a VALID flag (R56, R57). -/
theorem wrote_valid {a : Nat} {v : Word} {s t : State} (hw : Wrote a v s t) : t.valid.toWord &&& ~~~s.valid.toWord = 0 := by
  cases hw with
  | reset =>
    have hnone : Valid.none.toWord = 0 := by decide
    rw [resetCore_valid, hnone]
    exact BitVec.zero_and
  | resized =>
    simp only
    rw [newGeometry_toWord, BitVec.and_comm s.valid.toWord, BitVec.and_assoc, BitVec.and_not_self]
    exact BitVec.and_zero
  | _ => exact BitVec.and_not_self _

/-- What no host write but a reset touches. -/
theorem wrote_frame {a : Nat} {v : Word} {s t : State} (hw : Wrote a v s t) (hreset : ¬(a = 0x008 ∧ v.getLsbD 0 = true)) :
    (∀ r, r.writable = false → t.mem.cells r = s.mem.cells r) ∧ t.outCount = s.outCount ∧ t.entBuf = s.entBuf ∧
      t.entBits = s.entBits ∧ t.lastDc0 = s.lastDc0 ∧ t.lastDc1 = s.lastDc1 ∧ t.lastDc2 = s.lastDc2 := by
  cases hw with
  | reset ha hv => exact absurd ⟨ha, hv⟩ hreset
  | stored _ r hr off n =>
    refine ⟨fun r' hr' => ?_, rfl, rfl, rfl, rfl, rfl, rfl⟩
    rw [Memory.cells_writeAll, if_neg]
    rintro rfl
    rw [hr] at hr'; cases hr'
  | _ => exact ⟨fun _ _ => rfl, rfl, rfl, rfl, rfl, rfl, rfl⟩

/-- An access to CTRL has four bytes (R65). -/
theorem word_of_access_ctrl {p : Params} {a : Word} {n : Size} (ha : AccessOk p a.toNat n.bytes) (h : a.toNat = 0x008) :
    a = 0x008 ∧ n = .word := by
  refine ⟨BitVec.eq_of_toNat_eq h, ?_⟩
  have h4 := ha.2.2 (by rw [h]; decide)
  cases n with
  | word => rfl
  | _ => cases h4

/-- Settles O20: by the effect of the write. -/
theorem hostSetsNoFlag : Obligations.HostSetsNoFlag := by
  unfold Obligations.HostSetsNoFlag
  intro s t x hx hst
  rcases step_host_wrote hx hst with ⟨r, rfl⟩ | ⟨a, n, v, u, rfl, ha, hw, rfl⟩
  · exact ⟨BitVec.and_not_self _, fun _ => ⟨fun _ _ => rfl, rfl, rfl, rfl, rfl, rfl, rfl⟩⟩
  · refine ⟨wrote_valid (s := taken s) (t := u) hw, fun hno => ?_⟩
    have hreset : ¬(a.toNat = 0x008 ∧ v.getLsbD 0 = true) := by
      rintro ⟨h8, hv⟩
      obtain ⟨rfl, rfl⟩ := word_of_access_ctrl ha h8
      exact hno ⟨v, rfl, hv⟩
    obtain ⟨hmem, hregs⟩ := wrote_frame hw hreset
    refine ⟨fun r hr => hmem r ?_, hregs⟩
    simp only [List.mem_cons, List.not_mem_nil, or_false] at hr
    rcases hr with rfl | rfl | rfl | rfl <;> rfl

/-- A host write ends BUSY only by a reset. -/
theorem wrote_ends_busy {a : Nat} {v : Word} {s t : State} (hw : Wrote a v s t) (hb : s.status.busy = true)
    (ht : t.status.busy = false) : a = 0x008 ∧ t.status = ⟨false, false, false, false, 0, 0⟩ := by
  cases hw with
  | reset ha => exact ⟨ha, rfl⟩
  | accepted => cases ht
  | ignored | dropped | acknowledged | irqEnabled | configured | resized | stored =>
    exact absurd (hb.symm.trans ht) (by decide)

theorem complete_done (r : Option CmdError) (s : State) : (complete r s).status.done = true := by cases r <;> rfl

/-- Settles O21: by the event of the step. -/
theorem onlyCompletionOrResetEndsBusy : Obligations.OnlyCompletionOrResetEndsBusy := by
  unfold Obligations.OnlyCompletionOrResetEndsBusy
  intro s t hst hb ht
  have hne : s.status.busy ≠ false := by rw [hb]; decide
  rcases step_cases hst with ⟨x, hx⟩ | ⟨he, htn⟩ | ⟨b, hhead, rfl⟩
  · rcases step_host_wrote hx hst with ⟨r, rfl⟩ | ⟨a, n, v, u, rfl, ha, hw, rfl⟩
    · exact absurd ht hne
    · obtain ⟨h8, hstatus⟩ := wrote_ends_busy hw hb ht
      obtain ⟨rfl, rfl⟩ := word_of_access_ctrl ha h8
      exact .inr ⟨.inr ⟨v, hx.2⟩, hstatus⟩
  · rcases engineTurn_cases htn with ⟨-, rfl⟩ | ⟨-, ⟨i, -, rfl⟩ | ⟨e, -, rfl⟩⟩
    · exact absurd ht hne
    · exact .inl ⟨he, complete_done _ _⟩
    · exact .inl ⟨he, complete_done _ _⟩
  · cases b with
    | true => exact .inr ⟨.inl hhead, rfl⟩
    | false => exact absurd ht hne

end Sys2Proof.Machine
end

section
/-! SUPPORT. The address map with legal parameters, what a step does to the port, and what a read returns. -/

namespace Sys2Proof.Machine

/-! ## The address map -/

theorem locate_reg_iff (p : Params) (a off : Nat) : locate p a = some (.reg off) ↔ a < 0x60 ∧ off = a := by
  constructor
  · intro h
    by_cases ha : a < 0x60
    · rw [locate_reg p ha] at h
      cases h
      exact ⟨ha, rfl⟩
    · simp [locate, ha] at h
  · rintro ⟨ha, rfl⟩
    exact locate_reg p ha

/-- Legal parameters keep every window inside its region of 2^28 bytes (R10 to R12, R61). -/
theorem size_le_of_legal {p : Params} (h : p.Legal) (r : Ram) : p.size r ≤ 2 ^ 28 := by
  obtain ⟨-, -, -, -, hrgb, hblk, -, hout⟩ := h
  have hplane : p.maxW * p.maxH ≤ 2 ^ 28 := by rw [Nat.mul_assoc] at hrgb; omega
  cases r with
  | qtbl | div | huffSpec | ehuf => simp only [Params.size]; omega
  | rgb => exact hrgb
  | out => exact hout
  | py | pcb | pcr => exact hplane
  | blk => simpa only [Params.size, ceilDiv, ← Nat.mul_assoc] using hblk

/-- With legal parameters an address lies in a window exactly when its distance from the first address is below the
window's size. -/
theorem locate_ram_iff {p : Params} (h : p.Legal) (a : Nat) (r : Ram) (off : Nat) :
    locate p a = some (.ram r off) ↔ off < p.size r ∧ a = r.base + off := by
  constructor
  · intro hl
    obtain ⟨-, ha, hs, -⟩ := locate_ram hl
    exact ⟨hs, ha⟩
  · rintro ⟨hs, rfl⟩
    exact locate_of_window hs (hs.trans_le (size_le_of_legal h r))

/-- Settles O10: the registers, then window by window. -/
theorem addressMapPlacesTheWindows : Obligations.AddressMapPlacesTheWindows := by
  unfold Obligations.AddressMapPlacesTheWindows
  intro p h a
  have hram := locate_ram_iff h a
  exact ⟨locate_reg_iff p a, hram .qtbl, hram .div, hram .huffSpec, hram .ehuf, hram .rgb, hram .out, hram .py, hram .pcb,
    hram .pcr, hram .blk⟩

/-! ## What a step does to the port -/

/-- Completing a command leaves the parameters, the events, the responses and the number of the step alone. -/
theorem complete_port {s t : State} (h : Kept s t) (r : Option CmdError) :
    (complete r t).params = s.params ∧ (complete r t).events = s.events ∧ (complete r t).replies = s.replies ∧
      (complete r t).epoch = s.epoch := by
  rw [complete_frame]
  exact ⟨h.params, h.events, h.replies, h.epoch⟩

/-- So does the engine's turn. -/
theorem engineTurn_port {s t : State} (h : engineTurn s = .next t) :
    t.params = s.params ∧ t.events = s.events ∧ t.replies = s.replies ∧ t.epoch = s.epoch := by
  rcases engineTurn_cases h with ⟨-, rfl⟩ | ⟨-, ⟨i, -, rfl⟩ | ⟨e, -, rfl⟩⟩
  · exact ⟨rfl, rfl, rfl, rfl⟩
  · exact complete_port (runOf_kept i s) _
  · exact complete_port (Kept.refl s) _

/-- So does a change of rst. -/
theorem resetInput_port (b : Bool) (s : State) :
    (resetInput b s).params = s.params ∧ (resetInput b s).events = s.events ∧ (resetInput b s).replies = s.replies ∧
      (resetInput b s).epoch = s.epoch := by
  cases b <;> exact ⟨rfl, rfl, rfl, rfl⟩

/-- A host transaction that is answered adds one response (R60). -/
theorem step_host_port {s t : State} {x : Txn} (hx : NextIsHost s x) (h : step s = .next t) :
    t.params = s.params ∧ t.events = s.events.tail ∧ t.epoch = s.epoch + 1 ∧ ∃ r, t.replies = r :: s.replies := by
  obtain ⟨-, ⟨a, n, v, -, -, rfl⟩ | ⟨a, n, v, u, -, hm, rfl⟩⟩ := step_host_cases hx h
  · exact ⟨rfl, rfl, rfl, _, rfl⟩
  · obtain ⟨hparams, -, hevents, hreplies, hepoch⟩ := memWrite_port hm
    exact ⟨hparams, hevents, hepoch, .okWrite, congrArg (Reply.okWrite :: ·) hreplies⟩

/-- No other event adds a response (R60). -/
theorem step_nonhost_port {s t : State} (hx : ∀ x, s.events.head? ≠ some (.host x)) (h : step s = .next t) :
    t.params = s.params ∧ t.events = s.events.tail ∧ t.replies = s.replies ∧ t.epoch = s.epoch + 1 := by
  rcases step_cases h with ⟨x, hh⟩ | ⟨-, he⟩ | ⟨b, -, rfl⟩
  · exact absurd hh.2 (hx x)
  · exact engineTurn_port he
  · exact resetInput_port b (taken s)

/-- A transaction that answers a next state came while rst was released (R175). -/
theorem nextIsHost_of_step {s t : State} {x : Txn} (hx : s.events.head? = some (.host x)) (h : step s = .next t) :
    NextIsHost s x := by
  refine ⟨Bool.eq_false_iff.2 fun hr => ?_, hx⟩
  rw [step_host_rst hr hx] at h
  cases h

/-- Settles O9: the event of the step is a host transaction, or it is not. -/
theorem eachStepTakesOneEvent : Obligations.EachStepTakesOneEvent := by
  unfold Obligations.EachStepTakesOneEvent
  intro s t h
  by_cases hx : ∃ x, s.events.head? = some (.host x)
  · obtain ⟨x, hx⟩ := hx
    obtain ⟨hparams, hevents, hepoch, hreplies⟩ := step_host_port (nextIsHost_of_step hx h) h
    exact ⟨hparams, hevents, hepoch, fun _ => hreplies, fun hno => absurd hx (hno x)⟩
  · obtain ⟨hparams, hevents, hreplies, hepoch⟩ := step_nonhost_port (not_exists.1 hx) h
    exact ⟨hparams, hevents, hepoch, fun hex => absurd hex hx, fun _ => hreplies⟩

/-- A host access that is no bus error is answered. -/
theorem step_host_next {s : State} {x : Txn} (hx : NextIsHost s x) (ha : AccessOk s.params x.addr.toNat x.bytes) :
    ∃ t, step s = .next t := by
  cases x with
  | read a n =>
    obtain ⟨v, -, hs⟩ := step_read hx ha
    exact ⟨_, hs⟩
  | write a n v =>
    obtain ⟨t, hm⟩ := memWrite_next (taken s) a.toNat n.bytes v
    exact ⟨_, step_write hx ha hm⟩

/-- Settles O11: an access is no bus error and is answered, or it is a fault. -/
theorem accessesAnswerOrFault : Obligations.AccessesAnswerOrFault := by
  unfold Obligations.AccessesAnswerOrFault
  intro s x hx
  refine ⟨fun ha => ?_, step_busError hx⟩
  obtain ⟨t, hs⟩ := step_host_next hx ha
  obtain ⟨-, -, -, r, hr⟩ := step_host_port hx hs
  exact ⟨t, r, hs, hr⟩

/-! ## What a read returns -/

theorem Size.bytes_le (n : Size) : n.bytes ≤ 4 := by cases n <;> decide

theorem fromLe_lt (bs : List Byte) : fromLe bs < 256 ^ bs.length := by
  induction bs with
  | nil => decide
  | cons b bs ih =>
    have := b.isLt
    simp only [fromLe, List.length_cons, Nat.pow_succ]
    omega

theorem fromLe_append_singleton (bs : List Byte) (b : Byte) :
    fromLe (bs ++ [b]) = fromLe bs + b.toNat * 256 ^ bs.length := by
  induction bs with
  | nil => simp [fromLe]
  | cons c bs ih =>
    simp only [List.cons_append, fromLe, ih, List.length_cons, Nat.pow_succ]
    ring

/-- Little-endian (R69): byte `j` counts 256^j times. -/
theorem fromLe_map_range (f : Nat → Byte) (n : Nat) :
    fromLe ((List.range n).map f) = ((List.range n).map fun j => (f j).toNat * 256 ^ j).sum := by
  induction n with
  | zero => rfl
  | succ n ih => simp [List.range_succ, fromLe_append_singleton, ih]

/-- A value of at most four bytes fits the response. -/
theorem readValue_toNat {bs : List Byte} (h : bs.length ≤ 4) : (readValue bs).toNat = fromLe bs := by
  have hlt : fromLe bs < 2 ^ 32 := (fromLe_lt bs).trans_le (Nat.pow_le_pow_right (by decide) h)
  rw [readValue, BitVec.toNat_ofNat, Nat.mod_eq_of_lt hlt]

/-- An access that reads volatile bytes starts at one of the addresses that R68 lists. -/
theorem volatileAddr_of_volatileAt {p : Params} {a n : Nat} (hn : 0 < n) (ha : AccessOk p a n)
    (hv : volatileAt p a = true) : VolatileAddr a := by
  rcases ha.place hn with ⟨hr, -, h4, hl⟩ | ⟨h60, -⟩
  · have hreg : (regAt a).volatile = true := by simpa only [volatileAt, hl] using hv
    obtain ⟨k, hk, rfl⟩ := exists_reg_index hr h4
    unfold VolatileAddr
    clear hl hv ha hr h4
    revert k
    decide
  · exact .inl h60

/-- A read returns the bytes from its address on, unless BUSY = 1 and the address is volatile (R63, R68). -/
theorem memRead_settled {s : State} {a n : Nat} (ha : AccessOk s.params a n)
    (hv : s.status.busy = false ∨ volatileAt s.params a = false) :
    s.memRead a n = some (readValue ((List.range n).map fun j => s.byteAt (a + j))) := by
  rw [State.memRead, if_pos ((accessOk_iff _ _ _).2 ha), Bool.and_eq_false_iff.2 hv]
  rfl

theorem byteAt_ram {s : State} {a off : Nat} {r : Ram} (h : locate s.params a = some (.ram r off)) :
    s.byteAt a = s.byte .port r off := by
  rw [State.byteAt, h]

theorem byteAt_reg {s : State} {a off : Nat} (h : locate s.params a = some (.reg off)) :
    s.byteAt a = wordByte (s.readReg (regAt off)) (off % 4) := by
  rw [State.byteAt, h]

theorem wordByte_toNat (w : Word) (j : Nat) : (wordByte w j).toNat = w.toNat / 256 ^ j % 256 := by
  rw [wordByte, BitVec.extractLsb'_toNat, Nat.shiftRight_eq_div_pow, Nat.pow_mul]

/-- Settles O12: by what MemRead returns, and the place of each byte. -/
theorem readsReturnTheBytes : Obligations.ReadsReturnTheBytes := by
  unfold Obligations.ReadsReturnTheBytes
  intro s a n hx ha
  obtain ⟨v, hread, hstep⟩ := step_read hx ha
  refine ⟨v, hstep, fun hv => ?_, fun b r off hl => byteAt_ram (s := taken s) hl, fun b off hl => ?_⟩
  · have hsettled : (taken s).status.busy = false ∨ volatileAt (taken s).params a.toNat = false :=
      hv.imp_right fun hno => Bool.eq_false_iff.2 (mt (volatileAddr_of_volatileAt n.bytes_pos ha) hno)
    rw [memRead_settled (s := taken s) ha hsettled] at hread
    cases hread
    rw [readValue_toNat (by simpa using n.bytes_le), fromLe_map_range]
  · rw [byteAt_reg (s := taken s) hl, wordByte_toNat]

end Sys2Proof.Machine
end

section
/-! SUPPORT. What a host write stores in a window. -/

namespace Sys2Proof.Machine

/-- The byte is one of the RES bytes of HUFFSPEC, which a host write leaves alone (R61). -/
def Ram.ignores (r : Ram) (off : Nat) : Prop := r = .huffSpec ∧ 0x11 ≤ off % 0x200 ∧ off % 0x200 < 0x100

/-- A host write is one write per byte that its window does not ignore. -/
theorem mem_storeWrites {r : Ram} {off n : Nat} {v : Word} {w : Nat × List Byte} :
    w ∈ storeWrites r off n v ↔ ∃ j, j < n ∧ ¬r.ignores (off + j) ∧ w = (off + j, [wordByte v j]) := by
  simp only [storeWrites, isResByte, Ram.ignores, List.mem_map, List.mem_filter, List.mem_range, Bool.not_eq_true',
    ← Bool.not_eq_true, Bool.and_eq_true, decide_eq_true_eq, and_assoc, eq_comm (a := w)]

/-- A byte of the access that the window does not ignore reads as the byte written (R64, R69). -/
theorem read_stored (r : Ram) (c : Cells) (off n : Nat) (v : Word) {j : Nat} (hj : j < n) (hi : ¬r.ignores (off + j)) :
    (c.writeAll r (storeWrites r off n v)).read r (off + j) = some (wordByte v j) := by
  apply Cells.read_writeAll_inside
  · exact ⟨_, mem_storeWrites.2 ⟨j, hj, hi, rfl⟩, Nat.le_refl _, Nat.lt_succ_self _⟩
  · intro w hw hle hlt
    obtain ⟨k, -, -, rfl⟩ := mem_storeWrites.1 hw
    obtain rfl : k = j := Nat.add_left_cancel (Nat.le_antisymm hle (Nat.lt_succ_iff.1 hlt))
    simp

/-- Every other byte reads as before (R61). -/
theorem read_not_stored (r : Ram) (c : Cells) (off n : Nat) (v : Word) {a : Nat}
    (h : ¬(off ≤ a ∧ a < off + n ∧ ¬r.ignores a)) : (c.writeAll r (storeWrites r off n v)).read r a = c.read r a := by
  apply Cells.read_writeAll_outside
  rintro w hw ⟨hle, hlt⟩
  obtain ⟨j, hj, hi, rfl⟩ := mem_storeWrites.1 hw
  obtain rfl : a = off + j := Nat.le_antisymm (Nat.lt_succ_iff.1 hlt) hle
  exact h ⟨Nat.le_add_right .., Nat.add_lt_add_left hj off, hi⟩

/-- The state after a host write of `n` bytes at the offset `off` of a window. -/
def State.store (s : State) (r : Ram) (off n : Nat) (v : Word) : State :=
  { s with mem := s.mem.writeAll r (storeWrites r off n v) }

theorem memWrite_store {s : State} {a : Nat} {r : Ram} {off : Nat} (n : Nat) (v : Word)
    (h : locate s.params a = some (.ram r off)) (hw : r.writable = true) (hb : s.status.busy = false) :
    s.memWrite a n v = .next (s.store r off n v) := by
  rw [memWrite_ram n v h, hw, hb]
  rfl

theorem memWrite_readOnlyWindow {s : State} {a : Nat} {r : Ram} {off : Nat} (n : Nat) (v : Word)
    (h : locate s.params a = some (.ram r off)) (hw : r.writable = false) : s.memWrite a n v = .next s := by
  rw [memWrite_ram n v h, hw]
  rfl

theorem store_cells (s : State) (r r' : Ram) (off n : Nat) (v : Word) :
    (s.store r off n v).mem.cells r' =
      if r' = r then (s.mem.cells r).writeAll r (storeWrites r off n v) else s.mem.cells r' :=
  s.mem.cells_writeAll r r' _

theorem store_byte (s : State) {r : Ram} {off n : Nat} (v : Word) (site : Site) {j : Nat} (hj : j < n)
    (hi : ¬r.ignores (off + j)) : (s.store r off n v).byte site r (off + j) = wordByte v j := by
  apply byte_of_read
  rw [store_cells, if_pos rfl]
  exact read_stored r _ off n v hj hi

theorem store_readsAsBefore (s : State) (r : Ram) (off n : Nat) (v : Word) :
    ReadsAsBefore s (s.store r off n v) fun r' a => r' = r ∧ off ≤ a ∧ a < off + n ∧ ¬r.ignores a := by
  intro site r' a h
  refine byte_congr (s := s) (t := s.store r off n v) site rfl ?_
  rw [store_cells]
  split
  · next hr =>
    subst hr
    exact read_not_stored r' _ off n v fun hin => h ⟨rfl, hin⟩
  · rfl

theorem writable_iff (r : Ram) : r.writable = true ↔ r ∈ [Ram.huffSpec, .rgb, .py, .pcb, .pcr, .blk] := by
  cases r <;> decide

theorem not_writable_iff (r : Ram) : r.writable = false ↔ r ∈ [Ram.qtbl, .div, .ehuf, .out] := by
  cases r <;> decide

/-- Settles O18: a RW window stores its bytes, a RO one ignores them. -/
theorem windowWritesStoreTheirBytes : Obligations.WindowWritesStoreTheirBytes := by
  unfold Obligations.WindowWritesStoreTheirBytes
  intro s a n v r off hx hb ha hl
  refine ⟨fun hr => ?_, fun hr => ?_⟩
  · have hm := memWrite_store (s := taken s) n.bytes v hl ((writable_iff r).2 hr) hb
    refine ⟨_, step_write hx ha hm, rfl, fun site j hj hi => ?_, store_readsAsBefore (taken s) r off n.bytes v⟩
    exact (congrArg BitVec.toNat (store_byte (taken s) v site hj hi)).trans (wordByte_toNat v j)
  · exact step_write hx ha (memWrite_readOnlyWindow (s := taken s) n.bytes v hl ((not_writable_iff r).2 hr))

end Sys2Proof.Machine
end

section
/-! SUPPORT. Decoding and encoding: the fields of a command word, the opcode map on them, and the two as inverses. -/

namespace Sys2Proof

/-! ## The fields of a command word (R78) -/

theorem opField_toNat (w : Word) : (opField w).toNat = w.toNat % 256 := by
  rw [opField, BitVec.extractLsb'_toNat, Nat.shiftRight_zero]

theorem selField_toNat (w : Word) : (selField w).toNat = w.toNat / 256 % 4 := by
  rw [selField, BitVec.extractLsb'_toNat, Nat.shiftRight_eq_div_pow]

theorem rsvField_toNat (w : Word) : (rsvField w).toNat = w.toNat / 1024 := by
  rw [rsvField, BitVec.extractLsb'_toNat, Nat.shiftRight_eq_div_pow]
  omega

theorem rsvField_eq_zero_iff (w : Word) : rsvField w = 0 ↔ w.toNat / 1024 = 0 := by
  rw [← BitVec.toNat_inj, rsvField_toNat]
  rfl

theorem selField_eq_zero_iff (w : Word) : selField w = 0 ↔ w.toNat / 256 % 4 = 0 := by
  rw [← BitVec.toNat_inj, selField_toNat]
  rfl

theorem commandWord_toNat (sel : BitVec 2) (op : Byte) :
    (commandWord sel op).toNat = sel.toNat * 256 + op.toNat := by
  rw [commandWord, BitVec.toNat_append, BitVec.toNat_append, ← Nat.shiftLeft_add_eq_or_of_lt op.isLt]
  simp [Nat.shiftLeft_eq]

@[simp] theorem opField_commandWord (sel : BitVec 2) (op : Byte) : opField (commandWord sel op) = op := by
  apply BitVec.eq_of_toNat_eq
  rw [opField_toNat, commandWord_toNat]
  omega

@[simp] theorem selField_commandWord (sel : BitVec 2) (op : Byte) : selField (commandWord sel op) = sel := by
  apply BitVec.eq_of_toNat_eq
  rw [selField_toNat, commandWord_toNat]
  omega

@[simp] theorem rsvField_commandWord (sel : BitVec 2) (op : Byte) : rsvField (commandWord sel op) = 0 := by
  rw [rsvField_eq_zero_iff, commandWord_toNat]
  omega

/-- A command word is made of its fields: the three cover all 32 bits. -/
theorem commandWord_fields {w : Word} (h : rsvField w = 0) : commandWord (selField w) (opField w) = w := by
  rw [rsvField_eq_zero_iff] at h
  apply BitVec.eq_of_toNat_eq
  rw [commandWord_toNat, selField_toNat, opField_toNat]
  omega

/-! ## The opcode map on the fields (R80, R81) -/

theorem withoutSel_eq_ok {sel : BitVec 2} {j i : Instr} : withoutSel sel j = .ok i ↔ sel = 0 ∧ j = i := by
  unfold withoutSel
  split <;> simp_all

theorem commandWord_of_withoutSel {op : Byte} {sel : BitVec 2} {n : Nat} {j i : Instr} (hop : op.toNat = n)
    (hj : encode j = commandWord 0 (BitVec.ofNat 8 n)) (h : withoutSel sel j = .ok i) :
    encode i = commandWord sel op := by
  obtain ⟨rfl, rfl⟩ := withoutSel_eq_ok.1 h
  rw [hj, ← hop, BitVec.ofNat_toNat, BitVec.setWidth_eq]

/-- An operation found by OP and SEL has the word with these two fields. -/
theorem encode_of_decodeOp {op : Byte} {sel : BitVec 2} {i : Instr} (h : decodeOp op sel = .ok i) :
    encode i = commandWord sel op := by
  unfold decodeOp at h
  split at h
  case h_3 hop =>
    cases h
    rw [encode, BitVec.eq_of_toNat_eq (y := 0x02) hop]
  case h_14 => cases h
  all_goals exact commandWord_of_withoutSel ‹_› rfl h

/-- OP and SEL give an operation when OP is one of the thirteen opcodes and SEL is 0 unless OP is 0x02. -/
theorem exists_decodeOp_iff (op : Byte) (sel : BitVec 2) :
    (∃ i, decodeOp op sel = .ok i) ↔
      op.toNat ∈ [0x00, 0x01, 0x02, 0x03, 0x10, 0x11, 0x12, 0x13, 0x14, 0x15, 0x18, 0x20, 0x30] ∧
      (op.toNat ≠ 0x02 → sel = 0) := by
  unfold decodeOp
  split <;> simp_all [withoutSel_eq_ok]

/-! ## Words -/

theorem decodeCommand_eq_ok {w : Word} {i : Instr} :
    decodeCommand w = .ok i ↔ rsvField w = 0 ∧ decodeOp (opField w) (selField w) = .ok i := by
  unfold decodeCommand
  split <;> simp_all

theorem decodeCtrl_eq_ok {w : Word} {i : Instr} :
    decodeCtrl w = .ok i ↔ w.getLsbD 0 = true ∧ .softReset w = i := by
  unfold decodeCtrl
  split <;> simp_all

theorem decodeCommand_commandWord (sel : BitVec 2) (op : Byte) :
    decodeCommand (commandWord sel op) = decodeOp op sel := by
  simp [decodeCommand]

/-- Decoding the word of a well-formed operation gives it back. -/
theorem decodePort_encode {i : Instr} (h : i.wellFormed = true) : decodePort i.port (encode i) = .ok i := by
  cases i with
  | softReset ctrl => exact decodeCtrl_eq_ok.2 ⟨h, rfl⟩
  | buildHuff t => exact decodeCommand_commandWord t 0x02
  | _ => rfl

theorem wellFormed_of_command {i : Instr} (h : i.port = .cmd) : i.wellFormed = true := by
  cases i with
  | softReset => cases h
  | _ => rfl

/-- A word that decodes to an operation is that operation's word. -/
theorem encode_of_decodePort {p : Port} {w : Word} {i : Instr} (h : decodePort p w = .ok i) :
    i.wellFormed = true ∧ i.port = p ∧ encode i = w := by
  cases p with
  | cmd =>
    have hport : i.port = .cmd := Machine.port_of_decode h
    obtain ⟨hrsv, hop⟩ := decodeCommand_eq_ok.1 h
    exact ⟨wellFormed_of_command hport, hport, (encode_of_decodeOp hop).trans (commandWord_fields hrsv)⟩
  | ctrl =>
    obtain ⟨hbit, rfl⟩ := decodeCtrl_eq_ok.1 h
    exact ⟨hbit, rfl, rfl⟩

/-- Settles O3: an operation's word is the concatenation of the fields that its decoding reads. -/
theorem decodeAndEncodeAreInverse : Obligations.DecodeAndEncodeAreInverse := by
  unfold Obligations.DecodeAndEncodeAreInverse
  exact ⟨fun _ => decodePort_encode, fun _ _ _ => encode_of_decodePort⟩

/-- Settles O2: the opcode map on the three fields, each read as a number. -/
theorem wordsDecodeOrAreIllegal : Obligations.WordsDecodeOrAreIllegal := by
  unfold Obligations.WordsDecodeOrAreIllegal
  intro w
  simp only [decodeCommand_eq_ok, exists_and_left, exists_decodeOp_iff, rsvField_eq_zero_iff, opField_toNat,
    selField_eq_zero_iff]

/-- Settles O1: the seventeen words of the map, each decoded. -/
theorem opcodeMapDecodes : Obligations.OpcodeMapDecodes := by
  unfold Obligations.OpcodeMapDecodes
  decide

end Sys2Proof
end

section
/-! SUPPORT. Which RAMs a command writes: one lemma per run, and what completion leaves alone. -/

namespace Sys2Proof.Machine

/-- Every RAM but those listed has in `t` the bytes it has in `s`. -/
def RamsKept (rams : List Ram) (s t : State) : Prop := ∀ r, r ∉ rams → t.mem.cells r = s.mem.cells r

theorem RamsKept.refl (rams : List Ram) (s : State) : RamsKept rams s s := fun _ _ => rfl

theorem RamsKept.trans {rams : List Ram} {s t u : State} (h : RamsKept rams s t) (k : RamsKept rams t u) :
    RamsKept rams s u :=
  fun r hr => (k r hr).trans (h r hr)

theorem RamsKept.mono {rams rams' : List Ram} {s t : State} (h : RamsKept rams s t) (hsub : rams ⊆ rams') :
    RamsKept rams' s t :=
  fun r hr => h r fun hm => hr (hsub hm)

theorem Memory.cells_write_ne {m : Memory} {r r' : Ram} (off : Nat) (bs : List Byte) (h : r' ≠ r) :
    (m.write r off bs).cells r' = m.cells r' := by
  rw [Memory.cells_write, if_neg h]

/-! ## The runs -/

/-- A run that writes blocks writes BLK alone (R116 to R121, R127). -/
theorem ramsKept_updateBlocks {s t : State} {p : Nat → Bool} {f : Nat → List Byte} (h : t.mem = s.updateBlocks p f) :
    RamsKept [.blk] s t := by
  intro r hr
  rw [h, cells_updateBlocks, if_neg (List.ne_of_not_mem_cons hr)]

theorem runBuildQtables_ramsKept (s : State) : RamsKept [.qtbl, .div] s (runBuildQtables s).st := by
  intro r hr
  obtain ⟨hq, hd⟩ : r ≠ .qtbl ∧ r ≠ .div := by simpa using hr
  exact (Memory.cells_write_ne _ _ hd).trans (Memory.cells_write_ne _ _ hq)

theorem runColorConvert_ramsKept (s : State) : RamsKept [.py, .pcb, .pcr] s (runColorConvert s).st := by
  intro r hr
  obtain ⟨hy, hb, hc⟩ : r ≠ .py ∧ r ≠ .pcb ∧ r ≠ .pcr := by simpa using hr
  exact ((Memory.cells_write_ne _ _ hc).trans (Memory.cells_write_ne _ _ hb)).trans (Memory.cells_write_ne _ _ hy)

/-- BUILD_HUFF writes EHUF, or nothing if it fails (R109). -/
theorem runBuildHuff_ramsKept (t : BitVec 2) (s : State) : RamsKept [.ehuf] s (runBuildHuff t s).st := by
  unfold runBuildHuff
  dsimp only
  split
  · exact RamsKept.refl _ s
  · split
    · exact RamsKept.refl _ s
    · exact fun r hr => Memory.cells_write_ne _ _ (List.ne_of_not_mem_cons hr)

/-- ENCODE_SCAN forgets OUT, and writes it if it succeeds (R138). -/
theorem runEncodeScan_ramsKept (s : State) : RamsKept [.out] s (runEncodeScan s).st := by
  have hforget : ∀ r, r ∉ [Ram.out] → (s.mem.forget .out).cells r = s.mem.cells r := fun r hr => by
    rw [Memory.cells_forget, if_neg (List.ne_of_not_mem_cons hr)]
  unfold runEncodeScan
  split
  · exact fun r hr => (Memory.cells_write_ne _ _ (List.ne_of_not_mem_cons hr)).trans (hforget r hr)
  · exact hforget

/-! ## One run after the other -/

/-- A run that writes only listed RAMs, after others that do. -/
theorem RamsKept.andThen {rams own : List Ram} {s : State} {run : State → Ran} (hrun : ∀ t, RamsKept own t (run t).st)
    (hsub : own ⊆ rams) (t : State) (h : RamsKept rams s t) : RamsKept rams s (run t).st :=
  h.trans ((hrun t).mono hsub)

/-- INIT_TABLES writes what BUILD_QTABLES and BUILD_HUFF write (R152). -/
theorem runInitTables_ramsKept (s : State) : RamsKept [.qtbl, .div, .ehuf] s (runInitTables s).st :=
  runInitTables_keeps (RamsKept.refl _ s) (RamsKept.andThen runBuildQtables_ramsKept (by decide))
    fun t => RamsKept.andThen (runBuildHuff_ramsKept t) (by decide)

/-- The stages of ENCODE_IMAGE before its scan write the planes and BLK (R153). -/
theorem runBeforeScan_ramsKept (s : State) : RamsKept [.py, .pcb, .pcr, .blk] s (runBeforeScan s).st := by
  have hcolor : RamsKept [.py, .pcb, .pcr, .blk] s (runColorConvert s).st :=
    (runColorConvert_ramsKept s).mono (by decide)
  have hblk {run : State → Ran} (hrun : ∀ t, RamsKept [.blk] t (run t).st) :=
    RamsKept.andThen (rams := [.py, .pcb, .pcr, .blk]) (s := s) hrun (by decide)
  have hluma := andDo_keeps hcolor (hblk (run := runExtractLuma) fun _ => ramsKept_updateBlocks rfl)
  have hchroma := andDo_keeps hluma (hblk (run := runExtractChroma) fun _ => ramsKept_updateBlocks rfl)
  have hfdct := andDo_keeps hchroma (hblk (run := runFdctQuant) fun _ => ramsKept_updateBlocks rfl)
  exact edges_keeps s.edgeOrder hfdct (hblk fun _ => ramsKept_updateBlocks rfl) (hblk fun _ => ramsKept_updateBlocks rfl)
    (hblk fun _ => ramsKept_updateBlocks rfl)

/-- ENCODE_IMAGE writes the planes, BLK and OUT (R153). -/
theorem runEncodeImage_ramsKept (s : State) : RamsKept [.py, .pcb, .pcr, .blk, .out] s (runEncodeImage s).st :=
  andDo_keeps ((runBeforeScan_ramsKept s).mono (by decide)) (RamsKept.andThen runEncodeScan_ramsKept (by decide))

/-- The run of every command writes no RAM but those of its rule. -/
theorem runOf_ramsKept (i : Instr) (s : State) : RamsKept (ramsOf i) s (runOf i s).st := by
  cases i with
  | nop => exact RamsKept.refl _ s
  | buildQtables => exact runBuildQtables_ramsKept s
  | buildHuff t => exact runBuildHuff_ramsKept t s
  | initTables => exact runInitTables_ramsKept s
  | colorConvert => exact runColorConvert_ramsKept s
  | extractLuma => exact ramsKept_updateBlocks rfl
  | extractChroma => exact ramsKept_updateBlocks rfl
  | edgeDcFixup => exact ramsKept_updateBlocks rfl
  | zeroRight => exact ramsKept_updateBlocks rfl
  | zeroBottom => exact ramsKept_updateBlocks rfl
  | fdctQuant => exact ramsKept_updateBlocks rfl
  | encodeScan => exact runEncodeScan_ramsKept s
  | encodeImage => exact runEncodeImage_ramsKept s
  | softReset _ => exact RamsKept.refl _ s

/-! ## Completion -/

@[simp] theorem complete_mem (r : Option CmdError) (s : State) : (complete r s).mem = s.mem := by cases r <;> rfl

/-- Completion leaves OUT_COUNT and the entropy registers alone. -/
theorem complete_outputs (r : Option CmdError) (s : State) :
    (complete r s).outCount = s.outCount ∧ (complete r s).entBuf = s.entBuf ∧ (complete r s).entBits = s.entBits ∧
      (complete r s).lastDc0 = s.lastDc0 ∧ (complete r s).lastDc1 = s.lastDc1 ∧ (complete r s).lastDc2 = s.lastDc2 := by
  rw [complete_frame]
  exact ⟨rfl, rfl, rfl, rfl, rfl, rfl⟩

/-- Settles O23: a command completes after its run, which keeps the other RAMs, or from the same state. -/
theorem commandsWriteOnlyTheirRams : Obligations.CommandsWriteOnlyTheirRams := by
  unfold Obligations.CommandsWriteOnlyTheirRams
  intro i s t hport ht
  obtain ⟨r, u, hu, hrams, hout⟩ : ∃ r u, exec i s = .next (complete r u) ∧ RamsKept (ramsOf i) s u ∧
      (i ≠ .encodeScan → i ≠ .encodeImage → KeptOut s u) := by
    rcases exec_cases hport s with ⟨-, he⟩ | ⟨e, -, he⟩
    · exact ⟨_, _, he, runOf_ramsKept i s, fun h1 h2 => runOf_keptOut h1 h2 s⟩
    · exact ⟨_, _, he, RamsKept.refl _ s, fun _ _ => KeptOut.refl s⟩
  obtain rfl : complete r u = t := by simpa [hu] using ht
  refine ⟨fun x hx => by rw [complete_mem, hrams x hx], fun h1 h2 => ?_⟩
  obtain ⟨-, k1, k2, k3, k4, k5, k6⟩ := hout h1 h2
  simpa only [k1, k2, k3, k4, k5, k6] using complete_outputs r u

end Sys2Proof.Machine
end

section
/-! SUPPORT. The reciprocal quadruples (R100 to R102): the three cases of `quad`, and the ranges of its parts. -/

namespace Sys2Proof.Machine

/-! ## The three cases of R100 -/

/-- 2^r, the dividend of R100. -/
def quadDividend (q8 : Nat) : Nat := 2 ^ (16 + (bitlen q8 - 1))

theorem bitlen_sub_one (n : Nat) : bitlen n - 1 = n.log2 := by
  unfold bitlen
  split
  · next h => subst h; rfl
  · rfl

theorem quadDividend_eq (n : Nat) : quadDividend n = 65536 * 2 ^ n.log2 := by
  rw [quadDividend, bitlen_sub_one, Nat.pow_add]

/-- fr of R100 is 0 exactly for a power of two (R101). -/
theorem quadDividend_mod_eq_zero_iff (n : Nat) : quadDividend n % n = 0 ↔ ∃ k, n = 2 ^ k := by
  constructor
  · intro h
    obtain ⟨k, -, hk⟩ := (Nat.dvd_prime_pow Nat.prime_two).1 (Nat.dvd_of_mod_eq_zero h)
    exact ⟨k, hk⟩
  · rintro ⟨k, rfl⟩
    rw [quadDividend_eq, Nat.log2_two_pow]
    exact Nat.mul_mod_left ..

/-- fr = 0: the quadruple of a power of two. -/
theorem quad_two_pow {k : Nat} (hk : 1 ≤ k) : quad (2 ^ k) = ⟨32768, 2 ^ k / 2, 2 ^ (17 - k), k - 1⟩ := by
  have hne : 2 ^ k ≠ 1 := (Nat.one_lt_two_pow (by omega)).ne'
  have hfr : 2 ^ (16 + k) % 2 ^ k = 0 := Nat.mod_eq_zero_of_dvd (pow_dvd_pow 2 (Nat.le_add_left k 16))
  have hfq : 2 ^ (16 + k) / 2 ^ k = 65536 := by
    rw [Nat.pow_add]
    exact Nat.mul_div_cancel _ (Nat.two_pow_pos k)
  simp only [quad, bitlen_sub_one, Nat.log2_two_pow, hfr, hfq, hne, if_true, if_false, Quad.mk.injEq, true_and]
  exact ⟨by congr 1; omega, by omega⟩

/-- 0 < fr ≤ q8/2: the reciprocal is rounded down, and the correction is one more. -/
theorem quad_round_down {n : Nat} (hn : n ≠ 1) (h0 : quadDividend n % n ≠ 0) (h : quadDividend n % n ≤ n / 2) :
    quad n = ⟨quadDividend n / n, n / 2 + 1, 2 ^ (16 - n.log2), n.log2⟩ := by
  rw [quad, if_neg hn]
  refine (if_neg h0).trans ((if_pos h).trans ?_)
  rw [bitlen_sub_one, quadDividend, bitlen_sub_one, Quad.mk.injEq]
  exact ⟨rfl, rfl, by congr 1; omega, by omega⟩

/-- q8/2 < fr: the reciprocal is rounded up. -/
theorem quad_round_up {n : Nat} (hn : n ≠ 1) (h : n / 2 < quadDividend n % n) :
    quad n = ⟨quadDividend n / n + 1, n / 2, 2 ^ (16 - n.log2), n.log2⟩ := by
  have h0 : quadDividend n % n ≠ 0 := by omega
  rw [quad, if_neg hn]
  refine (if_neg h0).trans ((if_neg (Nat.not_le.2 h)).trans ?_)
  rw [bitlen_sub_one, quadDividend, bitlen_sub_one, Quad.mk.injEq]
  exact ⟨rfl, rfl, by congr 1; omega, by omega⟩

/-- The quadruple of q8 > 1: of a power of two, rounded down, or rounded up. -/
theorem quad_cases {n : Nat} (hn : 2 ≤ n) :
    (n = 2 ^ n.log2 ∧ quad n = ⟨32768, n / 2, 2 ^ (17 - n.log2), n.log2 - 1⟩) ∨
    (quadDividend n % n ≠ 0 ∧ quad n = ⟨quadDividend n / n, n / 2 + 1, 2 ^ (16 - n.log2), n.log2⟩) ∨
    (quadDividend n % n ≠ 0 ∧ quad n = ⟨quadDividend n / n + 1, n / 2, 2 ^ (16 - n.log2), n.log2⟩) := by
  have hn1 : n ≠ 1 := by omega
  by_cases h0 : quadDividend n % n = 0
  · obtain ⟨k, rfl⟩ := (quadDividend_mod_eq_zero_iff n).1 h0
    have hk : 1 ≤ k := Nat.pos_of_ne_zero fun hk => by simp [hk] at hn
    rw [Nat.log2_two_pow]
    exact .inl ⟨rfl, quad_two_pow hk⟩
  · rcases le_or_gt (quadDividend n % n) (n / 2) with h | h
    · exact .inr (.inl ⟨h0, quad_round_down hn1 h0 h⟩)
    · exact .inr (.inr ⟨h0, quad_round_up hn1 h⟩)

/-! ## The ranges (R101) -/

/-- The leading bit of q8 for a quantization value in 1..255. -/
theorem log2_eight_mul_range {v : Nat} (h1 : 1 ≤ v) (h255 : v ≤ 255) : 3 ≤ (8 * v).log2 ∧ (8 * v).log2 ≤ 10 := by
  have h0 : 8 * v ≠ 0 := by omega
  exact ⟨(Nat.le_log2 h0).2 (by omega), Nat.le_of_lt_succ ((Nat.log2_lt h0).2 (by omega))⟩

/-- fq for q8 = 8v that is no power of two. With b its leading bit, q8 lies in 2^b + 8 .. 2^(b+1), and 2^b ≤ 1024. -/
theorem quadDividend_div_range {v : Nat} (h1 : 1 ≤ v) (h255 : v ≤ 255) (hfr : quadDividend (8 * v) % (8 * v) ≠ 0) :
    32768 ≤ quadDividend (8 * v) / (8 * v) ∧ quadDividend (8 * v) / (8 * v) < 65028 := by
  obtain ⟨h3, h10⟩ := log2_eight_mul_range h1 h255
  have hlow : 2 ^ (8 * v).log2 ≤ 8 * v := Nat.log2_self_le (by omega)
  have hhigh : 8 * v < 2 ^ (8 * v).log2 * 2 := Nat.pow_succ .. ▸ Nat.lt_log2_self
  have hne : 8 * v ≠ 2 ^ (8 * v).log2 := fun h => hfr ((quadDividend_mod_eq_zero_iff _).2 ⟨_, h⟩)
  have htop : 2 ^ (8 * v).log2 ≤ 2 ^ 10 := Nat.pow_le_pow_right (by omega) h10
  obtain ⟨c, hc⟩ : 2 ^ 3 ∣ 2 ^ (8 * v).log2 := pow_dvd_pow 2 h3
  have hdiv := Nat.div_add_mod (quadDividend (8 * v)) (8 * v)
  rw [quadDividend_eq] at hfr hdiv ⊢
  constructor
  · rw [Nat.le_div_iff_mul_le (by omega)]
    omega
  · by_contra hge
    have := Nat.mul_le_mul_left (8 * v) (Nat.not_lt.1 hge)
    omega

theorem quad_recip_range {v : Nat} (h1 : 1 ≤ v) (h255 : v ≤ 255) :
    32768 ≤ (quad (8 * v)).recip ∧ (quad (8 * v)).recip ≤ 65028 := by
  rcases quad_cases (n := 8 * v) (by omega) with ⟨-, hq⟩ | ⟨hfr, hq⟩ | ⟨hfr, hq⟩ <;> rw [hq]
  · exact (by decide : 32768 ≤ 32768 ∧ 32768 ≤ 65028)
  · obtain ⟨hl, hu⟩ := quadDividend_div_range h1 h255 hfr
    exact ⟨hl, hu.le⟩
  · obtain ⟨hl, hu⟩ := quadDividend_div_range h1 h255 hfr
    exact ⟨Nat.le_succ_of_le hl, hu⟩

theorem quad_corr {v : Nat} (h1 : 1 ≤ v) : (quad (8 * v)).corr = 8 * v / 2 ∨ (quad (8 * v)).corr = 8 * v / 2 + 1 := by
  rcases quad_cases (n := 8 * v) (by omega) with ⟨-, hq⟩ | ⟨-, hq⟩ | ⟨-, hq⟩ <;> rw [hq]
  · exact .inl rfl
  · exact .inr rfl
  · exact .inl rfl

/-- Only v = 255 could exceed 1020, and its reciprocal is rounded up. -/
theorem quad_corr_range {v : Nat} (h1 : 1 ≤ v) (h255 : v ≤ 255) :
    4 ≤ (quad (8 * v)).corr ∧ (quad (8 * v)).corr ≤ 1020 := by
  have hlast : (quad (8 * 255)).corr ≤ 1020 := by decide
  have hcorr := quad_corr h1
  rcases Nat.lt_or_eq_of_le h255 with h | rfl <;> omega

/-- The shift is one of 2..10, and the scale word is the power of two that divides by it. -/
theorem quad_shift_scale {v : Nat} (h1 : 1 ≤ v) (h255 : v ≤ 255) :
    ∃ n : Nat, 2 ≤ n ∧ n ≤ 10 ∧ (quad (8 * v)).shift = n ∧ (quad (8 * v)).scale = 2 ^ (16 - n) := by
  obtain ⟨h3, h10⟩ := log2_eight_mul_range h1 h255
  rcases quad_cases (n := 8 * v) (by omega) with ⟨-, hq⟩ | ⟨-, hq⟩ | ⟨-, hq⟩ <;> rw [hq]
  · exact ⟨(8 * v).log2 - 1, by omega, by omega, by simp only; omega, by simp only; congr 1; omega⟩
  · exact ⟨_, by omega, h10, rfl, rfl⟩
  · exact ⟨_, by omega, h10, rfl, rfl⟩

/-- Multiplying by the scale word and dropping 16 bits is shifting (R101). -/
theorem mul_scale_div {n : Nat} (hn : n ≤ 16) (p : Nat) : p * 2 ^ (16 - n) / 2 ^ 16 = p / 2 ^ n := by
  rw [← Nat.mul_div_mul_right p (2 ^ n) (Nat.two_pow_pos (16 - n)), ← Nat.pow_add, Nat.add_sub_cancel' hn]

theorem quad_recip_of_mod_eq_zero {v : Nat} (h1 : 1 ≤ v) (h : quadDividend (8 * v) % (8 * v) = 0) :
    (quad (8 * v)).recip = 32768 := by
  rcases quad_cases (n := 8 * v) (by omega) with ⟨-, hq⟩ | ⟨hfr, -⟩ | ⟨hfr, -⟩
  · rw [hq]
  · exact absurd h hfr
  · exact absurd h hfr

/-- Settles O27: the range of each part, then the scale law, then the powers of two. -/
theorem quadRangeFacts : Obligations.QuadRangeFacts := by
  unfold Obligations.QuadRangeFacts
  intro v h1 h255 q
  obtain ⟨n, hn2, hn10, hshift, hscale⟩ := quad_shift_scale h1 h255
  obtain ⟨hr1, hr2⟩ := quad_recip_range h1 h255
  obtain ⟨hc1, hc2⟩ := quad_corr_range h1 h255
  have hs1 : 2 ^ 6 ≤ q.scale := hscale ▸ Nat.pow_le_pow_right (by omega) (by omega)
  have hs2 : q.scale ≤ 2 ^ 14 := hscale ▸ Nat.pow_le_pow_right (by omega) (by omega)
  have hto : q.shift.toNat = n := by rw [hshift, Int.toNat_natCast]
  refine ⟨hr1, hr2, hc1, hc2, quad_corr h1, by omega, by omega, by omega, by omega, by rw [hto, hscale], hs1, hs2,
    fun p => ?_, quadDividend_mod_eq_zero_iff _, quad_recip_of_mod_eq_zero h1⟩
  rw [hto, hscale]
  exact mul_scale_div (by omega) p

end Sys2Proof.Machine
end

section
/-! SUPPORT. BUILD_QTABLES: the bytes it writes, and the words they make. -/

namespace Sys2Proof.Machine

/-! ## Values in their words -/

theorem clamp_range (v : Nat) {lo hi : Nat} (h : lo ≤ hi) : lo ≤ clamp v lo hi ∧ clamp v lo hi ≤ hi := by
  unfold clamp
  omega

/-- Every quantization value lies in 1..255 (R99). -/
theorem builtQtbl_range (raw t i : Nat) : 1 ≤ builtQtbl raw t i ∧ builtQtbl raw t i ≤ 255 :=
  clamp_range _ (by decide)

theorem pattern16_toNat {n : Nat} (h : n < 2 ^ 16) : (pattern16 n).toNat = n := by
  rw [pattern16, BitVec.ofInt_natCast, BitVec.toNat_ofNat, Nat.mod_eq_of_lt h]

theorem pattern16_toInt {n : Nat} (h : n < 2 ^ 15) : (pattern16 n).toInt = n := by
  have hn : (pattern16 n).toNat = n := pattern16_toNat (by omega)
  rw [BitVec.toInt_eq_toNat_of_lt (by omega), hn]

/-- The words of DIV give back the parts of their quadruple: none loses a bit (R47, R101). -/
theorem builtDiv_parts (raw t i : Nat) :
    (builtDiv raw t 0 i).toNat = (quad (8 * builtQtbl raw t i)).recip ∧
      (builtDiv raw t 1 i).toNat = (quad (8 * builtQtbl raw t i)).corr ∧
      (builtDiv raw t 2 i).toNat = (quad (8 * builtQtbl raw t i)).scale ∧
      (builtDiv raw t 3 i).toInt = (quad (8 * builtQtbl raw t i)).shift := by
  obtain ⟨h1, h255⟩ := builtQtbl_range raw t i
  obtain ⟨n, hn2, hn10, hshift, hscale⟩ := quad_shift_scale h1 h255
  have hrecip := quad_recip_range h1 h255
  have hcorr := quad_corr_range h1 h255
  have hs : (quad (8 * builtQtbl raw t i)).scale ≤ 2 ^ 14 := hscale ▸ Nat.pow_le_pow_right (by omega) (by omega)
  refine ⟨pattern16_toNat (by omega), pattern16_toNat (by omega), pattern16_toNat (by omega), ?_⟩
  exact (congrArg (fun v => (pattern16 v).toInt) hshift).trans ((pattern16_toInt (by omega)).trans hshift.symm)

/-! ## The bytes in the RAMs -/

/-- DIV is laid out as blocks are: two bytes per word, in address order (R61, R69). -/
theorem divBytes_eq (raw : Nat) : divBytes raw = blockBytes ((List.range 512).map fun n =>
    (quad (8 * builtQtbl raw (n / 256) (n % 64))).part (n / 64 % 4)) := by
  rw [blockBytes, List.flatMap_map]
  rfl

theorem divBytes_getElem? (raw : Nat) {t k i j : Nat} (ht : t < 2) (hk : k < 4) (hi : i < 64) (hj : j < 2) :
    (divBytes raw)[divOff t k i + j]? = (toLe 2 (builtDiv raw t k i).toNat)[j]? := by
  have hoff : divOff t k i + j = 2 * (256 * t + 64 * k + i) + j := by simp only [divOff]; omega
  have ht' : (256 * t + 64 * k + i) / 256 = t := by omega
  have hk' : (256 * t + 64 * k + i) / 64 % 4 = k := by omega
  have hi' : (256 * t + 64 * k + i) % 64 = i := by omega
  rw [hoff, divBytes_eq, blockBytes_getElem? _ _ _ hj, List.getElem?_map, List.getElem?_range (by omega),
    Option.map_some, Option.bind_some, ht', hk', hi', builtDiv]

/-- A word of DIV whose two bytes are those of `v`. -/
theorem divWord_of_bytes {s : State} {t k i : Nat} {v : Half} (site : Site)
    (h : ∀ j, j < 2 → (s.mem.cells .div).read .div (divOff t k i + j) = (toLe 2 v.toNat)[j]?) :
    s.divWord site t k i = v := by
  have hbytes : s.bytes site .div (divOff t k i) 2 = toLe 2 v.toNat := by
    refine List.ext_getElem (by simp [State.bytes]) fun j hj hj' => ?_
    rw [toLe_length] at hj'
    simp only [State.bytes, List.getElem_map, List.getElem_range]
    exact byte_of_read site (by rw [h j hj', List.getElem?_eq_getElem])
  rw [State.divWord, hbytes, fromLe_toLe_two]

theorem runBuildQtables_read_qtbl (s : State) (off : Nat) :
    ((runBuildQtables s).st.mem.cells .qtbl).read .qtbl off =
      if off < 128 then (qtblBytes s.quality.toNat)[off]? else (s.mem.cells .qtbl).read .qtbl off := by
  simp only [runBuildQtables, Memory.cells_write, reduceCtorEq, if_true, if_false, Cells.read_write, qtblBytes_length,
    Nat.zero_le, true_and, Nat.zero_add, Nat.sub_zero]

theorem runBuildQtables_read_div (s : State) (off : Nat) :
    ((runBuildQtables s).st.mem.cells .div).read .div off =
      if off < 1024 then (divBytes s.quality.toNat)[off]? else (s.mem.cells .div).read .div off := by
  simp only [runBuildQtables, Memory.cells_write, reduceCtorEq, if_true, if_false, Cells.read_write, divBytes_length,
    Nat.zero_le, true_and, Nat.zero_add, Nat.sub_zero]

theorem runBuildQtables_qtbl (s : State) (site : Site) {t i : Nat} (ht : t < 2) (hi : i < 64) :
    ((runBuildQtables s).st.qtbl site t i).toNat = builtQtbl s.quality.toNat t i := by
  have hoff : 64 * t + i < 128 := by omega
  have hread : (runBuildQtables s).st.qtbl site t i = BitVec.ofNat 8 (builtQtbl s.quality.toNat t i) := by
    apply byte_of_read
    rw [runBuildQtables_read_qtbl, if_pos hoff, qtblBytes, List.getElem?_map, List.getElem?_range hoff, Option.map_some,
      show (64 * t + i) / 64 = t by omega, show (64 * t + i) % 64 = i by omega]
  have hlt := (builtQtbl_range s.quality.toNat t i).2
  rw [hread, BitVec.toNat_ofNat]
  omega

theorem runBuildQtables_divWord (s : State) (site : Site) {t k i : Nat} (ht : t < 2) (hk : k < 4) (hi : i < 64) :
    (runBuildQtables s).st.divWord site t k i = builtDiv s.quality.toNat t k i := by
  refine divWord_of_bytes site fun j hj => ?_
  have hoff : divOff t k i + j < 1024 := by simp only [divOff]; omega
  rw [runBuildQtables_read_div, if_pos hoff, divBytes_getElem? _ ht hk hi hj]

/-- BUILD_QTABLES stores the bytes of QTBL and DIV, and no other. -/
theorem runBuildQtables_readsAsBefore (s : State) :
    ReadsAsBefore s (runBuildQtables s).st fun r off => (r = .qtbl ∧ off < 0x80) ∨ (r = .div ∧ off < 0x400) := by
  intro site r off h
  obtain ⟨hq, hd⟩ := not_or.1 h
  refine byte_congr site rfl ?_
  by_cases hrq : r = .qtbl
  · subst hrq
    rw [runBuildQtables_read_qtbl, if_neg fun hlt => hq ⟨rfl, hlt⟩]
  · by_cases hrd : r = .div
    · subst hrd
      rw [runBuildQtables_read_div, if_neg fun hlt => hd ⟨rfl, hlt⟩]
    · rw [runBuildQtables_ramsKept s r (by simp [hrq, hrd])]

theorem exec_buildQtables (s : State) : exec .buildQtables s = .next (complete none (runBuildQtables s).st) := rfl

/-- Settles O26: the tables as built, word by word, and the frame of the two writes. -/
theorem buildQtablesBuildsBothTables : Obligations.BuildQtablesBuildsBothTables := by
  unfold Obligations.BuildQtablesBuildsBothTables
  intro s
  refine ⟨_, exec_buildQtables s, (runBuildQtables_kept s).completedOk, fun site t i ht hi => ?_,
    runBuildQtables_readsAsBefore s⟩
  obtain ⟨hrecip, hcorr, hscale, hshift⟩ := builtDiv_parts s.quality.toNat t i
  have hword {k : Nat} (hk : k < 4) := runBuildQtables_divWord s site ht hk hi
  exact ⟨runBuildQtables_qtbl s site ht hi, hword (k := 0) (by decide) ▸ hrecip, hword (k := 1) (by decide) ▸ hcorr,
    hword (k := 2) (by decide) ▸ hscale, hword (k := 3) (by decide) ▸ hshift⟩

end Sys2Proof.Machine
end

section
/-! SUPPORT. BUILD_HUFF: its three endings, and the entries it stores for an accepted specification. -/

namespace Sys2Proof.Machine

theorem exec_buildHuff (t : BitVec 2) (s : State) :
    exec (.buildHuff t) s = .next (complete (runBuildHuff t s).err (runBuildHuff t s).st) := rfl

/-! ## Rejected specifications -/

/-- A failed run leaves STATUS and ERRINFO as R159 and R160 give them, and HUFFt cleared. -/
theorem exec_buildHuff_of_failed {s : State} {t : BitVec 2} {sub sym : Nat}
    (h : runBuildHuff t s = s.huffFailed t.toNat (internal sub t.toNat sym)) :
    exec (.buildHuff t) s = .next (failedWith { s with valid := s.valid.setHuff t.toNat false } 4
      ⟨BitVec.ofNat 8 sym, t, BitVec.ofNat 4 sub⟩) := by
  have hinfo : (internal sub t.toNat sym).info = ⟨BitVec.ofNat 8 sym, t, BitVec.ofNat 4 sub⟩ := by
    simp [internal, CmdError.info]
  rw [exec_buildHuff, h, ← hinfo]
  rfl

theorem runBuildHuff_tooMany {s : State} {t : BitVec 2} (h : 256 < bitsSum s t.toNat) :
    runBuildHuff t s = s.huffFailed t.toNat (internal 1 t.toNat 0) := by
  rw [runBuildHuff, huffSizes_length, if_pos h]

theorem runBuildHuff_overfull {s : State} {t : BitVec 2} {l : Nat} (hn : bitsSum s t.toNat ≤ 256)
    (h : huffCodes (s.huffSizes t.toNat) = .error l) :
    runBuildHuff t s = s.huffFailed t.toNat (internal 2 t.toNat l) := by
  rw [runBuildHuff, huffSizes_length, if_neg (Nat.not_lt.2 hn), h]

/-- The assignment stops at the first over-filled length (R107). -/
theorem huffCodes_eq_error {s : State} {t l : Nat} (hl : l ≤ 16) (hover : 2 ^ l < covered (s.huffSizes t) l)
    (hfirst : ∀ k, k < l → covered (s.huffSizes t) k ≤ 2 ^ k) : huffCodes (s.huffSizes t) = .error l := by
  obtain ⟨hok, herr⟩ := huffCodes_spec s t
  cases hc : huffCodes (s.huffSizes t) with
  | ok codes =>
    obtain ⟨-, -, hfit⟩ := hok codes hc
    exact absurd (hfit l hl) (Nat.not_le.2 hover)
  | error m =>
    obtain ⟨-, -, hm, hbefore⟩ := herr m hc
    rcases Nat.lt_trichotomy m l with hml | rfl | hlm
    · exact absurd (hfirst m hml) (Nat.not_le.2 hm)
    · rfl
    · exact absurd (hbefore l hlm) (Nat.not_le.2 hover)

/-- A code space of Kraft sum at most 1 is over-filled at no length (R107). -/
theorem covered_le_of_kraftSum_le {s : State} {t l : Nat} (h : kraftSum s t ≤ 2 ^ 16) (hl : l ≤ 16) :
    covered (s.huffSizes t) l ≤ 2 ^ l := by
  obtain ⟨codes, hc⟩ := (huffCodes_ok_iff s t).2 h
  obtain ⟨-, -, hfit⟩ := (huffCodes_spec s t).1 codes hc
  exact hfit l hl

/-- Settles O30: the first check of the run fails. -/
theorem tooManySymbolsAreRejected : Obligations.TooManySymbolsAreRejected := by
  unfold Obligations.TooManySymbolsAreRejected
  intro s t h
  exact exec_buildHuff_of_failed (runBuildHuff_tooMany h)

/-- Settles O31: what the lengths up to l use is what `covered` counts; the Kraft sum is its value at the length 16. -/
theorem overfullCodeSpaceIsRejected : Obligations.OverfullCodeSpaceIsRejected := by
  unfold Obligations.OverfullCodeSpaceIsRejected
  intro s t hn used
  have hused {l : Nat} (hl : l ≤ 16) : covered (s.huffSizes t.toNat) l = used l := covered_huffSizes s t.toNat hl
  refine ⟨fun l _ hl hover hfirst => ?_, fun h => ⟨16, by decide, le_rfl, h⟩, fun ⟨l, _, hl, hover⟩ => ?_⟩
  · refine exec_buildHuff_of_failed (runBuildHuff_overfull hn (huffCodes_eq_error hl (hused hl ▸ hover) fun k hk => ?_))
    rw [hused (by omega)]
    rcases Nat.eq_zero_or_pos k with rfl | hpos
    · exact Nat.zero_le _
    · exact hfirst k hpos hk
  · by_contra hfits
    exact absurd (covered_le_of_kraftSum_le (Nat.not_lt.1 hfits) hl) (Nat.not_le.2 (hused hl ▸ hover))

/-! ## Accepted specifications -/

/-- No code of a sorted specification begins with the code of another position whose size is not larger. -/
theorem codeAt_div_ne {sizes : List Nat} (hs : sizes.Pairwise (· ≤ ·)) {p q : Nat} (hp : p < sizes.length)
    (hq : q < sizes.length) (hpq : p ≠ q) (hle : sizes.getD p 0 ≤ sizes.getD q 0) :
    codeAt sizes q / 2 ^ (sizes.getD q 0 - sizes.getD p 0) ≠ codeAt sizes p := by
  rcases Nat.lt_or_gt_of_ne hpq with hlt | hgt
  · exact (codeAt_prefix_free hs hlt hq).ne'
  · have hge : sizes.getD q 0 ≤ sizes.getD p 0 := by
      rw [List.getD_eq_getElem _ _ hq, List.getD_eq_getElem _ _ hp]
      exact List.pairwise_iff_getElem.1 hs q p hq hp hgt
    have hne := codeAt_prefix_free hs hgt hp
    rw [hle.antisymm hge, Nat.sub_self, pow_zero, Nat.div_one] at hne ⊢
    exact hne.ne

section Accepted

variable {s : State} {t : BitVec 2} (h : SpecAccepted s t.toNat)
include h

theorem exec_buildHuff_accepted :
    exec (.buildHuff t) s = .next (complete none (runBuildHuff t s).st) := by
  obtain ⟨codes, -, -, hr⟩ := runBuildHuff_accepted h
  rw [exec_buildHuff, hr]

theorem runBuildHuff_completedOk :
    CompletedOk s (complete none (runBuildHuff t s).st) (s.valid.setHuff t.toNat true) := by
  obtain ⟨codes, -, -, hr⟩ := runBuildHuff_accepted h
  rw [hr]
  rfl

/-- The last position of a symbol gives the symbol its size and its canonical code (R106, R108). -/
theorem runBuildHuff_entry_last (site : Site) {p : Nat} (hp : p < (s.huffSizes t.toNat).length)
    (hlast : ∀ q, p < q → q < (s.huffSizes t.toNat).length → s.hvals t.toNat q ≠ s.hvals t.toNat p) :
    let e := (runBuildHuff t s).st.ehufEntry site t.toNat (s.hvals t.toNat p).toNat
    entrySize e = (s.huffSizes t.toNat).getD p 0 ∧ entryCode e = codeAt (s.huffSizes t.toNat) p := by
  obtain ⟨codes, hc, hlen, hr⟩ := runBuildHuff_accepted h
  obtain ⟨-, hcodes, -⟩ := (huffCodes_spec s t.toNat).1 codes hc
  obtain ⟨hlt, -, hsize⟩ := codeAt_lt hc hp
  have hcode : codes.getD p 0 = codeAt (s.huffSizes t.toNat) p := hcodes p (huffSizes_length s t.toNat ▸ hp)
  have hlt16 : codeAt (s.huffSizes t.toNat) p < 2 ^ 16 := hlt.trans_le (Nat.pow_le_pow_right (by decide) hsize)
  rw [hr]
  dsimp only
  rw [ehufEntry_of_write rfl site (s.hvals t.toNat p).isLt, derivedEntry_last s t.toNat hlen hp hlast, hcode]
  exact ⟨entrySize_word (by omega), entryCode_word hlt16⟩

/-- A symbol at no position has length 0 (R108). -/
theorem runBuildHuff_entry_absent (site : Site) {sym : Nat} (hs : sym < 256)
    (hno : ∀ p, p < (s.huffSizes t.toNat).length → (s.hvals t.toNat p).toNat ≠ sym) :
    (runBuildHuff t s).st.ehufEntry site t.toNat sym = 0 := by
  obtain ⟨codes, -, hlen, hr⟩ := runBuildHuff_accepted h
  rw [hr, ehufEntry_of_write rfl site hs, derivedEntry_absent s t.toNat hlen hno]
  rfl

/-- A symbol that has a code has it from a position of VALUES. -/
theorem exists_position_of_entrySize_ne_zero (site : Site) {sym : Nat} (hs : sym < 256)
    (hne : entrySize ((runBuildHuff t s).st.ehufEntry site t.toNat sym) ≠ 0) :
    ∃ p, p < (s.huffSizes t.toNat).length ∧ (s.hvals t.toNat p).toNat = sym ∧
      entrySize ((runBuildHuff t s).st.ehufEntry site t.toNat sym) = (s.huffSizes t.toNat).getD p 0 ∧
      entryCode ((runBuildHuff t s).st.ehufEntry site t.toNat sym) = codeAt (s.huffSizes t.toNat) p := by
  rcases exists_last s t.toNat (s.huffSizes t.toNat).length sym with hno | ⟨p, hp, rfl, hlast⟩
  · rw [runBuildHuff_entry_absent h site hs hno] at hne
    exact absurd rfl hne
  · exact ⟨p, hp, rfl, runBuildHuff_entry_last h site hp hlast⟩

/-- BUILD_HUFF stores the 1024 bytes of its table, and no other (R109). -/
theorem runBuildHuff_readsAsBefore :
    ReadsAsBefore s (runBuildHuff t s).st
      fun r off => r = .ehuf ∧ 0x400 * t.toNat ≤ off ∧ off < 0x400 * t.toNat + 0x400 := by
  obtain ⟨codes, -, -, hr⟩ := runBuildHuff_accepted h
  intro site r off hout
  refine byte_congr site (runBuildHuff_kept t s).epoch ?_
  by_cases hre : r = .ehuf
  · subst hre
    rw [hr]
    dsimp only
    rw [Memory.cells_write, if_pos rfl, Cells.read_write, ehufBytes_length]
    exact if_neg fun hin => hout ⟨rfl, hin⟩
  · rw [runBuildHuff_ramsKept t s r (by simpa using hre)]

/-- Two symbols with codes have them from two positions, so the shorter code is not the beginning of the other. -/
theorem runBuildHuff_prefix_free (site : Site) {a b : Nat} (ha : a < 256) (hb : b < 256) (hab : a ≠ b) :
    let ea := (runBuildHuff t s).st.ehufEntry site t.toNat a
    let eb := (runBuildHuff t s).st.ehufEntry site t.toNat b
    entrySize ea ≠ 0 → entrySize ea ≤ entrySize eb →
      entryCode eb / 2 ^ (entrySize eb - entrySize ea) ≠ entryCode ea := by
  dsimp only
  intro hne hle
  obtain ⟨p, hp, rfl, hsizeA, hcodeA⟩ := exists_position_of_entrySize_ne_zero h site ha hne
  obtain ⟨q, hq, rfl, hsizeB, hcodeB⟩ := exists_position_of_entrySize_ne_zero h site hb (by omega)
  have hpq : p ≠ q := fun he => hab (he ▸ rfl)
  rw [hsizeA, hsizeB] at hle ⊢
  rw [hcodeA, hcodeB]
  exact codeAt_div_ne (huffSizes_sorted s t.toNat).1 hp hq hpq hle

end Accepted

/-- Settles O29: the entries of the last positions, of the other symbols, and the frame of the write. -/
theorem buildHuffBuildsTheCanonicalCodes : Obligations.BuildHuffBuildsTheCanonicalCodes := by
  unfold Obligations.BuildHuffBuildsTheCanonicalCodes
  intro s t h
  exact ⟨_, exec_buildHuff_accepted h, runBuildHuff_completedOk h,
    fun site _ hp hlast => runBuildHuff_entry_last h site hp hlast,
    fun site _ hs hno => runBuildHuff_entry_absent h site hs hno, runBuildHuff_readsAsBefore h⟩

/-- Settles O32, by the codes of the positions. -/
theorem huffmanCodesArePrefixFree : Obligations.HuffmanCodesArePrefixFree := by
  unfold Obligations.HuffmanCodesArePrefixFree
  intro s t h
  exact ⟨_, exec_buildHuff_accepted h, fun site _ _ ha hb hab => runBuildHuff_prefix_free h site ha hb hab⟩

end Sys2Proof.Machine
end

section
/-! SUPPORT. COLOR_CONVERT: the range of the three formulas, and the bytes of the planes. -/

namespace Sys2Proof.Machine

/-! ## The formulas on bytes (R110) -/

/-- A component of a pixel fits a byte. -/
def FitsByte (f : Int → Int → Int → Int) : Prop :=
  ∀ r g b : Byte, 0 ≤ f r.toNat g.toNat b.toNat ∧ f r.toNat g.toNat b.toNat < 256

theorem pixelY_fitsByte : FitsByte pixelY := fun r g b => by
  have := r.isLt; have := g.isLt; have := b.isLt
  unfold pixelY
  omega

theorem pixelCb_fitsByte : FitsByte pixelCb := fun r g b => by
  have := r.isLt; have := g.isLt; have := b.isLt
  unfold pixelCb
  omega

theorem pixelCr_fitsByte : FitsByte pixelCr := fun r g b => by
  have := r.isLt; have := g.isLt; have := b.isLt
  unfold pixelCr
  omega

theorem toNat_ofInt_byte {v : Int} (h0 : 0 ≤ v) (h : v < 256) : ((BitVec.ofInt 8 v).toNat : Int) = v := by
  rw [BitVec.toNat_ofInt]
  omega

/-- Pixel (x, y) is one of the image's W·H. -/
theorem pixel_lt {w h x y : Nat} (hx : x < w) (hy : y < h) : y * w + x < w * h :=
  calc y * w + x < (y + 1) * w := by rw [Nat.succ_mul]; exact Nat.add_lt_add_left hx _
    _ ≤ h * w := Nat.mul_le_mul_right w hy
    _ = w * h := Nat.mul_comm h w

/-! ## One plane (R112) -/

section Plane

variable {s t : State} {r : Ram} {f : Int → Int → Int → Int}
  (h : t.mem.cells r = (s.mem.cells r).write r 0 (s.planeBytes f))
include h

theorem read_plane (off : Nat) :
    (t.mem.cells r).read r off = if off < s.w * s.h then (s.planeBytes f)[off]? else (s.mem.cells r).read r off := by
  simp only [h, Cells.read_write, planeBytes_length, Nat.zero_le, true_and, Nat.zero_add, Nat.sub_zero]

theorem byte_plane (hf : FitsByte f) (site : Site) {k : Nat} (hk : k < s.w * s.h) :
    ((t.byte site r k).toNat : Int) =
      f (s.rgb .pixel (3 * k)).toNat (s.rgb .pixel (3 * k + 1)).toNat (s.rgb .pixel (3 * k + 2)).toNat := by
  have hread : (t.mem.cells r).read r k = some (BitVec.ofInt 8
      (f (s.rgb .pixel (3 * k)).toNat (s.rgb .pixel (3 * k + 1)).toNat (s.rgb .pixel (3 * k + 2)).toNat)) := by
    rw [read_plane h, if_pos hk, State.planeBytes, List.getElem?_map, List.getElem?_range hk, Option.map_some]
  obtain ⟨hlow, hhigh⟩ := hf (s.rgb .pixel (3 * k)) (s.rgb .pixel (3 * k + 1)) (s.rgb .pixel (3 * k + 2))
  rw [byte_of_read site hread, toNat_ofInt_byte hlow hhigh]

theorem read_plane_outside {off : Nat} (hoff : ¬off < s.w * s.h) :
    (t.mem.cells r).read r off = (s.mem.cells r).read r off := by
  rw [read_plane h, if_neg hoff]

end Plane

/-! ## The three planes -/

theorem runColorConvert_py (s : State) :
    (runColorConvert s).st.mem.cells .py = (s.mem.cells .py).write .py 0 (s.planeBytes pixelY) := rfl

theorem runColorConvert_pcb (s : State) :
    (runColorConvert s).st.mem.cells .pcb = (s.mem.cells .pcb).write .pcb 0 (s.planeBytes pixelCb) := rfl

theorem runColorConvert_pcr (s : State) :
    (runColorConvert s).st.mem.cells .pcr = (s.mem.cells .pcr).write .pcr 0 (s.planeBytes pixelCr) := rfl

/-- COLOR_CONVERT stores the first W·H bytes of the three planes, and no other (R112). -/
theorem runColorConvert_readsAsBefore (s : State) :
    ReadsAsBefore s (runColorConvert s).st fun r off => (r = .py ∨ r = .pcb ∨ r = .pcr) ∧ off < s.w * s.h := by
  intro site r off hout
  refine byte_congr site rfl ?_
  by_cases hr : r = .py ∨ r = .pcb ∨ r = .pcr
  · have hoff : ¬off < s.w * s.h := fun hlt => hout ⟨hr, hlt⟩
    rcases hr with rfl | rfl | rfl
    · exact read_plane_outside (runColorConvert_py s) hoff
    · exact read_plane_outside (runColorConvert_pcb s) hoff
    · exact read_plane_outside (runColorConvert_pcr s) hoff
  · rw [runColorConvert_ramsKept s r (by simpa using hr)]

theorem exec_colorConvert {s : State} (h : GeometryValid s) :
    exec .colorConvert s = .next (complete none (runColorConvert s).st) :=
  command_pass runColorConvert ((checkAll_none_iff _ _ s).2 ⟨h, rfl, rfl⟩)

/-- Settles O33: each plane holds its formula's values, which fit a byte, and the run writes nothing beyond the planes. -/
theorem colorConvertWritesThePlanes : Obligations.ColorConvertWritesThePlanes := by
  unfold Obligations.ColorConvertWritesThePlanes
  intro s h
  refine ⟨_, exec_colorConvert h, (runColorConvert_kept s).completedOk, fun site x y hx hy => ?_,
    runColorConvert_readsAsBefore s⟩
  have hk : y * s.width.toNat + x < s.w * s.h := pixel_lt hx hy
  exact ⟨byte_plane (runColorConvert_py s) pixelY_fitsByte site hk,
    byte_plane (runColorConvert_pcb s) pixelCb_fitsByte site hk,
    byte_plane (runColorConvert_pcr s) pixelCr_fitsByte site hk⟩

end Sys2Proof.Machine
end

section
/-! SUPPORT. What the block writes of a command store and leave alone, and which blocks of an MCU they reach. -/

namespace Sys2Proof.Machine

/-! ## Checks and runs -/

/-- The checks of EXTRACT_LUMA and EXTRACT_CHROMA pass. -/
theorem checkPlanes_none {s : State} (h : GeometryValid s) (hp : s.valid.planes = true) : checkPlanes s = none :=
  (checkAll_none_iff _ _ s).2 ⟨h, rfl, hp⟩

/-- The checks of the edge operations pass. -/
theorem checkCoef_none {s : State} (h : GeometryValid s) (hc : s.valid.coef = true) : checkCoef s = none :=
  (checkAll_none_iff _ _ s).2 ⟨h, rfl, hc⟩

theorem execAll_cons_next {i : Instr} {is : List Instr} {s t : State} (h : exec i s = .next t) :
    execAll (i :: is) s = execAll is t := by
  rw [execAll, h, thenDo]

/-! ## Block writes -/

/-- A frame with fewer bytes is a frame with more. -/
theorem ReadsAsBefore.mono {s t : State} {stored stored' : Ram → Nat → Prop} (h : ReadsAsBefore s t stored)
    (hsub : ∀ r off, stored r off → stored' r off) : ReadsAsBefore s t stored' :=
  fun site r off hout => h site r off fun hin => hout (hsub r off hin)

/-- A block write reads as before but for the bytes it stores. -/
theorem readsAsBefore_updateBlocks {s t : State} {p : Nat → Bool} {f : Nat → List Byte} {stored : Ram → Nat → Prop}
    (ht : t.mem = s.updateBlocks p f) (he : t.epoch = s.epoch) (hlen : ∀ b, (f b).length ≤ 128)
    (hstored : ∀ off, off / 128 < s.nblocks → p (off / 128) = true → off % 128 < (f (off / 128)).length →
      stored .blk off) : ReadsAsBefore s t stored := by
  intro site r off hout
  refine byte_congr site he ?_
  by_cases hr : r = .blk
  · subst hr
    rw [ht, read_updateBlocks_outside hlen fun ⟨hb, hp, hi⟩ => hout (hstored off hb hp hi)]
  · rw [ramsKept_updateBlocks ht r (by simpa using hr)]

/-- A value that fits a signed word is stored as it is (R17). -/
theorem s16_natCast {n : Nat} (h : n < 2 ^ 15) : s16 n = n := pattern16_toInt h

/-- A word of BLK, stored again, is the same word. -/
theorem s16_blk (s : State) (site : Site) (b i : Nat) : s16 (s.blk site b i) = s.blk site b i := by
  rw [s16, pattern16, State.blk, BitVec.ofInt_toInt]

/-! ## The blocks of an MCU (R113) -/

section Mcu

variable {s : State} {gx k : Nat} (gy : Nat) (hx : gx < s.nsbw) (hk : k < 6)
include hx hk

theorem blockX_mcu : s.blockX (6 * (gy * s.nsbw + gx) + k) = 2 * gx + k % 2 := by
  rw [State.blockX, blockMcu_mul_add hk, blockPlace_mul_add hk, gx_mcu gy hx]

theorem blockY_mcu : s.blockY (6 * (gy * s.nsbw + gx) + k) = 2 * gy + k / 2 := by
  rw [State.blockY, blockMcu_mul_add hk, blockPlace_mul_add hk, gy_mcu gy hx]

end Mcu

theorem isLuma_iff (b : Nat) : isLuma b = true ↔ b % 6 < 4 := decide_eq_true_iff

theorem isChroma_iff (b : Nat) : isChroma b = true ↔ 4 ≤ b % 6 := decide_eq_true_iff

theorem isLuma_mcu (m : Nat) {k : Nat} (hk : k < 4) : isLuma (6 * m + k) = true := by
  rw [isLuma_iff]
  omega

end Sys2Proof.Machine
end

section
/-! SUPPORT. EXTRACT_LUMA and EXTRACT_CHROMA: the samples of a block, and the bytes of BLK. -/

namespace Sys2Proof.Machine

/-! ## Samples (R115) -/

theorem planeAt_lt (s : State) (r : Ram) (x y : Nat) : s.planeAt r x y < 256 := by
  unfold State.planeAt
  split
  · exact (s.byte .sample r _).isLt
  · decide

/-- The rounded average of four bytes is one (R117). -/
theorem average_lt (s : State) (r : Ram) (x y : Nat) : s.average r x y < 256 := by
  have h00 := planeAt_lt s r x y
  have h10 := planeAt_lt s r (x + 1) y
  have h01 := planeAt_lt s r x (y + 1)
  have h11 := planeAt_lt s r (x + 1) (y + 1)
  unfold State.average
  omega

theorem lumaSamples_length (s : State) (b : Nat) : (s.lumaSamples b).length = 64 := by
  rw [State.lumaSamples, List.length_map, List.length_range]

theorem chromaSamples_length (s : State) (b : Nat) : (s.chromaSamples b).length = 64 := by
  rw [State.chromaSamples, List.length_map, List.length_range]

/-- Index 8j + i of a block is column i of row j (R114). -/
theorem sample_index {i : Nat} (j : Nat) (hi : i < 8) : (8 * j + i) % 8 = i ∧ (8 * j + i) / 8 = j := by omega

/-! ## The blocks written -/

/-- Sample (i, j) of the luma block k of the MCU at (gx, gy) (R114, R116). -/
theorem runExtractLuma_blk (s : State) (site : Site) {gx gy k i j : Nat} (hx : gx < s.nsbw) (hy : gy < s.nsbh)
    (hk : k < 4) (hi : i < 8) (hj : j < 8) :
    (runExtractLuma s).st.blk site (6 * (gy * s.nsbw + gx) + k) (8 * j + i) =
      s.planeAt .py (16 * gx + 8 * (k % 2) + i) (16 * gy + 8 * (k / 2) + j) := by
  have hk6 : k < 6 := by omega
  obtain ⟨hcol, hrow⟩ := sample_index j hi
  rw [blk_updateBlocks site rfl (lumaSamples_length s) (block_lt hx hy hk6) (isLuma_mcu _ hk) (by omega)]
  simp only [State.lumaSamples, List.getElem_map, List.getElem_range, hcol, hrow, blockX_mcu gy hx hk6,
    blockY_mcu gy hx hk6]
  rw [show 8 * (2 * gx + k % 2) = 16 * gx + 8 * (k % 2) by omega,
    show 8 * (2 * gy + k / 2) = 16 * gy + 8 * (k / 2) by omega]
  exact s16_natCast ((planeAt_lt s _ _ _).trans (by decide))

/-- Sample (i, j) of the chroma block k of the MCU at (gx, gy) (R117). -/
theorem runExtractChroma_blk (s : State) (site : Site) {gx gy k i j : Nat} (hx : gx < s.nsbw) (hy : gy < s.nsbh)
    (hk4 : 4 ≤ k) (hk6 : k < 6) (hi : i < 8) (hj : j < 8) :
    (runExtractChroma s).st.blk site (6 * (gy * s.nsbw + gx) + k) (8 * j + i) =
      s.average (if k = 4 then .pcb else .pcr) (16 * gx + 2 * i) (16 * gy + 2 * j) := by
  have hc : isChroma (6 * (gy * s.nsbw + gx) + k) = true := by rw [isChroma_iff]; omega
  obtain ⟨hcol, hrow⟩ := sample_index j hi
  rw [blk_updateBlocks site rfl (chromaSamples_length s) (block_lt hx hy hk6) hc (by omega)]
  simp only [State.chromaSamples, List.getElem_map, List.getElem_range, hcol, hrow, chromaPlane,
    blockPlace_mul_add hk6, blockMcu_mul_add hk6, gx_mcu gy hx, gy_mcu gy hx]
  exact s16_natCast ((average_lt s _ _ _).trans (by decide))

/-- EXTRACT_LUMA stores the luma blocks of the image alone (R116). -/
theorem runExtractLuma_readsAsBefore (s : State) :
    ReadsAsBefore s (runExtractLuma s).st fun r off => r = .blk ∧ off / 128 < s.nblocks ∧ off / 128 % 6 < 4 :=
  readsAsBefore_updateBlocks rfl rfl (fun b => by rw [blockBytes_length, lumaSamples_length])
    fun _ hb hp _ => ⟨rfl, hb, (isLuma_iff _).1 hp⟩

/-- EXTRACT_CHROMA stores the chroma blocks of the image alone (R117). -/
theorem runExtractChroma_readsAsBefore (s : State) :
    ReadsAsBefore s (runExtractChroma s).st fun r off => r = .blk ∧ off / 128 < s.nblocks ∧ 4 ≤ off / 128 % 6 :=
  readsAsBefore_updateBlocks rfl rfl (fun b => by rw [blockBytes_length, chromaSamples_length])
    fun _ hb hp _ => ⟨rfl, hb, (isChroma_iff _).1 hp⟩

/-- Settles O34: every luma block holds its samples, each of which fits a word, and no other byte is written. -/
theorem extractLumaFillsTheLumaBlocks : Obligations.ExtractLumaFillsTheLumaBlocks := by
  unfold Obligations.ExtractLumaFillsTheLumaBlocks
  intro s h hp
  refine ⟨_, command_pass runExtractLuma (checkPlanes_none h hp), (runExtractLuma_kept s).completedOk,
    fun site gx gy k i j hx hy hk hi hj => ?_, runExtractLuma_readsAsBefore s⟩
  exact (runExtractLuma_blk s site hx hy hk hi hj).trans (Nat.cast_ite _ _ _)

/-- Settles O35: every chroma block holds the averages of its own plane, each of which fits a word, and no other byte is
written. -/
theorem extractChromaFillsTheChromaBlocks : Obligations.ExtractChromaFillsTheChromaBlocks := by
  unfold Obligations.ExtractChromaFillsTheChromaBlocks
  intro s h hp
  refine ⟨_, command_pass runExtractChroma (checkPlanes_none h hp), (runExtractChroma_kept s).completedOk,
    fun site gx gy i j r k hx hy hi hj hrk => ?_, runExtractChroma_readsAsBefore s⟩
  rcases hrk with ⟨rfl, rfl⟩ | ⟨rfl, rfl⟩
  · exact runExtractChroma_blk s site hx hy (by decide) (by decide) hi hj
  · exact runExtractChroma_blk s site hx hy (by decide) (by decide) hi hj

end Sys2Proof.Machine
end

section
/-! SUPPORT. The edge operations: the fix-up of the bottom row's DC values, and the zeroing of the blocks outside the
image. -/

namespace Sys2Proof.Machine

/-! ## EDGE_DC_FIXUP (R118, R119) -/

theorem fixupApplies_iff (s : State) : s.fixupApplies = true ↔ s.nbh ≤ 2 * (s.nsbh - 1) + 1 := decide_eq_true_iff

theorem isFixed_iff (s : State) (b : Nat) :
    s.isFixed b = true ↔
      s.nbh ≤ 2 * (s.nsbh - 1) + 1 ∧ b / 6 / s.nsbw = s.nsbh - 1 ∧ (b % 6 = 2 ∨ b % 6 = 3) := by
  simp only [State.isFixed, Bool.and_eq_true, decide_eq_true_eq, fixupApplies_iff, and_assoc]
  rfl

theorem fixupDc_length (s : State) (b : Nat) : (s.fixupDc b).length = 2 := toLe_length 2 _

/-- The DC of Y2 and of Y3 becomes that of Y1 (R119). -/
theorem runEdgeDcFixup_dc (s : State) (site : Site) {m k : Nat} (hb : 6 * m + k < s.nblocks) (hk : k < 6)
    (hf : s.isFixed (6 * m + k) = true) :
    (runEdgeDcFixup s).st.blk site (6 * m + k) 0 = s.blk .fixup (6 * m + 1) 0 := by
  refine (blk_of_bytes site fun j hj => ?_).trans (s16_blk s .fixup (6 * m + 1) 0)
  have hread : ((runEdgeDcFixup s).st.mem.cells .blk).read .blk (128 * (6 * m + k) + j) = (s.fixupDc (6 * m + k))[j]? :=
    read_updateBlocks_inside (fun b => by rw [fixupDc_length]; decide) hb hf (by rwa [fixupDc_length])
  rwa [State.fixupDc, blockMcu_mul_add hk] at hread

/-- EDGE_DC_FIXUP stores the two bytes of the DC of the blocks it changes alone (R119). -/
theorem runEdgeDcFixup_readsAsBefore (s : State) :
    ReadsAsBefore s (runEdgeDcFixup s).st fun r off =>
      r = .blk ∧ off / 128 < s.nblocks ∧ s.isFixed (off / 128) = true ∧ off % 128 < 2 :=
  readsAsBefore_updateBlocks rfl rfl (fun b => by rw [fixupDc_length]; decide)
    fun _ hb hf hi => ⟨rfl, hb, hf, by rwa [fixupDc_length] at hi⟩

/-- Settles O36: the blocks Y2 and Y3 of the bottom row are those `isFixed` selects, and their DC is the word read from
Y1. -/
theorem edgeDcFixupCopiesTheDc : Obligations.EdgeDcFixupCopiesTheDc := by
  unfold Obligations.EdgeDcFixupCopiesTheDc
  intro s h hc
  refine ⟨_, command_pass runEdgeDcFixup (checkCoef_none h hc), (runEdgeDcFixup_kept s).completedOk,
    fun happ site gx k hx hk => ?_, (runEdgeDcFixup_readsAsBefore s).mono ?_⟩
  · have hk6 : k < 6 := by omega
    have hrow : s.nsbh - 1 < s.nsbh := Nat.sub_lt (nsbh_pos h) Nat.one_pos
    refine runEdgeDcFixup_dc s site (block_lt hx hrow hk6) hk6 ((isFixed_iff s _).2 ⟨happ, ?_, by omega⟩)
    rw [← blockMcu, blockMcu_mul_add hk6]
    exact gy_mcu _ hx
  · rintro r off ⟨hr, -, hf, hi⟩
    obtain ⟨happ, hrow, hplace⟩ := (isFixed_iff s _).1 hf
    exact ⟨hr, happ, hrow, hplace, hi⟩

/-- Settles O37: both clauses are arithmetic on nbh = ⌈H/8⌉ and nsbh = ⌈H/16⌉. -/
theorem fixupConditionIsAnOddHeight : Obligations.FixupConditionIsAnOddHeight := by
  unfold Obligations.FixupConditionIsAnOddHeight
  intro s h
  rw [fixupApplies_iff]
  simp only [State.nbh, State.nsbh, State.h, ceilDiv]
  omega

/-! ## Zeroing blocks -/

/-- `s` after a completed command that wrote zeros to the blocks that satisfy `p`, as ZERO_RIGHT and ZERO_BOTTOM do. -/
def zeroed (p : Nat → Bool) (s : State) : State :=
  complete none { s with mem := s.updateBlocks p fun _ => zeroBlock, valid := s.valid.unscanned }

theorem exec_zeroRight {s : State} (h : GeometryValid s) (hc : s.valid.coef = true) :
    exec .zeroRight s = .next (zeroed s.isRight s) :=
  command_pass runZeroRight (checkCoef_none h hc)

theorem exec_zeroBottom {s : State} (h : GeometryValid s) (hc : s.valid.coef = true) :
    exec .zeroBottom s = .next (zeroed s.isBelow s) :=
  command_pass runZeroBottom (checkCoef_none h hc)

theorem zeroBlock_eq : zeroBlock = List.replicate 128 0 := by decide

theorem zeroBlock_length : zeroBlock.length = 128 := by rw [zeroBlock_eq, List.length_replicate]

section Zeroed

variable (p : Nat → Bool) (s : State)

theorem nblocks_zeroed : (zeroed p s).nblocks = s.nblocks := rfl

theorem zeroed_completedOk : CompletedOk s (zeroed p s) { s.valid with scan := false } := rfl

/-- Every byte after the zeroing. -/
theorem byte_zeroed (site : Site) (r : Ram) (off : Nat) :
    (zeroed p s).byte site r off =
      if r = .blk ∧ off / 128 < s.nblocks ∧ p (off / 128) = true then 0 else s.byte site r off := by
  have hlen (_ : Nat) : zeroBlock.length ≤ 128 := zeroBlock_length.le
  split
  · next hin =>
    obtain ⟨rfl, hb, hp⟩ := hin
    have hi : off % 128 < 128 := Nat.mod_lt off (by decide)
    have hread : ((zeroed p s).mem.cells .blk).read .blk (128 * (off / 128) + off % 128) = zeroBlock[off % 128]? :=
      read_updateBlocks_inside hlen hb hp (by rwa [zeroBlock_length])
    rw [Nat.div_add_mod, zeroBlock_eq, List.getElem?_replicate_of_lt hi] at hread
    exact byte_of_read site hread
  · next hout =>
    have hframe : ReadsAsBefore s (zeroed p s) fun r off => r = .blk ∧ off / 128 < s.nblocks ∧ p (off / 128) = true :=
      readsAsBefore_updateBlocks rfl rfl hlen fun _ hb hp _ => ⟨rfl, hb, hp⟩
    exact hframe site r off hout

theorem blk_zeroed (site : Site) {b n : Nat} (hb : b < s.nblocks) (hp : p b = true) (hn : n < 64) :
    (zeroed p s).blk site b n = 0 := by
  have hbyte (off : Nat) (hoff : off / 128 = b) : (zeroed p s).byte site .blk off = 0 := by
    rw [byte_zeroed, hoff, if_pos ⟨rfl, hb, hp⟩]
  rw [blk_eq, hbyte _ (by omega), hbyte _ (by omega)]
  decide

theorem zeroed_readsAsBefore {stored : Ram → Nat → Prop}
    (h : ∀ off, off / 128 < s.nblocks → p (off / 128) = true → stored .blk off) :
    ReadsAsBefore s (zeroed p s) stored := by
  intro site r off hout
  refine (byte_zeroed p s site r off).trans (if_neg ?_)
  rintro ⟨rfl, hb, hp⟩
  exact hout (h off hb hp)

end Zeroed

/-! ## ZERO_RIGHT and ZERO_BOTTOM (R120, R121) -/

theorem isRight_iff (s : State) (b : Nat) :
    s.isRight b = true ↔ b % 6 < 4 ∧ s.nbw ≤ 2 * (b / 6 % s.nsbw) + b % 6 % 2 := by
  rw [State.isRight, Bool.and_eq_true, isLuma_iff, decide_eq_true_eq]
  rfl

theorem isBelow_iff (s : State) (b : Nat) :
    s.isBelow b = true ↔ b % 6 < 4 ∧ s.nbh ≤ 2 * (b / 6 / s.nsbw) + b % 6 / 2 := by
  rw [State.isBelow, Bool.and_eq_true, isLuma_iff, decide_eq_true_eq]
  rfl

/-- Settles O38: the blocks right of the image are those `isRight` selects, and their words are zeros. -/
theorem zeroRightZeroesTheBlocksRight : Obligations.ZeroRightZeroesTheBlocksRight := by
  unfold Obligations.ZeroRightZeroesTheBlocksRight
  intro s h hc
  refine ⟨_, exec_zeroRight h hc, zeroed_completedOk _ s, fun site gx gy k n hx hy hk hn hright => ?_,
    zeroed_readsAsBefore _ s fun off hb hp => ⟨rfl, hb, (isRight_iff s _).1 hp⟩⟩
  have hk6 : k < 6 := by omega
  refine blk_zeroed _ s site (block_lt hx hy hk6) ?_ hn
  rw [State.isRight, Bool.and_eq_true, decide_eq_true_eq]
  exact ⟨isLuma_mcu _ hk, (blockX_mcu gy hx hk6).ge.trans' hright⟩

/-- Settles O39: the blocks below the image are those `isBelow` selects, and their words are zeros. -/
theorem zeroBottomZeroesTheBlocksBelow : Obligations.ZeroBottomZeroesTheBlocksBelow := by
  unfold Obligations.ZeroBottomZeroesTheBlocksBelow
  intro s h hc
  refine ⟨_, exec_zeroBottom h hc, zeroed_completedOk _ s, fun site gx gy k n hx hy hk hn hbelow => ?_,
    zeroed_readsAsBefore _ s fun off hb hp => ⟨rfl, hb, (isBelow_iff s _).1 hp⟩⟩
  have hk6 : k < 6 := by omega
  refine blk_zeroed _ s site (block_lt hx hy hk6) ?_ hn
  rw [State.isBelow, Bool.and_eq_true, decide_eq_true_eq]
  exact ⟨isLuma_mcu _ hk, (blockY_mcu gy hx hk6).ge.trans' hbelow⟩

/-! ## One after the other (R121, R153) -/

/-- Zeroing blocks keeps the image's blocks, so two zeroings commute: either order zeroes what one of them zeroes. -/
theorem byte_zeroed_comm (p q : Nat → Bool) (s : State) (site : Site) (r : Ram) (off : Nat) :
    (zeroed p (zeroed q s)).byte site r off = (zeroed q (zeroed p s)).byte site r off := by
  simp only [byte_zeroed, nblocks_zeroed]
  split <;> split <;> rfl

/-- Zeroing hides whatever was stored before in the blocks it zeroes. -/
theorem byte_zeroed_congr {p : Nat → Bool} {s u : State} (hn : u.nblocks = s.nblocks)
    (hu : ReadsAsBefore s u fun r off => r = .blk ∧ off / 128 < s.nblocks ∧ p (off / 128) = true) (site : Site) (r : Ram)
    (off : Nat) : (zeroed p u).byte site r off = (zeroed p s).byte site r off := by
  rw [byte_zeroed, byte_zeroed, hn]
  split
  · rfl
  · next hout => exact hu site r off hout

theorem byte_zeroed_idem (p : Nat → Bool) (s : State) (site : Site) (r : Ram) (off : Nat) :
    (zeroed p (zeroed p s)).byte site r off = (zeroed p s).byte site r off :=
  byte_zeroed_congr (nblocks_zeroed p s) (zeroed_readsAsBefore p s fun _ hb hp => ⟨rfl, hb, hp⟩) site r off

/-- Settles O40: which blocks lie right of the image or below it depends on the geometry alone, which neither command
changes; and zeroing sets of blocks commutes and is idempotent. -/
theorem zeroingCommutesAndIsIdempotent : Obligations.ZeroingCommutesAndIsIdempotent := by
  unfold Obligations.ZeroingCommutesAndIsIdempotent
  intro s h hc
  have hright := exec_zeroRight h hc
  have hbelow := exec_zeroBottom h hc
  have thenRight (p : Nat → Bool) : execAll [.zeroRight] (zeroed p s) = .next (zeroed s.isRight (zeroed p s)) :=
    execAll_cons_next (exec_zeroRight (s := zeroed p s) h hc)
  have thenBelow (p : Nat → Bool) : execAll [.zeroBottom] (zeroed p s) = .next (zeroed s.isBelow (zeroed p s)) :=
    execAll_cons_next (exec_zeroBottom (s := zeroed p s) h hc)
  exact ⟨_, _, _, _, _, _,
    (execAll_cons_next hright).trans (thenBelow _), (execAll_cons_next hbelow).trans (thenRight _),
    (execAll_cons_next hright).trans (thenRight _), execAll_cons_next hright,
    (execAll_cons_next hbelow).trans (thenBelow _), execAll_cons_next hbelow,
    rfl, rfl, rfl, fun site r off =>
      ⟨byte_zeroed_comm _ _ s site r off, byte_zeroed_idem _ s site r off, byte_zeroed_idem _ s site r off⟩⟩

/-- Every block the fix-up changes lies below the image: it is in the lower half of the bottom MCU row, and the fix-up
condition says that the image ends above it (R118). -/
theorem isBelow_of_isFixed {s : State} {b : Nat} (h : s.isFixed b = true) : s.isBelow b = true := by
  obtain ⟨happ, hrow, hplace⟩ := (isFixed_iff s b).1 h
  rw [isBelow_iff, hrow]
  omega

/-- Settles O41: a byte that the fix-up stores lies in a block that ZERO_BOTTOM zeroes afterwards. -/
theorem zeroBottomUndoesTheFixup : Obligations.ZeroBottomUndoesTheFixup := by
  unfold Obligations.ZeroBottomUndoesTheFixup
  intro s h hc
  have hfix : exec .edgeDcFixup s = .next (complete none (runEdgeDcFixup s).st) :=
    command_pass runEdgeDcFixup (checkCoef_none h hc)
  have hbottom := exec_zeroBottom (s := complete none (runEdgeDcFixup s).st) h hc
  refine ⟨_, _, (execAll_cons_next hfix).trans (execAll_cons_next hbottom), exec_zeroBottom h hc, rfl,
    byte_zeroed_congr rfl ((runEdgeDcFixup_readsAsBefore s).mono ?_)⟩
  rintro r off ⟨hr, hb, hf, -⟩
  exact ⟨hr, hb, isBelow_of_isFixed hf⟩

end Sys2Proof.Machine
end

section
/-! SUPPORT. The transform of a constant block (R123 property 4), under FDCT_REF (R124) and under every other kernel. -/

namespace Sys2Proof.Machine

/-! ## The passes of FDCT_REF -/

/-- Eight equal values. -/
def Oct.constant (c : Int) : Oct := ⟨c, c, c, c, c, c, c, c⟩

/-- Seven zeros after the first value. -/
def Oct.first (c : Int) : Oct := ⟨c, 0, 0, 0, 0, 0, 0, 0⟩

theorem mul8_zero (k : Int) : mul8 0 k = 0 := by rw [mul8, zero_mul, Int.zero_ediv]

/-- The differences of equal values vanish, so only the sum of all eight stays. -/
theorem aanPass_constant (c : Int) : aanPass (Oct.constant c) = Oct.first (8 * c) := by
  have hsum : c + c + (c + c) + (c + c + (c + c)) = 8 * c := by omega
  simp only [aanPass, Oct.constant, Oct.first, sub_self, add_zero, mul8_zero, hsum]

theorem octAt_replicate (c : Int) {j : Nat} (hj : j < 8) : octAt (List.replicate 64 c) (8 * j) 1 = Oct.constant c := by
  have hget {i : Nat} (hi : i < 64) : (List.replicate 64 c).getD i 0 = c := List.getD_replicate _ hi
  simp only [octAt, Oct.constant]
  congr 1 <;> exact hget (by omega)

/-- Each row keeps eight times its value in column 0. -/
theorem rowPasses_replicate (c : Int) :
    rowPasses (List.replicate 64 c) = (List.range 8).flatMap fun _ => (Oct.first (8 * c)).toList := by
  refine List.flatMap_congr fun j hj => ?_
  rw [octAt_replicate c (List.mem_range.1 hj), aanPass_constant]

/-- Column 0 keeps 64 times the value in row 0, and the other columns are zero. -/
theorem columnPasses_rowPasses_replicate (c : Int) :
    columnPasses (rowPasses (List.replicate 64 c)) =
      (Oct.first (64 * c)).toList :: List.replicate 7 (Oct.first 0).toList := by
  have hpass0 : aanPass (Oct.constant (8 * c)) = Oct.first (64 * c) := by rw [aanPass_constant, ← mul_assoc]; rfl
  have hpass : aanPass (Oct.constant 0) = Oct.first 0 := by decide
  rw [rowPasses_replicate, ← hpass0, ← hpass]
  rfl

/-- Past the first value, a column has zeros only. -/
theorem getD_first_succ (c : Int) {m : Nat} (hm : m < 7) : (Oct.first c).toList.getD (m + 1) 0 = 0 :=
  (List.getD_cons_succ ..).trans (List.getD_replicate (n := 7) 0 hm)

/-- Of the columns of a constant block, only coefficient 0 is not zero. -/
theorem constantColumns_getD_zero (c : Int) {n : Nat} (h1 : 1 ≤ n) (h64 : n < 64) :
    (((Oct.first c).toList :: List.replicate 7 (Oct.first 0).toList).getD (n % 8) []).getD (n / 8) 0 = 0 := by
  rcases hk : n % 8 with _ | k
  · obtain ⟨m, hm⟩ : ∃ m, n / 8 = m + 1 := ⟨n / 8 - 1, by omega⟩
    rw [List.getD_cons_zero, hm, getD_first_succ c (by omega)]
  · rw [List.getD_cons_succ, List.getD_replicate _ (by omega)]
    exact List.getD_replicate (n := 8) 0 (by omega)

/-! ## The descale -/

theorem descale_zero (a : Nat) : descale 0 a = 0 := by
  have hhalf : a / 2 / a = 0 := by
    rcases Nat.eq_zero_or_pos a with rfl | ha
    · rfl
    · exact Nat.div_eq_of_lt (Nat.div_lt_self ha (by decide))
  simp only [descale, Int.natAbs_zero, Nat.zero_mul, Nat.zero_add, hhalf]
  rfl

/-- The AANSCALE entry 16384 of the DC coefficient stands for 1. -/
theorem descale_one (y : Int) : descale y 16384 = y := by
  have hround : (y.natAbs * 16384 + 16384 / 2) / 16384 = y.natAbs := by omega
  simp only [descale, hround]
  split <;> omega

/-- R124: FDCT_REF is exact on a constant block, whatever its value. -/
theorem fdctRef_replicate (c : Int) : fdctRef (List.replicate 64 c) = 64 * c :: List.replicate 63 0 := by
  rw [fdctRef, columnPasses_rowPasses_replicate, List.range_eq_range', List.range'_succ, List.map_cons]
  congr 1
  · exact descale_one (64 * c)
  · refine List.eq_replicate_iff.2 ⟨by simp, fun x hx => ?_⟩
    obtain ⟨n, hn, rfl⟩ := List.mem_map.1 hx
    obtain ⟨hn1, hn64⟩ := List.mem_range'_1.1 hn
    rw [constantColumns_getD_zero (64 * c) hn1 hn64, descale_zero]

/-! ## Every kernel -/

theorem inRange_replicate {c : Int} (hl : -128 ≤ c) (hu : c ≤ 127) (n : Nat) : inRange (List.replicate n c) = true := by
  refine List.all_eq_true.2 fun x hx => ?_
  rw [List.eq_of_mem_replicate hx, decide_eq_true hl, decide_eq_true hu]
  rfl

theorem isConstant_replicate (c : Int) (n : Nat) : isConstant (List.replicate (n + 1) c) = true :=
  List.all_eq_true.2 fun _ hx => decide_eq_true (List.eq_of_mem_replicate hx)

/-- Settles O43: FDCT_REF by its passes, and another kernel by property 4. -/
theorem constantBlocksTransformExactly : Obligations.ConstantBlocksTransformExactly := by
  unfold Obligations.ConstantBlocksTransformExactly
  refine ⟨fdctRef_replicate, fun k e b c hl hu => ?_⟩
  cases k with
  | reference => exact fdctRef_replicate c
  | other id => rw [fdctKernel, if_pos (inRange_replicate hl hu 64), if_pos (isConstant_replicate c 63)]; rfl

end Sys2Proof.Machine
end

section
/-! SUPPORT. The quantizer: the reciprocal quotient is the rounded one (R126). -/

namespace Sys2Proof.Machine

/-! ## Multiplying by a rounded reciprocal -/

section Reciprocal

variable {n f e p y : Nat} (hn : 0 < n) (he0 : 0 < e) (he : e * (y + 1) ≤ p)
include hn he0 he

/-- A reciprocal f of n rounded down by less than p/n gives the exact quotient while its error e·(y+1) stays within p. -/
theorem succ_mul_div_of_round_down (hp : n * f + e = p) : (y + 1) * f / p = y / n := by
  have hq : n * (y / n) ≤ y := Nat.mul_div_le y n
  have hy : y + 1 ≤ n * (y / n + 1) := Nat.lt_mul_div_succ y hn
  have herr : e * (y / n) ≤ f := by
    refine Nat.le_of_mul_le_mul_left ?_ hn
    calc n * (e * (y / n)) = e * (n * (y / n)) := by ring
      _ ≤ e * y := Nat.mul_le_mul_left e hq
      _ ≤ n * f := by rw [Nat.mul_succ] at he; omega
  refine Nat.div_eq_of_lt_le ?_ ?_
  · calc y / n * p = n * (y / n) * f + e * (y / n) := by rw [← hp]; ring
      _ ≤ y * f + f := Nat.add_le_add (Nat.mul_le_mul_right f hq) herr
      _ = (y + 1) * f := (Nat.succ_mul y f).symm
  · calc (y + 1) * f ≤ n * (y / n + 1) * f := Nat.mul_le_mul_right f hy
      _ = (y / n + 1) * (n * f) := by ring
      _ < (y / n + 1) * p := Nat.mul_lt_mul_of_pos_left (by omega) (Nat.succ_pos _)

/-- A reciprocal f of n rounded up by less than p/n gives it without the correction by one. -/
theorem mul_div_of_round_up (hp : n * f = p + e) : y * f / p = y / n := by
  have hq : n * (y / n) ≤ y := Nat.mul_div_le y n
  have hy : y + 1 ≤ n * (y / n + 1) := Nat.lt_mul_div_succ y hn
  refine Nat.div_eq_of_lt_le ?_ ?_
  · calc y / n * p ≤ y / n * (n * f) := Nat.mul_le_mul_left _ (by omega)
      _ = n * (y / n) * f := by ring
      _ ≤ y * f := Nat.mul_le_mul_right f hq
  · refine Nat.lt_of_mul_lt_mul_left (a := n) ?_
    calc n * (y * f) = y * p + e * y := by rw [Nat.mul_left_comm, hp]; ring
      _ < y * p + p := by rw [Nat.mul_succ] at he; omega
      _ = (y + 1) * p := (Nat.succ_mul y p).symm
      _ ≤ n * (y / n + 1) * p := Nat.mul_le_mul_right p hy
      _ = n * ((y / n + 1) * p) := Nat.mul_assoc ..

end Reciprocal

/-! ## The quotient of a reachable quadruple -/

theorem two_pow_shift (n : Nat) : 2 ^ (16 + (n.log2 : Int)).toNat = quadDividend n := by
  have hexp : (16 + (n.log2 : Int)).toNat = 16 + n.log2 := by omega
  rw [hexp, quadDividend, bitlen_sub_one]

/-- Half of q8 bounds the error of its reciprocal, and 2^16 the dividend: their product is within 2^r. -/
theorem mul_succ_le_quadDividend {n e y : Nat} (he : e ≤ n / 2) (hy : y < 65536) : e * (y + 1) ≤ quadDividend n := by
  have hlog : n < 2 ^ n.log2 * 2 := Nat.pow_succ .. ▸ Nat.lt_log2_self
  rw [quadDividend_eq, Nat.mul_comm]
  exact Nat.mul_le_mul hy (by omega)

/-- R126: the corrected product with the reciprocal, shifted, is the division rounded to nearest. The three cases are
those of R100. -/
theorem quad_quotient {n m : Nat} (hn : 2 ≤ n) (hm : m + n / 2 < 65536) :
    (m + (quad n).corr) * (quad n).recip / 2 ^ (16 + (quad n).shift).toNat = (m + n / 2) / n := by
  have hdiv := Nat.div_add_mod (quadDividend n) n
  have hmod := Nat.mod_lt (quadDividend n) (show 0 < n by omega)
  by_cases h0 : quadDividend n % n = 0
  · obtain ⟨k, rfl⟩ := (quadDividend_mod_eq_zero_iff n).1 h0
    have hk : 1 ≤ k := Nat.pos_of_ne_zero fun hk => by simp [hk] at hn
    have hexp : (16 + ((k : Int) - 1)).toNat = k + 15 := by omega
    rw [quad_two_pow hk, hexp, Nat.pow_add]
    exact Nat.mul_div_mul_right _ _ (show 0 < 2 ^ 15 by decide)
  · rcases le_or_gt (quadDividend n % n) (n / 2) with h | h
    · rw [quad_round_down (by omega) h0 h, two_pow_shift]
      exact succ_mul_div_of_round_down (by omega) (by omega) (mul_succ_le_quadDividend h hm) hdiv
    · rw [quad_round_up (by omega) h, two_pow_shift]
      exact mul_div_of_round_up (by omega) (e := n - quadDividend n % n) (by omega)
        (mul_succ_le_quadDividend (by omega) hm) (by rw [Nat.mul_succ]; omega)

/-! ## The quantizer -/

theorem quantize_of_nonneg {shift : Int} (h : 0 ≤ 16 + shift) (x : Int) (recip corr : Nat) :
    quantize x recip corr shift =
      let p : Int := ((x.natAbs + corr) * recip / 2 ^ (16 + shift).toNat : Nat)
      s16 (if x < 0 then -p else p) := by
  rw [quantize, shiftDown, if_pos h]

/-- An integer that fits a signed word is stored as it is (R17). -/
theorem s16_eq_self {x : Int} (hl : -32768 ≤ x) (hu : x < 32768) : s16 x = x :=
  BitVec.toInt_ofInt_eq_self (by decide) hl hu

/-- Settles O28: the shift amount is not negative, so the quantizer is R125's; then its quotient is R126's, at most 4096
and so within a word. -/
theorem quantizerRoundsToNearest : Obligations.QuantizerRoundsToNearest := by
  unfold Obligations.QuantizerRoundsToNearest
  intro v x h1 h255 q p
  obtain ⟨n, -, -, hshift, -⟩ := quad_shift_scale h1 h255
  have hword : quantize x q.recip q.corr q.shift = s16 (if x < 0 then -p else p) :=
    quantize_of_nonneg (by rw [hshift]; omega) x q.recip q.corr
  refine ⟨hword, fun hx => ?_⟩
  have hp : p = ((x.natAbs + 8 * v / 2) / (8 * v) : Nat) := congrArg Nat.cast (quad_quotient (by omega) (by omega))
  have hp4096 : p ≤ 4096 := by
    rw [hp]
    exact_mod_cast Nat.lt_succ_iff.1 ((Nat.div_lt_iff_lt_mul (by omega)).2 (by omega))
  have hp0 : 0 ≤ p := Int.natCast_nonneg _
  have hval : quantize x q.recip q.corr q.shift = if x < 0 then -p else p :=
    hword.trans (s16_eq_self (by split <;> omega) (by split <;> omega))
  rw [hval, ← hp]
  refine ⟨?_, by split <;> omega, by split <;> omega⟩
  rcases lt_trichotomy x 0 with hneg | rfl | hpos
  · rw [if_pos hneg, Int.sign_eq_neg_one_of_neg hneg, neg_one_mul]
  · rw [if_neg (lt_irrefl 0), Int.sign_zero, zero_mul, hp, Int.natAbs_zero, Nat.zero_add]
    exact_mod_cast Nat.div_eq_of_lt (Nat.div_lt_self (by omega) (by decide))
  · rw [if_neg hpos.not_gt, Int.sign_eq_one_of_pos hpos, one_mul]

end Sys2Proof.Machine
end

section
/-! SUPPORT. FDCT_QUANT: the words it stores. -/

namespace Sys2Proof.Machine

theorem checkSamples_none {s : State} (h : GeometryValid s) (hq : s.valid.qt = true) (hl : s.valid.lumaSmp = true)
    (hc : s.valid.chromaSmp = true) : checkSamples s = none :=
  (checkAll_none_iff _ _ s).2 ⟨h, hq, by rw [hl, hc]; rfl⟩

theorem s16_s16 (x : Int) : s16 (s16 x) = s16 x := by
  simp only [s16, pattern16, BitVec.ofInt_toInt]

theorem s16_quantize (x : Int) (recip corr : Nat) (shift : Int) :
    s16 (quantize x recip corr shift) = quantize x recip corr shift := s16_s16 _

theorem quantized_length (s : State) (b : Nat) : (s.quantized b).length = 64 := by
  rw [State.quantized, List.length_map, List.length_zipIdx, State.coefs, fdctKernel_length]

theorem levelShifted_eq (s : State) (b : Nat) :
    s.levelShifted b = (List.range 64).map fun i => s.blk .blockIn b i - 128 := by
  rw [State.levelShifted, State.block, List.map_map]
  rfl

/-- R127: word n of block b, by its own kernel value and its own quadruple. -/
theorem runFdctQuant_blk (s : State) (site : Site) {b n : Nat} (hb : b < s.nblocks) (hn : n < 64) :
    (runFdctQuant s).st.blk site b n =
      quantize ((s.coefs b).getD n 0) (s.divWord (.divisor b) (blockTable b) 0 n).toNat
        (s.divWord (.divisor b) (blockTable b) 1 n).toNat (s.divWord (.divisor b) (blockTable b) 3 n).toInt := by
  have hlen : n < (s.coefs b).length := by rw [State.coefs, fdctKernel_length]; exact hn
  rw [blk_updateBlocks site rfl (quantized_length s) hb rfl hn]
  simp only [State.quantized, List.getElem_map, List.getElem_zipIdx, Nat.zero_add, s16_quantize]
  rw [List.getD_eq_getElem _ _ hlen]

/-- FDCT_QUANT stores the blocks of the image alone (R127). -/
theorem runFdctQuant_readsAsBefore (s : State) :
    ReadsAsBefore s (runFdctQuant s).st fun r off => r = .blk ∧ off < 128 * s.nblocks :=
  readsAsBefore_updateBlocks rfl rfl (fun b => by rw [blockBytes_length, quantized_length])
    fun _ hb _ _ => ⟨rfl, by omega⟩

/-- Settles O42: each word holds its quantized coefficient, which fits a word, and no other byte is written. -/
theorem fdctQuantQuantizesEveryBlock : Obligations.FdctQuantQuantizesEveryBlock := by
  unfold Obligations.FdctQuantQuantizesEveryBlock
  intro s h hq hl hc
  refine ⟨_, command_pass runFdctQuant (checkSamples_none h hq hl hc), (runFdctQuant_kept s).completedOk,
    fun site b n hb hn => ?_, runFdctQuant_readsAsBefore s⟩
  rw [← levelShifted_eq]
  exact runFdctQuant_blk s site hb hn

end Sys2Proof.Machine
end

section
/-! SUPPORT. Magnitudes and PUT_BITS: what the bits of a value are, and what PUT_BITS does to a coder in any state. -/

namespace Sys2Proof.Machine

/-! ## Magnitudes (R129) -/

theorem magSize_le_iff (v : Int) (n : Nat) : magSize v ≤ n ↔ v.natAbs < 2 ^ n := bitlen_le_iff v.natAbs n

theorem natAbs_lt_two_pow_magSize (v : Int) : v.natAbs < 2 ^ magSize v := (magSize_le_iff v _).1 (Nat.le_refl _)

/-- A category is as small as it can be: the next smaller power of two does not exceed the value. -/
theorem two_pow_pred_magSize_le {v : Int} (h : v ≠ 0) : 0 < magSize v ∧ 2 ^ (magSize v - 1) ≤ v.natAbs := by
  have hpos : 0 < magSize v := by
    by_contra hz
    have := (magSize_le_iff v 0).1 (by omega)
    omega
  refine ⟨hpos, ?_⟩
  by_contra hlt
  have := (magSize_le_iff v (magSize v - 1)).2 (by omega)
  omega

theorem magBits_of_nonneg {v : Int} (h : 0 ≤ v) : (magBits v : Int) = v := by
  have hlt := natAbs_lt_two_pow_magSize v
  have hv : v < 2 ^ magSize v := by zify at hlt; rwa [abs_of_nonneg h] at hlt
  rw [magBits, if_pos h, Int.emod_eq_of_lt h hv, Int.toNat_of_nonneg h]

theorem magBits_of_neg {v : Int} (h : v < 0) : (magBits v : Int) = v + 2 ^ magSize v - 1 := by
  have hlt := natAbs_lt_two_pow_magSize v
  have hv : -v < 2 ^ magSize v := by zify at hlt; rwa [abs_of_neg h] at hlt
  rw [magBits, if_neg (by omega), Int.emod_eq_of_lt (by omega) (by omega), Int.toNat_of_nonneg (by omega)]

/-- The magnitude bits of a negative value begin with a 0 (R129). -/
theorem magBits_lt_of_neg {v : Int} (h : v < 0) : magBits v < 2 ^ (magSize v - 1) := by
  obtain ⟨hpos, hle⟩ := two_pow_pred_magSize_le (ne_of_lt h)
  have heq := magBits_of_neg h
  have htwo : (2 : Int) ^ magSize v = 2 * 2 ^ (magSize v - 1) := by
    rw [← pow_succ', Nat.sub_add_cancel hpos]
  zify at hle ⊢
  rw [abs_of_neg h] at hle
  omega

/-- Settles O44: the category by `bitlen_le_iff`, the bits by the sign of the value. -/
theorem magnitudeBitsEncodeTheValue : Obligations.MagnitudeBitsEncodeTheValue := by
  unfold Obligations.MagnitudeBitsEncodeTheValue
  exact fun v => ⟨natAbs_lt_two_pow_magSize v, fun n h => (magSize_le_iff v n).2 h, magBits_lt v, magBits_of_nonneg,
    fun h => ⟨magBits_of_neg h, magBits_lt_of_neg h⟩⟩

/-! ## PUT_BITS, whatever OUT_COUNT says (R131, R132) -/

/-- The coder after the bytes `bs` have been appended to OUT. -/
def Coder.appended (c : Coder) (bs : List Byte) : Coder :=
  { c with out := bs.reverse ++ c.out, count := c.count + bs.length }

theorem appended_appended (c : Coder) (as bs : List Byte) : (c.appended as).appended bs = c.appended (as ++ bs) := by
  simp [Coder.appended, Nat.add_assoc]

theorem stuffBytes_cons (x : Byte) (xs : List Byte) : stuffBytes (x :: xs) = stuffBytes [x] ++ stuffBytes xs :=
  stuffBytes_append [x] xs

theorem stuffBytes_ff : stuffBytes [0xFF] = [0xFF, 0] := by decide

theorem stuffBytes_single {x : Byte} (h : x ≠ 0xFF) : stuffBytes [x] = [x] := by
  rw [stuffBytes, List.flatMap_singleton, if_neg h]

/-- Stuffing at most doubles the bytes. -/
theorem stuffBytes_length_le (xs : List Byte) : (stuffBytes xs).length ≤ 2 * xs.length := by
  have := xs.count_le_length (a := 0xFF)
  rw [stuffBytes_length]
  omega

theorem emitByte_ok {cap : Nat} {x : Byte} {c d : Coder} (h : emitByte cap x c = .ok d) :
    d = c.appended (stuffBytes [x]) := by
  unfold emitByte append at h
  by_cases hfull : c.count = cap
  · simp [hfull] at h
  · by_cases hx : x = 0xFF
    · subst hx
      simp only [hfull, if_false, if_true] at h
      split at h
      · cases h
      · cases h
        rw [stuffBytes_ff]
        rfl
    · simp only [hfull, hx, if_false] at h
      cases h
      rw [stuffBytes_single hx]
      rfl

theorem emitByte_room {cap : Nat} (x : Byte) {c : Coder} (h : c.count + 2 ≤ cap) :
    emitByte cap x c = .ok (c.appended (stuffBytes [x])) := by
  have h1 : c.count ≠ cap := by omega
  have h2 : c.count + 1 ≠ cap := by omega
  obtain ⟨d, hd⟩ : ∃ d, emitByte cap x c = .ok d := by
    unfold emitByte append
    by_cases hx : x = 0xFF
    · simp only [h1, h2, hx, if_true, if_false]
      exact ⟨_, rfl⟩
    · simp only [h1, hx, if_false]
      exact ⟨_, rfl⟩
  rw [hd, emitByte_ok hd]

/-- One round of the drain: the byte taken from the top of the buffer. -/
def Coder.topByte (c : Coder) : Byte := BitVec.ofNat 8 (c.buffer >>> (c.bits - 8))

/-- One round of the drain: the coder without that byte. -/
def Coder.dropTop (c : Coder) : Coder := { c with bits := c.bits - 8, buffer := c.buffer % 2 ^ (c.bits - 8) }

theorem drain_succ (cap n : Nat) (c : Coder) :
    drain cap (n + 1) c = match emitByte cap c.topByte c.dropTop with
      | .error e => .error e
      | .ok d => drain cap n d := rfl

theorem msbBits_topByte {c : Coder} (h : 8 ≤ c.bits) :
    msbBits c.bits c.buffer = msbBits 8 c.topByte.toNat ++ msbBits c.dropTop.bits c.dropTop.buffer := by
  obtain ⟨k, hk⟩ := Nat.exists_eq_add_of_le h
  rw [Coder.topByte, Coder.dropTop]
  simp only [hk, Nat.add_sub_cancel_left]
  rw [msbBits_add, BitVec.toNat_ofNat, Nat.shiftRight_eq_div_pow, msbBits_mod, msbBits_mod]

/-- What the drain leaves: its bytes, stuffed, have been appended to OUT, and `d.bits` bits are left in the buffer. -/
structure Drains (c d : Coder) (xs : List Byte) : Prop where
  eq : d = { c.appended (stuffBytes xs) with bits := d.bits, buffer := d.buffer }
  bits : c.bits = 8 * xs.length + d.bits
  buffer : c.buffer < 2 ^ c.bits → d.buffer < 2 ^ d.bits
  stream : msbBits c.bits c.buffer = bytesBits xs ++ msbBits d.bits d.buffer

theorem drain_ok {cap n : Nat} {c d : Coder} (hn : 8 * n ≤ c.bits) (h : drain cap n c = .ok d) :
    ∃ xs, xs.length = n ∧ Drains c d xs := by
  induction n generalizing c with
  | zero =>
    cases h
    exact ⟨[], rfl, rfl, by simp, id, rfl⟩
  | succ n ih =>
    rw [drain_succ] at h
    split at h
    · cases h
    · next e he =>
      obtain rfl := emitByte_ok he
      obtain ⟨xs, hlen, heq, hbits, hbuf, hstream⟩ := ih (show 8 * n ≤ c.bits - 8 by omega) h
      have hdrop : c.dropTop.buffer < 2 ^ c.dropTop.bits := Nat.mod_lt _ (by positivity)
      refine ⟨c.topByte :: xs, by rw [List.length_cons, hlen], ?_, ?_, fun _ => hbuf hdrop, ?_⟩
      · rw [heq, appended_appended, ← stuffBytes_cons]
        rfl
      · have : c.bits - 8 = 8 * xs.length + d.bits := hbits
        rw [List.length_cons]
        omega
      · rw [msbBits_topByte (by omega)]
        exact (congrArg (msbBits 8 c.topByte.toNat ++ ·) hstream).trans (List.append_assoc ..).symm

theorem drain_room {cap n : Nat} {c : Coder} (h : c.count + 2 * n ≤ cap) : ∃ d, drain cap n c = .ok d := by
  induction n generalizing c with
  | zero => exact ⟨c, rfl⟩
  | succ n ih =>
    have hroom : c.dropTop.count + 2 ≤ cap := show c.count + 2 ≤ cap by omega
    have hlen : (stuffBytes [c.topByte]).length ≤ 2 := stuffBytes_length_le [c.topByte]
    rw [drain_succ, emitByte_room _ hroom]
    exact ih (show c.count + (stuffBytes [c.topByte]).length + 2 * n ≤ cap by omega)

/-- The coder with the bits of PUT_BITS in its buffer, before the drain (R131). -/
def Coder.loaded (c : Coder) (code size : Nat) : Coder :=
  { c with buffer := c.buffer <<< size ||| code, bits := c.bits + size }

theorem loaded_buffer {size code : Nat} (c : Coder) (h : code < 2 ^ size) :
    (c.loaded code size).buffer = c.buffer * 2 ^ size + code := by
  rw [Coder.loaded, ← Nat.shiftLeft_add_eq_or_of_lt h, Nat.shiftLeft_eq]

theorem loaded_buffer_lt {size code : Nat} {c : Coder} (h : code < 2 ^ size) (hb : c.buffer < 2 ^ c.bits) :
    (c.loaded code size).buffer < 2 ^ (c.loaded code size).bits := by
  calc (c.loaded code size).buffer = c.buffer * 2 ^ size + code := loaded_buffer c h
    _ < (c.buffer + 1) * 2 ^ size := by rw [Nat.succ_mul]; omega
    _ ≤ 2 ^ c.bits * 2 ^ size := Nat.mul_le_mul_right _ hb
    _ = 2 ^ (c.bits + size) := (Nat.pow_add ..).symm

theorem msbBits_loaded {size code : Nat} (c : Coder) (h : code < 2 ^ size) :
    msbBits (c.loaded code size).bits (c.loaded code size).buffer = msbBits c.bits c.buffer ++ msbBits size code := by
  rw [loaded_buffer c h]
  exact msbBits_concat h

/-- PUT_BITS that completes drains the whole bytes. -/
theorem putBits_drains {cap code size : Nat} {c d : Coder} (h : putBits cap code size c = .ok d) :
    ∃ xs, xs.length = (c.bits + size) / 8 ∧ Drains (c.loaded code size) d xs :=
  drain_ok (c := c.loaded code size) (Nat.mul_div_le ..) h

theorem putBits_room {cap code size : Nat} {c : Coder} (h : c.count + 2 * ((c.bits + size) / 8) ≤ cap) :
    ∃ d, putBits cap code size c = .ok d :=
  drain_room (c := c.loaded code size) h

/-- Settles O45: the drained bytes leave the stream as they were, and at most two leave it. -/
theorem putBitsAppendsTheBits : Obligations.PutBitsAppendsTheBits := by
  unfold Obligations.PutBitsAppendsTheBits
  intro cap code size c ⟨hc7, hcb⟩ hst h1 h16 hcode
  refine ⟨fun d hd => ?_, fun hroom => putBits_room (by omega)⟩
  obtain ⟨xs, hlen, heq, hbits, hbuf, hstream⟩ := putBits_drains hd
  have hout : d.out.reverse = c.out.reverse ++ stuffBytes xs := by
    rw [heq]; simp [Coder.appended, Coder.loaded]
  have hcount : d.count + c.out.length = c.count + d.out.length := by
    rw [heq]; simp [Coder.appended, Coder.loaded]; omega
  have hb : c.bits + size = 8 * xs.length + d.bits := hbits
  refine ⟨⟨by omega, hbuf (loaded_buffer_lt hcode hcb)⟩, hout ▸ stuffed_append_stuffBytes hst xs, ?_, hcount, ?_⟩
  · rw [msbBits_loaded c hcode] at hstream
    rw [Coder.stream, Coder.stream, hout, unstuff_append_stuffBytes hst, List.flatMap_append, List.append_assoc,
      List.append_assoc, hstream]
    rfl
  · rw [heq]
    exact ⟨rfl, rfl, rfl, rfl⟩

end Sys2Proof.Machine
end

section
/-! SUPPORT. How ENCODE_SCAN ends: a scan taken apart into its items and its flush, the errors it can raise, and the last_dc
it leaves. -/

namespace Sys2Proof.Machine

/-! ## The command -/

/-- The checks of ENCODE_SCAN pass (R163). -/
theorem checkScan_none {s : State} (hg : GeometryValid s) (hh : ∀ t, t < 4 → s.valid.huff t = true)
    (hc : s.valid.coef = true) : checkScan s = none := by
  refine (checkAll_none_iff _ _ s).2 ⟨hg, ?_, hc⟩
  have h0 : s.valid.huff0 = true := hh 0 (by omega)
  have h1 : s.valid.huff1 = true := hh 1 (by omega)
  have h2 : s.valid.huff2 = true := hh 2 (by omega)
  have h3 : s.valid.huff3 = true := hh 3 (by omega)
  rw [Valid.allHuff, h0, h1, h2, h3]
  rfl

theorem exec_encodeScan {s : State} (h : checkScan s = none) :
    exec .encodeScan s = .next (complete (runEncodeScan s).err (runEncodeScan s).st) := command_pass runEncodeScan h

theorem exec_encodeScan_ok {s : State} {c : Coder} (h : checkScan s = none) (hs : s.scan = .ok c) :
    exec .encodeScan s = .next (complete none (s.scanDone c)) := by
  rw [exec_encodeScan h, runEncodeScan, hs]

theorem exec_encodeScan_error {s : State} {e : CmdError × Coder} (h : checkScan s = none) (hs : s.scan = .error e) :
    exec .encodeScan s = .next (complete (some e.1) (s.scanFailed e.2)) := by
  rw [exec_encodeScan h, runEncodeScan, hs]

/-- An ENCODE_SCAN that has set SCAN has completed its scan. -/
theorem scan_ok_of_valid {s u : State} (h : checkScan s = none) (hu : exec .encodeScan s = .next u)
    (hv : u.valid.scan = true) : ∃ c, s.scan = .ok c ∧ u = complete none (s.scanDone c) := by
  cases hs : s.scan with
  | ok c =>
    rw [exec_encodeScan_ok h hs] at hu
    cases hu
    exact ⟨c, rfl, rfl⟩
  | error e =>
    rw [exec_encodeScan_error h hs] at hu
    cases hu
    cases hv

/-- ENCODE_SCAN leaves every RAM but OUT alone. -/
theorem exec_encodeScan_byte {s u : State} (h : checkScan s = none) (hu : exec .encodeScan s = .next u) (site : Site)
    {r : Ram} (off : Nat) (hr : r ≠ .out) : u.byte site r off = s.byte site r off := by
  rw [exec_encodeScan h] at hu
  cases hu
  refine byte_congr site ?_ ?_
  · rw [complete_frame]
    exact (runEncodeScan_kept s).epoch
  · rw [complete_mem, runEncodeScan_ramsKept s r (by simpa using hr)]

/-! ## The scan -/

/-- A scan that succeeds has run its items and then flushed (R138). -/
theorem scan_ok_split {s : State} {c : Coder} (h : s.scan = .ok c) :
    ∃ d e, runTokens s (scanTokens s) Coder.fresh = .ok d ∧ putBits s.params.outCap 0x7F 7 d = .ok e ∧
      c = { e with buffer := 0, bits := 0 } := by
  rw [scan_eq] at h
  split at h
  · cases h
  · next d hd =>
    rw [flush] at h
    split at h
    · cases h
    · next e he =>
      cases h
      exact ⟨d, e, hd, he, rfl⟩

/-- A scan that fails does so at one of its items, or in the flush (R138). -/
theorem scan_error_split {s : State} {e : CmdError × Coder} (h : s.scan = .error e) :
    runTokens s (scanTokens s) Coder.fresh = .error e ∨
      ∃ d, runTokens s (scanTokens s) Coder.fresh = .ok d ∧ putBits s.params.outCap 0x7F 7 d = .error e := by
  rw [scan_eq] at h
  split at h
  · next e' he =>
    cases h
    exact .inl he
  · next d hd =>
    rw [flush] at h
    split at h
    · next e' he =>
      cases h
      exact .inr ⟨d, hd, he⟩
    · cases h

theorem scan_error_of_tokens {s : State} {e : CmdError × Coder} (h : runTokens s (scanTokens s) Coder.fresh = .error e) :
    s.scan = .error e := by rw [scan_eq, h]

theorem fresh_fits (cap : Nat) : Fits cap Coder.fresh := ⟨rfl, Nat.zero_le _⟩

/-! ## The errors of a scan (R138) -/

/-- The errors that a scan can raise: a full OUT, a symbol without a code, a coefficient that is too long. -/
def ScanError (e : CmdError) : Prop :=
  e = .ioFailure ∨ ∃ t sym, e = internal 3 t sym ∨ e = internal 4 t sym

theorem runToken_scanError {s : State} {x : Token} {c : Coder} {e : CmdError × Coder} (h : Fits s.params.outCap c)
    (he : runToken s x c = .error e) : ScanError e.1 := by
  cases x with
  | code t sym =>
    simp only [runToken, emit] at he
    split at he
    · cases he
      exact .inr ⟨t, sym, .inl rfl⟩
    · have h' : Fits s.params.outCap { c with emissions := c.emissions + 1 } := ⟨h.count, h.le⟩
      exact .inl ((putBits_fits h').2 e he)
  | magnitude v =>
    simp only [runToken, putMag] at he
    split at he
    · cases he
    · exact .inl ((putBits_fits h).2 e he)
  | predict comp v => cases he
  | tooLong t n =>
    cases he
    exact .inr ⟨t, n, .inr rfl⟩

theorem runTokens_scanError {s : State} {xs : List Token} {c : Coder} {e : CmdError × Coder} (h : Fits s.params.outCap c)
    (he : runTokens s xs c = .error e) : ScanError e.1 := by
  induction xs generalizing c with
  | nil => cases he
  | cons x xs ih =>
    cases hx : runToken s x c with
    | error e' =>
      rw [runTokens_error xs hx] at he
      cases he
      exact runToken_scanError h hx
    | ok d =>
      rw [runTokens_ok xs hx] at he
      exact ih ((runToken_fits h).1 d hx) he

theorem scan_scanError {s : State} {e : CmdError × Coder} (h : s.scan = .error e) : ScanError e.1 := by
  have hfresh := fresh_fits s.params.outCap
  rcases scan_error_split h with he | ⟨d, hd, he⟩
  · exact runTokens_scanError hfresh he
  · exact .inl ((putBits_fits ((runTokens_fits _ hfresh).1 d hd)).2 e he)

/-- STATUS.ERRCODE and ERRINFO of a scan's error (R159, R160). -/
theorem ScanError.code_info {e : CmdError} (h : ScanError e) :
    (e.code = 2 ∧ e.info = ⟨0, 0, 0⟩) ∨ (e.code = 4 ∧ (e.info.sub = 3 ∨ e.info.sub = 4)) := by
  rcases h with rfl | ⟨t, sym, rfl | rfl⟩
  · exact .inl ⟨rfl, rfl⟩
  · exact .inr ⟨rfl, .inl rfl⟩
  · exact .inr ⟨rfl, .inr rfl⟩

/-! ## The last_dc of a scan (R134, R138) -/

theorem lastPredicted_blocks (s : State) (comp n : Nat) :
    lastPredicted comp ((List.range n).flatMap (blockTokens s)) = dcBefore s comp n := by
  induction n with
  | zero => rfl
  | succ n ih =>
    rw [List.range_succ, List.flatMap_append, List.flatMap_singleton, lastPredicted, List.foldl_append, dcBefore,
      blockTokens_predicted]
    exact if_congr Iff.rfl rfl ih

theorem fresh_lastDc (comp : Nat) : Coder.fresh.lastDc comp = 0 := by
  unfold Coder.lastDc
  split <;> rfl

/-- Items that complete from the fresh state on leave the DC they predict last (R134). -/
theorem runTokens_fresh_lastDc {s : State} {xs : List Token} {d : Coder} (hw : ∀ x ∈ xs, x.Comp)
    (h : runTokens s xs Coder.fresh = .ok d) {comp : Nat} (hc : comp < 3) : d.lastDc comp = lastPredicted comp xs := by
  rw [runTokens_lastDc hw h hc, fresh_lastDc]
  rfl

/-- A scan that succeeds leaves the DC of the last block of each component (R138). -/
theorem scan_ok_lastDc {s : State} {c : Coder} (h : s.scan = .ok c) {comp : Nat} (hc : comp < 3) :
    c.lastDc comp = dcBefore s comp s.nblocks := by
  obtain ⟨d, e, hd, he, rfl⟩ := scan_ok_split h
  calc e.lastDc comp = d.lastDc comp := (putBits_sameDc he).lastDc comp
    _ = lastPredicted comp (scanTokens s) := runTokens_fresh_lastDc (scanTokens_comp s) hd hc
    _ = dcBefore s comp s.nblocks := lastPredicted_blocks s comp s.nblocks

theorem nblocks_pos {s : State} (h : GeometryValid s) : 0 < s.nblocks :=
  Nat.mul_pos (by omega) (Nat.mul_pos (nsbw_pos h) (nsbh_pos h))

/-- The last MCU holds the last block of each component: Y3, Cb and Cr (R128, R138). -/
theorem dcBefore_nblocks {s : State} (h : GeometryValid s) :
    dcBefore s 0 s.nblocks = s.blk .scanBlock (s.nblocks - 3) 0 ∧
      dcBefore s 1 s.nblocks = s.blk .scanBlock (s.nblocks - 2) 0 ∧
      dcBefore s 2 s.nblocks = s.blk .scanBlock (s.nblocks - 1) 0 := by
  obtain ⟨m, hm⟩ : ∃ m, s.nblocks = 6 * m + 5 + 1 := by
    have := nblocks_pos h
    have : s.nblocks = 6 * s.nmcu := rfl
    exact ⟨s.nmcu - 1, by omega⟩
  have hcomp : ∀ k, k < 6 → blockComp (6 * m + k) = if k < 4 then 0 else k - 3 := fun k hk => by
    rw [blockComp, blockPlace_mul_add hk]
  have h3 : blockComp (6 * m + 3) = 0 := hcomp 3 (by omega)
  have h4 : blockComp (6 * m + 4) = 1 := hcomp 4 (by omega)
  have h5 : blockComp (6 * m + 5) = 2 := hcomp 5 (by omega)
  rw [hm]
  refine ⟨?_, ?_, dcBefore_step s h5⟩
  · rw [dcBefore_skip s (by omega), dcBefore_skip s (b := 6 * m + 4) (by omega), dcBefore_step s h3]
    rfl
  · rw [dcBefore_skip s (by omega), dcBefore_step s h4]
    rfl

/-- Settles O46: the two endings of the scan, each with its registers. -/
theorem scanEndsCompleteOrEmpty : Obligations.ScanEndsCompleteOrEmpty := by
  unfold Obligations.ScanEndsCompleteOrEmpty
  intro s hg hh hc
  have hchk := checkScan_none hg hh hc
  cases hs : s.scan with
  | ok c =>
    have hu := exec_encodeScan_ok hchk hs
    refine ⟨_, hu, fun site r off hr => exec_encodeScan_byte hchk hu site off hr, .inl ?_⟩
    obtain ⟨-, hbuf, hbits⟩ := scan_ok hs
    obtain ⟨h0, h1, h2⟩ := dcBefore_nblocks hg
    rw [← h0, ← h1, ← h2, ← scan_ok_lastDc hs (by omega), ← scan_ok_lastDc hs (by omega), ← scan_ok_lastDc hs (by omega),
      complete_none_eq, State.scanDone, hbuf, hbits]
    rfl
  | error e =>
    have hu := exec_encodeScan_error hchk hs
    exact ⟨_, hu, fun site r off hr => exec_encodeScan_byte hchk hu site off hr,
      .inr ⟨rfl, (scan_scanError hs).code_info⟩⟩

end Sys2Proof.Machine
end

section
/-! SUPPORT. The scans that fail: with a symbol that has no code, and with a coefficient that is too long. -/

namespace Sys2Proof.Machine

/-! ## InternalInvariant (R138, R160) -/

/-- `u` is what ENCODE_SCAN leaves of `s` when its scan fails with InternalInvariant: ERRINFO is `info`, and LAST_DC0..2
are last_dc as it stood, `dc`. -/
def FailedScan (s u : State) (info : ErrInfo) (dc : Nat → Int) : Prop :=
  u.status = { s.status with busy := false, done := true, err := true, errcode := 4 } ∧ u.errInfo = info ∧
    u.outCount = 0 ∧ u.valid = { s.valid with scan := false } ∧
    u.lastDc0 = BitVec.ofInt 32 (dc 0) ∧ u.lastDc1 = BitVec.ofInt 32 (dc 1) ∧ u.lastDc2 = BitVec.ofInt 32 (dc 2)

theorem exec_encodeScan_internal {s : State} {sub t sym : Nat} {c : Coder} {dc : Nat → Int} (h : checkScan s = none)
    (hs : s.scan = .error (internal sub t sym, c)) (hdc : ∀ comp, comp < 3 → c.lastDc comp = dc comp) :
    ∃ u, exec .encodeScan s = .next u ∧
      FailedScan s u ⟨BitVec.ofNat 8 sym, BitVec.ofNat 2 t, BitVec.ofNat 4 sub⟩ dc := by
  refine ⟨_, exec_encodeScan_error h hs, rfl, rfl, rfl, rfl, ?_⟩
  rw [← hdc 0 (by omega), ← hdc 1 (by omega), ← hdc 2 (by omega)]
  exact ⟨rfl, rfl, rfl⟩

/-- ENCODE_SCAN fails with InternalInvariant at its first item that cannot be coded, if the bytes before it fit OUT. -/
theorem exec_encodeScan_raises {s : State} {pre post : List Token} {x : Token} {sub t sym : Nat} (h : checkScan s = none)
    (hf : FixedCodes s) (hsplit : scanTokens s = pre ++ x :: post) (hpre : ∀ y ∈ pre, y.Codable s)
    (hfit : (emittedBytes (tokensBits s pre)).length ≤ s.params.outCap)
    (hx : ∀ c, runToken s x c = .error (internal sub t sym, c)) :
    ∃ u, exec .encodeScan s = .next u ∧
      FailedScan s u ⟨BitVec.ofNat 8 sym, BitVec.ofNat 2 t, BitVec.ofNat 4 sub⟩ fun comp => lastPredicted comp pre := by
  obtain ⟨c, hs, hdc⟩ := scan_raises hf hsplit hpre hfit hx
  exact exec_encodeScan_internal h hs hdc

/-! ## The first items of a scan -/

/-- The DC of block 0 is coded as it is: there is no block before it (R134). -/
theorem dcDiff_zero (s : State) : dcDiff s 0 = s.blk .scanBlock 0 0 := sub_zero _

/-- The items of the DC step of block 0 (R134). -/
def firstDc (s : State) : List Token :=
  [.code 0 (magSize (s.blk .scanBlock 0 0)), .magnitude (s.blk .scanBlock 0 0), .predict 0 (s.blk .scanBlock 0 0)]

theorem scanTokens_first {s : State} (h : GeometryValid s) :
    ∃ post, scanTokens s = firstDc s ++ (acTokens 1 (zigzagAc (s.block .scanBlock 0)) 0 ++ post) := by
  obtain ⟨n, hn⟩ := Nat.exists_eq_succ_of_ne_zero (nblocks_pos h).ne'
  refine ⟨(List.range' 1 n).flatMap (blockTokens s), ?_⟩
  rw [scanTokens, hn, List.range_eq_range', List.range'_succ, List.flatMap_cons, blockTokens, dcDiff_zero, List.append_assoc]
  rfl

theorem runToken_noCode {s : State} {t sym : Nat} {c : Coder}
    (h : entrySize (s.ehufEntry (.emission c.emissions) t sym) = 0) :
    runToken s (.code t sym) c = .error (internal 3 t sym, c) := if_pos h

/-- Settles O47: the item raises InternalInvariant 3 in every entropy state; the first of all is read at emission 0. -/
theorem symbolWithoutACodeFailsTheScan : Obligations.SymbolWithoutACodeFailsTheScan := by
  unfold Obligations.SymbolWithoutACodeFailsTheScan
  intro s hg hh hc
  have hchk := checkScan_none hg hh hc
  refine ⟨fun hv pre t sym post hsplit hpre hfit hsize => ?_, fun hsize => ?_⟩
  · have hf := hv.fixedCodes hh
    obtain ⟨ht, hsym⟩ : (Token.code t sym).InRange := scanTokens_inRange s _ (by rw [hsplit]; simp)
    exact exec_encodeScan_raises hchk hf hsplit hpre hfit fun c => runToken_noCode (by rw [hf.entry _ t sym ht hsym, hsize])
  · obtain ⟨post, hitems⟩ := scanTokens_first hg
    have hs : s.scan = .error (internal 3 0 _, Coder.fresh) :=
      scan_error_of_tokens (by rw [hitems]; exact runTokens_error _ (runToken_noCode hsize))
    obtain ⟨u, hu, hstatus, hrest⟩ := exec_encodeScan_internal hchk hs fun comp _ => fresh_lastDc comp
    exact ⟨u, hu, by rw [hstatus], by rw [hstatus], hrest⟩

/-! ## Coefficients that are too long (R135) -/

theorem tooLong_mem_acTokens {t t' n : Nat} {vs : List Int} {r : Nat} :
    .tooLong t' n ∈ acTokens t vs r ↔ t' = t ∧ ∃ v ∈ vs, 15 < magSize v ∧ n = magSize v := by
  induction vs generalizing r with
  | nil =>
    rw [acTokens]
    split <;> simp
  | cons v vs ih =>
    rw [acTokens, List.exists_mem_cons_iff]
    split
    · next h0 =>
      have hz : ¬15 < magSize v := by rw [h0]; decide
      simp [ih, hz]
    · by_cases hv : 15 < magSize v
      · simp [ih, hv, ← and_or_left, List.mem_replicate]
      · simp [ih, hv, List.mem_replicate]

theorem mem_natural_tail {i : Nat} : i ∈ natural.tail ↔ 1 ≤ i ∧ i < 64 :=
  ⟨(by decide : ∀ i ∈ natural.tail, 1 ≤ i ∧ i < 64) i,
    fun ⟨h1, h64⟩ => (by decide : ∀ i, i < 64 → 1 ≤ i → i ∈ natural.tail) i h64 h1⟩

theorem block_getD (s : State) (site : Site) (b : Nat) {i : Nat} (h : i < 64) : (s.block site b).getD i 0 = s.blk site b i := by
  simp [State.block, h]

/-- The AC coefficients of a block are its words 1..63, in another order (R86, R135). -/
theorem mem_zigzagAc_block {s : State} {site : Site} {b : Nat} {v : Int} :
    v ∈ zigzagAc (s.block site b) ↔ ∃ i, 1 ≤ i ∧ i < 64 ∧ s.blk site b i = v := by
  simp only [zigzagAc, List.mem_map, mem_natural_tail, and_assoc]
  exact exists_congr fun i => and_congr_right fun _ => and_congr_right fun h64 => by rw [block_getD s site b h64]

theorem magSize_min : magSize (-32768) = 16 := by decide

/-- Of the values of a word, −32768 alone needs more than 15 magnitude bits (R135). -/
theorem lt_magSize_blk_iff (s : State) (site : Site) (b i : Nat) : 15 < magSize (s.blk site b i) ↔ s.blk site b i = -32768 := by
  obtain ⟨hl, hu⟩ := blk_range s site b i
  rw [← not_le, magSize_le_iff]
  omega

theorem tooLong_mem_blockTokens {s : State} {b t n : Nat} :
    .tooLong t n ∈ blockTokens s b ↔
      n = 16 ∧ ∃ i, 1 ≤ i ∧ i < 64 ∧ t = acTable b ∧ s.blk .scanBlock b i = -32768 := by
  have hac : .tooLong t n ∈ blockTokens s b ↔ .tooLong t n ∈ acTokens (acTable b) (zigzagAc (s.block .scanBlock b)) 0 := by
    simp [blockTokens]
  rw [hac, tooLong_mem_acTokens]
  constructor
  · rintro ⟨ht, v, hmem, hlong, hn⟩
    obtain ⟨i, h1, h64, rfl⟩ := mem_zigzagAc_block.1 hmem
    have hv := (lt_magSize_blk_iff s _ b i).1 hlong
    exact ⟨by rw [hn, hv, magSize_min], i, h1, h64, ht, hv⟩
  · rintro ⟨hn, i, h1, h64, ht, hv⟩
    exact ⟨ht, _, mem_zigzagAc_block.2 ⟨i, h1, h64, hv⟩, by rw [magSize_min]; omega, by rw [hn, magSize_min]⟩

theorem tooLong_mem_scanTokens {s : State} {t n : Nat} :
    .tooLong t n ∈ scanTokens s ↔
      n = 16 ∧ ∃ b i, b < s.nblocks ∧ 1 ≤ i ∧ i < 64 ∧ t = acTable b ∧ s.blk .scanBlock b i = -32768 := by
  simp only [scanTokens, List.mem_flatMap, List.mem_range, tooLong_mem_blockTokens]
  constructor
  · rintro ⟨b, hb, hn, i, hi⟩
    exact ⟨hn, b, i, hb, hi⟩
  · rintro ⟨hn, b, i, hb, hi⟩
    exact ⟨b, hb, hn, i, hi⟩

/-! ## The first coefficient of block 0 -/

/-- An AC walk that begins with −32768 rejects it before it emits anything (R135). -/
theorem acTokens_min (t : Nat) (vs : List Int) : acTokens t (-32768 :: vs) 0 = .tooLong t 16 :: acTokens t vs 0 := rfl

theorem zigzagAc_eq_cons (b : List Int) : ∃ vs, zigzagAc b = b.getD 1 0 :: vs := ⟨_, rfl⟩

/-- PUT_BITS of at most 16 bits into an empty or a drained buffer appends at most four bytes, and there is room. -/
theorem putBits_four {cap code size : Nat} {c : Coder} (hc : c.bits ≤ 7) (hs : size ≤ 16) (hroom : c.count + 4 ≤ cap) :
    ∃ d, putBits cap code size c = .ok d ∧ d.bits ≤ 7 ∧ d.count ≤ c.count + 4 := by
  obtain ⟨d, hd⟩ := putBits_room (code := code) (show c.count + 2 * ((c.bits + size) / 8) ≤ cap by omega)
  obtain ⟨xs, hlen, heq, hbits, -, -⟩ := putBits_drains hd
  have hb : c.bits + size = 8 * xs.length + d.bits := hbits
  have hcount : d.count = c.count + (stuffBytes xs).length := congrArg Coder.count heq
  have := stuffBytes_length_le xs
  exact ⟨d, hd, by omega, by omega⟩

theorem magSize_blk_le (s : State) (site : Site) (b i : Nat) : magSize (s.blk site b i) ≤ 16 := by
  obtain ⟨hl, hu⟩ := blk_range s site b i
  rw [magSize_le_iff]
  omega

/-- A DC of block 0 that can be coded is coded, if OUT has room for eight bytes (R134). -/
theorem runTokens_firstDc {s : State} (hroom : 8 ≤ s.params.outCap) (hp : CodesProper s 0)
    (hcode : HasCode s 0 (magSize (s.blk .scanBlock 0 0))) : ∃ c, runTokens s (firstDc s) Coder.fresh = .ok c := by
  have hsize := magSize_blk_le s .scanBlock 0 0
  rw [firstDc]
  generalize s.blk .scanBlock 0 0 = v at hcode hsize ⊢
  obtain ⟨d, hd, hd7, hdcount⟩ := putBits_four (cap := s.params.outCap)
    (code := entryCode (s.ehufEntry (.emission 0) 0 (magSize v))) (size := entrySize (s.ehufEntry (.emission 0) 0 (magSize v)))
    (c := { Coder.fresh with emissions := 1 }) (Nat.zero_le _) (hp _ _ (by omega)).1 (show 0 + 4 ≤ _ by omega)
  have hcount : d.count ≤ 0 + 4 := hdcount
  have hemit : runToken s (.code 0 (magSize v)) Coder.fresh = .ok d := (if_neg (hcode 0)).trans hd
  obtain ⟨e, he⟩ : ∃ e, runToken s (.magnitude v) d = .ok e := by
    simp only [runToken, putMag]
    split
    · exact ⟨d, rfl⟩
    · obtain ⟨e, he, -⟩ := putBits_four (code := magBits v) hd7 hsize (show d.count + 4 ≤ s.params.outCap by omega)
      exact ⟨e, he⟩
  exact ⟨e.setLastDc 0 v, by rw [runTokens_ok _ hemit, runTokens_ok _ he]; rfl⟩

/-- Settles O48: which items are too long, the first of them in a scan, and the first coefficient of block 0. -/
theorem oversizedCoefficientFailsTheScan : Obligations.OversizedCoefficientFailsTheScan := by
  unfold Obligations.OversizedCoefficientFailsTheScan
  intro s hg hh hc
  have hchk := checkScan_none hg hh hc
  refine ⟨fun t n => tooLong_mem_scanTokens, fun hv pre t n post hsplit hpre hfit => ?_, fun hroom hp hcode hmin => ?_⟩
  · obtain ⟨rfl, -⟩ := tooLong_mem_scanTokens.1 (show .tooLong t n ∈ scanTokens s by rw [hsplit]; simp)
    exact exec_encodeScan_raises hchk (hv.fixedCodes hh) hsplit hpre hfit fun _ => rfl
  · obtain ⟨c, hrun⟩ := runTokens_firstDc hroom hp hcode
    obtain ⟨post, hitems⟩ := scanTokens_first hg
    have hcomp : ∀ x ∈ firstDc s, x.Comp := fun x hx =>
      scanTokens_comp s x (by rw [hitems]; exact List.mem_append_left _ hx)
    obtain ⟨vs, hvs⟩ := zigzagAc_eq_cons (s.block .scanBlock 0)
    rw [hvs, block_getD s _ 0 (by omega), hmin, acTokens_min] at hitems
    have hs : s.scan = .error (internal 4 1 16, c) :=
      scan_error_of_tokens (by rw [hitems, runTokens_append_ok _ hrun]; rfl)
    obtain ⟨u, hu, hstatus, hrest⟩ :=
      exec_encodeScan_internal hchk hs fun comp hlt => runTokens_fresh_lastDc hcomp hrun hlt
    exact ⟨u, hu, by rw [hstatus], by rw [hstatus], hrest⟩

end Sys2Proof.Machine
end

section
/-! SUPPORT. The bytes of a scan: they stand stuffed in OUT, and are those of its bits packed without a buffer. -/

namespace Sys2Proof.Machine

/-! ## OUT after a scan that succeeds (R53, R138) -/

theorem read_out_scanDone (s : State) {c : Coder} {off : Nat} (h : off < c.out.length) :
    ((complete none (s.scanDone c)).mem.cells .out).read .out off = some (c.out.reverse[off]'(by simpa using h)) := by
  rw [complete_mem, scanDone_mem, Memory.cells_write, if_pos rfl, Cells.read_write, if_pos (by simpa using h),
    Nat.sub_zero, List.getElem?_eq_getElem]

theorem bytes_out_scanDone (s : State) (c : Coder) (site : Site) :
    (complete none (s.scanDone c)).bytes site .out 0 c.out.length = c.out.reverse := by
  refine List.ext_getElem (by simp [State.bytes]) fun i h1 h2 => ?_
  rw [List.length_reverse] at h2
  simp only [State.bytes, List.getElem_map, List.getElem_range, Nat.zero_add]
  exact byte_of_read site (read_out_scanDone s h2)

/-- OUT_COUNT counts the bytes: OUT_CAP keeps it below 2^32 (R12, R40). -/
theorem outCount_scanDone {s : State} {c : Coder} (hcap : s.params.outCap ≤ 2 ^ 28) (h : s.scan = .ok c) :
    (complete none (s.scanDone c)).outCount.toNat = c.out.length := by
  obtain ⟨⟨hcount, hle⟩, -, -⟩ := scan_ok h
  rw [show (complete none (s.scanDone c)).outCount = BitVec.ofNat 32 c.count from rfl, BitVec.toNat_ofNat, ← hcount]
  exact Nat.mod_eq_of_lt (by omega)

/-! ## OUT is stuffed, whatever the codes are (R132, R139) -/

/-- OUT holds stuffed bytes. -/
def Coder.OutStuffed (c : Coder) : Prop := ∃ ys, c.out.reverse = stuffBytes ys

theorem Coder.OutStuffed.stuffed {c : Coder} (h : c.OutStuffed) : Stuffed c.out.reverse := by
  obtain ⟨ys, hys⟩ := h
  rw [hys]
  exact stuffed_append_stuffBytes (out := []) trivial ys

theorem putBits_outStuffed {cap code size : Nat} {c d : Coder} (h : c.OutStuffed) (hd : putBits cap code size c = .ok d) :
    d.OutStuffed := by
  obtain ⟨ys, hys⟩ := h
  obtain ⟨xs, -, heq, -⟩ := putBits_drains hd
  refine ⟨ys ++ xs, ?_⟩
  rw [stuffBytes_append, ← hys, heq]
  simp [Coder.appended, Coder.loaded]

theorem setLastDc_out (c : Coder) (comp : Nat) (v : Int) : (c.setLastDc comp v).out = c.out := by
  unfold Coder.setLastDc
  split <;> rfl

theorem runToken_outStuffed {s : State} {x : Token} {c d : Coder} (h : c.OutStuffed) (hd : runToken s x c = .ok d) :
    d.OutStuffed := by
  cases x with
  | code t sym =>
    simp only [runToken, emit] at hd
    split at hd
    · cases hd
    · exact putBits_outStuffed (c := { c with emissions := c.emissions + 1 }) h hd
  | magnitude v =>
    simp only [runToken, putMag] at hd
    split at hd
    · cases hd
      exact h
    · exact putBits_outStuffed h hd
  | predict comp v =>
    cases hd
    rw [Coder.OutStuffed, setLastDc_out]
    exact h
  | tooLong t n => cases hd

theorem runTokens_outStuffed {s : State} {xs : List Token} {c d : Coder} (h : c.OutStuffed) (hd : runTokens s xs c = .ok d) :
    d.OutStuffed := by
  induction xs generalizing c with
  | nil =>
    cases hd
    exact h
  | cons x xs ih =>
    cases hx : runToken s x c with
    | error e =>
      rw [runTokens_error xs hx] at hd
      cases hd
    | ok c' =>
      rw [runTokens_ok xs hx] at hd
      exact ih (runToken_outStuffed h hx) hd

theorem scan_outStuffed {s : State} {c : Coder} (h : s.scan = .ok c) : c.OutStuffed := by
  obtain ⟨d, e, hd, he, rfl⟩ := scan_ok_split h
  have hflushed : e.OutStuffed := putBits_outStuffed (runTokens_outStuffed ⟨[], rfl⟩ hd) he
  exact hflushed

/-- Settles O49: OUT holds what the scan appended, and every byte was stuffed when it was. -/
theorem scanOutputIsStuffed : Obligations.ScanOutputIsStuffed := by
  unfold Obligations.ScanOutputIsStuffed
  intro s u hcap hg hh hc hu hv site
  obtain ⟨c, hs, rfl⟩ := scan_ok_of_valid (checkScan_none hg hh hc) hu hv
  rw [outCount_scanDone hcap hs, bytes_out_scanDone]
  exact Coder.OutStuffed.stuffed (scan_outStuffed hs)

/-! ## The flush (R137) -/

/-- The last bits, fewer than eight, are filled up with ones to the byte that begins the bits and seven ones. -/
theorem packBits_filled {bs rest : List Bool} {y : Byte} (hlt : bs.length < 8)
    (h : bs ++ List.replicate 7 true = msbBits 8 y.toNat ++ rest) : packBits [] bs = [y] := by
  have hlen := congrArg List.length h
  simp only [List.length_append, List.length_replicate, msbBits_length] at hlen
  have hne : bs ≠ [] := List.ne_nil_of_length_pos (by omega)
  have hbyte : bs ++ List.replicate (8 - bs.length) true = msbBits 8 y.toNat := by
    have := congrArg (List.take 8) h
    rwa [List.take_append, List.take_of_length_le (by omega), List.take_replicate, Nat.min_eq_left (by omega),
      List.take_left' (msbBits_length ..)] at this
  have hpend := packBits_pending bs [] [] (by simp; omega)
  rw [List.append_nil, List.nil_append] at hpend
  rw [hpend, packBits, if_neg hne, hbyte, bitsValue_msbBits y.isLt, BitVec.ofNat_toNat, BitVec.setWidth_eq]

/-- The whole bytes that leave the buffer with the seven ones of the flush are packed bytes of the bits (R137). -/
theorem packBits_prefix {bs rest : List Bool} {ys : List Byte}
    (h : bs ++ List.replicate 7 true = bytesBits ys ++ rest) : ys <+: packBits [] bs := by
  induction ys generalizing bs with
  | nil => exact List.nil_prefix
  | cons y ys ih =>
    rw [show bytesBits (y :: ys) = msbBits 8 y.toNat ++ bytesBits ys from rfl, List.append_assoc] at h
    by_cases hlt : bs.length < 8
    · have hlen := congrArg List.length h
      simp only [List.length_append, List.length_replicate, msbBits_length, bytesBits_length] at hlen
      obtain rfl : ys = [] := List.eq_nil_of_length_eq_zero (by omega)
      rw [packBits_filled hlt h]
    · obtain ⟨zs, rfl, hzs⟩ : ∃ zs, bs = msbBits 8 y.toNat ++ zs ∧ bytesBits ys ++ rest = zs ++ List.replicate 7 true := by
        rcases List.append_eq_append_iff.1 h with ⟨zs, hmsb, hrest⟩ | ⟨zs, hbs, hrest⟩
        · have hlen := congrArg List.length hmsb
          rw [msbBits_length, List.length_append] at hlen
          obtain rfl : zs = [] := List.eq_nil_of_length_eq_zero (by omega)
          exact ⟨[], by rw [hmsb, List.append_nil, List.append_nil], hrest.symm⟩
        · exact ⟨zs, hbs, hrest⟩
      rw [packBits_byte, List.cons_prefix_cons]
      exact ⟨rfl, ih hzs.symm⟩

/-- With fewer than eight bits left, they are all of them. -/
theorem packBits_flushed {bs rest : List Bool} {ys : List Byte} (hr : rest.length ≤ 7)
    (h : bs ++ List.replicate 7 true = bytesBits ys ++ rest) : packBits [] bs = ys := by
  have hlen := congrArg List.length h
  simp only [List.length_append, List.length_replicate, bytesBits_length] at hlen
  refine ((packBits_prefix h).eq_of_length ?_).symm
  rw [packBits_length _ _ (Nat.zero_le _), List.length_nil]
  omega

theorem msbBits_ones : msbBits 7 0x7F = List.replicate 7 true := by decide

theorem length_stuffBytes_le_of_prefix {xs ys : List Byte} (h : xs <+: ys) : (stuffBytes xs).length ≤ (stuffBytes ys).length := by
  obtain ⟨zs, rfl⟩ := h
  rw [stuffBytes_append, List.length_append]
  omega

/-- Bits whose whole bytes do not fit OUT do not fit it when they are packed. -/
theorem Overfull.packed {cap : Nat} {bs : List Bool} (h : Overfull cap bs) : cap < (stuffBytes (packBits [] bs)).length := by
  obtain ⟨ys, rest, rfl, hlt⟩ := h
  rw [packBits_bytes]
  exact hlt.trans_le (length_stuffBytes_le_of_prefix (List.prefix_append ..))

theorem Overfull.packed_flush {cap : Nat} {bs : List Bool} (h : Overfull cap (bs ++ List.replicate 7 true)) :
    cap < (stuffBytes (packBits [] bs)).length := by
  obtain ⟨ys, rest, heq, hlt⟩ := h
  exact hlt.trans_le (length_stuffBytes_le_of_prefix (packBits_prefix heq))

/-! ## The bytes of a scan that can be coded (R139) -/

/-- An item that completes can be coded. -/
theorem codable_of_runToken {s : State} (hf : FixedCodes s) {x : Token} (hr : x.InRange) {c d : Coder}
    (h : runToken s x c = .ok d) : x.Codable s := by
  cases x with
  | code t sym =>
    intro hz
    rw [runToken_noCode (by rw [hf.entry _ t sym hr.1 hr.2, hz])] at h
    cases h
  | magnitude v => trivial
  | predict comp v => trivial
  | tooLong t n => cases h

theorem codable_of_runTokens {s : State} (hf : FixedCodes s) {xs : List Token} (hr : ∀ x ∈ xs, x.InRange) {c d : Coder}
    (h : runTokens s xs c = .ok d) : ∀ x ∈ xs, x.Codable s := by
  induction xs generalizing c with
  | nil => exact nofun
  | cons x xs ih =>
    rw [List.forall_mem_cons] at hr ⊢
    cases hx : runToken s x c with
    | error e =>
      rw [runTokens_error xs hx] at h
      cases h
    | ok c' =>
      rw [runTokens_ok xs hx] at h
      exact ⟨codable_of_runToken hf hr.1 hx, ih hr.2 h⟩

/-- The scan's items can be coded, so that its bytes are those of its bits; it fails where they do not fit OUT. -/
theorem scan_codable {s : State} (hf : FixedCodes s) (hcod : ∀ x ∈ scanTokens s, x.Codable s) :
    (∀ c, s.scan = .ok c → c.out.reverse = ecsOf s) ∧
    ∀ e, s.scan = .error e → e.1 = .ioFailure ∧ s.params.outCap < (ecsOf s).length := by
  obtain ⟨hok, herr⟩ := runTokens_taken hf (fun x hx => ⟨scanTokens_inRange s x hx, hcod x hx⟩)
    (fresh_taken s.params.outCap)
  rw [List.nil_append] at hok herr
  have hflush : ∀ {d}, runTokens s (scanTokens s) Coder.fresh = .ok d →
      (∀ e, putBits s.params.outCap 0x7F 7 d = .ok e → Taken s.params.outCap e (scanBits s ++ List.replicate 7 true)) ∧
      ∀ e, putBits s.params.outCap 0x7F 7 d = .error e →
        e.1 = .ioFailure ∧ Overfull s.params.outCap (scanBits s ++ List.replicate 7 true) := fun hd => by
    rw [← msbBits_ones]
    exact putBits_taken (hok _ hd) (by decide)
  refine ⟨fun c hs => ?_, fun e hs => ?_⟩
  · obtain ⟨d, e, hd, he, rfl⟩ := scan_ok_split hs
    obtain ⟨-, hbits, -, ys, hout, hys⟩ := (hflush hd).1 e he
    rw [ecsOf, packBits_flushed (by rw [msbBits_length]; exact hbits) hys]
    exact hout
  · rcases scan_error_split hs with he | ⟨d, hd, he⟩
    · obtain ⟨hio, hover⟩ := herr e he
      exact ⟨hio, hover.packed⟩
    · obtain ⟨hio, hover⟩ := (hflush hd).2 e he
      exact ⟨hio, hover.packed_flush⟩

theorem scan_ok_codable {s : State} {c : Coder} (hf : FixedCodes s) (h : s.scan = .ok c) :
    ∀ x ∈ scanTokens s, x.Codable s := by
  obtain ⟨d, e, hd, -, -⟩ := scan_ok_split h
  exact codable_of_runTokens hf (scanTokens_inRange s) hd

theorem ecsOf_length (s : State) :
    (ecsOf s).length = ((scanBits s).length + 7) / 8 + (packBits [] (scanBits s)).count 0xFF := by
  rw [ecsOf, stuffBytes_length, packBits_length _ _ (Nat.zero_le _), List.length_nil, Nat.zero_add]

/-- Settles O50: a scan that succeeds had items that can be coded, so OUT holds the packed bits. -/
theorem successfulScanIsTheStuffedBits : Obligations.SuccessfulScanIsTheStuffedBits := by
  unfold Obligations.SuccessfulScanIsTheStuffedBits
  intro s u hvouched hcap hg hh hc hu hv
  obtain ⟨c, hs, rfl⟩ := scan_ok_of_valid (checkScan_none hg hh hc) hu hv
  have hf := hvouched.fixedCodes hh
  have hout := (scan_codable hf (scan_ok_codable hf hs)).1 c hs
  have hlen : c.out.length = (ecsOf s).length := by rw [← hout, List.length_reverse]
  rw [outCount_scanDone hcap hs, ← ecsOf_length, ← hlen]
  exact ⟨fun site => (bytes_out_scanDone s c site).trans hout, rfl⟩

end Sys2Proof.Machine
end

section
/-! SUPPORT. A scan of small coefficients can be coded; and a scan depends on BLK, EHUF, the geometry and OUT_CAP alone. -/

namespace Sys2Proof.Machine

/-! ## Small coefficients (R138) -/

theorem prevBlock_le {b p : Nat} (h : prevBlock b = some p) : p ≤ b := by
  unfold prevBlock at h
  split at h
  · cases h
    omega
  · split at h
    · cases h
    · split at h <;> cases h <;> omega

/-- DCs of at most eleven bits, the sign counted, have differences of at most eleven magnitude bits. -/
theorem CoefsSmall.magSize_dcDiff {s : State} (h : CoefsSmall s) {b : Nat} (hb : b < s.nblocks) :
    magSize (dcDiff s b) ≤ 11 := by
  obtain ⟨hl, hu⟩ := (h b hb).1
  rw [magSize_le_iff, dcDiff]
  cases hp : prevBlock b with
  | none =>
    rw [Option.map_none, Option.getD_none]
    omega
  | some p =>
    obtain ⟨hpl, hpu⟩ := (h p ((prevBlock_le hp).trans_lt hb)).1
    rw [Option.map_some, Option.getD_some]
    omega

theorem CoefsSmall.magSize_ac {s : State} (h : CoefsSmall s) {b : Nat} (hb : b < s.nblocks) :
    ∀ v ∈ zigzagAc (s.block .scanBlock b), magSize v ≤ 10 := by
  intro v hv
  obtain ⟨i, h1, h64, rfl⟩ := mem_zigzagAc_block.1 hv
  obtain ⟨hl, hu⟩ := (h b hb).2 i h1 h64
  rw [magSize_le_iff]
  omega

theorem codable_of_hasCode {s : State} (hf : FixedCodes s) {t sym : Nat} (ht : t < 4) (hsym : sym < 256)
    (h : HasCode s t sym) : (Token.code t sym).Codable s := by
  rw [Token.Codable, ← hf.entry (.emission 0) t sym ht hsym]
  exact h 0

/-- The AC step of coefficients of at most ten magnitude bits needs EOB, ZRL and the symbols of those sizes (R135). -/
theorem acTokens_codable {s : State} {t : Nat} (hf : FixedCodes s) (hc : CodesReady s) (ht : t = 1 ∨ t = 3) {vs : List Int}
    {r : Nat} (hvs : ∀ v ∈ vs, magSize v ≤ 10) : ∀ x ∈ acTokens t vs r, x.Codable s := by
  obtain ⟨heob, hzrl, hsyms⟩ := hc.2 t ht
  have hcode : ∀ {sym}, sym < 256 → HasCode s t sym → (Token.code t sym).Codable s := codable_of_hasCode hf (by omega)
  induction vs generalizing r with
  | nil =>
    intro x hx
    rw [acTokens] at hx
    split at hx
    · rw [List.mem_singleton.1 hx]
      exact hcode (by omega) heob
    · cases hx
  | cons v vs ih =>
    rw [List.forall_mem_cons] at hvs
    have ihr := fun r => ih (r := r) hvs.2
    rw [acTokens]
    split
    · exact ihr _
    · next hv0 =>
      have hpos := (two_pow_pred_magSize_le hv0).1
      have hr : r % 16 < 16 := Nat.mod_lt _ (by omega)
      rw [if_neg (by omega)]
      intro x hx
      rcases List.mem_append.1 hx with hx | hx
      · rw [List.eq_of_mem_replicate hx]
        exact hcode (by omega) hzrl
      · simp only [List.cons_append, List.nil_append, List.mem_cons] at hx
        rcases hx with rfl | rfl | hx
        · exact hcode (by omega) (hsyms _ _ hr hpos hvs.1)
        · trivial
        · exact ihr _ x hx

theorem scanTokens_codable {s : State} (hf : FixedCodes s) (hc : CodesReady s) (hs : CoefsSmall s) :
    ∀ x ∈ scanTokens s, x.Codable s := by
  intro x hx
  obtain ⟨b, hb, hx⟩ := List.mem_flatMap.1 hx
  have hb := List.mem_range.1 hb
  have hac : acTable b = 1 ∨ acTable b = 3 := by rw [acTable]; split <;> simp
  rcases List.mem_append.1 hx with hx | hx
  · simp only [List.mem_cons, List.not_mem_nil, or_false] at hx
    rcases hx with rfl | rfl | rfl
    · have hsize := hs.magSize_dcDiff hb
      obtain ⟨h0, h2⟩ := hc.1 _ hsize
      rw [dcTable]
      split
      · exact codable_of_hasCode hf (by omega) (by omega) h0
      · exact codable_of_hasCode hf (by omega) (by omega) h2
    · trivial
    · trivial
  · exact acTokens_codable hf hc hac (hs.magSize_ac hb) x hx

/-- Settles O51: a scan whose items can be coded ends with IoFailure exactly if its bytes do not fit OUT. -/
theorem scanCompletesExactlyWhenItFits : Obligations.ScanCompletesExactlyWhenItFits := by
  unfold Obligations.ScanCompletesExactlyWhenItFits
  intro s hv hcap hg hh hc hcodes hsmall
  have hchk := checkScan_none hg hh hc
  have hf := hv.fixedCodes hh
  obtain ⟨hok, herr⟩ := scan_codable hf (scanTokens_codable hf hcodes hsmall)
  cases hs : s.scan with
  | ok c =>
    have hout := hok c hs
    have hlen : (ecsOf s).length = c.out.length := by rw [← hout, List.length_reverse]
    obtain ⟨⟨hcount, hle⟩, -, -⟩ := scan_ok hs
    refine ⟨fun _ => ⟨_, exec_encodeScan_ok hchk hs, rfl, rfl, rfl, ?_, fun site => ?_⟩, fun hlt => by omega⟩
    · rw [outCount_scanDone hcap hs, hlen]
    · rw [hlen, bytes_out_scanDone, hout]
  | error e =>
    obtain ⟨hio, hlt⟩ := herr e hs
    refine ⟨fun hle => by omega, fun _ => ⟨_, exec_encodeScan_error hchk hs, rfl, ?_, ?_, rfl⟩⟩ <;>
    · rw [hio]
      rfl

/-! ## What a scan depends on (R139 property 4) -/

/-- The bits of BLK and EHUF that a scan reads, and the geometry and OUT_CAP, are the same. -/
structure SameScanInput (s t : State) : Prop where
  params : t.params = s.params
  nblocks : t.nblocks = s.nblocks
  blk : ∀ b i, b < s.nblocks → i < 64 → t.blk .scanBlock b i = s.blk .scanBlock b i
  entry : ∀ site k sym, k < 4 → sym < 256 → t.ehufEntry site k sym = s.ehufEntry site k sym

theorem byte_of_filled {s t : State} {r : Ram} {lo hi off : Nat} (hf : Filled s r lo hi) (hm : t.mem.cells r = s.mem.cells r)
    (h1 : lo ≤ off) (h2 : off < hi) (site : Site) : t.byte site r off = s.byte site r off := by
  obtain ⟨b, hb⟩ := Option.isSome_iff_exists.1 (hf off h1 h2)
  rw [byte_of_read site hb, byte_of_read site (hm ▸ hb)]

/-- Where BLK and EHUF are filled, states that agree on them read the same, whatever the draws are. -/
theorem Vouched.sameScanInput {s t : State} (h : Vouched s) (hh : ∀ k, k < 4 → s.valid.huff k = true)
    (hc : s.valid.coef = true) (hp : t.params = s.params) (hw : t.width = s.width) (hht : t.height = s.height)
    (hblk : t.mem.blk = s.mem.blk) (hehuf : t.mem.ehuf = s.mem.ehuf) : SameScanInput s t where
  params := hp
  nblocks := by simp only [State.nblocks, State.nmcu, State.nsbw, State.nsbh, State.w, State.h, hw, hht]
  blk b i hb hi := by
    have hf := h.coef hc b hb trivial
    rw [blk_eq, blk_eq, byte_of_filled hf hblk (by omega) (by omega), byte_of_filled hf hblk (by omega) (by omega)]
  entry site k sym hk hsym :=
    ehufEntry_congr (h.huff k hk (hh k hk)).1 (fun off _ _ => by rw [cells_ehuf, cells_ehuf, hehuf]) site hsym

section SameInput

variable {s t : State} (h : SameScanInput s t)
include h

theorem SameScanInput.blockTokens_same {b : Nat} (hb : b < s.nblocks) : blockTokens t b = blockTokens s b := by
  have hdc := h.blk b 0 hb (by omega)
  have hblock : t.block .scanBlock b = s.block .scanBlock b :=
    List.map_congr_left fun i hi => h.blk b i hb (List.mem_range.1 hi)
  have hdiff : dcDiff t b = dcDiff s b := by
    rw [dcDiff, dcDiff, hdc]
    cases hp : prevBlock b with
    | none => rw [Option.map_none, Option.map_none]
    | some p => rw [Option.map_some, Option.map_some, h.blk p 0 ((prevBlock_le hp).trans_lt hb) (by omega)]
  rw [blockTokens, blockTokens, hdc, hblock, hdiff]

theorem SameScanInput.scanTokens_same : scanTokens t = scanTokens s := by
  rw [scanTokens, scanTokens, h.nblocks]
  exact List.flatMap_congr fun b hb => h.blockTokens_same (List.mem_range.1 hb)

theorem SameScanInput.runToken_same {x : Token} (hx : x.InRange) (c : Coder) : runToken t x c = runToken s x c := by
  cases x with
  | code k sym => simp only [runToken, emit, h.entry _ k sym hx.1 hx.2, h.params]
  | magnitude v => simp only [runToken, putMag, h.params]
  | predict comp v => rfl
  | tooLong k n => rfl

theorem SameScanInput.runTokens_same {xs : List Token} (hxs : ∀ x ∈ xs, x.InRange) (c : Coder) :
    runTokens t xs c = runTokens s xs c := by
  induction xs generalizing c with
  | nil => rfl
  | cons x xs ih =>
    rw [List.forall_mem_cons] at hxs
    cases hx : runToken s x c with
    | error e => rw [runTokens_error xs hx, runTokens_error xs ((h.runToken_same hxs.1 c).trans hx)]
    | ok d => rw [runTokens_ok xs hx, runTokens_ok xs ((h.runToken_same hxs.1 c).trans hx), ih hxs.2]

theorem SameScanInput.scan_same : t.scan = s.scan := by
  rw [scan_eq, scan_eq, h.scanTokens_same, h.runTokens_same (scanTokens_inRange s), h.params]

end SameInput

/-- A byte of a scan that succeeds is one that it appended. -/
theorem byte_out_scanDone {s t : State} {c : Coder} (hs : s.scan = .ok c) {off : Nat}
    (h : off < (complete none (s.scanDone c)).outCount.toNat) (site : Site) :
    (complete none (t.scanDone c)).byte site .out off = (complete none (s.scanDone c)).byte site .out off := by
  have hlt : off < c.out.length := by
    rw [← (scan_ok hs).1.count]
    exact h.trans_le (Nat.mod_le ..)
  rw [byte_of_read site (read_out_scanDone s hlt), byte_of_read site (read_out_scanDone t hlt)]

/-- Settles O52: both states run the same scan. -/
theorem scanDependsOnBlocksAndCodesAlone : Obligations.ScanDependsOnBlocksAndCodesAlone := by
  unfold Obligations.ScanDependsOnBlocksAndCodesAlone
  intro s t u u' hv _ hg hh hc hp hht hct hwidth hheight hblk hehuf hu hu'
  have hgt : GeometryValid t := by rw [GeometryValid, hp, hwidth, hheight]; exact hg
  have hscan := (hv.sameScanInput hh hc hp hwidth hheight hblk hehuf).scan_same
  have hchk := checkScan_none hg hh hc
  have hchkt := checkScan_none hgt hht hct
  cases hs : s.scan with
  | ok c =>
    rw [exec_encodeScan_ok hchk hs] at hu
    rw [exec_encodeScan_ok hchkt (hscan.trans hs)] at hu'
    cases hu
    cases hu'
    exact ⟨rfl, rfl, nofun, rfl, rfl, rfl, fun site off hoff => byte_out_scanDone hs hoff site⟩
  | error e =>
    rw [exec_encodeScan_error hchk hs] at hu
    rw [exec_encodeScan_error hchkt (hscan.trans hs)] at hu'
    cases hu
    cases hu'
    exact ⟨rfl, rfl, fun _ => ⟨rfl, rfl⟩, rfl, rfl, rfl, fun site off hoff => absurd hoff (Nat.not_lt_zero off)⟩

end Sys2Proof.Machine
end

section
/-! SUPPORT. The JFIF framing: the length of each segment, and what the host writes after an encode. -/

namespace Sys2Proof.Machine

/-! ## The segments -/

@[simp] theorem asBytes_length (ns : List Nat) : (asBytes ns).length = ns.length := List.length_map ..

@[simp] theorem be16_length (v : Nat) : (be16 v).length = 2 := rfl

theorem soi_length : soi.length = 2 := rfl

theorem app0_length : app0.length = 18 := rfl

theorem dqt_length (s : State) (t : Nat) : (s.dqt t).length = 69 := rfl

theorem sof0_length (s : State) : s.sof0.length = 19 := rfl

theorem sos_length : sos.length = 14 := rfl

theorem eoi_length : eoi.length = 2 := rfl

/-- Marker, length field, class and index, sixteen counts, and the symbols they count (R145). -/
theorem dht_length (s : State) (t : Nat) : (s.dht t).length = 21 + s.symbolCount t := by
  simp only [State.dht, State.bitsOf, List.length_append, List.length_map, List.length_range, List.length_range',
    asBytes_length, be16_length, List.length_cons, List.length_nil]

theorem ecs_length (s : State) : s.ecs.length = s.outCount.toNat := by
  rw [State.ecs, State.bytes, List.length_map, List.length_range]

/-- R149 before the tables are fixed: only the DHT symbols and the scan vary in length. -/
theorem jfifFile_length (s : State) : s.jfifFile.length =
    277 + (s.symbolCount 0 + s.symbolCount 1 + s.symbolCount 2 + s.symbolCount 3) + s.outCount.toNat := by
  simp only [State.jfifFile, List.length_append, soi_length, app0_length, dqt_length, sof0_length, dht_length, sos_length,
    ecs_length, eoi_length]
  omega

/-! ## The standard tables -/

/-- A HUFFSPEC that nothing has changed since reset reads as its reset contents (R48). -/
theorem byte_huffSpec_unwritten {s : State} (h : s.mem.huffSpec = []) (site : Site) (off : Nat) :
    s.byte site .huffSpec off = huffSpecReset off := by
  refine byte_of_read site ?_
  rw [cells_huffSpec, h]
  rfl

theorem bitsOf_unwritten {s : State} (h : s.mem.huffSpec = []) (t : Nat) :
    s.bitsOf t = (List.range' 1 16).map fun l => huffSpecReset (0x200 * t + l) :=
  List.map_congr_left fun l _ => byte_huffSpec_unwritten h _ (0x200 * t + l)

/-- The standard BITS count the standard VALUES (R91 to R94). -/
theorem symbolCount_unwritten {s : State} (h : s.mem.huffSpec = []) {t : Nat} (ht : t < 4) :
    s.symbolCount t = (stdValues t).length := by
  have key : ∀ t, t < 4 →
      (((List.range' 1 16).map fun l => huffSpecReset (0x200 * t + l)).map BitVec.toNat).sum = (stdValues t).length := by
    decide +kernel
  rw [State.symbolCount, bitsOf_unwritten h]
  exact key t ht

theorem jfifFile_length_unwritten {s : State} (h : s.mem.huffSpec = []) :
    s.jfifFile.length = 625 + s.outCount.toNat := by
  have hsum : (stdValues 0).length + (stdValues 1).length + (stdValues 2).length + (stdValues 3).length = 348 := by
    decide +kernel
  rw [jfifFile_length, symbolCount_unwritten h (t := 0) (by omega), symbolCount_unwritten h (t := 1) (by omega),
    symbolCount_unwritten h (t := 2) (by omega), symbolCount_unwritten h (t := 3) (by omega), hsum]

/-! ## What the host writes -/

theorem hostOutput_of_err {s : State} (h : s.status.err = true) : s.hostOutput = [] := by
  simp [State.hostOutput, State.encoded, h]

theorem hostOutput_of_encoded {s : State} (h : s.encoded = true) : s.hostOutput = s.jfifFile := if_pos h

/-- A scan without an error has set SCAN (R138). -/
theorem runEncodeScan_scan {s : State} (h : (runEncodeScan s).err = none) : (runEncodeScan s).st.valid.scan = true := by
  unfold runEncodeScan at h ⊢
  split at h
  · rfl
  · cases h

/-- ENCODE_IMAGE ends with the scan of the state that its stages leave, none of which raises an error (R153). -/
theorem runEncodeImage_eq (s : State) : runEncodeImage s = runEncodeScan (beforeScan s) :=
  andDo_ok _ (runBeforeScan_err s)

theorem runOf_encode_scan {i : Instr} (hi : i = .encodeScan ∨ i = .encodeImage) {s : State}
    (h : (runOf i s).err = none) : (runOf i s).st.valid.scan = true := by
  rcases hi with rfl | rfl
  · exact runEncodeScan_scan h
  · rw [runOf, runEncodeImage_eq] at h ⊢
    exact runEncodeScan_scan h

/-- An encode that ends without an error has passed its checks, and its run has set SCAN. -/
theorem encoded_of_exec {i : Instr} {s u : State} (hi : i = .encodeScan ∨ i = .encodeImage)
    (hop : s.status.lastOp = opField (encode i)) (hu : exec i s = .next u) (herr : u.status.err = false) :
    u.encoded = true := by
  have hport : i.port = .cmd := by rcases hi with rfl | rfl <;> rfl
  rcases exec_cases hport s with ⟨-, he⟩ | ⟨e, -, he⟩ <;> cases he.symm.trans hu
  · cases hr : (runOf i s).err with
    | none =>
      have hlast : (runOf i s).st.status.lastOp = opField (encode i) := (runOf_kept i s).status ▸ hop
      have hlegal : opField (encode i) = opField (encode .encodeScan) ∨
          opField (encode i) = opField (encode .encodeImage) := by
        rcases hi with rfl | rfl
        · exact .inl rfl
        · exact .inr rfl
      rw [hr] at herr
      have herr' : (runOf i s).st.status.err = false := herr
      simp [State.encoded, herr', hlast, hlegal, runOf_encode_scan hi hr]
    | some e => rw [hr] at herr; cases herr
  · cases herr

/-- Settles O57: the segments' lengths add up, and STATUS, LAST_OP and SCAN tell an encode that succeeded. -/
theorem framingIsSixHundredTwentyFiveBytes : Obligations.FramingIsSixHundredTwentyFiveBytes := by
  unfold Obligations.FramingIsSixHundredTwentyFiveBytes
  exact ⟨fun _ => jfifFile_length_unwritten, fun _ => hostOutput_of_err, fun _ _ _ hi hop _ hu =>
    ⟨fun herr => hostOutput_of_encoded (encoded_of_exec hi hop hu herr), hostOutput_of_err⟩⟩

end Sys2Proof.Machine
end

section
/-! SUPPORT. Commands one after the other: no command looks at what the completion of the one before it has changed, so a
list of commands is its runs, one after the other, and one completion. -/

namespace Sys2Proof.Machine

/-! ## After a completion -/

/-- The same run in the state that completing the command before it leaves. -/
def Ran.afterCompletion (r : Ran) : Ran := ⟨complete none r.st, r.err⟩

/-- The run neither reads nor changes what a completion changes. -/
def IgnoresCompletion (run : State → Ran) : Prop := ∀ s, run (complete none s) = (run s).afterCompletion

theorem andDo_afterCompletion {run : State → Ran} (h : IgnoresCompletion run) (r : Ran) :
    r.afterCompletion.andDo run = (r.andDo run).afterCompletion := by
  by_cases hr : r.err = none
  · rw [andDo_ok run hr, andDo_ok (r := r.afterCompletion) run hr]
    exact h r.st
  · rw [andDo_err run hr, andDo_err (r := r.afterCompletion) run hr]

theorem IgnoresCompletion.andDo {first run : State → Ran} (hf : IgnoresCompletion first) (h : IgnoresCompletion run) :
    IgnoresCompletion fun s => (first s).andDo run := by
  intro s
  dsimp only
  rw [hf, andDo_afterCompletion h]

theorem runBuildHuff_ignoresCompletion (t : BitVec 2) : IgnoresCompletion (runBuildHuff t) := by
  intro s
  have hsizes : (complete none s).huffSizes t.toNat = s.huffSizes t.toNat := rfl
  rw [runBuildHuff, runBuildHuff, hsizes]
  by_cases hn : 256 < (s.huffSizes t.toNat).length
  · rw [if_pos hn, if_pos hn]
    rfl
  · rw [if_neg hn, if_neg hn]
    cases huffCodes (s.huffSizes t.toNat) <;> rfl

theorem runEncodeScan_ignoresCompletion : IgnoresCompletion runEncodeScan := by
  intro s
  have hscan : (complete none s).scan = s.scan := by
    have hin : SameScanInput s (complete none s) := ⟨rfl, rfl, fun _ _ _ _ => rfl, fun _ _ _ _ _ => rfl⟩
    exact hin.scan_same
  rw [runEncodeScan, runEncodeScan, hscan]
  cases s.scan <;> rfl

theorem runBeforeScan_ignoresCompletion : IgnoresCompletion runBeforeScan := by
  intro s
  have horder : (complete none s).edgeOrder = s.edgeOrder := rfl
  rw [runBeforeScan, runBeforeScan, horder, Ran.edges, Ran.edges]
  cases s.edgeOrder <;> rfl

theorem runOf_ignoresCompletion (i : Instr) : IgnoresCompletion (runOf i) := by
  have hhuff := runBuildHuff_ignoresCompletion
  cases i with
  | buildHuff t => exact hhuff t
  | initTables =>
    have hq : IgnoresCompletion runBuildQtables := fun _ => rfl
    exact (((hq.andDo (hhuff 0)).andDo (hhuff 1)).andDo (hhuff 2)).andDo (hhuff 3)
  | encodeScan => exact runEncodeScan_ignoresCompletion
  | encodeImage => exact runBeforeScan_ignoresCompletion.andDo runEncodeScan_ignoresCompletion
  | _ => exact fun _ => rfl

theorem checkOf_complete (i : Instr) (s : State) : checkOf i (complete none s) = checkOf i s := by
  cases i <;> rfl

theorem complete_complete (r : Option CmdError) (s : State) : complete r (complete none s) = complete r s := by
  cases r <;> rfl

/-- A command does the same whether or not the one before it has completed. -/
theorem exec_complete {i : Instr} (h : i.port = .cmd) (s : State) : exec i (complete none s) = exec i s := by
  have hcheck := checkOf_complete i s
  rw [exec_command h, exec_command h]
  cases hc : checkOf i s with
  | none =>
    rw [command_pass _ hc, command_pass _ (hcheck.trans hc), runOf_ignoresCompletion i s]
    exact congrArg _ (complete_complete _ _)
  | some e => rw [command_fail _ hc, command_fail _ (hcheck.trans hc), complete_complete]

/-! ## Lists of commands -/

theorem execAll_singleton (i : Instr) (s : State) : execAll [i] s = exec i s := by
  rw [execAll]
  cases exec i s <;> rfl

theorem execAll_append (is js : List Instr) (s : State) :
    execAll (is ++ js) s = thenDo (execAll is s) (execAll js) := by
  induction is generalizing s with
  | nil => rfl
  | cons i is ih =>
    rw [List.cons_append, execAll, execAll]
    cases exec i s with
    | next t => exact ih t
    | fault e => rfl
    | refused e => rfl

/-- A command whose checks pass and whose run raises no error hands its run's state to the next one. -/
theorem execAll_cons_run {i j : Instr} (is : List Instr) {s : State} (hi : i.port = .cmd) (hj : j.port = .cmd)
    (hc : checkOf i s = none) (he : (runOf i s).err = none) :
    execAll (i :: j :: is) s = execAll (j :: is) (runOf i s).st := by
  have hnext : exec i s = .next (complete none (runOf i s).st) := by rw [exec_command hi, command_pass _ hc, he]
  rw [execAll_cons_next hnext, execAll, execAll, exec_complete hj]

/-! ## NOP and SOFT_RESET -/

/-- Settles O53: NOP has no checks, and its run does nothing. -/
theorem nopOnlyCompletes : Obligations.NopOnlyCompletes := by
  unfold Obligations.NopOnlyCompletes
  intro s
  rw [exec_command rfl, command_pass (s := s) _ rfl]
  exact congrArg _ (complete_none_eq s)

theorem getLsbD_zero_iff (v : Word) : v.getLsbD 0 = true ↔ v.toNat % 2 = 1 := by
  rw [BitVec.getLsbD, Nat.testBit_zero, decide_eq_true_eq]

/-- A host write of CTRL is no bus error, and BUSY = 1 does not drop it (R31, R154). -/
theorem step_write_ctrl {s : State} {v : Word} (h : NextIsHost s (.write 0x008 .word v)) :
    step s = .next ((if v.getLsbD 0 then (taken s).resetCore else taken s).answer .okWrite) :=
  step_write h (accessOk_reg s.params (by decide) (by decide))
    ((memWrite_writeReg _ v (by decide) (by decide) rfl (.inr rfl)).trans (writeReg_ctrl (taken s) v))

/-- Settles O6: a write of CTRL reaches the register busy or idle, and bit 0 decides. -/
theorem softResetResetsAtOnce : Obligations.SoftResetResetsAtOnce := by
  unfold Obligations.SoftResetResetsAtOnce
  refine ⟨fun s v h => ⟨fun hv => ?_, fun hv => ?_⟩, fun s v hv => ?_⟩
  · rw [step_write_ctrl h, if_pos ((getLsbD_zero_iff v).2 hv), ← h.1]
    rfl
  · have hbit : ¬v.getLsbD 0 = true := fun hb => by rw [getLsbD_zero_iff] at hb; omega
    rw [step_write_ctrl h, if_neg hbit]
    rfl
  · exact congrArg _ (if_pos ((getLsbD_zero_iff v).2 hv))

end Sys2Proof.Machine
end

section
/-! SUPPORT. INIT_TABLES: what BUILD_QTABLES and the first tables of BUILD_HUFF leave. -/

namespace Sys2Proof.Machine

/-- BUILD_QTABLES and BUILD_HUFF 0..n−1, up to the first that fails (R152). -/
def runTables (s : State) : (n : Nat) → Ran
  | 0 => runBuildQtables s
  | n + 1 => (runTables s n).andDo (runBuildHuff (BitVec.ofNat 2 n))

/-- The flags that BUILD_QTABLES and BUILD_HUFF 0..n−1 set (R56). -/
def Valid.builtTables (v : Valid) : (n : Nat) → Valid
  | 0 => v.builtQt
  | n + 1 => (v.builtTables n).setHuff n true

theorem setHuff_qt (v : Valid) (t : Nat) (b : Bool) : (v.setHuff t b).qt = v.qt := by
  unfold Valid.setHuff
  split <;> rfl

theorem builtTables_qt (v : Valid) (n : Nat) : (v.builtTables n).qt = true := by
  induction n with
  | zero => rfl
  | succ n ih => rw [Valid.builtTables, setHuff_qt, ih]

theorem builtTables_huff (v : Valid) {n k : Nat} (hn : n ≤ 4) (hk : k < 4) :
    (v.builtTables n).huff k = if k < n then true else v.huff k := by
  induction n with
  | zero => rfl
  | succ n ih =>
    rw [Valid.builtTables, Valid.huff_setHuff _ _ hn hk, ih (by omega)]
    by_cases hkn : k = n
    · rw [if_pos hkn, if_pos (by omega)]
    · simp only [if_neg hkn, show k < n + 1 ↔ k < n by omega]

theorem toNat_ofNat_sel {t : Nat} (ht : t < 4) : (BitVec.ofNat 2 t).toNat = t := by
  rw [BitVec.toNat_ofNat]
  exact Nat.mod_eq_of_lt ht

/-! ## The specifications stay -/

theorem runTables_kept (s : State) (n : Nat) : KeptOut s (runTables s n).st := by
  induction n with
  | zero => exact runBuildQtables_kept s
  | succ n ih => exact andDo_keptOut ih (runBuildHuff_kept _)

theorem runTables_ramsKept (s : State) (n : Nat) : RamsKept [.qtbl, .div, .ehuf] s (runTables s n).st := by
  induction n with
  | zero => exact (runBuildQtables_ramsKept s).mono (by decide)
  | succ n ih => exact andDo_keeps ih (RamsKept.andThen (runBuildHuff_ramsKept _) (by decide))

/-- Whether a specification is accepted depends on HUFFSPEC alone, which building tables does not write. -/
theorem specAccepted_runTables (s : State) (n t : Nat) : SpecAccepted (runTables s n).st t ↔ SpecAccepted s t := by
  have hbits (l : Nat) : (runTables s n).st.hbits t l = s.hbits t l :=
    byte_congr .huffSpec (runTables_kept s n).epoch (by rw [runTables_ramsKept s n .huffSpec (by decide)])
  simp only [SpecAccepted, bitsSum, kraftSum, hbits]

/-! ## Tables that are all accepted -/

section Accepted

variable {s : State} {n : Nat}

/-- BUILD_HUFF n finds the specification it would find first of all. -/
theorem specAccepted_next (hn : n < 4) :
    SpecAccepted (runTables s n).st (BitVec.ofNat 2 n).toNat ↔ SpecAccepted s n := by
  rw [toNat_ofNat_sel hn, specAccepted_runTables]

theorem runTables_err (hn : n ≤ 4) (h : ∀ k, k < n → SpecAccepted s k) : (runTables s n).err = none := by
  induction n with
  | zero => rfl
  | succ n ih =>
    obtain ⟨hbefore, hlast⟩ := Nat.forall_lt_succ_right.1 h
    obtain ⟨codes, -, -, hr⟩ := runBuildHuff_accepted ((specAccepted_next hn).2 hlast)
    rw [runTables, andDo_ok _ (ih (by omega) hbefore), hr]

theorem runTables_succ (hn : n ≤ 4) (h : ∀ k, k < n → SpecAccepted s k) :
    runTables s (n + 1) = runBuildHuff (BitVec.ofNat 2 n) (runTables s n).st :=
  andDo_ok _ (runTables_err hn h)

theorem runTables_valid (hn : n ≤ 4) (h : ∀ k, k < n → SpecAccepted s k) :
    (runTables s n).st.valid = s.valid.builtTables n := by
  induction n with
  | zero => rfl
  | succ n ih =>
    obtain ⟨hbefore, hlast⟩ := Nat.forall_lt_succ_right.1 h
    obtain ⟨codes, -, -, hr⟩ := runBuildHuff_accepted ((specAccepted_next hn).2 hlast)
    rw [runTables_succ (by omega) hbefore, hr, toNat_ofNat_sel hn]
    exact congrArg (Valid.setHuff · n true) (ih (by omega) hbefore)

/-- The tables from n on have not been written. -/
theorem runTables_ehuf (hn : n ≤ 4) (h : ∀ k, k < n → SpecAccepted s k) (site : Site) {off : Nat} (hoff : 0x400 * n ≤ off) :
    (runTables s n).st.byte site .ehuf off = s.byte site .ehuf off := by
  induction n with
  | zero =>
    exact byte_congr site (runBuildQtables_kept s).epoch (by rw [runTables, runBuildQtables_ramsKept s .ehuf (by decide)])
  | succ n ih =>
    obtain ⟨hbefore, hlast⟩ := Nat.forall_lt_succ_right.1 h
    have hout : ¬(0x400 * (BitVec.ofNat 2 n).toNat ≤ off ∧ off < 0x400 * (BitVec.ofNat 2 n).toNat + 0x400) := by
      rw [toNat_ofNat_sel hn]
      omega
    rw [runTables_succ (by omega) hbefore,
      runBuildHuff_readsAsBefore ((specAccepted_next hn).2 hlast) site .ehuf off fun hin => hout hin.2]
    exact ih (by omega) hbefore (by omega)

/-- BUILD_QTABLES and BUILD_HUFF 0..n−1, as commands. -/
theorem execAll_tables (hn : n ≤ 4) (h : ∀ k, k < n → SpecAccepted s k) :
    execAll (.buildQtables :: (List.range n).map fun k => .buildHuff (BitVec.ofNat 2 k)) s =
      .next (complete none (runTables s n).st) := by
  induction n with
  | zero => exact execAll_singleton .buildQtables s
  | succ n ih =>
    obtain ⟨hbefore, hlast⟩ := Nat.forall_lt_succ_right.1 h
    rw [List.range_succ, List.map_append, ← List.cons_append, execAll_append, ih (by omega) hbefore,
      runTables_succ (by omega) hbefore]
    calc execAll [.buildHuff (BitVec.ofNat 2 n)] (complete none (runTables s n).st)
      _ = exec (.buildHuff (BitVec.ofNat 2 n)) (runTables s n).st := by rw [execAll_singleton, exec_complete rfl]
      _ = _ := exec_buildHuff_accepted ((specAccepted_next hn).2 hlast)

end Accepted

/-- INIT_TABLES has no checks, and its run is that of all four tables. -/
theorem exec_initTables (s : State) : exec .initTables s = .next (complete (runTables s 4).err (runTables s 4).st) := rfl

theorem exec_initTables_accepted {s : State} (h : ∀ t, t < 4 → SpecAccepted s t) :
    exec .initTables s = .next (complete none (runTables s 4).st) := by
  rw [exec_initTables, runTables_err le_rfl h]

/-! ## The first table that is not accepted -/

/-- No command runs after one that fails. -/
theorem runTables_of_err {s : State} {n m : Nat} (h : (runTables s n).err ≠ none) (hm : n ≤ m) :
    runTables s m = runTables s n := by
  induction m, hm using Nat.le_induction with
  | base => rfl
  | succ m _ ih => rw [runTables, andDo_err _ (ih ▸ h), ih]

/-- INIT_TABLES ends as BUILD_HUFF of the first table that is not accepted does, where the others have been built. -/
theorem exec_initTables_rejected {s : State} {t : Nat} (ht : t < 4) (h : ∀ k, k < t → SpecAccepted s k)
    (hr : ¬SpecAccepted s t) :
    exec .initTables s = exec (.buildHuff (BitVec.ofNat 2 t)) (runTables s t).st := by
  have herr : (runTables s (t + 1)).err ≠ none := by
    obtain ⟨sub, sym, -, hf⟩ := runBuildHuff_rejected (mt (specAccepted_next ht).1 hr)
    rw [runTables_succ ht.le h, hf]
    nofun
  rw [exec_initTables, runTables_of_err herr ht, runTables_succ ht.le h, exec_buildHuff]

/-- Settles O54: both are the runs of the tables up to the first that fails; the flags and EHUF follow table by table. -/
theorem initTablesIsItsComponents : Obligations.InitTablesIsItsComponents := by
  unfold Obligations.InitTablesIsItsComponents
  refine fun s => ⟨fun h => ?_, fun t ht h hr => ?_⟩
  · have hexec := exec_initTables_accepted h
    have hdone := (runTables_kept s 4).completedOk
    rw [runTables_valid le_rfl h] at hdone
    exact ⟨hexec.trans (execAll_tables le_rfl h).symm, _, hexec, hdone⟩
  · have hexec := exec_initTables_rejected ht h hr
    have hvalid := runTables_valid ht.le h
    obtain ⟨sub, sym, -, hf⟩ := runBuildHuff_rejected (mt (specAccepted_next ht).1 hr)
    have hhuff {k : Nat} (hk : k < 4) : ((s.valid.builtTables t).setHuff t false).huff k =
        if k = t then false else if k < t then true else s.valid.huff k := by
      rw [Valid.huff_setHuff _ _ ht hk, builtTables_huff _ ht.le hk]
    refine ⟨?_, _, hexec.trans (exec_buildHuff_of_failed hf), rfl, rfl, toNat_ofNat_sel ht, ?_⟩
    · rw [hexec, List.range_succ, List.map_append, ← List.cons_append, execAll_append, execAll_tables ht.le h]
      exact ((execAll_singleton _ _).trans (exec_complete rfl _)).symm
    · simp only [failedWith, toNat_ofNat_sel ht, hvalid]
      refine ⟨(setHuff_qt _ _ _).trans (builtTables_qt _ _), ?_, fun k hk => ?_, fun k hk hk4 => ?_, ?_⟩
      · rw [hhuff ht, if_pos rfl]
      · rw [hhuff (by omega), if_neg (by omega), if_pos hk]
      · rw [hhuff hk4, if_neg (by omega), if_neg (by omega)]
      · exact fun site off hoff => runTables_ehuf ht.le h site hoff

end Sys2Proof.Machine
end

section
/-! SUPPORT. ENCODE_IMAGE: its stages as commands, and the state in which it reaches its scan. -/

namespace Sys2Proof.Machine

/-! ## The state before the scan -/

/-- The stages up to the scan set PLANES and COEF and clear the other stage flags (R56). -/
theorem beforeScan_valid (s : State) : (beforeScan s).valid =
    { s.valid with planes := true, lumaSmp := false, chromaSmp := false, coef := true, scan := false } := by
  rw [beforeScan, runBeforeScan, Ran.edges]
  cases s.edgeOrder <;> rfl

theorem beforeScan_vouched {s : State} (h : Vouched s) : Vouched (beforeScan s) :=
  edges_keeps s.edgeOrder
    (runFdctQuant_vouched (runExtractChroma_vouched (runExtractLuma_vouched (runColorConvert_vouched h))))
    (fun _ => runEdgeDcFixup_vouched) (fun _ => runZeroRight_vouched) fun _ => runZeroBottom_vouched

theorem GeometryValid.kept {s t : State} (h : GeometryValid s) (k : Kept s t) : GeometryValid t := by
  rw [GeometryValid, k.width, k.height, k.params]
  exact h

theorem beforeScan_checkScan {s : State} (hg : GeometryValid s) (hh : ∀ t, t < 4 → s.valid.huff t = true) :
    checkScan (beforeScan s) = none := by
  refine checkScan_none (hg.kept (runBeforeScan_kept s).toKept) (fun t ht => ?_) ?_
  · rw [beforeScan_valid]
    exact hh t ht
  · rw [beforeScan_valid]

theorem allHuff_of_huff {v : Valid} (h : ∀ t, t < 4 → v.huff t = true) : v.allHuff = true := by
  simp only [Valid.allHuff, Bool.and_eq_true]
  exact ⟨⟨⟨h 0 (by decide), h 1 (by decide)⟩, h 2 (by decide)⟩, h 3 (by decide)⟩

theorem checkImage_none {s : State} (hg : GeometryValid s) (hq : s.valid.qt = true)
    (hh : ∀ t, t < 4 → s.valid.huff t = true) : checkImage s = none := by
  refine (checkAll_none_iff _ _ s).2 ⟨hg, ?_, rfl⟩
  rw [hq, allHuff_of_huff hh]
  rfl

/-- ENCODE_IMAGE ends as ENCODE_SCAN does in the state that its other stages leave. -/
theorem exec_encodeImage {s : State} (hg : GeometryValid s) (hq : s.valid.qt = true)
    (hh : ∀ t, t < 4 → s.valid.huff t = true) : exec .encodeImage s = exec .encodeScan (beforeScan s) := by
  have himage : exec .encodeImage s = .next (complete (runEncodeImage s).err (runEncodeImage s).st) :=
    command_pass _ (checkImage_none hg hq hh)
  rw [himage, runEncodeImage_eq, exec_encodeScan (beforeScan_checkScan hg hh)]

/-! ## The stages -/

/-- The state that the stages up to the transform leave. -/
def transformedImage (s : State) : State :=
  (runFdctQuant (runExtractChroma (runExtractLuma (runColorConvert s).st).st).st).st

/-- PLANES, then LUMA_SMP and CHROMA_SMP are set when the stage that needs them comes. -/
theorem execAll_transform {s : State} {j : Instr} (is : List Instr) (hj : j.port = .cmd) (hg : GeometryValid s)
    (hq : s.valid.qt = true) :
    execAll (.colorConvert :: .extractLuma :: .extractChroma :: .fdctQuant :: j :: is) s =
      execAll (j :: is) (transformedImage s) := by
  have hcolor := hg.kept (runColorConvert_kept s).toKept
  have hluma := hcolor.kept (runExtractLuma_kept _).toKept
  have hchroma := hluma.kept (runExtractChroma_kept _).toKept
  calc execAll (.colorConvert :: .extractLuma :: .extractChroma :: .fdctQuant :: j :: is) s
    _ = execAll (.extractLuma :: .extractChroma :: .fdctQuant :: j :: is) (runColorConvert s).st :=
      execAll_cons_run _ rfl rfl ((checkAll_none_iff _ _ s).2 ⟨hg, rfl, rfl⟩ : checkGeometry s = none) rfl
    _ = execAll (.extractChroma :: .fdctQuant :: j :: is) (runExtractLuma (runColorConvert s).st).st :=
      execAll_cons_run _ rfl rfl (checkPlanes_none hcolor rfl) rfl
    _ = execAll (.fdctQuant :: j :: is) (runExtractChroma (runExtractLuma (runColorConvert s).st).st).st :=
      execAll_cons_run _ rfl rfl (checkPlanes_none hluma rfl) rfl
    _ = execAll (j :: is) (transformedImage s) := execAll_cons_run _ rfl hj (checkSamples_none hchroma hq rfl rfl) rfl

/-- An edge operation needs COEF, and keeps it for the next one. -/
theorem execAll_edge {s : State} {i : Instr} (j : Instr) (is : List Instr)
    (hi : i = .edgeDcFixup ∨ i = .zeroRight ∨ i = .zeroBottom) (hj : j.port = .cmd) (hg : GeometryValid s)
    (hc : s.valid.coef = true) :
    execAll (i :: j :: is) s = execAll (j :: is) (runOf i s).st ∧
      GeometryValid (runOf i s).st ∧ (runOf i s).st.valid.coef = true := by
  have hcheck := checkCoef_none hg hc
  have hkept := hg.kept (runOf_kept i s)
  rcases hi with rfl | rfl | rfl <;> exact ⟨execAll_cons_run is rfl hj hcheck rfl, hkept, hc⟩

/-- COEF is set when the edge operations come, in either order. -/
theorem execAll_imageStages (order : Bool) {s : State} (hg : GeometryValid s) (hq : s.valid.qt = true) :
    execAll (imageStages order) s = exec .encodeScan (Ran.edges ⟨transformedImage s, none⟩ order).st := by
  have hgt : GeometryValid (transformedImage s) := hg
  cases order with
  | false =>
    obtain ⟨hfixup, hg1, hc1⟩ := execAll_edge .zeroRight [.zeroBottom, .encodeScan] (.inl rfl) rfl hgt rfl
    obtain ⟨hright, hg2, hc2⟩ := execAll_edge .zeroBottom [.encodeScan] (.inr (.inl rfl)) rfl hg1 hc1
    obtain ⟨hbottom, -, -⟩ := execAll_edge .encodeScan [] (.inr (.inr rfl)) rfl hg2 hc2
    rw [imageStages, execAll_transform _ rfl hg hq, hfixup, hright, hbottom, execAll_singleton]
    rfl
  | true =>
    obtain ⟨hright, hg1, hc1⟩ := execAll_edge .zeroBottom [.edgeDcFixup, .encodeScan] (.inr (.inl rfl)) rfl hgt rfl
    obtain ⟨hbottom, hg2, hc2⟩ := execAll_edge .edgeDcFixup [.encodeScan] (.inr (.inr rfl)) rfl hg1 hc1
    obtain ⟨hfixup, -, -⟩ := execAll_edge .encodeScan [] (.inl rfl) rfl hg2 hc2
    rw [imageStages, execAll_transform _ rfl hg hq, hright, hbottom, hfixup, execAll_singleton]
    rfl

/-- Settles O55: each stage's checks pass after the stages before it, and the last is the scan. -/
theorem encodeImageIsItsStages : Obligations.EncodeImageIsItsStages := by
  unfold Obligations.EncodeImageIsItsStages
  exact fun s hg hq hh => (exec_encodeImage hg hq hh).trans (execAll_imageStages s.edgeOrder hg hq).symm

/-- Settles O56: the scan of `beforeScan s` fits, so it completes (O51) and leaves what a complete scan leaves (O46). -/
theorem encodeImageCompletes : Obligations.EncodeImageCompletes := by
  unfold Obligations.EncodeImageCompletes
  intro s hv hcap hg hq hh hcodes hsmall hfit
  have hkept : Kept s (beforeScan s) := (runBeforeScan_kept s).toKept
  have hvalid := beforeScan_valid s
  have hgb : GeometryValid (beforeScan s) := hg.kept hkept
  have hhb : ∀ t, t < 4 → (beforeScan s).valid.huff t = true := by rw [hvalid]; exact hh
  have hcb : (beforeScan s).valid.coef = true := by rw [hvalid]
  rw [← hkept.params] at hcap hfit
  obtain ⟨u, hu, hscanned, hstatus, hinfo, hcount, hbytes⟩ :=
    (scanCompletesExactlyWhenItFits _ (beforeScan_vouched hv) hcap hgb hhb hcb hcodes hsmall).1 hfit
  obtain ⟨u', hu', hother, hend⟩ := scanEndsCompleteOrEmpty _ hgb hhb hcb
  obtain rfl : u = u' := by simpa [hu] using hu'
  rcases hend with hdone | ⟨hfailed, -⟩
  · refine ⟨u, (exec_encodeImage hg hq hh).trans hu, hkept.status ▸ hstatus, hinfo.trans hkept.errInfo,
      congrArg State.pending hdone, by rw [hscanned, hvalid], hcount, fun site => hcount ▸ hbytes site,
      congrArg State.entBuf hdone, congrArg State.entBits hdone, fun site r off hr => ?_⟩
    have hkeeps : r ∉ [Ram.py, .pcb, .pcr, .blk] ∧ r ≠ .out := by
      rcases hr with rfl | rfl | rfl | rfl | rfl <;> decide
    rw [hother site r off hkeeps.2]
    exact byte_congr site hkept.epoch (by rw [beforeScan, runBeforeScan_ramsKept s r hkeeps.1])
  · have hlost : u.valid.scan = false := congrArg (·.valid.scan) hfailed
    rw [hscanned] at hlost
    cases hlost

end Sys2Proof.Machine
end

section
/-! SUPPORT. The engine and its inputs: the turn of the engine, the acceptance of a command word, the reset input. -/

namespace Sys2Proof.Machine

/-! ## The engine's turn (R157, R162, R174) -/

theorem engineTurn_idle {s : State} (h : s.status.busy = false) : engineTurn s = .next s := by
  rw [engineTurn, h]
  rfl

theorem engineTurn_busy {s : State} (h : s.status.busy = true) : engineTurn s = engineStep s := if_pos h

theorem engineStep_ok {s : State} {i : Instr} (h : decodePort .cmd s.pending = .ok i) : engineStep s = exec i s := by
  rw [engineStep, h]

/-- An ILLEGAL word completes with IllegalCommand, whichever kind it is of (R162). -/
theorem engineStep_illegal {s : State} (h : ∀ i, decodeCommand s.pending ≠ .ok i) :
    engineStep s = .next (failedWith s 5 ⟨0, 0, 0⟩) := by
  cases hd : decodePort .cmd s.pending with
  | ok i => exact absurd hd (h i)
  | error _ =>
    rw [engineStep, hd]
    exact congrArg _ (complete_some_eq .illegalCommand s)

/-- Settles O4: the engine's turn, idle and with a word that decodes. -/
theorem stepRunsThePendingCommand : Obligations.StepRunsThePendingCommand := by
  unfold Obligations.StepRunsThePendingCommand
  refine fun s h => ⟨fun hb => (step_engine h).trans (engineTurn_idle hb), fun hb i hi => ?_⟩
  calc step s
    _ = engineTurn (taken s) := step_engine h
    _ = engineStep (taken s) := engineTurn_busy hb
    _ = exec i (taken s) := engineStep_ok hi

/-- Settles O5: the engine's turn with a word that does not decode. -/
theorem illegalWordCompletesWithAnError : Obligations.IllegalWordCompletesWithAnError := by
  unfold Obligations.IllegalWordCompletesWithAnError
  intro s h hb hillegal
  calc step s
    _ = engineTurn (taken s) := step_engine h
    _ = engineStep (taken s) := engineTurn_busy hb
    _ = .next (failedWith (taken s) 5 ⟨0, 0, 0⟩) := engineStep_illegal hillegal

/-! ## Acceptance (R156) -/

/-- Settles O14: CMD is a locked register, so BUSY = 1 drops the write (R58); an idle write latches its word. -/
theorem commandWritesAreAccepted : Obligations.CommandWritesAreAccepted := by
  unfold Obligations.CommandWritesAreAccepted
  refine fun s w h => ⟨fun hb => ?_, fun hb => ?_⟩
  · have hok : AccessOk s.params 0x00C 4 := accessOk_reg s.params (by decide) (by decide)
    exact step_write h hok (memWrite_locked (s := taken s) w (by decide) hok hb (.inl (by decide)))
  · have hlatch : (taken s).writeReg .cmd w = .next ((taken s).latch w) :=
      congrArg Host.Outcome.next (present_idle (s := taken s) hb w)
    exact step_write_reg h hb (by decide) (by decide) rfl rfl hlatch

/-! ## The reset input (R175) -/

/-- Settles O7: the two edges of rst, and the transactions between them. -/
theorem resetInputResets : Obligations.ResetInputResets := by
  unfold Obligations.ResetInputResets
  exact fun s => ⟨step_rst, step_rst, fun _ hr he => step_host_rst hr he⟩

end Sys2Proof.Machine
end

section
/-! SUPPORT. How a command ends: what completion does to STATUS, the checks that fail, and the runs that fail. -/

namespace Sys2Proof.Machine

/-! ## Completion (R157) -/

theorem complete_pending (r : Option CmdError) (s : State) : (complete r s).pending = 0 := by cases r <;> rfl

/-- Completion sets DONE, clears BUSY, and leaves OVR and LAST_OP alone. -/
theorem complete_status (r : Option CmdError) (s : State) :
    (complete r s).status.busy = false ∧ (complete r s).status.done = true ∧
      (complete r s).status.ovr = s.status.ovr ∧ (complete r s).status.lastOp = s.status.lastOp := by
  cases r <;> exact ⟨rfl, rfl, rfl, rfl⟩

/-- Completion leaves the configuration and rst alone, as the command's run does. -/
theorem complete_configuration {s t : State} (h : Kept s t) (r : Option CmdError) :
    (complete r t).irqEn = s.irqEn ∧ (complete r t).quality = s.quality ∧ (complete r t).width = s.width ∧
      (complete r t).height = s.height ∧ (complete r t).edgeOrder = s.edgeOrder ∧ (complete r t).rst = s.rst := by
  rw [complete_frame]
  exact ⟨h.irqEn, h.quality, h.width, h.height, h.edgeOrder, h.rst⟩

/-- irq after a completion: DONE stands, so it is up to IRQ_EN.DONE_IE, or to an error or OVR with ERR_IE (R165). -/
theorem complete_irq_iff {s t : State} (h : Kept s t) (r : Option CmdError) :
    (complete r t).irq = true ↔ s.irqEn.doneIe = true ∨
      (((complete r t).status.err = true ∨ s.status.ovr = true) ∧ s.irqEn.errIe = true) := by
  obtain ⟨-, hdone, hovr, -⟩ := complete_status r t
  rw [irq_iff, hdone, hovr, (complete_configuration h r).1, h.status, eq_self, true_and]

/-- Settles O22: a command completes a state that its run has kept, and completion touches STATUS, PENDING and ERRINFO
alone. -/
theorem commandsCompleteAndKeepTheConfiguration : Obligations.CommandsCompleteAndKeepTheConfiguration := by
  unfold Obligations.CommandsCompleteAndKeepTheConfiguration
  intro i s hport
  obtain ⟨r, t, hexec, hkept⟩ := exec_kept hport s
  obtain ⟨hbusy, hdone, hovr, hlastOp⟩ := complete_status r t
  rw [hkept.status] at hovr hlastOp
  obtain ⟨hirqEn, hquality, hwidth, hheight, horder, hrst⟩ := complete_configuration hkept r
  obtain ⟨hparams, hevents, hreplies, hepoch⟩ := complete_port hkept r
  exact ⟨_, hexec, hbusy, hdone, complete_pending r t, hovr, hlastOp, hirqEn, hquality, hwidth, hheight, horder, hparams,
    hrst, hevents, hreplies, hepoch, complete_irq_iff hkept r⟩

/-! ## Commands that fail (R158) -/

/-- A command that ends in an error has raised it in its checks, and done nothing else, or in its run. -/
theorem exec_failed {i : Instr} (hport : i.port = .cmd) {s t : State} (hs : s.status.err = false)
    (ht : exec i s = .next t) (herr : t.status.err = true) :
    (∃ e, checkOf i s = some e ∧ t = complete (some e) s) ∨
      ∃ e, (runOf i s).err = some e ∧ t = complete (some e) (runOf i s).st := by
  rcases exec_cases hport s with ⟨-, he⟩ | ⟨e, hc, he⟩
  · obtain rfl : complete (runOf i s).err (runOf i s).st = t := by simpa [he] using ht
    cases hr : (runOf i s).err with
    | none =>
      rw [hr, complete_none_status, completeOk_err, (runOf_kept i s).status, hs] at herr
      cases herr
    | some e => exact .inr ⟨e, rfl, rfl⟩
  · obtain rfl : complete (some e) s = t := by simpa [he] using ht
    exact .inl ⟨e, hc, rfl⟩

/-- BUILD_HUFF fails only where the specification is not accepted. -/
theorem not_specAccepted_of_err {t : BitVec 2} {s : State} {e : CmdError} (h : (runBuildHuff t s).err = some e) :
    ¬SpecAccepted s t.toNat := by
  intro ha
  obtain ⟨codes, -, -, hr⟩ := runBuildHuff_accepted ha
  rw [hr] at h
  cases h

/-! ## The flags of a command that fails (R56, R158) -/

/-- VALID is one bit per flag (R38), so its bits are compared flag by flag. -/
theorem append_bit_and_not {n : Nat} (x y : BitVec n) (a b : Bool) :
    (x ++ bit a) &&& ~~~(y ++ bit b) = (x &&& ~~~y) ++ bit (a && !b) := by
  have hbit : bit a &&& ~~~bit b = bit (a && !b) := by cases a <;> cases b <;> rfl
  rw [BitVec.not_append, BitVec.and_append, hbit]

theorem unscanned_sets_none (v : Valid) : v.unscanned.toWord &&& ~~~v.toWord = 0 := by
  simp only [Valid.toWord, Valid.unscanned, append_bit_and_not, Bool.and_not_self, Bool.false_and]
  decide

theorem setHuff_false_sets_none (v : Valid) (t : Nat) : (v.setHuff t false).toWord &&& ~~~v.toWord = 0 := by
  unfold Valid.setHuff
  split <;>
  · simp only [Valid.toWord, append_bit_and_not, Bool.and_not_self, Bool.false_and]
    decide

/-- A failed BUILD_HUFF clears its flag (R105, R107). -/
theorem runBuildHuff_err_valid {t : BitVec 2} {s : State} {e : CmdError} (h : (runBuildHuff t s).err = some e) :
    (runBuildHuff t s).st.valid.toWord &&& ~~~s.valid.toWord = 0 := by
  obtain ⟨sub, sym, -, hr⟩ := runBuildHuff_rejected (not_specAccepted_of_err h)
  rw [hr]
  exact setHuff_false_sets_none s.valid t.toNat

/-- A failed ENCODE_SCAN clears SCAN (R138). -/
theorem runEncodeScan_err_valid {s : State} {e : CmdError} (h : (runEncodeScan s).err = some e) :
    (runEncodeScan s).st.valid.toWord &&& ~~~s.valid.toWord = 0 := by
  unfold runEncodeScan at h ⊢
  cases hs : s.scan with
  | ok c => rw [hs] at h; cases h
  | error _ => exact unscanned_sets_none s.valid

/-- Of the commands of one stage, BUILD_HUFF and ENCODE_SCAN alone can fail in their runs. -/
theorem runOf_err_valid {i : Instr} (h1 : i ≠ .initTables) (h2 : i ≠ .encodeImage) {s : State} {e : CmdError}
    (h : (runOf i s).err = some e) : (runOf i s).st.valid.toWord &&& ~~~s.valid.toWord = 0 := by
  cases i with
  | buildHuff t => exact runBuildHuff_err_valid h
  | encodeScan => exact runEncodeScan_err_valid h
  | initTables => exact absurd rfl h1
  | encodeImage => exact absurd rfl h2
  | _ => cases h

/-- Settles O24: a failed check leaves VALID alone, and a failed run clears one flag at most. -/
theorem failedStagesSetNoFlag : Obligations.FailedStagesSetNoFlag := by
  unfold Obligations.FailedStagesSetNoFlag
  intro i s t hport h1 h2 hs ht herr
  rcases exec_failed hport hs ht herr with ⟨e, -, rfl⟩ | ⟨e, hr, rfl⟩
  · exact BitVec.and_not_self s.valid.toWord
  · exact runOf_err_valid h1 h2 hr

/-! ## The checks in their order (R163) -/

/-- The commands with checks: those that work on an image. -/
def imageCommands : List Instr :=
  [.colorConvert, .extractLuma, .extractChroma, .fdctQuant, .edgeDcFixup, .zeroRight, .zeroBottom, .encodeScan,
    .encodeImage]

/-- The tables that a command asks for stand. -/
def tablesReady : Instr → State → Bool
  | .fdctQuant => fun s => s.valid.qt
  | .encodeScan => fun s => s.valid.allHuff
  | .encodeImage => fun s => s.valid.qt && s.valid.allHuff
  | _ => fun _ => true

/-- The stages that a command asks for have been run. -/
def stagesReady : Instr → State → Bool
  | .extractLuma | .extractChroma => fun s => s.valid.planes
  | .fdctQuant => fun s => s.valid.lumaSmp && s.valid.chromaSmp
  | .edgeDcFixup | .zeroRight | .zeroBottom | .encodeScan => fun s => s.valid.coef
  | _ => fun _ => true

/-- The checks of every such command, in the order geometry, tables, stage flags. -/
theorem exec_imageCommand {i : Instr} (hi : i ∈ imageCommands) (s : State) :
    exec i s = command (checkAll (tablesReady i) (stagesReady i)) (runOf i) s := by
  cases i with
  | nop | buildQtables | buildHuff | initTables | softReset => simp [imageCommands] at hi
  | _ => rfl

theorem exec_invalidArgs {i : Instr} {s : State} (hi : i ∈ imageCommands) (hg : ¬GeometryValid s) :
    exec i s = .next (failedWith s 1 ⟨0, 0, 0⟩) :=
  (exec_imageCommand hi s).trans (command_fail _ (checkAll_invalidArgs _ _ hg))

theorem exec_tablesNotBuilt {i : Instr} {s : State} (hi : i ∈ imageCommands) (hg : GeometryValid s)
    (ht : tablesReady i s = false) : exec i s = .next (failedWith s 7 ⟨0, 0, 0⟩) :=
  (exec_imageCommand hi s).trans (command_fail _ (checkAll_tablesNotBuilt _ hg ht))

theorem exec_sequenceError {i : Instr} {s : State} (hi : i ∈ imageCommands) (hg : GeometryValid s)
    (ht : tablesReady i s = true) (hs : stagesReady i s = false) : exec i s = .next (failedWith s 8 ⟨0, 0, 0⟩) :=
  (exec_imageCommand hi s).trans (command_fail _ (checkAll_sequenceError hg ht hs))

theorem allHuff_eq_false {v : Valid} (h : ∃ t, t < 4 ∧ v.huff t = false) : v.allHuff = false := by
  obtain ⟨t, ht, hv⟩ := h
  interval_cases t <;> simp only [Valid.huff] at hv <;>
    simp only [Valid.allHuff, hv, Bool.false_and, Bool.and_false]

/-! ## The errors of the commands without checks -/

/-- BUILD_HUFF fails only with InternalInvariant (R105, R107). -/
theorem runBuildHuff_err_code {t : BitVec 2} {s : State} {e : CmdError} (h : (runBuildHuff t s).err = some e) :
    e.code = 4 := by
  obtain ⟨sub, sym, -, hr⟩ := runBuildHuff_rejected (not_specAccepted_of_err h)
  rw [hr] at h
  cases h
  rfl

/-- INIT_TABLES fails only as one of its tables does (R152). -/
theorem runTables_err_code {s : State} {n : Nat} {e : CmdError} (h : (runTables s n).err = some e) : e.code = 4 := by
  induction n with
  | zero => cases h
  | succ n ih =>
    by_cases hn : (runTables s n).err = none
    · rw [runTables, andDo_ok _ hn] at h
      exact runBuildHuff_err_code h
    · rw [runTables, andDo_err _ hn] at h
      exact ih h

/-- The commands without checks. -/
def tableCommands : List Instr :=
  [.nop, .buildQtables, .buildHuff 0, .buildHuff 1, .buildHuff 2, .buildHuff 3, .initTables]

theorem checkOf_tableCommand {i : Instr} (hi : i ∈ tableCommands) (s : State) : i.port = .cmd ∧ checkOf i s = none := by
  cases i with
  | nop | buildQtables | buildHuff | initTables => exact ⟨rfl, rfl⟩
  | _ => simp [tableCommands] at hi

theorem runOf_tableCommand_err_code {i : Instr} (hi : i ∈ tableCommands) {s : State} {e : CmdError}
    (h : (runOf i s).err = some e) : e.code = 4 := by
  cases i with
  | nop | buildQtables => cases h
  | buildHuff t => exact runBuildHuff_err_code h
  | initTables => exact runTables_err_code (n := 4) h
  | _ => simp [tableCommands] at hi

/-- They fail only with InternalInvariant, in their runs. -/
theorem exec_tableCommand_errcode {i : Instr} (hi : i ∈ tableCommands) {s t : State} (hs : s.status.err = false)
    (ht : exec i s = .next t) (herr : t.status.err = true) : t.status.errcode = 4 := by
  obtain ⟨hport, hnone⟩ := checkOf_tableCommand hi s
  rcases exec_failed hport hs ht herr with ⟨e, hc, -⟩ | ⟨e, hr, rfl⟩
  · rw [hnone] at hc
    cases hc
  · exact runOf_tableCommand_err_code hi hr

/-- Settles O25: the first check that fails ends the command; where there is none, an error is InternalInvariant. -/
theorem checksComeInOrder : Obligations.ChecksComeInOrder := by
  unfold Obligations.ChecksComeInOrder
  refine fun i s => ⟨exec_invalidArgs, fun hg ht => ?_, fun hg hs => ?_, fun hi hs t ht herr => ?_⟩
  · rcases ht with ⟨rfl, hqt⟩ | ⟨rfl, hhuff⟩ | ⟨rfl, htables⟩
    · exact exec_tablesNotBuilt (by decide) hg hqt
    · exact exec_tablesNotBuilt (by decide) hg (allHuff_eq_false hhuff)
    · exact exec_tablesNotBuilt (by decide) hg (Bool.and_eq_false_iff.2 (htables.imp_right allHuff_eq_false))
  · simp only [List.mem_cons, List.not_mem_nil, or_false] at hs
    rcases hs with ⟨hi, hplanes⟩ | ⟨rfl, hqt, hsamples⟩ | ⟨hi, hcoef⟩ | ⟨rfl, hhuff, hcoef⟩
    · rcases hi with rfl | rfl <;> exact exec_sequenceError (by decide) hg rfl hplanes
    · exact exec_sequenceError (by decide) hg hqt (Bool.and_eq_false_iff.2 hsamples)
    · rcases hi with rfl | rfl | rfl <;> exact exec_sequenceError (by decide) hg rfl hcoef
    · exact exec_sequenceError (by decide) hg (allHuff_of_huff hhuff) hcoef
  · rw [exec_tableCommand_errcode hi hs ht herr]
    decide

end Sys2Proof.Machine
end
